-- ==== Sys2Proof/Word.lean ====
section
/-! DEFINITION. The word types of the machine (00_scope R9): bytes, halves, words, doublewords, the
register-number field, and the wide types that hold one vector register, one predicate register and one
matrix accumulator. -/

namespace Sys2Proof

/-- A byte (R9). -/
abbrev Byte := BitVec 8
/-- A half, 16 bits (R9). -/
abbrev Half := BitVec 16
/-- A word, 32 bits; an instruction word is one (R9). -/
abbrev Word := BitVec 32
/-- A doubleword, 64 bits; an instruction pair is one (R9). -/
abbrev Dword := BitVec 64
/-- A five-bit register field (R96, R102). -/
abbrev Reg := BitVec 5
/-- The bytes of one vector register at the largest vector length, 4 × 256 bytes (R162). Byte k stands at bits
8k+7:8k. Bits beyond 4 × VL bytes hold 0. -/
abbrev VReg := BitVec 8192
/-- One predicate register at the largest vector length: bit k belongs to byte k (R162). -/
abbrev PReg := BitVec 1024
/-- The 256 elements of a 16 × 16 accumulator: element (i, j) at bits 32(16i+j)+31 : 32(16i+j) (R247). -/
abbrev AccBits := BitVec 8192

end Sys2Proof
end

