-- ==== Sys2Proof/Machine/Flags.lean ====
section
/-! DEFINITION. The floating-point flags of FENV (R57, R59). No other instruction of the part sets a flag (R145). -/

namespace Sys2Proof.Machine

/-- NV, DZ, OF, UF, NX at bits 4 to 0. -/
abbrev FpFlags := BitVec 5

/-- Invalid operation. -/
def flagNV : FpFlags := 16
/-- Division by zero. -/
def flagDZ : FpFlags := 8
/-- Overflow. -/
def flagOF : FpFlags := 4
/-- Underflow. -/
def flagUF : FpFlags := 2
/-- Inexact. -/
def flagNX : FpFlags := 1

/-- A flag where a condition holds. -/
def flagIf (c : Bool) (f : FpFlags) : FpFlags := if c then f else 0

/-- FENV after an MTS (R57, R158): FRM is written, a flag is cleared where the value has a 1, every other field reads 0. -/
def fenvMts (old val : Dword) : Dword :=
  ((old &&& ~~~val) &&& 0x1F) ||| (val &&& 0x300)

end Sys2Proof.Machine
end

