-- ==== Sys2Proof/Syntax.lean ====
section
/-! DEFINITION. The whole instruction set: one constructor per row of spec/opcode_table.json. The rows with a
32-bit word carry the word's fields under the table's own field names; a word-A row with an L field carries
`lit`, which is `some literal` when L is 1 and word B is that literal (R99), and `none` when L is 0. The rows
without bits are the steps of the rest of the device (matrix commands, firmware commands, events of the engines,
the network, the distributors and the host); they carry the unit they act on, or what the outside world gives. -/

namespace Sys2Proof

/-- One step of the part, as spec/opcode_table.json lists them. -/
inductive Instr where
  /-- Word-A no-operation that changes nothing (R142). -/
  | nopA
  /-- Waits for pending results and ends the firing, freeing its messages, slots, lanes, streams, banked requests and speculation (R127). -/
  | endFiring (lit : Option Word)
  /-- Ends the firing as END does but puts its consumed messages back at the heads of their channels (R128). -/
  | endrFiring (lit : Option Word)
  /-- Continues at the address in g31, trapping with BAD_TARGET if it is misaligned (R126). -/
  | ret (lit : Option Word)
  /-- Continues at the address in ga, trapping with BAD_TARGET if it is misaligned (R126). -/
  | jmpi (lit : Option Word) (a : BitVec 5)
  /-- Starts a speculation in the cell's speculation window if allowed and free, writing 1 or 0 to gd (R134). -/
  | spec (lit : Option Word) (d : BitVec 5)
  /-- Ends the speculation, making dirty shadow lines visible if no conflict occurred and writing the outcome to gd (R136). -/
  | scommit (lit : Option Word) (d : BitVec 5)
  /-- Discards the speculation's shadow lines and ends the speculation (R136). -/
  | sabort (lit : Option Word)
  /-- Keeps one queue bank and cancels the other bank's streams and copies at once (R137). -/
  | selb (lit : Option Word) (a : BitVec 5)
  /-- Sets the running firing's class to the larger of c and its starting class (R138). -/
  | prio (lit : Option Word) (c : BitVec 2)
  /-- Marks a pre-emption and lane-renegotiation point with every register live (R140). -/
  | safe
  /-- Marks a pre-emption and lane-renegotiation point with a live mask given in the fields and literal (R139). -/
  | safeL (a : BitVec 5) (b : BitVec 5) (c : BitVec 5) (lit : Word)
  /-- Sets the firing's IDEMPC to the next pair for rollback of NI operations at pre-emption (R141). -/
  | idem (lit : Option Word)
  /-- Branches by a pair displacement when ga equals gb (R124). -/
  | beq (lit : Option Word) (a : BitVec 5) (b : BitVec 5) (d : BitVec 12)
  /-- Branches when ga differs from gb (R124). -/
  | bne (lit : Option Word) (a : BitVec 5) (b : BitVec 5) (d : BitVec 12)
  /-- Branches when ga is less than gb, signed (R124). -/
  | blt (lit : Option Word) (a : BitVec 5) (b : BitVec 5) (d : BitVec 12)
  /-- Branches when ga is at least gb, signed (R124). -/
  | bge (lit : Option Word) (a : BitVec 5) (b : BitVec 5) (d : BitVec 12)
  /-- Branches when ga is less than gb, unsigned (R124). -/
  | bltu (lit : Option Word) (a : BitVec 5) (b : BitVec 5) (d : BitVec 12)
  /-- Branches when ga is at least gb, unsigned (R124). -/
  | bgeu (lit : Option Word) (a : BitVec 5) (b : BitVec 5) (d : BitVec 12)
  /-- Branches when ga is zero (R124). -/
  | bz (lit : Option Word) (a : BitVec 5) (d : BitVec 12)
  /-- Branches when ga is nonzero (R124). -/
  | bnz (lit : Option Word) (a : BitVec 5) (d : BitVec 12)
  /-- Continues at a pair-relative displacement (R125). -/
  | jmp (lit : Option Word) (d : BitVec 25)
  /-- Writes the return address to g31 and continues at a pair-relative displacement (R125). -/
  | call (lit : Option Word) (d : BitVec 25)
  /-- Releases at span scope and pushes a fork arm with g8 to g15 onto the core's fork deque, spilling the oldest if full (R129). -/
  | fork (lit : Option Word) (d : BitVec 25)
  /-- Releases, atomically decrements the join counter and either ends the firing or acquires and continues at the label (R22). -/
  | join (lit : Option Word) (a : BitVec 5) (d : BitVec 12)
  /-- Repeats its pair's word B ga times, stepping the selected register fields by the stride (R174). -/
  | rep (a : BitVec 5) (x : BitVec 1) (y : BitVec 1) (z : BitVec 1) (s : BitVec 4)
  /-- Reads a system register into gd (R158). -/
  | mfs (lit : Option Word) (d : BitVec 5) (c : BitVec 4) (n : BitVec 11)
  /-- Writes ga to a system register under each field's access, with core and cell register timing (R161). -/
  | mts (lit : Option Word) (a : BitVec 5) (n : BitVec 11)
  /-- Claims up to ga lanes from the cell pool within the cap, sets the floor and records any demand (R165). -/
  | lclaim (lit : Option Word) (d : BitVec 5) (a : BitVec 5) (c : BitVec 4) (f : BitVec 6)
  /-- Returns ga lanes from the top of the firing's numbering to the pool (R165). -/
  | lrel (lit : Option Word) (a : BitVec 5)
  /-- Holds until the matrix queue's pending count is at most ga, trapping on a stop or the limit gb (R261). -/
  | mqwait (lit : Option Word) (a : BitVec 5) (b : BitVec 5)
  /-- Loads a byte, half, word or doubleword zero-extended into gd (R197). -/
  | ld (lit : Option Word) (t : BitVec 5) (b : BitVec 5) (c : BitVec 4) (i : BitVec 1) (z : BitVec 2) (o : BitVec 8)
  /-- Loads a byte, half or word sign-extended into gd (R197). -/
  | lds (lit : Option Word) (t : BitVec 5) (b : BitVec 5) (c : BitVec 4) (i : BitVec 1) (z : BitVec 2) (o : BitVec 8)
  /-- Stores the low bytes of ga to memory (R197). -/
  | st (lit : Option Word) (t : BitVec 5) (b : BitVec 5) (c : BitVec 4) (z : BitVec 2) (o : BitVec 8)
  /-- Loads the 4·VL bytes of a vector register from a 64-byte-aligned address (R198). -/
  | vld (lit : Option Word) (t : BitVec 5) (b : BitVec 5) (c : BitVec 4) (i : BitVec 1) (o : BitVec 8)
  /-- Stores a vector register's bytes under a byte predicate (R198). -/
  | vst (lit : Option Word) (t : BitVec 5) (b : BitVec 5) (c : BitVec 4) (p : BitVec 3) (o : BitVec 8)
  /-- Loads with acquire at the named scope and holds later accesses until it completes (R203). -/
  | lda (lit : Option Word) (d : BitVec 5) (b : BitVec 5) (c : BitVec 4) (s : BitVec 4) (z : BitVec 2)
  /-- Stores as a release at the named scope carrying the core's acquired set (R203). -/
  | stl (lit : Option Word) (a : BitVec 5) (b : BitVec 5) (s : BitVec 4) (z : BitVec 2)
  /-- Acquires earlier reads and/or makes later writes releases at the named scope (R204). -/
  | fence (lit : Option Word) (s : BitVec 4) (k : BitVec 2)
  /-- Atomically adds ga to the location at its home and returns the old value (R207). -/
  | aadd (lit : Option Word) (a : BitVec 5) (b : BitVec 5) (c : BitVec 4) (s : BitVec 3) (o : BitVec 2) (z : BitVec 1)
  /-- Atomically swaps ga with the location and returns the old value (R207). -/
  | aswap (lit : Option Word) (a : BitVec 5) (b : BitVec 5) (c : BitVec 4) (s : BitVec 3) (o : BitVec 2) (z : BitVec 1)
  /-- Atomically writes g(a+1) if the location equals ga and returns the old value (R207). -/
  | acas (lit : Option Word) (a : BitVec 5) (b : BitVec 5) (c : BitVec 4) (s : BitVec 3) (o : BitVec 2) (z : BitVec 1)
  /-- Atomically stores the signed minimum of the location and ga (R207). -/
  | amin (lit : Option Word) (a : BitVec 5) (b : BitVec 5) (c : BitVec 4) (s : BitVec 3) (o : BitVec 2) (z : BitVec 1)
  /-- Atomically stores the signed maximum of the location and ga (R207). -/
  | amax (lit : Option Word) (a : BitVec 5) (b : BitVec 5) (c : BitVec 4) (s : BitVec 3) (o : BitVec 2) (z : BitVec 1)
  /-- Atomically ANDs ga into the location (R207). -/
  | aand (lit : Option Word) (a : BitVec 5) (b : BitVec 5) (c : BitVec 4) (s : BitVec 3) (o : BitVec 2) (z : BitVec 1)
  /-- Atomically ORs ga into the location (R207). -/
  | aor (lit : Option Word) (a : BitVec 5) (b : BitVec 5) (c : BitVec 4) (s : BitVec 3) (o : BitVec 2) (z : BitVec 1)
  /-- Atomically XORs ga into the location (R207). -/
  | axor (lit : Option Word) (a : BitVec 5) (b : BitVec 5) (c : BitVec 4) (s : BitVec 3) (o : BitVec 2) (z : BitVec 1)
  /-- Reads one element per lane from addresses named by an index vector into vd (R209). -/
  | gather (d : BitVec 5) (b : BitVec 5) (c : BitVec 4) (z : BitVec 2) (i : BitVec 4)
  /-- Atomically adds each element of va to the element at its indexed address (R210). -/
  | scadd (a : BitVec 5) (b : BitVec 5) (c : BitVec 4) (z : BitVec 2) (i : BitVec 4)
  /-- Releases at device scope, invalidates cached translations of the region and waits for walks in flight (R213). -/
  | tinv (a : BitVec 5) (x : BitVec 1)
  /-- Translates an address into the cell's translation cache without access or fault (R214). -/
  | pref (lit : Option Word) (b : BitVec 5)
  /-- Reads and checks a stream descriptor and binds a stream register, privately, banked or as a shared subscriber (R220). -/
  | sbind (lit : Option Word) (s : BitVec 5) (b : BitVec 5) (u : BitVec 1) (k : BitVec 2)
  /-- Unbinds a stream register and discards its fetches (R222). -/
  | sfree (lit : Option Word) (s : BitVec 5)
  /-- Writes a stream register's state to gd (R223). -/
  | sstat (lit : Option Word) (d : BitVec 5) (s : BitVec 5)
  /-- Checks a copy request and appends it to the core's copy FIFO, holding while the FIFO is full (R235). -/
  | xpush (lit : Option Word) (a : BitVec 5) (c : BitVec 5)
  /-- Appends a copy request if the FIFO has room and reports whether it did (R235). -/
  | xtry (lit : Option Word) (a : BitVec 5) (d : BitVec 5) (c : BitVec 5)
  /-- Writes the core's copy-engine state to gd (R240). -/
  | xstat (lit : Option Word) (d : BitVec 5)
  /-- Sends a word message of up to eight registers through an outgoing slot (R324). -/
  | send (lit : Option Word) (t : BitVec 5) (a : BitVec 5) (e : BitVec 4) (c : BitVec 5)
  /-- Sends a vector message whose payload is read from memory (R324). -/
  | sendv (lit : Option Word) (t : BitVec 5) (s : BitVec 5) (e : BitVec 4) (c : BitVec 5)
  /-- Consumes the oldest unconsumed message of a channel and writes its address (R327). -/
  | recv (lit : Option Word) (d : BitVec 5) (e : BitVec 4) (c : BitVec 5)
  /-- Writes the address of the oldest unconsumed message of a channel without consuming it (R327). -/
  | peek (lit : Option Word) (d : BitVec 5) (e : BitVec 4) (c : BitVec 5)
  /-- Enables a handler entry and sets PEND if its rates are met (R328). -/
  | chen (lit : Option Word) (d : BitVec 5) (a : BitVec 5)
  /-- Disables a handler entry (R328). -/
  | chdis (lit : Option Word) (d : BitVec 5) (a : BitVec 5)
  /-- Clears, sets or reads a handler entry's PEND (R328). -/
  | chpnd (lit : Option Word) (d : BitVec 5) (a : BitVec 5) (m : BitVec 2)
  /-- Waits until a doubleword's two index words differ or meet, then acquires (R330). -/
  | waitw (lit : Option Word) (a : BitVec 5) (b : BitVec 5) (c : BitVec 4) (s : BitVec 4) (k : BitVec 2)
  /-- Arms a watch on a word at its home and ends the firing (R331). -/
  | armw (lit : Option Word) (a : BitVec 5) (b : BitVec 5)
  /-- Posts a release decrement of a codelet counter to its home (R335). -/
  | depdec (lit : Option Word) (b : BitVec 5) (s : BitVec 4)
  /-- Posts a release set or add of a codelet counter to its home (R335). -/
  | depset (lit : Option Word) (a : BitVec 5) (b : BitVec 5) (s : BitVec 4) (k : BitVec 2)
  /-- Hands an activation segment to the cell's encoder to be coded and sent (R279). -/
  | senda (lit : Option Word) (t : BitVec 5) (s : BitVec 5) (e : BitVec 4) (c : BitVec 5)
  /-- Codes a segment and writes the residual and message to memory instead of sending (R280). -/
  | encx (lit : Option Word) (d : BitVec 5) (s : BitVec 5) (e : BitVec 4) (c : BitVec 5)
  /-- Installs, removes or changes the thresholds of a dictionary from a descriptor (R282). -/
  | dinst (lit : Option Word) (d : BitVec 5) (a : BitVec 5) (e : BitVec 4) (c : BitVec 5)
  /-- Reads a dictionary's state or an encoder counter (R284). -/
  | dstat (lit : Option Word) (d : BitVec 5) (e : BitVec 4) (c : BitVec 5)
  /-- Resolves, holds, drops or registers for a coded or escape message against a binding and queues a resolution (R300). -/
  | imres (lit : Option Word) (d : BitVec 5) (m : BitVec 5) (e : BitVec 4) (b : BitVec 5)
  /-- Replaces one atom of a dictionary at its owner, advancing the shade and sending notices (R305). -/
  | drepl (lit : Option Word) (d : BitVec 5) (a : BitVec 5) (e : BitVec 4) (c : BitVec 5)
  /-- Fetches the notice delta of a dictionary or unregisters a binding (R306). -/
  | dsync (lit : Option Word) (d : BitVec 5) (b : BitVec 5) (e : BitVec 4) (c : BitVec 5)
  /-- Reads the hold store, re-delivers or drops held messages, or reads an image counter (R307). -/
  | holdr (lit : Option Word) (d : BitVec 5) (e : BitVec 4) (c : BitVec 5)
  /-- Sends the firing's context to the owner core of an address and ends the firing (R350). -/
  | migrate (lit : Option Word) (a : BitVec 5) (c : BitVec 5)
  /-- Sends a new travelling context to the owner core of an address, subject to the spawn limit (R351). -/
  | spawn (lit : Option Word) (d : BitVec 5) (a : BitVec 5) (e : BitVec 4) (c : BitVec 5)
  /-- Reloads spilled contexts onto channel 3 or reads a context counter (R353). -/
  | ctxld (lit : Option Word) (d : BitVec 5) (e : BitVec 4) (c : BitVec 5)
  /-- Binds the Schur context to a node and target and joins its prior and mailbox pairs (R366). -/
  | gjoin (lit : Option Word) (d : BitVec 5) (a : BitVec 5) (e : BitVec 4) (c : BitVec 5)
  /-- Eliminates the joint block to form the message toward the target (R367). -/
  | gelim (lit : Option Word) (d : BitVec 5) (e : BitVec 4)
  /-- Damps the formed message against the last one sent on the edge (R369). -/
  | gdamp (lit : Option Word) (d : BitVec 5) (e : BitVec 4)
  /-- Sends the message if it moved beyond delta, re-posting the node if unsettled (R370). -/
  | gsend (lit : Option Word) (d : BitVec 5) (e : BitVec 4)
  /-- Computes and writes a variable's belief pair and mean (R371). -/
  | gbel (lit : Option Word) (d : BitVec 5) (a : BitVec 5) (e : BitVec 4)
  /-- Counts an arrival of the issuing member at a barrier as a release (R382). -/
  | barr (lit : Option Word) (a : BitVec 5) (b : BitVec 5) (c : BitVec 4)
  /-- Installs a barrier object from a descriptor (R381). -/
  | barrInit (lit : Option Word) (a : BitVec 5) (b : BitVec 5) (c : BitVec 4)
  /-- Empties a barrier object (R381). -/
  | barrFree (lit : Option Word) (a : BitVec 5) (b : BitVec 5) (c : BitVec 4)
  /-- Writes a barrier object's image to memory (R381). -/
  | barrDump (lit : Option Word) (a : BitVec 5) (b : BitVec 5) (c : BitVec 4)
  /-- Waits until an episode completes, then acquires at the barrier's scope (R384). -/
  | bwait (lit : Option Word) (a : BitVec 5) (b : BitVec 5)
  /-- Reads a barrier member's or header's first doubleword (R385). -/
  | bstat (lit : Option Word) (d : BitVec 5) (b : BitVec 5) (c : BitVec 4) (s : BitVec 1) (m : BitVec 5)
  /-- Takes a tile descriptor on the owner device and acquires its last write (R388). -/
  | ttake (lit : Option Word) (d : BitVec 5) (b : BitVec 5) (c : BitVec 4)
  /-- Steals the lowest offered tile of an open barrier member (R390). -/
  | tsteal (lit : Option Word) (d : BitVec 5) (b : BitVec 5) (c : BitVec 4) (m : BitVec 5)
  /-- Releases at domain scope and marks a taken tile done (R391). -/
  | tdone (lit : Option Word) (d : BitVec 5) (b : BitVec 5) (c : BitVec 4)
  /-- Raises trap cause 0x0400 + n with value ga (R401). -/
  | trap (lit : Option Word) (a : BitVec 5) (n : BitVec 6)
  /-- Returns from a trap level by reissue, replay or continuing at the next pair (R402). -/
  | tret (lit : Option Word)
  /-- Halts the firing with a BRK fault report (R403). -/
  | brk (lit : Option Word) (n : BitVec 6)
  /-- Halts the firing with a HALT fault report (R403). -/
  | halt (lit : Option Word) (a : BitVec 5)
  /-- Reads one register of a halted firing's window (R407). -/
  | hwinr (lit : Option Word) (d : BitVec 5) (b : BitVec 5) (c : BitVec 4)
  /-- Writes one register of a halted firing's window, or stops a running firing via STOP (R407). -/
  | hwinw (lit : Option Word) (a : BitVec 5) (b : BitVec 5)
  /-- Resumes a halted firing at a given pair (R409). -/
  | hresume (lit : Option Word) (a : BitVec 5) (b : BitVec 5)
  /-- Ends a halted firing as END or ENDR ends it (R410). -/
  | ckill (lit : Option Word) (b : BitVec 5) (r : BitVec 1)
  /-- Word-B no-operation (R142). -/
  | nopB
  /-- Integer add at width w (R145). -/
  | add (d : BitVec 5) (a : BitVec 5) (b : BitVec 5) (c : BitVec 4) (w : BitVec 2)
  /-- Integer subtract at width w (R145). -/
  | sub (d : BitVec 5) (a : BitVec 5) (b : BitVec 5) (c : BitVec 4) (w : BitVec 2)
  /-- Bitwise AND (R145). -/
  | and (d : BitVec 5) (a : BitVec 5) (b : BitVec 5) (c : BitVec 4) (w : BitVec 2)
  /-- Bitwise OR (R145). -/
  | or (d : BitVec 5) (a : BitVec 5) (b : BitVec 5) (c : BitVec 4) (w : BitVec 2)
  /-- Bitwise XOR (R145). -/
  | xor (d : BitVec 5) (a : BitVec 5) (b : BitVec 5) (c : BitVec 4) (w : BitVec 2)
  /-- Bitwise AND with the complement of b (R145). -/
  | andn (d : BitVec 5) (a : BitVec 5) (b : BitVec 5) (c : BitVec 4) (w : BitVec 2)
  /-- Shift left by b mod w (R145). -/
  | shl (d : BitVec 5) (a : BitVec 5) (b : BitVec 5) (c : BitVec 4) (w : BitVec 2)
  /-- Logical shift right (R145). -/
  | shr (d : BitVec 5) (a : BitVec 5) (b : BitVec 5) (c : BitVec 4) (w : BitVec 2)
  /-- Arithmetic shift right (R145). -/
  | sar (d : BitVec 5) (a : BitVec 5) (b : BitVec 5) (c : BitVec 4) (w : BitVec 2)
  /-- Rotate left (R145). -/
  | rol (d : BitVec 5) (a : BitVec 5) (b : BitVec 5) (c : BitVec 4) (w : BitVec 2)
  /-- Signed minimum (R145). -/
  | min (d : BitVec 5) (a : BitVec 5) (b : BitVec 5) (c : BitVec 4) (w : BitVec 2)
  /-- Signed maximum (R145). -/
  | max (d : BitVec 5) (a : BitVec 5) (b : BitVec 5) (c : BitVec 4) (w : BitVec 2)
  /-- Unsigned minimum (R145). -/
  | minu (d : BitVec 5) (a : BitVec 5) (b : BitVec 5) (c : BitVec 4) (w : BitVec 2)
  /-- Unsigned maximum (R145). -/
  | maxu (d : BitVec 5) (a : BitVec 5) (b : BitVec 5) (c : BitVec 4) (w : BitVec 2)
  /-- Sets 1 if a is less than b, signed (R145). -/
  | slt (d : BitVec 5) (a : BitVec 5) (b : BitVec 5) (c : BitVec 4) (w : BitVec 2)
  /-- Sets 1 if a is less than b, unsigned (R145). -/
  | sltu (d : BitVec 5) (a : BitVec 5) (b : BitVec 5) (c : BitVec 4) (w : BitVec 2)
  /-- Selects ga or gb according to the old gd (R145). -/
  | sel (d : BitVec 5) (a : BitVec 5) (b : BitVec 5) (c : BitVec 4) (w : BitVec 2)
  /-- Counts leading zeros (R145). -/
  | clz (d : BitVec 5) (a : BitVec 5) (c : BitVec 4) (w : BitVec 2)
  /-- Counts trailing zeros (R145). -/
  | ctz (d : BitVec 5) (a : BitVec 5) (c : BitVec 4) (w : BitVec 2)
  /-- Counts one bits (R145). -/
  | popc (d : BitVec 5) (a : BitVec 5) (c : BitVec 4) (w : BitVec 2)
  /-- Reverses the bytes of a (R145). -/
  | bswap (d : BitVec 5) (a : BitVec 5) (c : BitVec 4) (w : BitVec 2)
  /-- Extracts an unsigned bit field (R146). -/
  | extr (d : BitVec 5) (a : BitVec 5) (b : BitVec 5) (c : BitVec 4) (w : BitVec 2)
  /-- Inserts a bit field into gd (R146). -/
  | insb (d : BitVec 5) (a : BitVec 5) (b : BitVec 5) (c : BitVec 4) (w : BitVec 2)
  /-- Computes ga plus scaled gb (R145). -/
  | lea (d : BitVec 5) (a : BitVec 5) (b : BitVec 5) (c : BitVec 4) (w : BitVec 2)
  /-- Low product at width w (R148). -/
  | mul (d : BitVec 5) (a : BitVec 5) (b : BitVec 5) (c : BitVec 4) (w : BitVec 2)
  /-- High half of the signed product (R148). -/
  | mulh (d : BitVec 5) (a : BitVec 5) (b : BitVec 5) (c : BitVec 4) (w : BitVec 2)
  /-- High half of the unsigned product (R148). -/
  | mulhu (d : BitVec 5) (a : BitVec 5) (b : BitVec 5) (c : BitVec 4) (w : BitVec 2)
  /-- Signed division, trapping DIVZERO on a zero divisor (R148). -/
  | div (d : BitVec 5) (a : BitVec 5) (b : BitVec 5) (c : BitVec 4) (w : BitVec 2)
  /-- Unsigned division, trapping DIVZERO on a zero divisor (R148). -/
  | divu (d : BitVec 5) (a : BitVec 5) (b : BitVec 5) (c : BitVec 4) (w : BitVec 2)
  /-- Signed remainder, trapping DIVZERO on a zero divisor (R148). -/
  | rem (d : BitVec 5) (a : BitVec 5) (b : BitVec 5) (c : BitVec 4) (w : BitVec 2)
  /-- Unsigned remainder, trapping DIVZERO on a zero divisor (R148). -/
  | remu (d : BitVec 5) (a : BitVec 5) (b : BitVec 5) (c : BitVec 4) (w : BitVec 2)
  /-- Floating-point add rounded under FRM (R152). -/
  | fadd (d : BitVec 5) (a : BitVec 5) (b : BitVec 5) (c : BitVec 4) (w : BitVec 2)
  /-- Floating-point subtract (R152). -/
  | fsub (d : BitVec 5) (a : BitVec 5) (b : BitVec 5) (c : BitVec 4) (w : BitVec 2)
  /-- Floating-point multiply (R152). -/
  | fmul (d : BitVec 5) (a : BitVec 5) (b : BitVec 5) (c : BitVec 4) (w : BitVec 2)
  /-- Fused multiply-add with the old gd (R152). -/
  | ffma (d : BitVec 5) (a : BitVec 5) (b : BitVec 5) (c : BitVec 4) (w : BitVec 2)
  /-- Floating-point divide (R152). -/
  | fdiv (d : BitVec 5) (a : BitVec 5) (b : BitVec 5) (c : BitVec 4) (w : BitVec 2)
  /-- Floating-point square root (R152). -/
  | fsqrt (d : BitVec 5) (a : BitVec 5) (c : BitVec 4) (w : BitVec 2)
  /-- minimumNumber of two floating-point values (R153). -/
  | fmin (d : BitVec 5) (a : BitVec 5) (b : BitVec 5) (c : BitVec 4) (w : BitVec 2)
  /-- maximumNumber of two floating-point values (R153). -/
  | fmax (d : BitVec 5) (a : BitVec 5) (b : BitVec 5) (c : BitVec 4) (w : BitVec 2)
  /-- Writes 1 if the operands are equal (R154). -/
  | fcmpEq (d : BitVec 5) (a : BitVec 5) (b : BitVec 5) (c : BitVec 4) (w : BitVec 2)
  /-- Writes 1 if a is less than b (R154). -/
  | fcmpLt (d : BitVec 5) (a : BitVec 5) (b : BitVec 5) (c : BitVec 4) (w : BitVec 2)
  /-- Writes 1 if a is at most b (R154). -/
  | fcmpLe (d : BitVec 5) (a : BitVec 5) (b : BitVec 5) (c : BitVec 4) (w : BitVec 2)
  /-- Converts between floating-point formats and integers as SB selects (R155). -/
  | fcvt (d : BitVec 5) (a : BitVec 5) (b : BitVec 5) (c : BitVec 4) (w : BitVec 2)
  /-- Writes a one-hot class mask of a floating-point value (R156). -/
  | fclass (d : BitVec 5) (a : BitVec 5) (c : BitVec 4) (w : BitVec 2)
  /-- Adds a sign-extended 16-bit immediate (R150). -/
  | addi (d : BitVec 5) (a : BitVec 5) (i : BitVec 16)
  /-- ANDs a zero-extended immediate (R150). -/
  | andi (d : BitVec 5) (a : BitVec 5) (i : BitVec 16)
  /-- ORs a zero-extended immediate (R150). -/
  | ori (d : BitVec 5) (a : BitVec 5) (i : BitVec 16)
  /-- XORs a zero-extended immediate (R150). -/
  | xori (d : BitVec 5) (a : BitVec 5) (i : BitVec 16)
  /-- Shifts left by an immediate (R150). -/
  | shli (d : BitVec 5) (a : BitVec 5) (n : BitVec 6)
  /-- Shifts right logically by an immediate (R150). -/
  | shri (d : BitVec 5) (a : BitVec 5) (n : BitVec 6)
  /-- Shifts right arithmetically by an immediate (R150). -/
  | sari (d : BitVec 5) (a : BitVec 5) (n : BitVec 6)
  /-- Loads a 16-bit immediate into bits 31:16 (R150). -/
  | lui (d : BitVec 5) (i : BitVec 16)
  /-- Elementwise integer add (R172). -/
  | vadd (d : BitVec 5) (a : BitVec 5) (b : BitVec 5) (p : BitVec 3) (c : BitVec 4) (t : BitVec 4)
  /-- Elementwise integer subtract (R172). -/
  | vsub (d : BitVec 5) (a : BitVec 5) (b : BitVec 5) (p : BitVec 3) (c : BitVec 4) (t : BitVec 4)
  /-- Elementwise integer multiply (R172). -/
  | vmul (d : BitVec 5) (a : BitVec 5) (b : BitVec 5) (p : BitVec 3) (c : BitVec 4) (t : BitVec 4)
  /-- Elementwise integer multiply-add into vd (R172). -/
  | vmadd (d : BitVec 5) (a : BitVec 5) (b : BitVec 5) (p : BitVec 3) (c : BitVec 4) (t : BitVec 4)
  /-- Elementwise integer minimum (R172). -/
  | vmin (d : BitVec 5) (a : BitVec 5) (b : BitVec 5) (p : BitVec 3) (c : BitVec 4) (t : BitVec 4)
  /-- Elementwise integer maximum (R172). -/
  | vmax (d : BitVec 5) (a : BitVec 5) (b : BitVec 5) (p : BitVec 3) (c : BitVec 4) (t : BitVec 4)
  /-- Bytewise AND (R172). -/
  | vand (d : BitVec 5) (a : BitVec 5) (b : BitVec 5) (p : BitVec 3) (c : BitVec 4)
  /-- Bytewise OR (R172). -/
  | vor (d : BitVec 5) (a : BitVec 5) (b : BitVec 5) (p : BitVec 3) (c : BitVec 4)
  /-- Bytewise XOR (R172). -/
  | vxor (d : BitVec 5) (a : BitVec 5) (b : BitVec 5) (p : BitVec 3) (c : BitVec 4)
  /-- Elementwise shift left (R172). -/
  | vshl (d : BitVec 5) (a : BitVec 5) (b : BitVec 5) (p : BitVec 3) (c : BitVec 4) (t : BitVec 4)
  /-- Elementwise logical shift right (R172). -/
  | vshr (d : BitVec 5) (a : BitVec 5) (b : BitVec 5) (p : BitVec 3) (c : BitVec 4) (t : BitVec 4)
  /-- Elementwise arithmetic shift right (R172). -/
  | vsar (d : BitVec 5) (a : BitVec 5) (b : BitVec 5) (p : BitVec 3) (c : BitVec 4) (t : BitVec 4)
  /-- Elementwise absolute value (R172). -/
  | vabs (d : BitVec 5) (a : BitVec 5) (p : BitVec 3) (c : BitVec 4) (t : BitVec 4)
  /-- Elementwise negation (R172). -/
  | vneg (d : BitVec 5) (a : BitVec 5) (p : BitVec 3) (c : BitVec 4) (t : BitVec 4)
  /-- Elementwise saturating add (R172). -/
  | vsadd (d : BitVec 5) (a : BitVec 5) (b : BitVec 5) (p : BitVec 3) (c : BitVec 4) (t : BitVec 4)
  /-- Elementwise floating-point add (R172). -/
  | vfadd (d : BitVec 5) (a : BitVec 5) (b : BitVec 5) (p : BitVec 3) (c : BitVec 4) (t : BitVec 4)
  /-- Elementwise floating-point subtract (R172). -/
  | vfsub (d : BitVec 5) (a : BitVec 5) (b : BitVec 5) (p : BitVec 3) (c : BitVec 4) (t : BitVec 4)
  /-- Elementwise floating-point multiply (R172). -/
  | vfmul (d : BitVec 5) (a : BitVec 5) (b : BitVec 5) (p : BitVec 3) (c : BitVec 4) (t : BitVec 4)
  /-- Elementwise fused multiply-add into vd (R172). -/
  | vfma (d : BitVec 5) (a : BitVec 5) (b : BitVec 5) (p : BitVec 3) (c : BitVec 4) (t : BitVec 4)
  /-- Elementwise floating-point divide (R172). -/
  | vfdiv (d : BitVec 5) (a : BitVec 5) (b : BitVec 5) (p : BitVec 3) (c : BitVec 4) (t : BitVec 4)
  /-- Elementwise floating-point square root (R172). -/
  | vfsqrt (d : BitVec 5) (a : BitVec 5) (p : BitVec 3) (c : BitVec 4) (t : BitVec 4)
  /-- Elementwise minimumNumber (R172). -/
  | vfmin (d : BitVec 5) (a : BitVec 5) (b : BitVec 5) (p : BitVec 3) (c : BitVec 4) (t : BitVec 4)
  /-- Elementwise maximumNumber (R172). -/
  | vfmax (d : BitVec 5) (a : BitVec 5) (b : BitVec 5) (p : BitVec 3) (c : BitVec 4) (t : BitVec 4)
  /-- Accumulates four-element dot products per lane (R175). -/
  | vdot4 (d : BitVec 5) (a : BitVec 5) (b : BitVec 5) (p : BitVec 3) (c : BitVec 4) (t : BitVec 4)
  /-- Reduces the active elements to a scalar in gd (R176). -/
  | vred (d : BitVec 5) (a : BitVec 5) (p : BitVec 3) (c : BitVec 4) (t : BitVec 4)
  /-- Compares elements and writes a predicate (R177). -/
  | vcmp (d : BitVec 5) (a : BitVec 5) (b : BitVec 5) (p : BitVec 3) (c : BitVec 4) (t : BitVec 4)
  /-- Selects va or vb per element by the predicate (R172). -/
  | vsel (d : BitVec 5) (a : BitVec 5) (b : BitVec 5) (p : BitVec 3) (c : BitVec 4) (t : BitVec 4)
  /-- Converts elements between types as VT selects (R179). -/
  | vcvt (d : BitVec 5) (a : BitVec 5) (p : BitVec 3) (c : BitVec 4) (t : BitVec 4)
  /-- Quantises FP32 lanes into grouped Q8 or Q4 codes and records (R180). -/
  | vqnt (d : BitVec 5) (a : BitVec 5) (c : BitVec 4) (t : BitVec 4)
  /-- Dequantises grouped codes into FP32 lanes (R180). -/
  | vdqn (d : BitVec 5) (a : BitVec 5) (c : BitVec 4) (t : BitVec 4)
  /-- Permutes elements by index (R178). -/
  | vperm (d : BitVec 5) (a : BitVec 5) (b : BitVec 5) (p : BitVec 3) (c : BitVec 4) (t : BitVec 4)
  /-- Broadcasts element 0 of va (R172). -/
  | vbcast (d : BitVec 5) (a : BitVec 5) (p : BitVec 3) (c : BitVec 4) (t : BitVec 4)
  /-- Moves element 0 of va to a g register (R178). -/
  | vmovs (d : BitVec 5) (a : BitVec 5) (c : BitVec 4) (t : BitVec 4)
  /-- Inserts element 0 of va at the index in vb (R178). -/
  | vinss (d : BitVec 5) (a : BitVec 5) (b : BitVec 5) (p : BitVec 3) (c : BitVec 4) (t : BitVec 4)
  /-- Sorts the indices of active elements in a fixed total order (R181). -/
  | vtopk (d : BitVec 5) (a : BitVec 5) (b : BitVec 5) (p : BitVec 3) (c : BitVec 4) (t : BitVec 4)
  /-- Packs nonzero elements into row descriptors and entries (R182). -/
  | vcmpr (d : BitVec 5) (a : BitVec 5) (p : BitVec 3) (c : BitVec 4) (t : BitVec 4)
  /-- Advances a CRC-32C state per lane (R184). -/
  | vhash (d : BitVec 5) (a : BitVec 5) (p : BitVec 3) (c : BitVec 4) (t : BitVec 4)
  /-- Advances a byte-compare state per lane (R185). -/
  | vbcmp (d : BitVec 5) (a : BitVec 5) (b : BitVec 5) (p : BitVec 3) (c : BitVec 4) (t : BitVec 4)
  /-- Consumes the oldest resolution and accumulates its images or dense product into vd (R303). -/
  | imacc (d : BitVec 5) (p : BitVec 3) (c : BitVec 4)
  /-- Predicate AND (R186). -/
  | pand (d : BitVec 5) (a : BitVec 5) (b : BitVec 5) (c : BitVec 4)
  /-- Predicate OR (R186). -/
  | por (d : BitVec 5) (a : BitVec 5) (b : BitVec 5) (c : BitVec 4)
  /-- Predicate XOR (R186). -/
  | pxor (d : BitVec 5) (a : BitVec 5) (b : BitVec 5) (c : BitVec 4)
  /-- Predicate NOT (R186). -/
  | pnot (d : BitVec 5) (a : BitVec 5) (c : BitVec 4)
  /-- Counts one bits of a predicate into gd (R186). -/
  | pcnt (d : BitVec 5) (a : BitVec 5) (c : BitVec 4)
  /-- Sets a predicate to all ones (R186). -/
  | pset (d : BitVec 5) (c : BitVec 4)
  /-- Matrix command that zeroes an accumulator and sets its type (R252). -/
  | mzero (core : Nat)
  /-- Matrix command that loads an accumulator tile from memory (R252). -/
  | mlda (core : Nat)
  /-- Matrix command that accumulates k-steps of tile products (R253). -/
  | mma (core : Nat)
  /-- Matrix command that converts and stores an accumulator with its overflow trailer (R254). -/
  | msta (core : Nat)
  /-- Matrix command that builds atom images from weight rows and atoms (R255). -/
  | imgb (core : Nat)
  /-- Matrix command that completes when earlier commands' writes are performed (R256). -/
  | mfence (core : Nat)
  /-- Matrix command that performs a completion action after earlier commands complete (R257). -/
  | msig (core : Nat)
  /-- A command completes, its slot is invalidated and HEAD advances (R244). -/
  | matrixCommandComplete (core : Nat)
  /-- A write to MQCTL sets DISCARD and clears STOPPED, restarting the sequencer (R246). -/
  | mqctlWrite (core : Nat) (val : Dword)
  /-- A link or stream wait beyond 65,536 cycles stops the command with error 9 (R258). -/
  | matrixLinkTimeout (core : Nat)
  /-- Host command returning the device number, live-die mask and certificate chain (R75). -/
  | identify (fn : Nat)
  /-- Host command writing a signed attestation report (R80). -/
  | attest (fn : Nat)
  /-- Host command copying host bytes into device memory and updating the measurement (R75). -/
  | loadImage (fn : Nat)
  /-- Host command reading and checking an RCB tree and creating the region (R29). -/
  | createRegion (fn : Nat)
  /-- Host command placing a region's cells, loading handler tables and starting dealing (R83). -/
  | launch (fn : Nat)
  /-- Host command sending a TYPE 11 message to a core of a region (R75). -/
  | signal (fn : Nat)
  /-- Host command returning a region's STATUS and cells held (R75). -/
  | query (fn : Nat)
  /-- Host command killing a region and its descendants (R75). -/
  | kill (fn : Nat)
  /-- Host command fencing a die at once (R81). -/
  | fenceDie (fn : Nat)
  /-- Host command installing a dictionary from a physical descriptor (R283). -/
  | setDictionary (fn : Nat)
  /-- Host command writing counter records to a host buffer (R427). -/
  | readCounters (fn : Nat)
  /-- Host command writing the lifetime record to a host buffer (R429). -/
  | readLifetime (fn : Nat)
  /-- Host command saving a region or function to a save area and freeing its cells (R414). -/
  | switchContextOut (fn : Nat)
  /-- Host command checking a save area and restoring its regions (R417). -/
  | switchContextIn (fn : Nat)
  /-- Host command killing a function's regions and emptying its queues (R77). -/
  | resetFunction (fn : Nat)
  /-- A host write to a command-page register with no row of its own (R72). -/
  | commandPageWrite (fn off : Nat) (val : Dword)
  /-- The firmware copies a report record from the report port into a KIND 4 HMQ entry and marks it done (R79). -/
  | programReport
  /-- A distributor advances its heartbeat counter every 2^13 cycles (R81). -/
  | heartbeat (die : Nat)
  /-- Every 2^14 cycles a distributor samples other dies' heartbeats and fences silent ones (R81). -/
  | heartbeatSample (die : Nat)
  /-- A distributor deals a tile message to a core of the dealing list when it holds fewer than two (R84). -/
  | tileDeal (region core : Nat)
  /-- The master enters a retired tile in the region's done set (R418). -/
  | tileRetire
  /-- A probe wave confirms a region is finished and the master retires it (R419). -/
  | regionRetire (region : Nat)
  /-- A probe wave confirms a region's count Q is zero and posts a quiescence event (R375). -/
  | quiescenceEvent (region : Nat)
  /-- Every 2^20 cycles the master clears HOT in every routing entry (R90). -/
  | routeHotClear
  /-- A distributor handles a replication request by copying images and adding an alternate (R90). -/
  | replicationRequest
  /-- A message reaches a receive area and is placed, counted as an arrival, or refused (R318). -/
  | messageArrival (idx : Nat)
  /-- The backoff of a refused message expires and it is sent again (R320). -/
  | messageRetry (idx : Nat)
  /-- A core without a running firing chooses a candidate entry and starts a firing (R117). -/
  | selector (core : Nat)
  /-- An idle core takes the oldest arm of a quad or span neighbour's deque and fires it (R131). -/
  | stealAttempt (core : Nat)
  /-- An entry's wait timer reaches AGE and its LIFT is set (R119). -/
  | agingLift (core entry : Nat)
  /-- Spilled fork arms return to the bottom of a deque that has room again (R130). -/
  | armUnspill (core : Nat)
  /-- A travelling context reaches its target NI and is placed, spilled, refused or dropped (R345). -/
  | contextArrival (idx : Nat)
  /-- A DEPDEC, DEPSET or KIND 2 completion takes effect at the counter's home, pushing at zero (R335). -/
  | codeletCounterUpdate (idx : Nat)
  /-- A completed write is applied at its home (R311). -/
  | writePerform (idx : Nat)
  /-- A load, atomic or gather reply arrives and is written (R199). -/
  | memoryReply (core seq : Nat)
  /-- A long-latency instruction's pending destination is written and the instruction completes (R103). -/
  | pendingResultWrite (core seq : Nat)
  /-- A waiting BFMT write takes effect once accepted bank accesses complete (R52). -/
  | bfmtUpdate (cell idx : Nat)
  /-- The stream unit or distributor fetches sequence bytes ahead of the pops (R221). -/
  | streamPrefetch (core strm : Nat)
  /-- A decompressor finishes a coded block and delivers it, or zeros after a failed check (R230). -/
  | decompBlock (core strm : Nat)
  /-- A copy finishes or faults and its completion action is performed (R237). -/
  | copyCompletion (core : Nat)
  /-- The encoder codes a segment by pursuit or escape and emits its message (R271). -/
  | encodeSegment (cell : Nat)
  /-- An image slot is built on the matrix unit between commands (R301). -/
  | imageBuild (core : Nat)
  /-- A cell applies an atom-replaced notice, advancing its view and updating binding tags (R294). -/
  | atomReplacedNotice (idx : Nat)
  /-- A notice refused by a full buffer is sent again after its backoff (R293). -/
  | noticeResend (idx : Nat)
  /-- A cell's acknowledgement of a notice reaches the dictionary owner (R293). -/
  | noticeAck (idx : Nat)
  /-- A held message's hold limit expires and it is re-delivered with mark 2 (R297). -/
  | holdExpiry (cell idx : Nat)
  /-- An information pair is checked and written into a node's mailbox slot (R361). -/
  | gaussianPairArrival (idx : Nat)
  /-- A member device offers its queued tile descriptors (R389). -/
  | tileSetOpen (region : Nat)
  /-- A member device returns its offered tile descriptors to QUEUED (R389). -/
  | tileSetClose (region : Nat)
  /-- A peer silent for 2^20 ns is marked lost, its taken tiles return and its barrier members go (R392). -/
  | deviceFencedFromDomain (device : Nat)
  /-- A trap enters the next trap level's handler, or halts the firing if disabled (R396). -/
  | trapTake (core : Nat)
  /-- A firing halts once earlier results complete, freezing its state and sending a fault report (R112). -/
  | firingHalt (core : Nat)
  /-- A firing completes another watchdog period and a report goes to its supervisor (R411). -/
  | watchdog (core : Nat)
  /-- A read of an empty stream register exceeds STO and traps (R122). -/
  | streamWait (core : Nat)
  /-- An XPUSH held on a full FIFO exceeds WLIM and traps (R122). -/
  | copyFull (core : Nat)
  /-- A request with no reply exceeds WLIM and traps (R122). -/
  | memReplyLimit (core seq : Nat)
  /-- WAITW's limit passes without the condition and it traps (R330). -/
  | waitwLimit (core : Nat)
  /-- MQWAIT's limit passes without the queue draining and it traps (R261). -/
  | mqwaitLimit (core : Nat)
  /-- BWAIT's limit passes or its barrier is lost and it traps (R384). -/
  | bwaitLimit (core : Nat)
  /-- A port receives a flit with a bad CRC and asks for it again, dropping the packet after eight tries (R425). -/
  | flitRetry (port idx : Nat)
  /-- A Keagus port trains with its partner and device numbers are exchanged (R453). -/
  | keagusPortTrain (port device : Nat)
  /-- A trained port goes down and the peer set and domain shrink if no path remains (R458). -/
  | keagusPortDown (port : Nat)
  /-- Power-good starts bring-up: ROM hash, die tests, memory clearing, master election and readiness (R454). -/
  | powerOn (liveDies straps : Nat)
  /-- An orderly power-down adds counter increases to the lifetime store (R429). -/
  | powerDown
  /-- Every 1 ms each die's temperature is read and a die at 110 °C is fenced (R451). -/
  | thermalSample (die temp : Nat)
  /-- Every 60 s the controller adds counter increases to the lifetime store (R429). -/
  | lifetimeUpdate
  /-- Once a second the temperature and escape-rate histograms count a second (R430). -/
  | histogramSample
  /-- A die stops of itself, so its heartbeat counter no longer advances (R81). -/
  | dieStop (die : Nat)
  /-- Power is lost without an orderly power-down, and lifetime increases since the last update are forfeited (R429). -/
  | lossOfPower
  /-- A correctable or uncorrectable error strikes a doubleword of an SRAM bank or memory stack (R422). -/
  | memoryError (addr : Nat) (uncorrectable : Bool)
  /-- The firmware takes a command slot whose OPCODE names no command and completes it with status 0x01 (R76). -/
  | unknownOpcode (fn : Nat)
  deriving DecidableEq, Repr

end Sys2Proof
end

