-- ==== Sys2Proof/WellFormed.lean ====
section
/-! DEFINITION. Which instruction terms stand for a legal word by its bits alone: the checks 0x0102 to 0x0105 of
R111 seen from the term. `Instr.wf` is what the decoder's answer always meets and what the encoder needs. The
checks that read register or region state (0x0107, 0x0108) are made by the meanings. -/

namespace Sys2Proof

/-- The system register numbers of R159. -/
def sysRegKnown (n : Nat) : Bool :=
  n ≤ 0x007 || (0x010 ≤ n && n ≤ 0x015) || (0x018 ≤ n && n ≤ 0x01C) || (0x020 ≤ n && n ≤ 0x024) || n == 0x040 ||
    (0x080 ≤ n && n ≤ 0x09F)

/-- A literal that the word does not use is 0 (R99, "—"). -/
def litUnused : Option Word → Bool
  | none => true
  | some l => l == 0

/-- With L = 1 the instruction's own offset field or RC is 0 (R99, "off" and "rc"). -/
def litZero {w : Nat} (lit : Option Word) (f : BitVec w) : Bool := lit.isNone || f == 0

/-- A stream code, 16 to 23 (R96). -/
def isStream (r : Reg) : Bool := 16 ≤ r.toNat && r.toNat ≤ 23

/-- A vector register code, 0 to 15 (R96). -/
def isVec (r : Reg) : Bool := r.toNat ≤ 15

/-- A vector source: `v0`–`v15` or `s0`–`s7` (R102). -/
def isVSrc (r : Reg) : Bool := r.toNat ≤ 23

/-- A scope code of R200. -/
def isScope {w : Nat} (s : BitVec w) : Bool := s.toNat ≤ 8

/-- Predicate codes of the predicate instructions (R186). -/
def isPSrc (r : Reg) : Bool := r.toNat ≤ 7
/-- A predicate destination, `p1` to `p7` (R186). -/
def isPDst (r : Reg) : Bool := 1 ≤ r.toNat && r.toNat ≤ 7

/-- VT names an integer type, 0 to 7 (R171). -/
def vtInt (t : BitVec 4) : Bool := t.toNat ≤ 7
/-- VT names a signed integer type, 0 to 3. -/
def vtS (t : BitVec 4) : Bool := t.toNat ≤ 3
/-- VT names a floating-point type, 8 to 11. -/
def vtF (t : BitVec 4) : Bool := 8 ≤ t.toNat && t.toNat ≤ 11
/-- VT names any element type, 0 to 11. -/
def vtAny (t : BitVec 4) : Bool := t.toNat ≤ 11

/-- The element types of a dot product of four (R175). -/
def vtDot (t : BitVec 4) : Bool := t == 0 || t == 4 || t == 8 || t == 9
/-- The element types that VTOPK sorts (R181). -/
def vtTopk (t : BitVec 4) : Bool := t == 2 || t == 6 || t == 8 || t == 9 || t == 10
/-- The element types that VCMPR packs (R182). -/
def vtCmpr (t : BitVec 4) : Bool := t == 0 || t == 1 || t == 8 || t == 9

/-- Three vector registers, the sources streams if they like (R102). -/
def wfV3 (d a b : Reg) : Bool := isVec d && isVSrc a && isVSrc b
/-- One vector destination and one vector source. -/
def wfV2 (d a : Reg) : Bool := isVec d && isVSrc a

/-- The atomics' MOD: with order 0 the scope field is 0 (R206). -/
def wfAtomic (s : BitVec 3) (o : BitVec 2) : Bool := !(o == 0) || s == 0

/-- The term stands for a legal word by its bits alone (R111, checks 0x0101 to 0x0105). -/
def Instr.wf : Instr → Bool
  | .nopA => true
  | .endFiring l | .endrFiring l | .ret l | .sabort l | .idem l => litUnused l
  | .jmpi l _ | .spec l _ | .scommit l _ | .selb l _ => litUnused l
  | .prio l _ => litUnused l
  | .safe => true
  | .safeL _ _ _ _ => true
  | .beq l _ _ _ | .bne l _ _ _ | .blt l _ _ _ | .bge l _ _ _ | .bltu l _ _ _ | .bgeu l _ _ _ => litUnused l
  | .bz l _ _ | .bnz l _ _ | .join l _ _ => litUnused l
  | .jmp l _ | .call l _ | .fork l _ => litUnused l
  | .rep _ _ _ _ _ => true
  | .mfs l _ _ n => litUnused l && sysRegKnown n.toNat
  | .mts l _ n => litUnused l && sysRegKnown n.toNat
  | .lclaim l _ _ _ _ => litUnused l
  | .lrel l _ => litUnused l
  | .mqwait l _ _ => litUnused l
  | .ld l _ _ _ _ _ o => litZero l o
  | .lds l _ _ _ _ z o => litZero l o && !(z == 3)
  | .st l _ _ _ _ o => litZero l o
  | .vld l t _ _ _ o => litZero l o && isVec t
  | .vst l t _ _ _ o => litZero l o && isVec t
  | .lda _ _ _ _ s _ => isScope s
  | .stl _ _ _ s _ => isScope s
  | .fence l s k => litUnused l && isScope s && !(k == 0)
  | .aadd _ _ _ _ s o _ | .aswap _ _ _ _ s o _ | .acas _ _ _ _ s o _ | .amin _ _ _ _ s o _
  | .amax _ _ _ _ s o _ | .aand _ _ _ _ s o _ | .aor _ _ _ _ s o _ | .axor _ _ _ _ s o _ => wfAtomic s o
  | .gather d _ _ _ _ => isVec d
  | .scadd a _ _ _ _ => isVec a
  | .tinv a x => x == 0 || a == 0
  | .pref _ _ => true
  | .sbind l s _ u k => litUnused l && isStream s && !(k == 3) && (u == 0 || k == 0)
  | .sfree l s => litUnused l && isStream s
  | .sstat l _ s => litUnused l && isStream s
  | .xpush l _ c => litZero l c
  | .xtry l _ _ c => litZero l c
  | .xstat l _ => litUnused l
  | .send l _ _ _ c => litZero l c
  | .sendv l _ _ _ c => litZero l c
  | .recv l _ _ c | .peek l _ _ c => litZero l c
  | .chen l _ _ | .chdis l _ _ => litUnused l
  | .chpnd l _ _ m => litUnused l && !(m == 3)
  | .waitw l _ _ _ s k => litUnused l && isScope s && k.toNat ≤ 1
  | .armw l _ _ => litUnused l
  | .depdec l _ s => litUnused l && isScope s
  | .depset l _ _ s k => litUnused l && isScope s && k.toNat ≤ 1
  | .senda l _ _ _ c | .encx l _ _ _ c | .dinst l _ _ _ c => litZero l c
  | .dstat l _ _ c => litZero l c
  | .imres l _ _ _ b => litZero l b
  | .drepl l _ _ _ c | .dsync l _ _ _ c => litZero l c
  | .holdr l _ _ c => litZero l c
  | .migrate l _ c => litZero l c
  | .spawn l _ _ _ c => litZero l c
  | .ctxld l _ _ c => litZero l c
  | .gjoin l _ _ _ c => litZero l c
  | .gelim l _ _ | .gdamp l _ _ | .gsend l _ _ => litUnused l
  | .gbel l _ _ _ => litUnused l
  | .barr l _ _ _ | .barrInit l _ _ _ | .barrFree l _ _ _ | .barrDump l _ _ _ => litUnused l
  | .bwait l _ _ => litUnused l
  | .bstat l _ _ _ s m => litUnused l && (s == 0 || m == 0)
  | .ttake l _ _ _ | .tdone l _ _ _ => litUnused l
  | .tsteal l _ _ _ _ => litUnused l
  | .trap l _ _ => litUnused l
  | .tret l => litUnused l
  | .brk l _ => litUnused l
  | .halt l _ => litUnused l
  | .hwinr l _ _ _ => litUnused l
  | .hwinw l _ _ | .hresume l _ _ => litUnused l
  | .ckill l _ _ => litUnused l
  | .nopB => true
  | .add .. | .sub .. | .and .. | .or .. | .xor .. | .andn .. | .shl .. | .shr .. | .sar .. | .rol .. | .min ..
  | .max .. | .minu .. | .maxu .. | .slt .. | .sltu .. | .sel .. | .clz .. | .ctz .. | .popc .. | .bswap ..
  | .extr .. | .insb .. | .lea .. | .mul .. | .mulh .. | .mulhu .. | .div .. | .divu .. | .rem .. | .remu ..
  | .fadd .. | .fsub .. | .fmul .. | .ffma .. | .fdiv .. | .fsqrt .. | .fmin .. | .fmax .. | .fcmpEq ..
  | .fcmpLt .. | .fcmpLe .. | .fcvt .. | .fclass .. | .addi .. | .andi .. | .ori .. | .xori .. | .shli ..
  | .shri .. | .sari .. | .lui .. => true
  | .vadd d a b _ _ t | .vsub d a b _ _ t | .vmul d a b _ _ t | .vmadd d a b _ _ t | .vmin d a b _ _ t
  | .vmax d a b _ _ t | .vsadd d a b _ _ t => wfV3 d a b && vtInt t
  | .vand d a b _ _ | .vor d a b _ _ | .vxor d a b _ _ => wfV3 d a b
  | .vshl d a b _ _ t | .vshr d a b _ _ t | .vsar d a b _ _ t | .vsel d a b _ _ t | .vperm d a b _ _ t
  | .vinss d a b _ _ t => wfV3 d a b && vtS t
  | .vabs d a _ _ t | .vneg d a _ _ t | .vbcast d a _ _ t => wfV2 d a && vtS t
  | .vfadd d a b _ _ t | .vfsub d a b _ _ t | .vfmul d a b _ _ t | .vfma d a b _ _ t | .vfdiv d a b _ _ t
  | .vfmin d a b _ _ t | .vfmax d a b _ _ t => wfV3 d a b && vtF t
  | .vfsqrt d a _ _ t => wfV2 d a && vtF t
  | .vdot4 d a b _ _ t => wfV3 d a b && vtDot t
  | .vred _ a _ _ t => isVSrc a && vtAny t
  | .vcmp d a b _ _ t => !(d.toNat % 8 == 0) && isVSrc a && isVSrc b && vtAny t
  | .vcvt d a _ _ t => wfV2 d a && !(t == 11)
  | .vqnt d a _ t | .vdqn d a _ t => wfV2 d a && vtInt t
  | .vmovs _ a _ t => isVSrc a && vtAny t
  | .vtopk d a b _ _ t => wfV3 d a b && vtTopk t
  | .vcmpr d a _ _ t => wfV2 d a && vtCmpr t
  | .vhash d a _ _ t => wfV2 d a && vtS t
  | .vbcmp d a b _ _ t => wfV3 d a b && vtS t
  | .imacc d _ _ => isVec d
  | .pand d a b _ | .por d a b _ | .pxor d a b _ => isPDst d && isPSrc a && isPSrc b
  | .pnot d a _ => isPDst d && isPSrc a
  | .pcnt _ a _ => isPSrc a
  | .pset d _ => isPDst d
  | .mzero _ | .mlda _ | .mma _ | .msta _ | .imgb _ | .mfence _ | .msig _ | .matrixCommandComplete _
  | .mqctlWrite _ _ | .matrixLinkTimeout _ | .identify _ | .attest _ | .loadImage _ | .createRegion _
  | .launch _ | .signal _ | .query _ | .kill _ | .fenceDie _ | .setDictionary _ | .readCounters _
  | .readLifetime _ | .switchContextOut _ | .switchContextIn _ | .resetFunction _ | .commandPageWrite _ _ _
  | .programReport | .heartbeat _ | .heartbeatSample _ | .tileDeal _ _ | .tileRetire | .regionRetire _
  | .quiescenceEvent _ | .routeHotClear | .replicationRequest | .messageArrival _ | .messageRetry _
  | .selector _ | .stealAttempt _ | .agingLift _ _ | .armUnspill _ | .contextArrival _
  | .codeletCounterUpdate _ | .writePerform _ | .memoryReply _ _ | .pendingResultWrite _ _ | .bfmtUpdate _ _
  | .streamPrefetch _ _ | .decompBlock _ _ | .copyCompletion _ | .encodeSegment _ | .imageBuild _
  | .atomReplacedNotice _ | .noticeResend _ | .noticeAck _ | .holdExpiry _ _ | .gaussianPairArrival _
  | .tileSetOpen _ | .tileSetClose _ | .deviceFencedFromDomain _ | .trapTake _ | .firingHalt _ | .watchdog _
  | .streamWait _ | .copyFull _ | .memReplyLimit _ _ | .waitwLimit _ | .mqwaitLimit _ | .bwaitLimit _
  | .flitRetry _ _ | .keagusPortTrain _ _ | .keagusPortDown _ | .powerOn _ _ | .powerDown | .thermalSample _ _
  | .lifetimeUpdate | .histogramSample | .dieStop _ | .lossOfPower | .memoryError _ _ | .unknownOpcode _ => true

end Sys2Proof
end

