-- ==== Sys2Proof/Decode.lean ====
section
/-! DEFINITION. From bits to instructions and back. A pair is eight bytes; word A is the low word (R92). `decodeA`
and `decodeB` read one word under the maps of R109 and R110 and answer the instruction, or the lowest FCAUSE of the
checks 0x0101 to 0x0105 that the word fails (R111). `decodePair` puts the two together with check 0x0106;
`decodeBytes` is total on any bytes. The encoder stands after them, written from the same encoding tables. -/

namespace Sys2Proof

/-- The checks of one word in the order of R111: each argument says that the check passes. -/
def chk (c102 c103 c104 c105 : Bool) (i : Instr) : Except Nat Instr :=
  if !c102 then .error 0x0102 else if !c103 then .error 0x0103 else if !c104 then .error 0x0104
  else if !c105 then .error 0x0105 else .ok i

/-- A major opcode 0x00 (R109). -/
def decControl (w : Word) (lit : Option Word) : Except Nat Instr :=
  match (w.extractLsb' 6 5).toNat with
  | 0 => chk true (w == 0) true true
      .nopA
  | 1 => chk true (w.extractLsb' 0 6 == 0 && w.extractLsb' 11 14 == 0) (litUnused lit) true
      (.endFiring lit)
  | 2 => chk true (w.extractLsb' 0 6 == 0 && w.extractLsb' 11 14 == 0) (litUnused lit) true
      (.endrFiring lit)
  | 3 => chk true (w.extractLsb' 0 6 == 0 && w.extractLsb' 11 14 == 0) (litUnused lit) true
      (.ret lit)
  | 4 => chk true (w.extractLsb' 0 6 == 0 && w.extractLsb' 11 9 == 0) (litUnused lit) true
      (.jmpi lit (w.extractLsb' 20 5))
  | 5 => chk true (w.extractLsb' 0 6 == 0 && w.extractLsb' 11 9 == 0) (litUnused lit) true
      (.spec lit (w.extractLsb' 20 5))
  | 6 => chk true (w.extractLsb' 0 6 == 0 && w.extractLsb' 11 9 == 0) (litUnused lit) true
      (.scommit lit (w.extractLsb' 20 5))
  | 7 => chk true (w.extractLsb' 0 6 == 0 && w.extractLsb' 11 14 == 0) (litUnused lit) true
      (.sabort lit)
  | 8 => chk true (w.extractLsb' 0 6 == 0 && w.extractLsb' 11 9 == 0) (litUnused lit) true
      (.selb lit (w.extractLsb' 20 5))
  | 9 => chk true (w.extractLsb' 2 4 == 0 && w.extractLsb' 11 14 == 0) (litUnused lit) true
      (.prio lit (w.extractLsb' 0 2))
  | 10 =>
    if lit.isSome then
      chk true (w.extractLsb' 5 1 == 0 && w.extractLsb' 11 4 == 0) true true
        (.safeL (w.extractLsb' 20 5) (w.extractLsb' 15 5) (w.extractLsb' 0 5) (lit.getD 0))
    else chk true (w.extractLsb' 11 14 == 0 && w.extractLsb' 0 6 == 0) true true .safe
  | 11 => chk true (w.extractLsb' 0 6 == 0 && w.extractLsb' 11 14 == 0) (litUnused lit) true
      (.idem lit)
  | _ => .error 0x0102

/-- A major opcode 0x01 (R109). -/
def decBranch (w : Word) (lit : Option Word) : Except Nat Instr :=
  match (w.extractLsb' 12 3).toNat with
  | 0 => chk true true (litUnused lit) true
      (.beq lit (w.extractLsb' 20 5) (w.extractLsb' 15 5) (w.extractLsb' 0 12))
  | 1 => chk true true (litUnused lit) true
      (.bne lit (w.extractLsb' 20 5) (w.extractLsb' 15 5) (w.extractLsb' 0 12))
  | 2 => chk true true (litUnused lit) true
      (.blt lit (w.extractLsb' 20 5) (w.extractLsb' 15 5) (w.extractLsb' 0 12))
  | 3 => chk true true (litUnused lit) true
      (.bge lit (w.extractLsb' 20 5) (w.extractLsb' 15 5) (w.extractLsb' 0 12))
  | 4 => chk true true (litUnused lit) true
      (.bltu lit (w.extractLsb' 20 5) (w.extractLsb' 15 5) (w.extractLsb' 0 12))
  | 5 => chk true true (litUnused lit) true
      (.bgeu lit (w.extractLsb' 20 5) (w.extractLsb' 15 5) (w.extractLsb' 0 12))
  | 6 => chk true (w.extractLsb' 15 5 == 0) (litUnused lit) true
      (.bz lit (w.extractLsb' 20 5) (w.extractLsb' 0 12))
  | _ => chk true (w.extractLsb' 15 5 == 0) (litUnused lit) true
      (.bnz lit (w.extractLsb' 20 5) (w.extractLsb' 0 12))

/-- A major opcode 0x05 (R109). -/
def decJoin (w : Word) (lit : Option Word) : Except Nat Instr :=
  match (w.extractLsb' 12 3).toNat with
  | 0 => chk true (w.extractLsb' 15 5 == 0) (litUnused lit) true
      (.join lit (w.extractLsb' 20 5) (w.extractLsb' 0 12))
  | _ => .error 0x0102

/-- A major opcode 0x09 (R109). -/
def decLanes (w : Word) (lit : Option Word) : Except Nat Instr :=
  match (w.extractLsb' 6 5).toNat with
  | 0 => chk true true (litUnused lit) true
      (.lclaim lit (w.extractLsb' 20 5) (w.extractLsb' 15 5) (w.extractLsb' 11 4) (w.extractLsb' 0 6))
  | 1 => chk true (w.extractLsb' 0 6 == 0 && w.extractLsb' 11 9 == 0) (litUnused lit) true
      (.lrel lit (w.extractLsb' 20 5))
  | 2 => chk true (w.extractLsb' 0 6 == 0 && w.extractLsb' 11 4 == 0) (litUnused lit) true
      (.mqwait lit (w.extractLsb' 20 5) (w.extractLsb' 15 5))
  | _ => .error 0x0102

/-- A major opcode 0x15 (R109). -/
def decOp15 (w : Word) (lit : Option Word) : Except Nat Instr :=
  match (w.extractLsb' 6 5).toNat with
  | 0 => chk (isScope (w.extractLsb' 2 4)) true true true
      (.lda lit (w.extractLsb' 20 5) (w.extractLsb' 15 5) (w.extractLsb' 11 4) (w.extractLsb' 2 4) (w.extractLsb' 0 2))
  | _ => .error 0x0102

/-- A major opcode 0x16 (R109). -/
def decOp16 (w : Word) (lit : Option Word) : Except Nat Instr :=
  match (w.extractLsb' 6 5).toNat with
  | 0 => chk (isScope (w.extractLsb' 2 4)) (w.extractLsb' 11 4 == 0) true true
      (.stl lit (w.extractLsb' 20 5) (w.extractLsb' 15 5) (w.extractLsb' 2 4) (w.extractLsb' 0 2))
  | _ => .error 0x0102

/-- A major opcode 0x17 (R109). -/
def decOp17 (w : Word) (lit : Option Word) : Except Nat Instr :=
  match (w.extractLsb' 6 5).toNat with
  | 0 => chk (isScope (w.extractLsb' 2 4) && !((w.extractLsb' 0 2) == 0)) (w.extractLsb' 11 14 == 0) (litUnused lit) true
      (.fence lit (w.extractLsb' 2 4) (w.extractLsb' 0 2))
  | _ => .error 0x0102

/-- A major opcode 0x18 (R109). -/
def decAtomic (w : Word) (lit : Option Word) : Except Nat Instr :=
  match (w.extractLsb' 6 5).toNat with
  | 0 => chk true (wfAtomic (w.extractLsb' 3 3) (w.extractLsb' 1 2)) true true
      (.aadd lit (w.extractLsb' 20 5) (w.extractLsb' 15 5) (w.extractLsb' 11 4) (w.extractLsb' 3 3) (w.extractLsb' 1 2) (w.extractLsb' 0 1))
  | 1 => chk true (wfAtomic (w.extractLsb' 3 3) (w.extractLsb' 1 2)) true true
      (.aswap lit (w.extractLsb' 20 5) (w.extractLsb' 15 5) (w.extractLsb' 11 4) (w.extractLsb' 3 3) (w.extractLsb' 1 2) (w.extractLsb' 0 1))
  | 2 => chk true (wfAtomic (w.extractLsb' 3 3) (w.extractLsb' 1 2)) true true
      (.acas lit (w.extractLsb' 20 5) (w.extractLsb' 15 5) (w.extractLsb' 11 4) (w.extractLsb' 3 3) (w.extractLsb' 1 2) (w.extractLsb' 0 1))
  | 3 => chk true (wfAtomic (w.extractLsb' 3 3) (w.extractLsb' 1 2)) true true
      (.amin lit (w.extractLsb' 20 5) (w.extractLsb' 15 5) (w.extractLsb' 11 4) (w.extractLsb' 3 3) (w.extractLsb' 1 2) (w.extractLsb' 0 1))
  | 4 => chk true (wfAtomic (w.extractLsb' 3 3) (w.extractLsb' 1 2)) true true
      (.amax lit (w.extractLsb' 20 5) (w.extractLsb' 15 5) (w.extractLsb' 11 4) (w.extractLsb' 3 3) (w.extractLsb' 1 2) (w.extractLsb' 0 1))
  | 5 => chk true (wfAtomic (w.extractLsb' 3 3) (w.extractLsb' 1 2)) true true
      (.aand lit (w.extractLsb' 20 5) (w.extractLsb' 15 5) (w.extractLsb' 11 4) (w.extractLsb' 3 3) (w.extractLsb' 1 2) (w.extractLsb' 0 1))
  | 6 => chk true (wfAtomic (w.extractLsb' 3 3) (w.extractLsb' 1 2)) true true
      (.aor lit (w.extractLsb' 20 5) (w.extractLsb' 15 5) (w.extractLsb' 11 4) (w.extractLsb' 3 3) (w.extractLsb' 1 2) (w.extractLsb' 0 1))
  | 7 => chk true (wfAtomic (w.extractLsb' 3 3) (w.extractLsb' 1 2)) true true
      (.axor lit (w.extractLsb' 20 5) (w.extractLsb' 15 5) (w.extractLsb' 11 4) (w.extractLsb' 3 3) (w.extractLsb' 1 2) (w.extractLsb' 0 1))
  | _ => .error 0x0102

/-- A major opcode 0x19 (R109). -/
def decGather (w : Word) (lit : Option Word) : Except Nat Instr :=
  match (w.extractLsb' 6 5).toNat with
  | 0 => chk true true (lit.isNone) (isVec (w.extractLsb' 20 5))
      (.gather (w.extractLsb' 20 5) (w.extractLsb' 15 5) (w.extractLsb' 11 4) (w.extractLsb' 4 2) (w.extractLsb' 0 4))
  | 1 => chk true true (lit.isNone) (isVec (w.extractLsb' 20 5))
      (.scadd (w.extractLsb' 20 5) (w.extractLsb' 15 5) (w.extractLsb' 11 4) (w.extractLsb' 4 2) (w.extractLsb' 0 4))
  | _ => .error 0x0102

/-- A major opcode 0x1A (R109). -/
def decTinv (w : Word) (lit : Option Word) : Except Nat Instr :=
  match (w.extractLsb' 6 5).toNat with
  | 0 => chk true (w.extractLsb' 1 5 == 0 && w.extractLsb' 11 9 == 0 && ((w.extractLsb' 0 1) == 0 || (w.extractLsb' 20 5) == 0)) (lit.isNone) true
      (.tinv (w.extractLsb' 20 5) (w.extractLsb' 0 1))
  | 1 => chk true (w.extractLsb' 20 5 == 0 && w.extractLsb' 0 6 == 0 && w.extractLsb' 11 4 == 0) true true
      (.pref lit (w.extractLsb' 15 5))
  | _ => .error 0x0102

/-- A major opcode 0x20 (R109). -/
def decStream (w : Word) (lit : Option Word) : Except Nat Instr :=
  match (w.extractLsb' 6 5).toNat with
  | 0 => chk (!((w.extractLsb' 0 2) == 3)) (w.extractLsb' 3 3 == 0 && w.extractLsb' 11 4 == 0 && ((w.extractLsb' 2 1) == 0 || (w.extractLsb' 0 2) == 0)) (litUnused lit) (isStream (w.extractLsb' 20 5))
      (.sbind lit (w.extractLsb' 20 5) (w.extractLsb' 15 5) (w.extractLsb' 2 1) (w.extractLsb' 0 2))
  | 1 => chk true (w.extractLsb' 0 6 == 0 && w.extractLsb' 11 9 == 0) (litUnused lit) (isStream (w.extractLsb' 20 5))
      (.sfree lit (w.extractLsb' 20 5))
  | 2 => chk true (w.extractLsb' 0 6 == 0 && w.extractLsb' 11 4 == 0) (litUnused lit) (isStream (w.extractLsb' 15 5))
      (.sstat lit (w.extractLsb' 20 5) (w.extractLsb' 15 5))
  | _ => .error 0x0102

/-- A major opcode 0x21 (R109). -/
def decCopy (w : Word) (lit : Option Word) : Except Nat Instr :=
  match (w.extractLsb' 0 6).toNat with
  | 0 => chk true (w.extractLsb' 11 9 == 0 && litZero lit (w.extractLsb' 6 5)) true true
      (.xpush lit (w.extractLsb' 20 5) (w.extractLsb' 6 5))
  | 1 => chk true (w.extractLsb' 11 4 == 0 && litZero lit (w.extractLsb' 6 5)) true true
      (.xtry lit (w.extractLsb' 20 5) (w.extractLsb' 15 5) (w.extractLsb' 6 5))
  | 2 => chk true (w.extractLsb' 20 5 == 0 && w.extractLsb' 6 9 == 0) (litUnused lit) true
      (.xstat lit (w.extractLsb' 15 5))
  | _ => .error 0x0102

/-- A major opcode 0x24 (R109). -/
def decSend (w : Word) (lit : Option Word) : Except Nat Instr :=
  match (w.extractLsb' 0 6).toNat with
  | 0 => chk true (litZero lit (w.extractLsb' 6 5)) true true
      (.send lit (w.extractLsb' 20 5) (w.extractLsb' 15 5) (w.extractLsb' 11 4) (w.extractLsb' 6 5))
  | 1 => chk true (litZero lit (w.extractLsb' 6 5)) true true
      (.sendv lit (w.extractLsb' 20 5) (w.extractLsb' 15 5) (w.extractLsb' 11 4) (w.extractLsb' 6 5))
  | 2 => chk true (w.extractLsb' 15 5 == 0 && litZero lit (w.extractLsb' 6 5)) true true
      (.recv lit (w.extractLsb' 20 5) (w.extractLsb' 11 4) (w.extractLsb' 6 5))
  | 3 => chk true (w.extractLsb' 15 5 == 0 && litZero lit (w.extractLsb' 6 5)) true true
      (.peek lit (w.extractLsb' 20 5) (w.extractLsb' 11 4) (w.extractLsb' 6 5))
  | _ => .error 0x0102

/-- A major opcode 0x25 (R109). -/
def decChan (w : Word) (lit : Option Word) : Except Nat Instr :=
  match (w.extractLsb' 6 5).toNat with
  | 0 => chk true (w.extractLsb' 0 6 == 0 && w.extractLsb' 11 4 == 0) (litUnused lit) true
      (.chen lit (w.extractLsb' 20 5) (w.extractLsb' 15 5))
  | 1 => chk true (w.extractLsb' 0 6 == 0 && w.extractLsb' 11 4 == 0) (litUnused lit) true
      (.chdis lit (w.extractLsb' 20 5) (w.extractLsb' 15 5))
  | 2 => chk (!((w.extractLsb' 0 2) == 3)) (w.extractLsb' 2 4 == 0 && w.extractLsb' 11 4 == 0) (litUnused lit) true
      (.chpnd lit (w.extractLsb' 20 5) (w.extractLsb' 15 5) (w.extractLsb' 0 2))
  | 3 => chk (isScope (w.extractLsb' 2 4) && decide ((w.extractLsb' 0 2).toNat ≤ 1)) true (litUnused lit) true
      (.waitw lit (w.extractLsb' 20 5) (w.extractLsb' 15 5) (w.extractLsb' 11 4) (w.extractLsb' 2 4) (w.extractLsb' 0 2))
  | 4 => chk true (w.extractLsb' 0 6 == 0 && w.extractLsb' 11 4 == 0) (litUnused lit) true
      (.armw lit (w.extractLsb' 20 5) (w.extractLsb' 15 5))
  | 5 => chk (isScope (w.extractLsb' 2 4)) (w.extractLsb' 20 5 == 0 && w.extractLsb' 11 4 == 0 && w.extractLsb' 0 2 == 0) (litUnused lit) true
      (.depdec lit (w.extractLsb' 15 5) (w.extractLsb' 2 4))
  | 6 => chk (isScope (w.extractLsb' 2 4) && decide ((w.extractLsb' 0 2).toNat ≤ 1)) (w.extractLsb' 11 4 == 0) (litUnused lit) true
      (.depset lit (w.extractLsb' 20 5) (w.extractLsb' 15 5) (w.extractLsb' 2 4) (w.extractLsb' 0 2))
  | _ => .error 0x0102

/-- A major opcode 0x28 (R109). -/
def decEnc (w : Word) (lit : Option Word) : Except Nat Instr :=
  match (w.extractLsb' 0 6).toNat with
  | 0 => chk true (litZero lit (w.extractLsb' 6 5)) true true
      (.senda lit (w.extractLsb' 20 5) (w.extractLsb' 15 5) (w.extractLsb' 11 4) (w.extractLsb' 6 5))
  | 1 => chk true (litZero lit (w.extractLsb' 6 5)) true true
      (.encx lit (w.extractLsb' 20 5) (w.extractLsb' 15 5) (w.extractLsb' 11 4) (w.extractLsb' 6 5))
  | 2 => chk true (litZero lit (w.extractLsb' 6 5)) true true
      (.dinst lit (w.extractLsb' 20 5) (w.extractLsb' 15 5) (w.extractLsb' 11 4) (w.extractLsb' 6 5))
  | 3 => chk true (w.extractLsb' 15 5 == 0 && litZero lit (w.extractLsb' 6 5)) true true
      (.dstat lit (w.extractLsb' 20 5) (w.extractLsb' 11 4) (w.extractLsb' 6 5))
  | _ => .error 0x0102

/-- A major opcode 0x29 (R109). -/
def decImage (w : Word) (lit : Option Word) : Except Nat Instr :=
  match (w.extractLsb' 0 6).toNat with
  | 0 => chk true (litZero lit (w.extractLsb' 6 5)) true true
      (.imres lit (w.extractLsb' 20 5) (w.extractLsb' 15 5) (w.extractLsb' 11 4) (w.extractLsb' 6 5))
  | 1 => chk true (litZero lit (w.extractLsb' 6 5)) true true
      (.drepl lit (w.extractLsb' 20 5) (w.extractLsb' 15 5) (w.extractLsb' 11 4) (w.extractLsb' 6 5))
  | 2 => chk true (litZero lit (w.extractLsb' 6 5)) true true
      (.dsync lit (w.extractLsb' 20 5) (w.extractLsb' 15 5) (w.extractLsb' 11 4) (w.extractLsb' 6 5))
  | 3 => chk true (w.extractLsb' 15 5 == 0 && litZero lit (w.extractLsb' 6 5)) true true
      (.holdr lit (w.extractLsb' 20 5) (w.extractLsb' 11 4) (w.extractLsb' 6 5))
  | _ => .error 0x0102

/-- A major opcode 0x2A (R109). -/
def decCtx (w : Word) (lit : Option Word) : Except Nat Instr :=
  match (w.extractLsb' 0 6).toNat with
  | 0 => chk true (w.extractLsb' 20 5 == 0 && w.extractLsb' 11 4 == 0 && litZero lit (w.extractLsb' 6 5)) true true
      (.migrate lit (w.extractLsb' 15 5) (w.extractLsb' 6 5))
  | 1 => chk true (litZero lit (w.extractLsb' 6 5)) true true
      (.spawn lit (w.extractLsb' 20 5) (w.extractLsb' 15 5) (w.extractLsb' 11 4) (w.extractLsb' 6 5))
  | 2 => chk true (w.extractLsb' 15 5 == 0 && litZero lit (w.extractLsb' 6 5)) true true
      (.ctxld lit (w.extractLsb' 20 5) (w.extractLsb' 11 4) (w.extractLsb' 6 5))
  | _ => .error 0x0102

/-- A major opcode 0x2C (R109). -/
def decGauss (w : Word) (lit : Option Word) : Except Nat Instr :=
  match (w.extractLsb' 0 6).toNat with
  | 0 => chk true (litZero lit (w.extractLsb' 6 5)) true true
      (.gjoin lit (w.extractLsb' 20 5) (w.extractLsb' 15 5) (w.extractLsb' 11 4) (w.extractLsb' 6 5))
  | 1 => chk true (w.extractLsb' 15 5 == 0 && w.extractLsb' 6 5 == 0) (litUnused lit) true
      (.gelim lit (w.extractLsb' 20 5) (w.extractLsb' 11 4))
  | 2 => chk true (w.extractLsb' 15 5 == 0 && w.extractLsb' 6 5 == 0) (litUnused lit) true
      (.gdamp lit (w.extractLsb' 20 5) (w.extractLsb' 11 4))
  | 3 => chk true (w.extractLsb' 15 5 == 0 && w.extractLsb' 6 5 == 0) (litUnused lit) true
      (.gsend lit (w.extractLsb' 20 5) (w.extractLsb' 11 4))
  | 4 => chk true (w.extractLsb' 6 5 == 0) (litUnused lit) true
      (.gbel lit (w.extractLsb' 20 5) (w.extractLsb' 15 5) (w.extractLsb' 11 4))
  | _ => .error 0x0102

/-- A major opcode 0x2E (R109). -/
def decBarr (w : Word) (lit : Option Word) : Except Nat Instr :=
  match (w.extractLsb' 6 5).toNat with
  | 0 =>
    match (w.extractLsb' 0 2).toNat with
    | 0 => chk true (w.extractLsb' 2 4 == 0) (litUnused lit) true
        (.barr lit (w.extractLsb' 20 5) (w.extractLsb' 15 5) (w.extractLsb' 11 4))
    | 1 => chk true (w.extractLsb' 2 4 == 0) (litUnused lit) true
        (.barrInit lit (w.extractLsb' 20 5) (w.extractLsb' 15 5) (w.extractLsb' 11 4))
    | 2 => chk true (w.extractLsb' 2 4 == 0) (litUnused lit) true
        (.barrFree lit (w.extractLsb' 20 5) (w.extractLsb' 15 5) (w.extractLsb' 11 4))
    | _ => chk true (w.extractLsb' 2 4 == 0) (litUnused lit) true
        (.barrDump lit (w.extractLsb' 20 5) (w.extractLsb' 15 5) (w.extractLsb' 11 4))
  | 1 => chk true (w.extractLsb' 0 6 == 0 && w.extractLsb' 11 4 == 0) (litUnused lit) true
      (.bwait lit (w.extractLsb' 20 5) (w.extractLsb' 15 5))
  | 2 => chk true (((w.extractLsb' 5 1) == 0 || (w.extractLsb' 0 5) == 0)) (litUnused lit) true
      (.bstat lit (w.extractLsb' 20 5) (w.extractLsb' 15 5) (w.extractLsb' 11 4) (w.extractLsb' 5 1) (w.extractLsb' 0 5))
  | 3 => chk true (w.extractLsb' 0 6 == 0) (litUnused lit) true
      (.ttake lit (w.extractLsb' 20 5) (w.extractLsb' 15 5) (w.extractLsb' 11 4))
  | 4 => chk true (w.extractLsb' 5 1 == 0) (litUnused lit) true
      (.tsteal lit (w.extractLsb' 20 5) (w.extractLsb' 15 5) (w.extractLsb' 11 4) (w.extractLsb' 0 5))
  | 5 => chk true (w.extractLsb' 0 6 == 0) (litUnused lit) true
      (.tdone lit (w.extractLsb' 20 5) (w.extractLsb' 15 5) (w.extractLsb' 11 4))
  | _ => .error 0x0102

/-- A major opcode 0x3C (R109). -/
def decTrap (w : Word) (lit : Option Word) : Except Nat Instr :=
  match (w.extractLsb' 6 5).toNat with
  | 0 => chk true (w.extractLsb' 11 9 == 0) (litUnused lit) true
      (.trap lit (w.extractLsb' 20 5) (w.extractLsb' 0 6))
  | 1 => chk true (w.extractLsb' 0 6 == 0 && w.extractLsb' 11 14 == 0) (litUnused lit) true
      (.tret lit)
  | 2 => chk true (w.extractLsb' 11 14 == 0) (litUnused lit) true
      (.brk lit (w.extractLsb' 0 6))
  | 3 => chk true (w.extractLsb' 0 6 == 0 && w.extractLsb' 11 9 == 0) (litUnused lit) true
      (.halt lit (w.extractLsb' 20 5))
  | 4 => chk true (w.extractLsb' 0 6 == 0) (litUnused lit) true
      (.hwinr lit (w.extractLsb' 20 5) (w.extractLsb' 15 5) (w.extractLsb' 11 4))
  | 5 => chk true (w.extractLsb' 0 6 == 0 && w.extractLsb' 11 4 == 0) (litUnused lit) true
      (.hwinw lit (w.extractLsb' 20 5) (w.extractLsb' 15 5))
  | 6 => chk true (w.extractLsb' 0 6 == 0 && w.extractLsb' 11 4 == 0) (litUnused lit) true
      (.hresume lit (w.extractLsb' 20 5) (w.extractLsb' 15 5))
  | 7 => chk true (w.extractLsb' 20 5 == 0 && w.extractLsb' 1 5 == 0 && w.extractLsb' 11 4 == 0) (litUnused lit) true
      (.ckill lit (w.extractLsb' 15 5) (w.extractLsb' 0 1))
  | _ => .error 0x0102

/-- B major opcode 0x01 (R110). -/
def decInt (w : Word) : Except Nat Instr :=
  match (w.extractLsb' 2 5).toNat with
  | 0 => chk true true true true
      (.add (w.extractLsb' 21 5) (w.extractLsb' 16 5) (w.extractLsb' 11 5) (w.extractLsb' 7 4) (w.extractLsb' 0 2))
  | 1 => chk true true true true
      (.sub (w.extractLsb' 21 5) (w.extractLsb' 16 5) (w.extractLsb' 11 5) (w.extractLsb' 7 4) (w.extractLsb' 0 2))
  | 2 => chk true true true true
      (.and (w.extractLsb' 21 5) (w.extractLsb' 16 5) (w.extractLsb' 11 5) (w.extractLsb' 7 4) (w.extractLsb' 0 2))
  | 3 => chk true true true true
      (.or (w.extractLsb' 21 5) (w.extractLsb' 16 5) (w.extractLsb' 11 5) (w.extractLsb' 7 4) (w.extractLsb' 0 2))
  | 4 => chk true true true true
      (.xor (w.extractLsb' 21 5) (w.extractLsb' 16 5) (w.extractLsb' 11 5) (w.extractLsb' 7 4) (w.extractLsb' 0 2))
  | 5 => chk true true true true
      (.andn (w.extractLsb' 21 5) (w.extractLsb' 16 5) (w.extractLsb' 11 5) (w.extractLsb' 7 4) (w.extractLsb' 0 2))
  | 6 => chk true true true true
      (.shl (w.extractLsb' 21 5) (w.extractLsb' 16 5) (w.extractLsb' 11 5) (w.extractLsb' 7 4) (w.extractLsb' 0 2))
  | 7 => chk true true true true
      (.shr (w.extractLsb' 21 5) (w.extractLsb' 16 5) (w.extractLsb' 11 5) (w.extractLsb' 7 4) (w.extractLsb' 0 2))
  | 8 => chk true true true true
      (.sar (w.extractLsb' 21 5) (w.extractLsb' 16 5) (w.extractLsb' 11 5) (w.extractLsb' 7 4) (w.extractLsb' 0 2))
  | 9 => chk true true true true
      (.rol (w.extractLsb' 21 5) (w.extractLsb' 16 5) (w.extractLsb' 11 5) (w.extractLsb' 7 4) (w.extractLsb' 0 2))
  | 10 => chk true true true true
      (.min (w.extractLsb' 21 5) (w.extractLsb' 16 5) (w.extractLsb' 11 5) (w.extractLsb' 7 4) (w.extractLsb' 0 2))
  | 11 => chk true true true true
      (.max (w.extractLsb' 21 5) (w.extractLsb' 16 5) (w.extractLsb' 11 5) (w.extractLsb' 7 4) (w.extractLsb' 0 2))
  | 12 => chk true true true true
      (.minu (w.extractLsb' 21 5) (w.extractLsb' 16 5) (w.extractLsb' 11 5) (w.extractLsb' 7 4) (w.extractLsb' 0 2))
  | 13 => chk true true true true
      (.maxu (w.extractLsb' 21 5) (w.extractLsb' 16 5) (w.extractLsb' 11 5) (w.extractLsb' 7 4) (w.extractLsb' 0 2))
  | 14 => chk true true true true
      (.slt (w.extractLsb' 21 5) (w.extractLsb' 16 5) (w.extractLsb' 11 5) (w.extractLsb' 7 4) (w.extractLsb' 0 2))
  | 15 => chk true true true true
      (.sltu (w.extractLsb' 21 5) (w.extractLsb' 16 5) (w.extractLsb' 11 5) (w.extractLsb' 7 4) (w.extractLsb' 0 2))
  | 16 => chk true true true true
      (.sel (w.extractLsb' 21 5) (w.extractLsb' 16 5) (w.extractLsb' 11 5) (w.extractLsb' 7 4) (w.extractLsb' 0 2))
  | 17 => chk true (w.extractLsb' 11 5 == 0) true true
      (.clz (w.extractLsb' 21 5) (w.extractLsb' 16 5) (w.extractLsb' 7 4) (w.extractLsb' 0 2))
  | 18 => chk true (w.extractLsb' 11 5 == 0) true true
      (.ctz (w.extractLsb' 21 5) (w.extractLsb' 16 5) (w.extractLsb' 7 4) (w.extractLsb' 0 2))
  | 19 => chk true (w.extractLsb' 11 5 == 0) true true
      (.popc (w.extractLsb' 21 5) (w.extractLsb' 16 5) (w.extractLsb' 7 4) (w.extractLsb' 0 2))
  | 20 => chk true (w.extractLsb' 11 5 == 0) true true
      (.bswap (w.extractLsb' 21 5) (w.extractLsb' 16 5) (w.extractLsb' 7 4) (w.extractLsb' 0 2))
  | 21 => chk true true true true
      (.extr (w.extractLsb' 21 5) (w.extractLsb' 16 5) (w.extractLsb' 11 5) (w.extractLsb' 7 4) (w.extractLsb' 0 2))
  | 22 => chk true true true true
      (.insb (w.extractLsb' 21 5) (w.extractLsb' 16 5) (w.extractLsb' 11 5) (w.extractLsb' 7 4) (w.extractLsb' 0 2))
  | 23 => chk true true true true
      (.lea (w.extractLsb' 21 5) (w.extractLsb' 16 5) (w.extractLsb' 11 5) (w.extractLsb' 7 4) (w.extractLsb' 0 2))
  | _ => .error 0x0102

/-- B major opcode 0x02 (R110). -/
def decMul (w : Word) : Except Nat Instr :=
  match (w.extractLsb' 2 5).toNat with
  | 0 => chk true true true true
      (.mul (w.extractLsb' 21 5) (w.extractLsb' 16 5) (w.extractLsb' 11 5) (w.extractLsb' 7 4) (w.extractLsb' 0 2))
  | 1 => chk true true true true
      (.mulh (w.extractLsb' 21 5) (w.extractLsb' 16 5) (w.extractLsb' 11 5) (w.extractLsb' 7 4) (w.extractLsb' 0 2))
  | 2 => chk true true true true
      (.mulhu (w.extractLsb' 21 5) (w.extractLsb' 16 5) (w.extractLsb' 11 5) (w.extractLsb' 7 4) (w.extractLsb' 0 2))
  | 3 => chk true true true true
      (.div (w.extractLsb' 21 5) (w.extractLsb' 16 5) (w.extractLsb' 11 5) (w.extractLsb' 7 4) (w.extractLsb' 0 2))
  | 4 => chk true true true true
      (.divu (w.extractLsb' 21 5) (w.extractLsb' 16 5) (w.extractLsb' 11 5) (w.extractLsb' 7 4) (w.extractLsb' 0 2))
  | 5 => chk true true true true
      (.rem (w.extractLsb' 21 5) (w.extractLsb' 16 5) (w.extractLsb' 11 5) (w.extractLsb' 7 4) (w.extractLsb' 0 2))
  | 6 => chk true true true true
      (.remu (w.extractLsb' 21 5) (w.extractLsb' 16 5) (w.extractLsb' 11 5) (w.extractLsb' 7 4) (w.extractLsb' 0 2))
  | _ => .error 0x0102

/-- B major opcode 0x03 (R110). -/
def decFp (w : Word) : Except Nat Instr :=
  match (w.extractLsb' 2 5).toNat with
  | 0 => chk true true true true
      (.fadd (w.extractLsb' 21 5) (w.extractLsb' 16 5) (w.extractLsb' 11 5) (w.extractLsb' 7 4) (w.extractLsb' 0 2))
  | 1 => chk true true true true
      (.fsub (w.extractLsb' 21 5) (w.extractLsb' 16 5) (w.extractLsb' 11 5) (w.extractLsb' 7 4) (w.extractLsb' 0 2))
  | 2 => chk true true true true
      (.fmul (w.extractLsb' 21 5) (w.extractLsb' 16 5) (w.extractLsb' 11 5) (w.extractLsb' 7 4) (w.extractLsb' 0 2))
  | 3 => chk true true true true
      (.ffma (w.extractLsb' 21 5) (w.extractLsb' 16 5) (w.extractLsb' 11 5) (w.extractLsb' 7 4) (w.extractLsb' 0 2))
  | 4 => chk true true true true
      (.fdiv (w.extractLsb' 21 5) (w.extractLsb' 16 5) (w.extractLsb' 11 5) (w.extractLsb' 7 4) (w.extractLsb' 0 2))
  | 5 => chk true (w.extractLsb' 11 5 == 0) true true
      (.fsqrt (w.extractLsb' 21 5) (w.extractLsb' 16 5) (w.extractLsb' 7 4) (w.extractLsb' 0 2))
  | 6 => chk true true true true
      (.fmin (w.extractLsb' 21 5) (w.extractLsb' 16 5) (w.extractLsb' 11 5) (w.extractLsb' 7 4) (w.extractLsb' 0 2))
  | 7 => chk true true true true
      (.fmax (w.extractLsb' 21 5) (w.extractLsb' 16 5) (w.extractLsb' 11 5) (w.extractLsb' 7 4) (w.extractLsb' 0 2))
  | 8 => chk true true true true
      (.fcmpEq (w.extractLsb' 21 5) (w.extractLsb' 16 5) (w.extractLsb' 11 5) (w.extractLsb' 7 4) (w.extractLsb' 0 2))
  | 9 => chk true true true true
      (.fcmpLt (w.extractLsb' 21 5) (w.extractLsb' 16 5) (w.extractLsb' 11 5) (w.extractLsb' 7 4) (w.extractLsb' 0 2))
  | 10 => chk true true true true
      (.fcmpLe (w.extractLsb' 21 5) (w.extractLsb' 16 5) (w.extractLsb' 11 5) (w.extractLsb' 7 4) (w.extractLsb' 0 2))
  | 11 => chk true true true true
      (.fcvt (w.extractLsb' 21 5) (w.extractLsb' 16 5) (w.extractLsb' 11 5) (w.extractLsb' 7 4) (w.extractLsb' 0 2))
  | 12 => chk true (w.extractLsb' 11 5 == 0) true true
      (.fclass (w.extractLsb' 21 5) (w.extractLsb' 16 5) (w.extractLsb' 7 4) (w.extractLsb' 0 2))
  | _ => .error 0x0102

/-- B major opcode 0x3E (R110). -/
def decPred (w : Word) : Except Nat Instr :=
  match (w.extractLsb' 0 4).toNat with
  | 0 => chk true (w.extractLsb' 8 3 == 0) true (isPDst (w.extractLsb' 21 5) && isPSrc (w.extractLsb' 16 5) && isPSrc (w.extractLsb' 11 5))
      (.pand (w.extractLsb' 21 5) (w.extractLsb' 16 5) (w.extractLsb' 11 5) (w.extractLsb' 4 4))
  | 1 => chk true (w.extractLsb' 8 3 == 0) true (isPDst (w.extractLsb' 21 5) && isPSrc (w.extractLsb' 16 5) && isPSrc (w.extractLsb' 11 5))
      (.por (w.extractLsb' 21 5) (w.extractLsb' 16 5) (w.extractLsb' 11 5) (w.extractLsb' 4 4))
  | 2 => chk true (w.extractLsb' 8 3 == 0) true (isPDst (w.extractLsb' 21 5) && isPSrc (w.extractLsb' 16 5) && isPSrc (w.extractLsb' 11 5))
      (.pxor (w.extractLsb' 21 5) (w.extractLsb' 16 5) (w.extractLsb' 11 5) (w.extractLsb' 4 4))
  | 3 => chk true (w.extractLsb' 8 8 == 0) true (isPDst (w.extractLsb' 21 5) && isPSrc (w.extractLsb' 16 5))
      (.pnot (w.extractLsb' 21 5) (w.extractLsb' 16 5) (w.extractLsb' 4 4))
  | 4 => chk true (w.extractLsb' 8 8 == 0) true (isPSrc (w.extractLsb' 16 5))
      (.pcnt (w.extractLsb' 21 5) (w.extractLsb' 16 5) (w.extractLsb' 4 4))
  | 5 => chk true (w.extractLsb' 8 13 == 0) true (isPDst (w.extractLsb' 21 5))
      (.pset (w.extractLsb' 21 5) (w.extractLsb' 4 4))
  | _ => .error 0x0102

/-- The vector rows of the B map, majors 0x10 to 0x37 (R110). -/
def decVec (w : Word) : Except Nat Instr :=
  match (w.extractLsb' 26 6).toNat with
  | 0x10 => chk (vtInt (w.extractLsb' 0 4)) true true (wfV3 (w.extractLsb' 21 5) (w.extractLsb' 16 5) (w.extractLsb' 11 5))
      (.vadd (w.extractLsb' 21 5) (w.extractLsb' 16 5) (w.extractLsb' 11 5) (w.extractLsb' 8 3) (w.extractLsb' 4 4) (w.extractLsb' 0 4))
  | 0x11 => chk (vtInt (w.extractLsb' 0 4)) true true (wfV3 (w.extractLsb' 21 5) (w.extractLsb' 16 5) (w.extractLsb' 11 5))
      (.vsub (w.extractLsb' 21 5) (w.extractLsb' 16 5) (w.extractLsb' 11 5) (w.extractLsb' 8 3) (w.extractLsb' 4 4) (w.extractLsb' 0 4))
  | 0x12 => chk (vtInt (w.extractLsb' 0 4)) true true (wfV3 (w.extractLsb' 21 5) (w.extractLsb' 16 5) (w.extractLsb' 11 5))
      (.vmul (w.extractLsb' 21 5) (w.extractLsb' 16 5) (w.extractLsb' 11 5) (w.extractLsb' 8 3) (w.extractLsb' 4 4) (w.extractLsb' 0 4))
  | 0x13 => chk (vtInt (w.extractLsb' 0 4)) true true (wfV3 (w.extractLsb' 21 5) (w.extractLsb' 16 5) (w.extractLsb' 11 5))
      (.vmadd (w.extractLsb' 21 5) (w.extractLsb' 16 5) (w.extractLsb' 11 5) (w.extractLsb' 8 3) (w.extractLsb' 4 4) (w.extractLsb' 0 4))
  | 0x14 => chk (vtInt (w.extractLsb' 0 4)) true true (wfV3 (w.extractLsb' 21 5) (w.extractLsb' 16 5) (w.extractLsb' 11 5))
      (.vmin (w.extractLsb' 21 5) (w.extractLsb' 16 5) (w.extractLsb' 11 5) (w.extractLsb' 8 3) (w.extractLsb' 4 4) (w.extractLsb' 0 4))
  | 0x15 => chk (vtInt (w.extractLsb' 0 4)) true true (wfV3 (w.extractLsb' 21 5) (w.extractLsb' 16 5) (w.extractLsb' 11 5))
      (.vmax (w.extractLsb' 21 5) (w.extractLsb' 16 5) (w.extractLsb' 11 5) (w.extractLsb' 8 3) (w.extractLsb' 4 4) (w.extractLsb' 0 4))
  | 0x16 => chk (w.extractLsb' 0 4 == 0) true true (wfV3 (w.extractLsb' 21 5) (w.extractLsb' 16 5) (w.extractLsb' 11 5))
      (.vand (w.extractLsb' 21 5) (w.extractLsb' 16 5) (w.extractLsb' 11 5) (w.extractLsb' 8 3) (w.extractLsb' 4 4))
  | 0x17 => chk (w.extractLsb' 0 4 == 0) true true (wfV3 (w.extractLsb' 21 5) (w.extractLsb' 16 5) (w.extractLsb' 11 5))
      (.vor (w.extractLsb' 21 5) (w.extractLsb' 16 5) (w.extractLsb' 11 5) (w.extractLsb' 8 3) (w.extractLsb' 4 4))
  | 0x18 => chk (w.extractLsb' 0 4 == 0) true true (wfV3 (w.extractLsb' 21 5) (w.extractLsb' 16 5) (w.extractLsb' 11 5))
      (.vxor (w.extractLsb' 21 5) (w.extractLsb' 16 5) (w.extractLsb' 11 5) (w.extractLsb' 8 3) (w.extractLsb' 4 4))
  | 0x19 => chk (vtS (w.extractLsb' 0 4)) true true (wfV3 (w.extractLsb' 21 5) (w.extractLsb' 16 5) (w.extractLsb' 11 5))
      (.vshl (w.extractLsb' 21 5) (w.extractLsb' 16 5) (w.extractLsb' 11 5) (w.extractLsb' 8 3) (w.extractLsb' 4 4) (w.extractLsb' 0 4))
  | 0x1A => chk (vtS (w.extractLsb' 0 4)) true true (wfV3 (w.extractLsb' 21 5) (w.extractLsb' 16 5) (w.extractLsb' 11 5))
      (.vshr (w.extractLsb' 21 5) (w.extractLsb' 16 5) (w.extractLsb' 11 5) (w.extractLsb' 8 3) (w.extractLsb' 4 4) (w.extractLsb' 0 4))
  | 0x1B => chk (vtS (w.extractLsb' 0 4)) true true (wfV3 (w.extractLsb' 21 5) (w.extractLsb' 16 5) (w.extractLsb' 11 5))
      (.vsar (w.extractLsb' 21 5) (w.extractLsb' 16 5) (w.extractLsb' 11 5) (w.extractLsb' 8 3) (w.extractLsb' 4 4) (w.extractLsb' 0 4))
  | 0x1C => chk (vtS (w.extractLsb' 0 4)) (w.extractLsb' 11 5 == 0) true (wfV2 (w.extractLsb' 21 5) (w.extractLsb' 16 5))
      (.vabs (w.extractLsb' 21 5) (w.extractLsb' 16 5) (w.extractLsb' 8 3) (w.extractLsb' 4 4) (w.extractLsb' 0 4))
  | 0x1D => chk (vtS (w.extractLsb' 0 4)) (w.extractLsb' 11 5 == 0) true (wfV2 (w.extractLsb' 21 5) (w.extractLsb' 16 5))
      (.vneg (w.extractLsb' 21 5) (w.extractLsb' 16 5) (w.extractLsb' 8 3) (w.extractLsb' 4 4) (w.extractLsb' 0 4))
  | 0x1E => chk (vtInt (w.extractLsb' 0 4)) true true (wfV3 (w.extractLsb' 21 5) (w.extractLsb' 16 5) (w.extractLsb' 11 5))
      (.vsadd (w.extractLsb' 21 5) (w.extractLsb' 16 5) (w.extractLsb' 11 5) (w.extractLsb' 8 3) (w.extractLsb' 4 4) (w.extractLsb' 0 4))
  | 0x20 => chk (vtF (w.extractLsb' 0 4)) true true (wfV3 (w.extractLsb' 21 5) (w.extractLsb' 16 5) (w.extractLsb' 11 5))
      (.vfadd (w.extractLsb' 21 5) (w.extractLsb' 16 5) (w.extractLsb' 11 5) (w.extractLsb' 8 3) (w.extractLsb' 4 4) (w.extractLsb' 0 4))
  | 0x21 => chk (vtF (w.extractLsb' 0 4)) true true (wfV3 (w.extractLsb' 21 5) (w.extractLsb' 16 5) (w.extractLsb' 11 5))
      (.vfsub (w.extractLsb' 21 5) (w.extractLsb' 16 5) (w.extractLsb' 11 5) (w.extractLsb' 8 3) (w.extractLsb' 4 4) (w.extractLsb' 0 4))
  | 0x22 => chk (vtF (w.extractLsb' 0 4)) true true (wfV3 (w.extractLsb' 21 5) (w.extractLsb' 16 5) (w.extractLsb' 11 5))
      (.vfmul (w.extractLsb' 21 5) (w.extractLsb' 16 5) (w.extractLsb' 11 5) (w.extractLsb' 8 3) (w.extractLsb' 4 4) (w.extractLsb' 0 4))
  | 0x23 => chk (vtF (w.extractLsb' 0 4)) true true (wfV3 (w.extractLsb' 21 5) (w.extractLsb' 16 5) (w.extractLsb' 11 5))
      (.vfma (w.extractLsb' 21 5) (w.extractLsb' 16 5) (w.extractLsb' 11 5) (w.extractLsb' 8 3) (w.extractLsb' 4 4) (w.extractLsb' 0 4))
  | 0x24 => chk (vtF (w.extractLsb' 0 4)) true true (wfV3 (w.extractLsb' 21 5) (w.extractLsb' 16 5) (w.extractLsb' 11 5))
      (.vfdiv (w.extractLsb' 21 5) (w.extractLsb' 16 5) (w.extractLsb' 11 5) (w.extractLsb' 8 3) (w.extractLsb' 4 4) (w.extractLsb' 0 4))
  | 0x25 => chk (vtF (w.extractLsb' 0 4)) (w.extractLsb' 11 5 == 0) true (wfV2 (w.extractLsb' 21 5) (w.extractLsb' 16 5))
      (.vfsqrt (w.extractLsb' 21 5) (w.extractLsb' 16 5) (w.extractLsb' 8 3) (w.extractLsb' 4 4) (w.extractLsb' 0 4))
  | 0x26 => chk (vtF (w.extractLsb' 0 4)) true true (wfV3 (w.extractLsb' 21 5) (w.extractLsb' 16 5) (w.extractLsb' 11 5))
      (.vfmin (w.extractLsb' 21 5) (w.extractLsb' 16 5) (w.extractLsb' 11 5) (w.extractLsb' 8 3) (w.extractLsb' 4 4) (w.extractLsb' 0 4))
  | 0x27 => chk (vtF (w.extractLsb' 0 4)) true true (wfV3 (w.extractLsb' 21 5) (w.extractLsb' 16 5) (w.extractLsb' 11 5))
      (.vfmax (w.extractLsb' 21 5) (w.extractLsb' 16 5) (w.extractLsb' 11 5) (w.extractLsb' 8 3) (w.extractLsb' 4 4) (w.extractLsb' 0 4))
  | 0x28 => chk (vtDot (w.extractLsb' 0 4)) true true (wfV3 (w.extractLsb' 21 5) (w.extractLsb' 16 5) (w.extractLsb' 11 5))
      (.vdot4 (w.extractLsb' 21 5) (w.extractLsb' 16 5) (w.extractLsb' 11 5) (w.extractLsb' 8 3) (w.extractLsb' 4 4) (w.extractLsb' 0 4))
  | 0x29 => chk (vtAny (w.extractLsb' 0 4)) (w.extractLsb' 11 5 == 0) true (isVSrc (w.extractLsb' 16 5))
      (.vred (w.extractLsb' 21 5) (w.extractLsb' 16 5) (w.extractLsb' 8 3) (w.extractLsb' 4 4) (w.extractLsb' 0 4))
  | 0x2A => chk (vtAny (w.extractLsb' 0 4)) true true (!((w.extractLsb' 21 5).toNat % 8 == 0) && isVSrc (w.extractLsb' 16 5) && isVSrc (w.extractLsb' 11 5))
      (.vcmp (w.extractLsb' 21 5) (w.extractLsb' 16 5) (w.extractLsb' 11 5) (w.extractLsb' 8 3) (w.extractLsb' 4 4) (w.extractLsb' 0 4))
  | 0x2B => chk (vtS (w.extractLsb' 0 4)) true true (wfV3 (w.extractLsb' 21 5) (w.extractLsb' 16 5) (w.extractLsb' 11 5))
      (.vsel (w.extractLsb' 21 5) (w.extractLsb' 16 5) (w.extractLsb' 11 5) (w.extractLsb' 8 3) (w.extractLsb' 4 4) (w.extractLsb' 0 4))
  | 0x2C => chk (!((w.extractLsb' 0 4) == 11)) (w.extractLsb' 11 5 == 0) true (wfV2 (w.extractLsb' 21 5) (w.extractLsb' 16 5))
      (.vcvt (w.extractLsb' 21 5) (w.extractLsb' 16 5) (w.extractLsb' 8 3) (w.extractLsb' 4 4) (w.extractLsb' 0 4))
  | 0x2D => chk (vtInt (w.extractLsb' 0 4)) (w.extractLsb' 8 8 == 0) true (wfV2 (w.extractLsb' 21 5) (w.extractLsb' 16 5))
      (.vqnt (w.extractLsb' 21 5) (w.extractLsb' 16 5) (w.extractLsb' 4 4) (w.extractLsb' 0 4))
  | 0x2E => chk (vtInt (w.extractLsb' 0 4)) (w.extractLsb' 8 8 == 0) true (wfV2 (w.extractLsb' 21 5) (w.extractLsb' 16 5))
      (.vdqn (w.extractLsb' 21 5) (w.extractLsb' 16 5) (w.extractLsb' 4 4) (w.extractLsb' 0 4))
  | 0x2F => chk (vtS (w.extractLsb' 0 4)) true true (wfV3 (w.extractLsb' 21 5) (w.extractLsb' 16 5) (w.extractLsb' 11 5))
      (.vperm (w.extractLsb' 21 5) (w.extractLsb' 16 5) (w.extractLsb' 11 5) (w.extractLsb' 8 3) (w.extractLsb' 4 4) (w.extractLsb' 0 4))
  | 0x30 => chk (vtS (w.extractLsb' 0 4)) (w.extractLsb' 11 5 == 0) true (wfV2 (w.extractLsb' 21 5) (w.extractLsb' 16 5))
      (.vbcast (w.extractLsb' 21 5) (w.extractLsb' 16 5) (w.extractLsb' 8 3) (w.extractLsb' 4 4) (w.extractLsb' 0 4))
  | 0x31 => chk (vtAny (w.extractLsb' 0 4)) (w.extractLsb' 8 8 == 0) true (isVSrc (w.extractLsb' 16 5))
      (.vmovs (w.extractLsb' 21 5) (w.extractLsb' 16 5) (w.extractLsb' 4 4) (w.extractLsb' 0 4))
  | 0x32 => chk (vtS (w.extractLsb' 0 4)) true true (wfV3 (w.extractLsb' 21 5) (w.extractLsb' 16 5) (w.extractLsb' 11 5))
      (.vinss (w.extractLsb' 21 5) (w.extractLsb' 16 5) (w.extractLsb' 11 5) (w.extractLsb' 8 3) (w.extractLsb' 4 4) (w.extractLsb' 0 4))
  | 0x33 => chk (vtTopk (w.extractLsb' 0 4)) true true (wfV3 (w.extractLsb' 21 5) (w.extractLsb' 16 5) (w.extractLsb' 11 5))
      (.vtopk (w.extractLsb' 21 5) (w.extractLsb' 16 5) (w.extractLsb' 11 5) (w.extractLsb' 8 3) (w.extractLsb' 4 4) (w.extractLsb' 0 4))
  | 0x34 => chk (vtCmpr (w.extractLsb' 0 4)) (w.extractLsb' 11 5 == 0) true (wfV2 (w.extractLsb' 21 5) (w.extractLsb' 16 5))
      (.vcmpr (w.extractLsb' 21 5) (w.extractLsb' 16 5) (w.extractLsb' 8 3) (w.extractLsb' 4 4) (w.extractLsb' 0 4))
  | 0x35 => chk (vtS (w.extractLsb' 0 4)) (w.extractLsb' 11 5 == 0) true (wfV2 (w.extractLsb' 21 5) (w.extractLsb' 16 5))
      (.vhash (w.extractLsb' 21 5) (w.extractLsb' 16 5) (w.extractLsb' 8 3) (w.extractLsb' 4 4) (w.extractLsb' 0 4))
  | 0x36 => chk (vtS (w.extractLsb' 0 4)) true true (wfV3 (w.extractLsb' 21 5) (w.extractLsb' 16 5) (w.extractLsb' 11 5))
      (.vbcmp (w.extractLsb' 21 5) (w.extractLsb' 16 5) (w.extractLsb' 11 5) (w.extractLsb' 8 3) (w.extractLsb' 4 4) (w.extractLsb' 0 4))
  | 0x37 => chk true (w.extractLsb' 11 10 == 0 && w.extractLsb' 0 4 == 0) true (isVec (w.extractLsb' 21 5))
      (.imacc (w.extractLsb' 21 5) (w.extractLsb' 8 3) (w.extractLsb' 4 4))
  | _ => .error 0x0101

/-- Word A under the map of R109; `wb` is word B, the literal when L is 1 (R99). -/
def decodeA (w wb : Word) : Except Nat Instr :=
  let lit : Option Word := if w.extractLsb' 31 1 == 1 then some wb else none
  match (w.extractLsb' 25 6).toNat with
  | 0x00 => decControl w lit
  | 0x01 => decBranch w lit
  | 0x02 => chk true true (litUnused lit) true
      (.jmp lit (w.extractLsb' 0 25))
  | 0x03 => chk true true (litUnused lit) true
      (.call lit (w.extractLsb' 0 25))
  | 0x04 => chk true true (litUnused lit) true
      (.fork lit (w.extractLsb' 0 25))
  | 0x05 => decJoin w lit
  | 0x06 => chk true (w.extractLsb' 11 9 == 0 && w.extractLsb' 0 4 == 0) (lit.isNone) true
      (.rep (w.extractLsb' 20 5) (w.extractLsb' 10 1) (w.extractLsb' 9 1) (w.extractLsb' 8 1) (w.extractLsb' 4 4))
  | 0x07 => chk (sysRegKnown (w.extractLsb' 0 11).toNat) (w.extractLsb' 15 5 == 0) (litUnused lit) true
      (.mfs lit (w.extractLsb' 20 5) (w.extractLsb' 11 4) (w.extractLsb' 0 11))
  | 0x08 => chk (sysRegKnown (w.extractLsb' 0 11).toNat) (w.extractLsb' 11 9 == 0) (litUnused lit) true
      (.mts lit (w.extractLsb' 20 5) (w.extractLsb' 0 11))
  | 0x09 => decLanes w lit
  | 0x10 => chk true (litZero lit (w.extractLsb' 0 8)) true true
      (.ld lit (w.extractLsb' 20 5) (w.extractLsb' 15 5) (w.extractLsb' 11 4) (w.extractLsb' 10 1) (w.extractLsb' 8 2) (w.extractLsb' 0 8))
  | 0x11 => chk (!((w.extractLsb' 8 2) == 3)) (litZero lit (w.extractLsb' 0 8)) true true
      (.lds lit (w.extractLsb' 20 5) (w.extractLsb' 15 5) (w.extractLsb' 11 4) (w.extractLsb' 10 1) (w.extractLsb' 8 2) (w.extractLsb' 0 8))
  | 0x12 => chk true (w.extractLsb' 10 1 == 0 && litZero lit (w.extractLsb' 0 8)) true true
      (.st lit (w.extractLsb' 20 5) (w.extractLsb' 15 5) (w.extractLsb' 11 4) (w.extractLsb' 8 2) (w.extractLsb' 0 8))
  | 0x13 => chk true (w.extractLsb' 8 2 == 0 && litZero lit (w.extractLsb' 0 8)) true (isVec (w.extractLsb' 20 5))
      (.vld lit (w.extractLsb' 20 5) (w.extractLsb' 15 5) (w.extractLsb' 11 4) (w.extractLsb' 10 1) (w.extractLsb' 0 8))
  | 0x14 => chk true (litZero lit (w.extractLsb' 0 8)) true (isVec (w.extractLsb' 20 5))
      (.vst lit (w.extractLsb' 20 5) (w.extractLsb' 15 5) (w.extractLsb' 11 4) (w.extractLsb' 8 3) (w.extractLsb' 0 8))
  | 0x15 => decOp15 w lit
  | 0x16 => decOp16 w lit
  | 0x17 => decOp17 w lit
  | 0x18 => decAtomic w lit
  | 0x19 => decGather w lit
  | 0x1A => decTinv w lit
  | 0x20 => decStream w lit
  | 0x21 => decCopy w lit
  | 0x24 => decSend w lit
  | 0x25 => decChan w lit
  | 0x28 => decEnc w lit
  | 0x29 => decImage w lit
  | 0x2A => decCtx w lit
  | 0x2C => decGauss w lit
  | 0x2E => decBarr w lit
  | 0x3C => decTrap w lit
  | _ => .error 0x0101

/-- Word B under the map of R110. -/
def decodeB (w : Word) : Except Nat Instr :=
  match (w.extractLsb' 26 6).toNat with
  | 0x00 => chk true (w == 0) true true
      .nopB
  | 0x01 => decInt w
  | 0x02 => decMul w
  | 0x03 => decFp w
  | 0x08 => chk true true true true
      (.addi (w.extractLsb' 21 5) (w.extractLsb' 16 5) (w.extractLsb' 0 16))
  | 0x09 => chk true true true true
      (.andi (w.extractLsb' 21 5) (w.extractLsb' 16 5) (w.extractLsb' 0 16))
  | 0x0A => chk true true true true
      (.ori (w.extractLsb' 21 5) (w.extractLsb' 16 5) (w.extractLsb' 0 16))
  | 0x0B => chk true true true true
      (.xori (w.extractLsb' 21 5) (w.extractLsb' 16 5) (w.extractLsb' 0 16))
  | 0x0C => chk true (w.extractLsb' 6 10 == 0) true true
      (.shli (w.extractLsb' 21 5) (w.extractLsb' 16 5) (w.extractLsb' 0 6))
  | 0x0D => chk true (w.extractLsb' 6 10 == 0) true true
      (.shri (w.extractLsb' 21 5) (w.extractLsb' 16 5) (w.extractLsb' 0 6))
  | 0x0E => chk true (w.extractLsb' 6 10 == 0) true true
      (.sari (w.extractLsb' 21 5) (w.extractLsb' 16 5) (w.extractLsb' 0 6))
  | 0x0F => chk true (w.extractLsb' 16 5 == 0) true true
      (.lui (w.extractLsb' 21 5) (w.extractLsb' 0 16))
  | 0x3E => decPred w
  | _ => decVec w


/-- A register that a word writes: a general, a vector or a predicate register. -/
inductive Dest where
  | g (r : Reg)
  | v (r : Reg)
  | p (r : BitVec 3)
  deriving DecidableEq, Repr

/-- The registers a word names in its destination fields (R94). -/
def Instr.dests : Instr → List Dest
  | .spec _ d | .scommit _ d | .mfs _ d _ _ | .lclaim _ d _ _ _ | .lda _ d _ _ _ _ | .sstat _ d _
  | .xtry _ _ d _ | .xstat _ d | .recv _ d _ _ | .peek _ d _ _ | .chen _ d _ | .chdis _ d _ | .chpnd _ d _ _
  | .encx _ d _ _ _ | .dinst _ d _ _ _ | .dstat _ d _ _ | .imres _ d _ _ _ | .drepl _ d _ _ _
  | .dsync _ d _ _ _ | .holdr _ d _ _ | .spawn _ d _ _ _ | .ctxld _ d _ _ | .gjoin _ d _ _ _ | .gelim _ d _
  | .gdamp _ d _ | .gsend _ d _ | .gbel _ d _ _ | .bstat _ d _ _ _ _ | .ttake _ d _ _ | .tsteal _ d _ _ _
  | .tdone _ d _ _ | .hwinr _ d _ _ | .add d _ _ _ _ | .sub d _ _ _ _ | .and d _ _ _ _ | .or d _ _ _ _
  | .xor d _ _ _ _ | .andn d _ _ _ _ | .shl d _ _ _ _ | .shr d _ _ _ _ | .sar d _ _ _ _ | .rol d _ _ _ _
  | .min d _ _ _ _ | .max d _ _ _ _ | .minu d _ _ _ _ | .maxu d _ _ _ _ | .slt d _ _ _ _ | .sltu d _ _ _ _
  | .sel d _ _ _ _ | .clz d _ _ _ | .ctz d _ _ _ | .popc d _ _ _ | .bswap d _ _ _ | .extr d _ _ _ _
  | .insb d _ _ _ _ | .lea d _ _ _ _ | .mul d _ _ _ _ | .mulh d _ _ _ _ | .mulhu d _ _ _ _ | .div d _ _ _ _
  | .divu d _ _ _ _ | .rem d _ _ _ _ | .remu d _ _ _ _ | .fadd d _ _ _ _ | .fsub d _ _ _ _ | .fmul d _ _ _ _
  | .ffma d _ _ _ _ | .fdiv d _ _ _ _ | .fsqrt d _ _ _ | .fmin d _ _ _ _ | .fmax d _ _ _ _
  | .fcmpEq d _ _ _ _ | .fcmpLt d _ _ _ _ | .fcmpLe d _ _ _ _ | .fcvt d _ _ _ _ | .fclass d _ _ _
  | .addi d _ _ | .andi d _ _ | .ori d _ _ | .xori d _ _ | .shli d _ _ | .shri d _ _ | .sari d _ _ | .lui d _
  | .vred d _ _ _ _ | .vmovs d _ _ _ | .pcnt d _ _ => [.g d]
  | .ld _ t _ _ _ _ _ | .lds _ t _ _ _ _ _ => [.g t]
  | .vld _ t _ _ _ _ => [.v t]
  | .aadd _ a _ _ _ _ _ | .aswap _ a _ _ _ _ _ | .acas _ a _ _ _ _ _ | .amin _ a _ _ _ _ _
  | .amax _ a _ _ _ _ _ | .aand _ a _ _ _ _ _ | .aor _ a _ _ _ _ _ | .axor _ a _ _ _ _ _ | .waitw _ a _ _ _ _
  | .barr _ a _ _ | .barrInit _ a _ _ | .barrFree _ a _ _ | .barrDump _ a _ _ | .bwait _ a _ => [.g a]
  | .gather d _ _ _ _ | .vadd d _ _ _ _ _ | .vsub d _ _ _ _ _ | .vmul d _ _ _ _ _ | .vmadd d _ _ _ _ _
  | .vmin d _ _ _ _ _ | .vmax d _ _ _ _ _ | .vand d _ _ _ _ | .vor d _ _ _ _ | .vxor d _ _ _ _
  | .vshl d _ _ _ _ _ | .vshr d _ _ _ _ _ | .vsar d _ _ _ _ _ | .vabs d _ _ _ _ | .vneg d _ _ _ _
  | .vsadd d _ _ _ _ _ | .vfadd d _ _ _ _ _ | .vfsub d _ _ _ _ _ | .vfmul d _ _ _ _ _ | .vfma d _ _ _ _ _
  | .vfdiv d _ _ _ _ _ | .vfsqrt d _ _ _ _ | .vfmin d _ _ _ _ _ | .vfmax d _ _ _ _ _ | .vdot4 d _ _ _ _ _
  | .vsel d _ _ _ _ _ | .vcvt d _ _ _ _ | .vqnt d _ _ _ | .vdqn d _ _ _ | .vperm d _ _ _ _ _
  | .vbcast d _ _ _ _ | .vinss d _ _ _ _ _ | .vtopk d _ _ _ _ _ | .vhash d _ _ _ _ | .vbcmp d _ _ _ _ _
  | .imacc d _ _ => [.v d]
  | .vcmp d _ _ _ _ _ | .pand d _ _ _ | .por d _ _ _ | .pxor d _ _ _ | .pnot d _ _ | .pset d _ => [.p (d.extractLsb' 0 3)]
  | .vcmpr d _ p _ _ => [.v d, .p p]
  | _ => []

/-- `g0` and `p0` discard what is written to them; `g0` is exempt from R94 and no legal word names `p0`. -/
def Dest.counts : Dest → Bool
  | .g r => !(r == 0)
  | .v _ => true
  | .p r => !(r == 0)

/-- One pair as decoded: word B is `none` when L is 1 (R99). -/
structure Pair where
  a : Instr
  b : Option Instr
  deriving DecidableEq, Repr

/-- What refuses bytes: too few of them, or an illegal pair with its FCAUSE and WORD (R111, R113). -/
inductive DecodeError where
  | short
  | illegal (cause word : Nat)
  deriving DecidableEq, Repr

/-- The first of the checks 0x0101 to 0x0106 that the pair fails: the lower cause first, word A before word B (R111). -/
def decodePair (wa wb : Word) : Except DecodeError Pair :=
  if wa.extractLsb' 31 1 == 1 then
    match decodeA wa wb with
    | .ok a => .ok ⟨a, none⟩
    | .error ca => .error (.illegal ca 1)
  else
    match decodeA wa wb, decodeB wb with
    | .ok a, .ok b =>
      if a.dests.any (fun d => d.counts && b.dests.contains d) then .error (.illegal 0x0106 3) else .ok ⟨a, some b⟩
    | .error ca, .ok _ => .error (.illegal ca 1)
    | .ok _, .error cb => .error (.illegal cb 2)
    | .error ca, .error cb => if ca ≤ cb then .error (.illegal ca 1) else .error (.illegal cb 2)

/-- A little-endian word of four bytes (R9, R92). -/
def wordOfBytes (b0 b1 b2 b3 : Byte) : Word := b3 ++ b2 ++ b1 ++ b0

/-- The pair at the head of any bytes, and the rest of them. -/
def decodeBytes : List Byte → Except DecodeError (Pair × List Byte)
  | b0 :: b1 :: b2 :: b3 :: b4 :: b5 :: b6 :: b7 :: rest =>
    (decodePair (wordOfBytes b0 b1 b2 b3) (wordOfBytes b4 b5 b6 b7)).map (fun p => (p, rest))
  | _ => .error .short

/-- The four bytes of a word, the lowest address first (R9). -/
def bytesOfWord (w : Word) : List Byte :=
  [w.extractLsb' 0 8, w.extractLsb' 8 8, w.extractLsb' 16 8, w.extractLsb' 24 8]

/-- How many bits the encoding tables fix in an instruction's word (R109, R110); 0 where it has none. -/
def Instr.fixedBits : Instr → Nat
  | .nopA .. | .safe .. | .nopB .. => 32
  | .endFiring .. | .endrFiring .. | .ret .. | .sabort .. | .idem .. | .tret .. => 31
  | .prio .. => 29
  | .jmpi .. | .spec .. | .scommit .. | .selb .. | .lrel .. | .tinv .. | .pref .. | .sfree .. | .xstat .. | .halt .. => 26
  | .fence .. | .brk .. | .ckill .. => 25
  | .pset .. => 23
  | .depdec .. | .gelim .. | .gdamp .. | .gsend .. => 22
  | .mqwait .. | .sstat .. | .xpush .. | .chen .. | .chdis .. | .armw .. | .migrate .. | .bwait .. | .hwinw ..
  | .hresume .. => 21
  | .rep .. | .trap .. | .imacc .. => 20
  | .chpnd .. => 19
  | .sbind .. | .pnot .. | .pcnt .. => 18
  | .safeL .. | .recv .. | .peek .. | .dstat .. | .holdr .. | .ctxld .. | .gbel .. | .barr .. | .barrInit ..
  | .barrFree .. | .barrDump .. | .ttake .. | .tdone .. | .hwinr .. => 17
  | .xtry .. | .clz .. | .ctz .. | .popc .. | .bswap .. | .fsqrt .. | .fclass .. | .shli .. | .shri .. | .sari .. => 16
  | .mts .. | .stl .. | .depset .. => 15
  | .bz .. | .bnz .. | .join .. | .vqnt .. | .vdqn .. | .vmovs .. => 14
  | .pand .. | .por .. | .pxor .. => 13
  | .gather .. | .scadd .. | .send .. | .sendv .. | .senda .. | .encx .. | .dinst .. | .imres .. | .drepl ..
  | .dsync .. | .spawn .. | .gjoin .. | .tsteal .. => 12
  | .mfs .. | .lclaim .. | .lda .. | .aadd .. | .aswap .. | .acas .. | .amin .. | .amax .. | .aand .. | .aor ..
  | .axor .. | .waitw .. | .bstat .. | .add .. | .sub .. | .and .. | .or .. | .xor .. | .andn .. | .shl .. | .shr ..
  | .sar .. | .rol .. | .min .. | .max .. | .minu .. | .maxu .. | .slt .. | .sltu .. | .sel .. | .extr .. | .insb ..
  | .lea .. | .mul .. | .mulh .. | .mulhu .. | .div .. | .divu .. | .rem .. | .remu .. | .fadd .. | .fsub ..
  | .fmul .. | .ffma .. | .fdiv .. | .fmin .. | .fmax .. | .fcmpEq .. | .fcmpLt .. | .fcmpLe .. | .fcvt .. | .lui ..
  | .vabs .. | .vneg .. | .vfsqrt .. | .vred .. | .vcvt .. | .vbcast .. | .vcmpr .. | .vhash .. => 11
  | .vand .. | .vor .. | .vxor .. => 10
  | .beq .. | .bne .. | .blt .. | .bge .. | .bltu .. | .bgeu .. => 9
  | .vld .. => 8
  | .st .. => 7
  | .jmp .. | .call .. | .fork .. | .ld .. | .lds .. | .vst .. | .addi .. | .andi .. | .ori .. | .xori .. | .vadd ..
  | .vsub .. | .vmul .. | .vmadd .. | .vmin .. | .vmax .. | .vshl .. | .vshr .. | .vsar .. | .vsadd .. | .vfadd ..
  | .vfsub .. | .vfmul .. | .vfma .. | .vfdiv .. | .vfmin .. | .vfmax .. | .vdot4 .. | .vcmp .. | .vsel ..
  | .vperm .. | .vinss .. | .vtopk .. | .vbcmp .. => 6
  | .mzero .. | .mlda .. | .mma .. | .msta .. | .imgb .. | .mfence .. | .msig .. | .matrixCommandComplete ..
  | .mqctlWrite .. | .matrixLinkTimeout .. | .identify .. | .attest .. | .loadImage .. | .createRegion ..
  | .launch .. | .signal .. | .query .. | .kill .. | .fenceDie .. | .setDictionary .. | .readCounters ..
  | .readLifetime .. | .switchContextOut .. | .switchContextIn .. | .resetFunction .. | .commandPageWrite ..
  | .programReport .. | .heartbeat .. | .heartbeatSample .. | .tileDeal .. | .tileRetire .. | .regionRetire ..
  | .quiescenceEvent .. | .routeHotClear .. | .replicationRequest .. | .messageArrival .. | .messageRetry ..
  | .selector .. | .stealAttempt .. | .agingLift .. | .armUnspill .. | .contextArrival .. | .codeletCounterUpdate ..
  | .writePerform .. | .memoryReply .. | .pendingResultWrite .. | .bfmtUpdate .. | .streamPrefetch ..
  | .decompBlock .. | .copyCompletion .. | .encodeSegment .. | .imageBuild .. | .atomReplacedNotice ..
  | .noticeResend .. | .noticeAck .. | .holdExpiry .. | .gaussianPairArrival .. | .tileSetOpen .. | .tileSetClose ..
  | .deviceFencedFromDomain .. | .trapTake .. | .firingHalt .. | .watchdog .. | .streamWait .. | .copyFull ..
  | .memReplyLimit .. | .waitwLimit .. | .mqwaitLimit .. | .bwaitLimit .. | .flitRetry .. | .keagusPortTrain ..
  | .keagusPortDown .. | .powerOn .. | .powerDown .. | .thermalSample .. | .lifetimeUpdate .. | .histogramSample ..
  | .dieStop .. | .lossOfPower .. | .memoryError .. | .unknownOpcode .. => 0

/-- The instruction of a table word: the table does not say which of the two words of a pair a row's word is, and the maps
overlap, so it is read as a word A (with word B 0) and as a word B beside a word-A NOP, and where both are legal the reading
stands whose row fixes more of its bits (log 5). -/
def tablePair (w : Word) : List Byte :=
  let asA := bytesOfWord w ++ bytesOfWord 0
  let asB := bytesOfWord 0 ++ bytesOfWord w
  match decodeBytes asA, decodeBytes asB with
  | .ok (⟨a, _⟩, _), .ok (⟨_, some b⟩, _) => if b.fixedBits ≤ a.fixedBits then asA else asB
  | .error _, .ok _ => asB
  | _, _ => asA

/-- The instruction the decoder reads from a table word of `nbits` bits. -/
def decodeTableWord (nbits w : Nat) : Option Instr :=
  if nbits = 32 ∧ w < 2 ^ 32 then
    match decodeBytes (tablePair (BitVec.ofNat 32 w)) with
    | .ok (⟨.nopA, some i⟩, _) => some (if i = .nopB then .nopA else i)
    | .ok (⟨a, _⟩, _) => some a
    | .error _ => none
  else none

/-- The L bit of word A (R95). -/
def lbit (lit : Option Word) : BitVec 1 := if lit.isSome then 1#1 else 0#1

/-- The literal that stands as word B of an instruction whose L is 1 (R99). -/
def Instr.literal : Instr → Option Word

  | .endFiring lit => lit
  | .endrFiring lit => lit
  | .ret lit => lit
  | .jmpi lit _ => lit
  | .spec lit _ => lit
  | .scommit lit _ => lit
  | .sabort lit => lit
  | .selb lit _ => lit
  | .prio lit _ => lit
  | .safeL _ _ _ lit => some lit
  | .idem lit => lit
  | .beq lit _ _ _ => lit
  | .bne lit _ _ _ => lit
  | .blt lit _ _ _ => lit
  | .bge lit _ _ _ => lit
  | .bltu lit _ _ _ => lit
  | .bgeu lit _ _ _ => lit
  | .bz lit _ _ => lit
  | .bnz lit _ _ => lit
  | .jmp lit _ => lit
  | .call lit _ => lit
  | .fork lit _ => lit
  | .join lit _ _ => lit
  | .mfs lit _ _ _ => lit
  | .mts lit _ _ => lit
  | .lclaim lit _ _ _ _ => lit
  | .lrel lit _ => lit
  | .mqwait lit _ _ => lit
  | .ld lit _ _ _ _ _ _ => lit
  | .lds lit _ _ _ _ _ _ => lit
  | .st lit _ _ _ _ _ => lit
  | .vld lit _ _ _ _ _ => lit
  | .vst lit _ _ _ _ _ => lit
  | .lda lit _ _ _ _ _ => lit
  | .stl lit _ _ _ _ => lit
  | .fence lit _ _ => lit
  | .aadd lit _ _ _ _ _ _ => lit
  | .aswap lit _ _ _ _ _ _ => lit
  | .acas lit _ _ _ _ _ _ => lit
  | .amin lit _ _ _ _ _ _ => lit
  | .amax lit _ _ _ _ _ _ => lit
  | .aand lit _ _ _ _ _ _ => lit
  | .aor lit _ _ _ _ _ _ => lit
  | .axor lit _ _ _ _ _ _ => lit
  | .pref lit _ => lit
  | .sbind lit _ _ _ _ => lit
  | .sfree lit _ => lit
  | .sstat lit _ _ => lit
  | .xpush lit _ _ => lit
  | .xtry lit _ _ _ => lit
  | .xstat lit _ => lit
  | .send lit _ _ _ _ => lit
  | .sendv lit _ _ _ _ => lit
  | .recv lit _ _ _ => lit
  | .peek lit _ _ _ => lit
  | .chen lit _ _ => lit
  | .chdis lit _ _ => lit
  | .chpnd lit _ _ _ => lit
  | .waitw lit _ _ _ _ _ => lit
  | .armw lit _ _ => lit
  | .depdec lit _ _ => lit
  | .depset lit _ _ _ _ => lit
  | .senda lit _ _ _ _ => lit
  | .encx lit _ _ _ _ => lit
  | .dinst lit _ _ _ _ => lit
  | .dstat lit _ _ _ => lit
  | .imres lit _ _ _ _ => lit
  | .drepl lit _ _ _ _ => lit
  | .dsync lit _ _ _ _ => lit
  | .holdr lit _ _ _ => lit
  | .migrate lit _ _ => lit
  | .spawn lit _ _ _ _ => lit
  | .ctxld lit _ _ _ => lit
  | .gjoin lit _ _ _ _ => lit
  | .gelim lit _ _ => lit
  | .gdamp lit _ _ => lit
  | .gsend lit _ _ => lit
  | .gbel lit _ _ _ => lit
  | .barr lit _ _ _ => lit
  | .barrInit lit _ _ _ => lit
  | .barrFree lit _ _ _ => lit
  | .barrDump lit _ _ _ => lit
  | .bwait lit _ _ => lit
  | .bstat lit _ _ _ _ _ => lit
  | .ttake lit _ _ _ => lit
  | .tsteal lit _ _ _ _ => lit
  | .tdone lit _ _ _ => lit
  | .trap lit _ _ => lit
  | .tret lit => lit
  | .brk lit _ => lit
  | .halt lit _ => lit
  | .hwinr lit _ _ _ => lit
  | .hwinw lit _ _ => lit
  | .hresume lit _ _ => lit
  | .ckill lit _ _ => lit
  | _ => none

/-- Whether an instruction is a word A (R109), a word B (R110), or no word at all. -/
inductive Slot where
  | wordA | wordB | noWord
  deriving DecidableEq, Repr

/-- The word of an instruction, from the encoding tables (R95, R100, R109, R110): its fields from bit 31 down. The
steps that are not instruction words have none. -/
def encode : Instr → Option Word
  | .nopA => some (0#32)
  | .endFiring lit => some (lbit lit ++ 64#31)
  | .endrFiring lit => some (lbit lit ++ 128#31)
  | .ret lit => some (lbit lit ++ 192#31)
  | .jmpi lit a => some (lbit lit ++ 0#6 ++ a ++ 256#20)
  | .spec lit d => some (lbit lit ++ 0#6 ++ d ++ 320#20)
  | .scommit lit d => some (lbit lit ++ 0#6 ++ d ++ 384#20)
  | .sabort lit => some (lbit lit ++ 448#31)
  | .selb lit a => some (lbit lit ++ 0#6 ++ a ++ 512#20)
  | .prio lit c => some (lbit lit ++ 144#29 ++ c)
  | .safe => some (640#32)
  | .safeL a b c _ => some (64#7 ++ a ++ b ++ 20#10 ++ c)
  | .idem lit => some (lbit lit ++ 704#31)
  | .beq lit a b d => some (lbit lit ++ 1#6 ++ a ++ b ++ 0#3 ++ d)
  | .bne lit a b d => some (lbit lit ++ 1#6 ++ a ++ b ++ 1#3 ++ d)
  | .blt lit a b d => some (lbit lit ++ 1#6 ++ a ++ b ++ 2#3 ++ d)
  | .bge lit a b d => some (lbit lit ++ 1#6 ++ a ++ b ++ 3#3 ++ d)
  | .bltu lit a b d => some (lbit lit ++ 1#6 ++ a ++ b ++ 4#3 ++ d)
  | .bgeu lit a b d => some (lbit lit ++ 1#6 ++ a ++ b ++ 5#3 ++ d)
  | .bz lit a d => some (lbit lit ++ 1#6 ++ a ++ 6#8 ++ d)
  | .bnz lit a d => some (lbit lit ++ 1#6 ++ a ++ 7#8 ++ d)
  | .jmp lit d => some (lbit lit ++ 2#6 ++ d)
  | .call lit d => some (lbit lit ++ 3#6 ++ d)
  | .fork lit d => some (lbit lit ++ 4#6 ++ d)
  | .join lit a d => some (lbit lit ++ 5#6 ++ a ++ 0#8 ++ d)
  | .rep a x y z s => some (6#7 ++ a ++ 0#9 ++ x ++ y ++ z ++ s ++ 0#4)
  | .mfs lit d c n => some (lbit lit ++ 7#6 ++ d ++ 0#5 ++ c ++ n)
  | .mts lit a n => some (lbit lit ++ 8#6 ++ a ++ 0#9 ++ n)
  | .lclaim lit d a c f => some (lbit lit ++ 9#6 ++ d ++ a ++ c ++ 0#5 ++ f)
  | .lrel lit a => some (lbit lit ++ 9#6 ++ a ++ 64#20)
  | .mqwait lit a b => some (lbit lit ++ 9#6 ++ a ++ b ++ 128#15)
  | .ld lit t b c i z o => some (lbit lit ++ 16#6 ++ t ++ b ++ c ++ i ++ z ++ o)
  | .lds lit t b c i z o => some (lbit lit ++ 17#6 ++ t ++ b ++ c ++ i ++ z ++ o)
  | .st lit t b c z o => some (lbit lit ++ 18#6 ++ t ++ b ++ c ++ 0#1 ++ z ++ o)
  | .vld lit t b c i o => some (lbit lit ++ 19#6 ++ t ++ b ++ c ++ i ++ 0#2 ++ o)
  | .vst lit t b c p o => some (lbit lit ++ 20#6 ++ t ++ b ++ c ++ p ++ o)
  | .lda lit d b c s z => some (lbit lit ++ 21#6 ++ d ++ b ++ c ++ 0#5 ++ s ++ z)
  | .stl lit a b s z => some (lbit lit ++ 22#6 ++ a ++ b ++ 0#9 ++ s ++ z)
  | .fence lit s k => some (lbit lit ++ 12058624#25 ++ s ++ k)
  | .aadd lit a b c s o z => some (lbit lit ++ 24#6 ++ a ++ b ++ c ++ 0#5 ++ s ++ o ++ z)
  | .aswap lit a b c s o z => some (lbit lit ++ 24#6 ++ a ++ b ++ c ++ 1#5 ++ s ++ o ++ z)
  | .acas lit a b c s o z => some (lbit lit ++ 24#6 ++ a ++ b ++ c ++ 2#5 ++ s ++ o ++ z)
  | .amin lit a b c s o z => some (lbit lit ++ 24#6 ++ a ++ b ++ c ++ 3#5 ++ s ++ o ++ z)
  | .amax lit a b c s o z => some (lbit lit ++ 24#6 ++ a ++ b ++ c ++ 4#5 ++ s ++ o ++ z)
  | .aand lit a b c s o z => some (lbit lit ++ 24#6 ++ a ++ b ++ c ++ 5#5 ++ s ++ o ++ z)
  | .aor lit a b c s o z => some (lbit lit ++ 24#6 ++ a ++ b ++ c ++ 6#5 ++ s ++ o ++ z)
  | .axor lit a b c s o z => some (lbit lit ++ 24#6 ++ a ++ b ++ c ++ 7#5 ++ s ++ o ++ z)
  | .gather d b c z i => some (25#7 ++ d ++ b ++ c ++ 0#5 ++ z ++ i)
  | .scadd a b c z i => some (25#7 ++ a ++ b ++ c ++ 1#5 ++ z ++ i)
  | .tinv a x => some (26#7 ++ a ++ 0#19 ++ x)
  | .pref lit b => some (lbit lit ++ 832#11 ++ b ++ 64#15)
  | .sbind lit s b u k => some (lbit lit ++ 32#6 ++ s ++ b ++ 0#12 ++ u ++ k)
  | .sfree lit s => some (lbit lit ++ 32#6 ++ s ++ 64#20)
  | .sstat lit d s => some (lbit lit ++ 32#6 ++ d ++ s ++ 128#15)
  | .xpush lit a c => some (lbit lit ++ 33#6 ++ a ++ 0#9 ++ c ++ 0#6)
  | .xtry lit a d c => some (lbit lit ++ 33#6 ++ a ++ d ++ 0#4 ++ c ++ 1#6)
  | .xstat lit d => some (lbit lit ++ 1056#11 ++ d ++ 2#15)
  | .send lit t a e c => some (lbit lit ++ 36#6 ++ t ++ a ++ e ++ c ++ 0#6)
  | .sendv lit t s e c => some (lbit lit ++ 36#6 ++ t ++ s ++ e ++ c ++ 1#6)
  | .recv lit d e c => some (lbit lit ++ 36#6 ++ d ++ 0#5 ++ e ++ c ++ 2#6)
  | .peek lit d e c => some (lbit lit ++ 36#6 ++ d ++ 0#5 ++ e ++ c ++ 3#6)
  | .chen lit d a => some (lbit lit ++ 37#6 ++ d ++ a ++ 0#15)
  | .chdis lit d a => some (lbit lit ++ 37#6 ++ d ++ a ++ 64#15)
  | .chpnd lit d a m => some (lbit lit ++ 37#6 ++ d ++ a ++ 32#13 ++ m)
  | .waitw lit a b c s k => some (lbit lit ++ 37#6 ++ a ++ b ++ c ++ 3#5 ++ s ++ k)
  | .armw lit a b => some (lbit lit ++ 37#6 ++ a ++ b ++ 256#15)
  | .depdec lit b s => some (lbit lit ++ 1184#11 ++ b ++ 5#9 ++ s ++ 0#2)
  | .depset lit a b s k => some (lbit lit ++ 37#6 ++ a ++ b ++ 6#9 ++ s ++ k)
  | .senda lit t s e c => some (lbit lit ++ 40#6 ++ t ++ s ++ e ++ c ++ 0#6)
  | .encx lit d s e c => some (lbit lit ++ 40#6 ++ d ++ s ++ e ++ c ++ 1#6)
  | .dinst lit d a e c => some (lbit lit ++ 40#6 ++ d ++ a ++ e ++ c ++ 2#6)
  | .dstat lit d e c => some (lbit lit ++ 40#6 ++ d ++ 0#5 ++ e ++ c ++ 3#6)
  | .imres lit d m e b => some (lbit lit ++ 41#6 ++ d ++ m ++ e ++ b ++ 0#6)
  | .drepl lit d a e c => some (lbit lit ++ 41#6 ++ d ++ a ++ e ++ c ++ 1#6)
  | .dsync lit d b e c => some (lbit lit ++ 41#6 ++ d ++ b ++ e ++ c ++ 2#6)
  | .holdr lit d e c => some (lbit lit ++ 41#6 ++ d ++ 0#5 ++ e ++ c ++ 3#6)
  | .migrate lit a c => some (lbit lit ++ 1344#11 ++ a ++ 0#4 ++ c ++ 0#6)
  | .spawn lit d a e c => some (lbit lit ++ 42#6 ++ d ++ a ++ e ++ c ++ 1#6)
  | .ctxld lit d e c => some (lbit lit ++ 42#6 ++ d ++ 0#5 ++ e ++ c ++ 2#6)
  | .gjoin lit d a e c => some (lbit lit ++ 44#6 ++ d ++ a ++ e ++ c ++ 0#6)
  | .gelim lit d e => some (lbit lit ++ 44#6 ++ d ++ 0#5 ++ e ++ 1#11)
  | .gdamp lit d e => some (lbit lit ++ 44#6 ++ d ++ 0#5 ++ e ++ 2#11)
  | .gsend lit d e => some (lbit lit ++ 44#6 ++ d ++ 0#5 ++ e ++ 3#11)
  | .gbel lit d a e => some (lbit lit ++ 44#6 ++ d ++ a ++ e ++ 4#11)
  | .barr lit a b c => some (lbit lit ++ 46#6 ++ a ++ b ++ c ++ 0#11)
  | .barrInit lit a b c => some (lbit lit ++ 46#6 ++ a ++ b ++ c ++ 1#11)
  | .barrFree lit a b c => some (lbit lit ++ 46#6 ++ a ++ b ++ c ++ 2#11)
  | .barrDump lit a b c => some (lbit lit ++ 46#6 ++ a ++ b ++ c ++ 3#11)
  | .bwait lit a b => some (lbit lit ++ 46#6 ++ a ++ b ++ 64#15)
  | .bstat lit d b c s m => some (lbit lit ++ 46#6 ++ d ++ b ++ c ++ 2#5 ++ s ++ m)
  | .ttake lit d b c => some (lbit lit ++ 46#6 ++ d ++ b ++ c ++ 192#11)
  | .tsteal lit d b c m => some (lbit lit ++ 46#6 ++ d ++ b ++ c ++ 8#6 ++ m)
  | .tdone lit d b c => some (lbit lit ++ 46#6 ++ d ++ b ++ c ++ 320#11)
  | .trap lit a n => some (lbit lit ++ 60#6 ++ a ++ 0#14 ++ n)
  | .tret lit => some (lbit lit ++ 2013265984#31)
  | .brk lit n => some (lbit lit ++ 31457282#25 ++ n)
  | .halt lit a => some (lbit lit ++ 60#6 ++ a ++ 192#20)
  | .hwinr lit d b c => some (lbit lit ++ 60#6 ++ d ++ b ++ c ++ 256#11)
  | .hwinw lit a b => some (lbit lit ++ 60#6 ++ a ++ b ++ 320#15)
  | .hresume lit a b => some (lbit lit ++ 60#6 ++ a ++ b ++ 384#15)
  | .ckill lit b r => some (lbit lit ++ 1920#11 ++ b ++ 224#14 ++ r)
  | .nopB => some (0#32)
  | .add d a b c w => some (1#6 ++ d ++ a ++ b ++ c ++ 0#5 ++ w)
  | .sub d a b c w => some (1#6 ++ d ++ a ++ b ++ c ++ 1#5 ++ w)
  | .and d a b c w => some (1#6 ++ d ++ a ++ b ++ c ++ 2#5 ++ w)
  | .or d a b c w => some (1#6 ++ d ++ a ++ b ++ c ++ 3#5 ++ w)
  | .xor d a b c w => some (1#6 ++ d ++ a ++ b ++ c ++ 4#5 ++ w)
  | .andn d a b c w => some (1#6 ++ d ++ a ++ b ++ c ++ 5#5 ++ w)
  | .shl d a b c w => some (1#6 ++ d ++ a ++ b ++ c ++ 6#5 ++ w)
  | .shr d a b c w => some (1#6 ++ d ++ a ++ b ++ c ++ 7#5 ++ w)
  | .sar d a b c w => some (1#6 ++ d ++ a ++ b ++ c ++ 8#5 ++ w)
  | .rol d a b c w => some (1#6 ++ d ++ a ++ b ++ c ++ 9#5 ++ w)
  | .min d a b c w => some (1#6 ++ d ++ a ++ b ++ c ++ 10#5 ++ w)
  | .max d a b c w => some (1#6 ++ d ++ a ++ b ++ c ++ 11#5 ++ w)
  | .minu d a b c w => some (1#6 ++ d ++ a ++ b ++ c ++ 12#5 ++ w)
  | .maxu d a b c w => some (1#6 ++ d ++ a ++ b ++ c ++ 13#5 ++ w)
  | .slt d a b c w => some (1#6 ++ d ++ a ++ b ++ c ++ 14#5 ++ w)
  | .sltu d a b c w => some (1#6 ++ d ++ a ++ b ++ c ++ 15#5 ++ w)
  | .sel d a b c w => some (1#6 ++ d ++ a ++ b ++ c ++ 16#5 ++ w)
  | .clz d a c w => some (1#6 ++ d ++ a ++ 0#5 ++ c ++ 17#5 ++ w)
  | .ctz d a c w => some (1#6 ++ d ++ a ++ 0#5 ++ c ++ 18#5 ++ w)
  | .popc d a c w => some (1#6 ++ d ++ a ++ 0#5 ++ c ++ 19#5 ++ w)
  | .bswap d a c w => some (1#6 ++ d ++ a ++ 0#5 ++ c ++ 20#5 ++ w)
  | .extr d a b c w => some (1#6 ++ d ++ a ++ b ++ c ++ 21#5 ++ w)
  | .insb d a b c w => some (1#6 ++ d ++ a ++ b ++ c ++ 22#5 ++ w)
  | .lea d a b c w => some (1#6 ++ d ++ a ++ b ++ c ++ 23#5 ++ w)
  | .mul d a b c w => some (2#6 ++ d ++ a ++ b ++ c ++ 0#5 ++ w)
  | .mulh d a b c w => some (2#6 ++ d ++ a ++ b ++ c ++ 1#5 ++ w)
  | .mulhu d a b c w => some (2#6 ++ d ++ a ++ b ++ c ++ 2#5 ++ w)
  | .div d a b c w => some (2#6 ++ d ++ a ++ b ++ c ++ 3#5 ++ w)
  | .divu d a b c w => some (2#6 ++ d ++ a ++ b ++ c ++ 4#5 ++ w)
  | .rem d a b c w => some (2#6 ++ d ++ a ++ b ++ c ++ 5#5 ++ w)
  | .remu d a b c w => some (2#6 ++ d ++ a ++ b ++ c ++ 6#5 ++ w)
  | .fadd d a b c w => some (3#6 ++ d ++ a ++ b ++ c ++ 0#5 ++ w)
  | .fsub d a b c w => some (3#6 ++ d ++ a ++ b ++ c ++ 1#5 ++ w)
  | .fmul d a b c w => some (3#6 ++ d ++ a ++ b ++ c ++ 2#5 ++ w)
  | .ffma d a b c w => some (3#6 ++ d ++ a ++ b ++ c ++ 3#5 ++ w)
  | .fdiv d a b c w => some (3#6 ++ d ++ a ++ b ++ c ++ 4#5 ++ w)
  | .fsqrt d a c w => some (3#6 ++ d ++ a ++ 0#5 ++ c ++ 5#5 ++ w)
  | .fmin d a b c w => some (3#6 ++ d ++ a ++ b ++ c ++ 6#5 ++ w)
  | .fmax d a b c w => some (3#6 ++ d ++ a ++ b ++ c ++ 7#5 ++ w)
  | .fcmpEq d a b c w => some (3#6 ++ d ++ a ++ b ++ c ++ 8#5 ++ w)
  | .fcmpLt d a b c w => some (3#6 ++ d ++ a ++ b ++ c ++ 9#5 ++ w)
  | .fcmpLe d a b c w => some (3#6 ++ d ++ a ++ b ++ c ++ 10#5 ++ w)
  | .fcvt d a b c w => some (3#6 ++ d ++ a ++ b ++ c ++ 11#5 ++ w)
  | .fclass d a c w => some (3#6 ++ d ++ a ++ 0#5 ++ c ++ 12#5 ++ w)
  | .addi d a i => some (8#6 ++ d ++ a ++ i)
  | .andi d a i => some (9#6 ++ d ++ a ++ i)
  | .ori d a i => some (10#6 ++ d ++ a ++ i)
  | .xori d a i => some (11#6 ++ d ++ a ++ i)
  | .shli d a n => some (12#6 ++ d ++ a ++ 0#10 ++ n)
  | .shri d a n => some (13#6 ++ d ++ a ++ 0#10 ++ n)
  | .sari d a n => some (14#6 ++ d ++ a ++ 0#10 ++ n)
  | .lui d i => some (15#6 ++ d ++ 0#5 ++ i)
  | .vadd d a b p c t => some (16#6 ++ d ++ a ++ b ++ p ++ c ++ t)
  | .vsub d a b p c t => some (17#6 ++ d ++ a ++ b ++ p ++ c ++ t)
  | .vmul d a b p c t => some (18#6 ++ d ++ a ++ b ++ p ++ c ++ t)
  | .vmadd d a b p c t => some (19#6 ++ d ++ a ++ b ++ p ++ c ++ t)
  | .vmin d a b p c t => some (20#6 ++ d ++ a ++ b ++ p ++ c ++ t)
  | .vmax d a b p c t => some (21#6 ++ d ++ a ++ b ++ p ++ c ++ t)
  | .vand d a b p c => some (22#6 ++ d ++ a ++ b ++ p ++ c ++ 0#4)
  | .vor d a b p c => some (23#6 ++ d ++ a ++ b ++ p ++ c ++ 0#4)
  | .vxor d a b p c => some (24#6 ++ d ++ a ++ b ++ p ++ c ++ 0#4)
  | .vshl d a b p c t => some (25#6 ++ d ++ a ++ b ++ p ++ c ++ t)
  | .vshr d a b p c t => some (26#6 ++ d ++ a ++ b ++ p ++ c ++ t)
  | .vsar d a b p c t => some (27#6 ++ d ++ a ++ b ++ p ++ c ++ t)
  | .vabs d a p c t => some (28#6 ++ d ++ a ++ 0#5 ++ p ++ c ++ t)
  | .vneg d a p c t => some (29#6 ++ d ++ a ++ 0#5 ++ p ++ c ++ t)
  | .vsadd d a b p c t => some (30#6 ++ d ++ a ++ b ++ p ++ c ++ t)
  | .vfadd d a b p c t => some (32#6 ++ d ++ a ++ b ++ p ++ c ++ t)
  | .vfsub d a b p c t => some (33#6 ++ d ++ a ++ b ++ p ++ c ++ t)
  | .vfmul d a b p c t => some (34#6 ++ d ++ a ++ b ++ p ++ c ++ t)
  | .vfma d a b p c t => some (35#6 ++ d ++ a ++ b ++ p ++ c ++ t)
  | .vfdiv d a b p c t => some (36#6 ++ d ++ a ++ b ++ p ++ c ++ t)
  | .vfsqrt d a p c t => some (37#6 ++ d ++ a ++ 0#5 ++ p ++ c ++ t)
  | .vfmin d a b p c t => some (38#6 ++ d ++ a ++ b ++ p ++ c ++ t)
  | .vfmax d a b p c t => some (39#6 ++ d ++ a ++ b ++ p ++ c ++ t)
  | .vdot4 d a b p c t => some (40#6 ++ d ++ a ++ b ++ p ++ c ++ t)
  | .vred d a p c t => some (41#6 ++ d ++ a ++ 0#5 ++ p ++ c ++ t)
  | .vcmp d a b p c t => some (42#6 ++ d ++ a ++ b ++ p ++ c ++ t)
  | .vsel d a b p c t => some (43#6 ++ d ++ a ++ b ++ p ++ c ++ t)
  | .vcvt d a p c t => some (44#6 ++ d ++ a ++ 0#5 ++ p ++ c ++ t)
  | .vqnt d a c t => some (45#6 ++ d ++ a ++ 0#8 ++ c ++ t)
  | .vdqn d a c t => some (46#6 ++ d ++ a ++ 0#8 ++ c ++ t)
  | .vperm d a b p c t => some (47#6 ++ d ++ a ++ b ++ p ++ c ++ t)
  | .vbcast d a p c t => some (48#6 ++ d ++ a ++ 0#5 ++ p ++ c ++ t)
  | .vmovs d a c t => some (49#6 ++ d ++ a ++ 0#8 ++ c ++ t)
  | .vinss d a b p c t => some (50#6 ++ d ++ a ++ b ++ p ++ c ++ t)
  | .vtopk d a b p c t => some (51#6 ++ d ++ a ++ b ++ p ++ c ++ t)
  | .vcmpr d a p c t => some (52#6 ++ d ++ a ++ 0#5 ++ p ++ c ++ t)
  | .vhash d a p c t => some (53#6 ++ d ++ a ++ 0#5 ++ p ++ c ++ t)
  | .vbcmp d a b p c t => some (54#6 ++ d ++ a ++ b ++ p ++ c ++ t)
  | .imacc d p c => some (55#6 ++ d ++ 0#10 ++ p ++ c ++ 0#4)
  | .pand d a b c => some (62#6 ++ d ++ a ++ b ++ 0#3 ++ c ++ 0#4)
  | .por d a b c => some (62#6 ++ d ++ a ++ b ++ 0#3 ++ c ++ 1#4)
  | .pxor d a b c => some (62#6 ++ d ++ a ++ b ++ 0#3 ++ c ++ 2#4)
  | .pnot d a c => some (62#6 ++ d ++ a ++ 0#8 ++ c ++ 3#4)
  | .pcnt d a c => some (62#6 ++ d ++ a ++ 0#8 ++ c ++ 4#4)
  | .pset d c => some (62#6 ++ d ++ 0#13 ++ c ++ 5#4)
  | _ => none

/-- Where an instruction's word stands in its pair. -/
def Instr.slot : Instr → Slot
  | .nopA | .endFiring .. | .endrFiring .. | .ret .. | .jmpi .. | .spec .. | .scommit .. | .sabort ..
  | .selb .. | .prio .. | .safe | .safeL .. | .idem .. | .beq .. | .bne .. | .blt .. | .bge .. | .bltu ..
  | .bgeu .. | .bz .. | .bnz .. | .jmp .. | .call .. | .fork .. | .join .. | .rep .. | .mfs .. | .mts ..
  | .lclaim .. | .lrel .. | .mqwait .. | .ld .. | .lds .. | .st .. | .vld .. | .vst .. | .lda .. | .stl ..
  | .fence .. | .aadd .. | .aswap .. | .acas .. | .amin .. | .amax .. | .aand .. | .aor .. | .axor ..
  | .gather .. | .scadd .. | .tinv .. | .pref .. | .sbind .. | .sfree .. | .sstat .. | .xpush .. | .xtry ..
  | .xstat .. | .send .. | .sendv .. | .recv .. | .peek .. | .chen .. | .chdis .. | .chpnd .. | .waitw ..
  | .armw .. | .depdec .. | .depset .. | .senda .. | .encx .. | .dinst .. | .dstat .. | .imres .. | .drepl ..
  | .dsync .. | .holdr .. | .migrate .. | .spawn .. | .ctxld .. | .gjoin .. | .gelim .. | .gdamp ..
  | .gsend .. | .gbel .. | .barr .. | .barrInit .. | .barrFree .. | .barrDump .. | .bwait .. | .bstat ..
  | .ttake .. | .tsteal .. | .tdone .. | .trap .. | .tret .. | .brk .. | .halt .. | .hwinr .. | .hwinw ..
  | .hresume .. | .ckill .. => .wordA
  | .nopB | .add .. | .sub .. | .and .. | .or .. | .xor .. | .andn .. | .shl .. | .shr .. | .sar .. | .rol ..
  | .min .. | .max .. | .minu .. | .maxu .. | .slt .. | .sltu .. | .sel .. | .clz .. | .ctz .. | .popc ..
  | .bswap .. | .extr .. | .insb .. | .lea .. | .mul .. | .mulh .. | .mulhu .. | .div .. | .divu .. | .rem ..
  | .remu .. | .fadd .. | .fsub .. | .fmul .. | .ffma .. | .fdiv .. | .fsqrt .. | .fmin .. | .fmax ..
  | .fcmpEq .. | .fcmpLt .. | .fcmpLe .. | .fcvt .. | .fclass .. | .addi .. | .andi .. | .ori .. | .xori ..
  | .shli .. | .shri .. | .sari .. | .lui .. | .vadd .. | .vsub .. | .vmul .. | .vmadd .. | .vmin ..
  | .vmax .. | .vand .. | .vor .. | .vxor .. | .vshl .. | .vshr .. | .vsar .. | .vabs .. | .vneg ..
  | .vsadd .. | .vfadd .. | .vfsub .. | .vfmul .. | .vfma .. | .vfdiv .. | .vfsqrt .. | .vfmin .. | .vfmax ..
  | .vdot4 .. | .vred .. | .vcmp .. | .vsel .. | .vcvt .. | .vqnt .. | .vdqn .. | .vperm .. | .vbcast ..
  | .vmovs .. | .vinss .. | .vtopk .. | .vcmpr .. | .vhash .. | .vbcmp .. | .imacc .. | .pand .. | .por ..
  | .pxor .. | .pnot .. | .pcnt .. | .pset .. => .wordB
  | _ => .noWord

end Sys2Proof
end

