-- ==== Sys2Proof/Machine/State.lean ====
section
/-! DEFINITION. The whole machine as plain data: the cores and their firings, the cells, the dies, the regions, the
functions of the host interface, every message and write under way, and memory. The tables `Tab` are sparse: a
number that stands in none of a table's pairs holds the default, so that 8,192 idle cores cost nothing. -/

namespace Sys2Proof.Machine

/-- A sparse table: (key, value) pairs in strictly rising keys. Read and written with `tabGet` and `tabSet`. -/
abbrev Tab (α : Type) := List (Nat × α)

/-- The registers that instructions name: `g0`–`g31` (R1), `v0`–`v15` and `p0`–`p7` (R162). -/
structure Regs where
  g : Vector Dword 32
  v : Vector VReg 16
  p : Vector PReg 8
  deriving DecidableEq, Repr

/-- One register write that a pending result will make (R103). A vector write keeps the bits outside its mask. -/
inductive RegWrite where
  | g (r : Reg) (val : Dword)
  | v (r : Reg) (val mask : VReg)
  | p (r : BitVec 3) (val : PReg)
  deriving DecidableEq, Repr

/-- An issued word: what a replay needs (R107, R397). `ord` is its place in the firing's issue order, `base` the
number of words issued through its own pair (where its lookahead window begins, R19). -/
structure Issued where
  ord : Nat
  base : Nat
  la : Nat
  pc : Dword
  word : Nat
  instr : Instr
  regs : Regs
  /-- Its pair's 64 bits as fetched (R113). -/
  bits : Dword
  deriving DecidableEq, Repr

/-- The four kinds of trap of R397. -/
inductive TrapKind where
  | atIssue | afterIssue | fetch | trapInstr
  deriving DecidableEq, Repr

/-- A trap that a word or a fetch has raised (R396). -/
structure TrapReq where
  kind : TrapKind
  cause : Nat
  val : Dword
  who : Issued
  deriving DecidableEq, Repr

/-- What completes a pending result: its unit after a fixed number of cycles, or a reply from memory, from another
NI or from a barrier's home. -/
inductive PendKind where
  | unit | reply
  deriving DecidableEq, Repr

/-- A pending result (R103): the writes it will make, the FENV flags it will raise (R59), whether it is a scalar or
vector floating-point instruction, whether it acquires (R313), when it is due, and the trap it will raise instead. -/
structure Pend where
  who : Issued
  kind : PendKind
  writes : List RegWrite
  flags : BitVec 5
  fp : Bool
  acq : Bool
  issued : Nat
  due : Nat
  va : Dword
  /-- The aligned doublewords read, for the error reports of R424. -/
  dwords : List Nat
  /-- The trap that the reply brings, with the trap's value. -/
  fault : Option (Nat × Dword)
  /-- The reply has come, or its time is fixed: it is written when `due` is reached. -/
  ready : Bool
  /-- No reply will come (R425): only the limit of R122 ends the wait. -/
  lost : Bool
  deriving DecidableEq, Repr

/-- A halt that waits for earlier results (R112). -/
structure HaltReq where
  /-- The pair that the halt names. -/
  pc : Dword
  cause : Nat
  word : Nat
  detail : Dword
  /-- The pair's bits as fetched (R113). -/
  bits : Dword
  deriving DecidableEq, Repr

/-- A REP in progress (R174): its pair, count, stride and stepped fields, read once at its issue. -/
structure RepState where
  /-- The next iteration. -/
  k : Nat
  n : Nat
  stride : Nat
  stepD : Bool
  stepA : Bool
  stepB : Bool
  /-- The pair as fetched; its high half is word B. -/
  bits : Dword
  deriving DecidableEq, Repr

/-- The replay record of a trap level (R397). -/
structure Replay where
  words : List Issued
  resume : Dword
  rep : Option RepState
  deriving DecidableEq, Repr

/-- The five registers of a trap level (R395). -/
structure TrapBank where
  cause : Dword
  epc : Dword
  val : Dword
  status : Dword
  save : Dword
  deriving DecidableEq, Repr

/-- How the last word given to `exec` on this core ended. The model's own field: a pair issues whole or not at all
(R93), and the step looks here to see which it is. -/
inductive Out where
  | ok | hold | illegal (cause : Nat) | trapped
  deriving DecidableEq, Repr

/-- The waits that hold a pair at issue and have a bound of their own (R122). -/
inductive WaitKind where
  | stream (code : Nat) | copyFifo | mqwait | bwait
  deriving DecidableEq, Repr

/-- A bounded wait: its kind, the cycle it began, its limit in cycles, and the trap's value as last known. -/
structure Wait where
  kind : WaitKind
  since : Nat
  limit : Nat
  val : Dword
  /-- The barrier and episode of a BWAIT (R120, R384). -/
  handle : Dword
  episode : Nat
  deriving DecidableEq, Repr

/-- A firing's status. -/
inductive Status where
  | idle | running | halted (cause : Nat)
  deriving DecidableEq, Repr

/-- A fork arm (R129): the message of TYPE 7. -/
structure Arm where
  hdr : Dword
  pay : List Dword
  region : Nat
  deriving DecidableEq, Repr

/-- A record of a receive area (R317, R318). -/
inductive RecStatus where
  | queued | held | freed | pad
  deriving DecidableEq, Repr

/-- One record: its offset in the area, its size, its channel, and the mark of a coded message (R297). `rel` is the
release scope of its message and the sending core (R326). -/
structure AreaRec where
  off : Nat
  size : Nat
  ch : Nat
  st : RecStatus
  mark : Nat
  rel : Option (Nat × Nat)
  region : Nat
  /-- The region whose context this record carries, charged under R347. -/
  ctx : Option Nat
  /-- The tile that a tile message carries (R46, R84). -/
  tile : Option Nat
  /-- It is a quiescence event (R375, R419). -/
  quiet : Bool
  deriving DecidableEq, Repr

/-- A handler table entry (R35), with its wait timer and LIFT (R119). `since` is the cycle at which the timer
started, while EN and PEND are 1. -/
structure Entry where
  code : Dword
  cores : BitVec 8
  depth : Nat
  prod : Nat
  cls : Nat
  pend : Bool
  en : Bool
  /-- The four input slots: CNT, V, CH. -/
  slots : List (Nat × Bool × Nat)
  fires : BitVec 32
  since : Nat
  lift : Bool
  deriving DecidableEq, Repr

/-- What a firing is (R121, R127): the entry and key channel that started it, its classes, what it consumed and holds. -/
structure Firing where
  entry : Nat
  key : Nat
  region : Nat
  base : Nat
  cls : Nat
  /-- Offsets of the records it consumed at its start and by RECV, in order, with their channels. -/
  held : List (Nat × Nat)
  /-- The arm it consumed (entry 62). -/
  arm : Option Arm
  /-- Reserved send slots not yet used (R32). -/
  prodLeft : Nat
  /-- The region that a carried context is charged to (R346). -/
  ctx : Option Nat
  /-- Descriptor addresses of the tiles it holds, with IDEM (R391). -/
  tiles : List (Nat × Bool)
  /-- It holds the cell's speculation (R134). -/
  spec : Bool
  /-- Watchdog clock: cycles counted before `wdFrom`, and the whole periods already reported (R411). -/
  wdAcc : Nat
  wdFrom : Nat
  wdDone : Nat
  deriving DecidableEq, Repr

/-- A message under way, from the send that made it until it is placed, written or dropped (R32). -/
structure Msg where
  hdr : Dword
  pay : List Dword
  /-- Route tag of the destination (R41). -/
  dst : BitVec 32
  /-- The sending core, if a core sent it. -/
  src : Option Nat
  region : Nat
  /-- It occupies one of the sender's 32 outgoing slots (R32). -/
  slot : Bool
  /-- It is charged to MSGS of its region's path (R32). -/
  charged : Bool
  /-- Release scope (R326). -/
  rel : Option Nat
  /-- The region charged for the context it carries (R347). -/
  ctx : Option Nat
  /-- The SPAWN that awaits the answer: its core and issue number (R351). -/
  answer : Option (Nat × Nat)
  /-- The wait before the last resend, and the cycle of the next attempt (R320). -/
  back : Nat
  due : Nat
  /-- Refused and waiting for its backoff. -/
  refused : Bool
  /-- Issue number, so that a sender's messages to one channel keep their order (R320). -/
  seq : Nat
  /-- It is a quiescence event, which Q does not count (R375). -/
  quiet : Bool
  deriving DecidableEq, Repr

/-- A write that its core has made: one not yet performed at its home (R311), or one performed that some read may still return
(R201). -/
structure Write where
  core : Nat
  pa : Nat
  /-- The bytes from `pa` upwards; `none` where the write leaves one alone (R198), or where no read may return it any more. -/
  bytes : List (Option Byte)
  /-- The scopes at which it is a release, each with the number below which the core's own writes are carried (R202, R204). -/
  rel : List (Nat × Nat)
  /-- Its number among the writes of all cores. -/
  id : Nat
  /-- The writes of other cores that its core had observed when it wrote (R201, rule 2). -/
  known : List Nat
  deriving DecidableEq, Repr

/-- A stream descriptor as SBIND read it (R215, R216). -/
structure StreamDesc where
  base : Dword
  counts : List Nat
  strides : List Word
  decomp : Bool
  typ : Nat
  win : Nat
  subs : Nat
  deriving DecidableEq, Repr

/-- The fetching side of a stream (R217, R221, R229): the bytes fetched ahead, from byte `start` of the sequence; the
next block and its address for a coded stream; the failed blocks with their kind and extent in the sequence; a header
error; a fault met by the last fetch. -/
structure Feed where
  start : Nat
  buf : List Byte
  block : Nat
  blockAddr : Dword
  /-- Failed blocks: ordinal, kind, first byte and end of their output (R230). -/
  bad : List (Nat × Nat × Nat × Nat)
  hdrErr : Bool
  fault : Option (Nat × Dword)
  /-- Coded blocks delivered: where their output begins, UNC_LEN, the group size, and the block's address. -/
  blocks : List (Nat × Nat × Nat × Dword)
  deriving DecidableEq, Repr

/-- A bound stream register (R218–R223). -/
structure Stream where
  desc : StreamDesc
  feed : Feed
  bank : Nat
  shared : Option Nat
  pos : Nat
  pops : Nat
  badblk : Nat
  stalls : Nat
  fail : Bool
  /-- Blocks whose DECOMP_CHECK trap has been taken. -/
  trapped : List Nat
  deriving DecidableEq, Repr

/-- A subscriber of a shared stream: a core's stream register (code), or a core's matrix unit. `pos` is its place in
the sequence, `none` once it is past the end or unbound (R226). -/
structure Subscriber where
  core : Nat
  code : Option Nat
  pos : Option Nat
  deriving DecidableEq, Repr

/-- A shared stream (R225, R226). -/
structure Shared where
  id : Nat
  region : Nat
  die : Nat
  descPa : Nat
  desc : StreamDesc
  feed : Feed
  /-- The core whose die and region fetch it. -/
  core : Nat
  subs : List Subscriber
  deriving DecidableEq, Repr

/-- A copy request (R234): its four registers as pushed, the flag value, and who pushed it. `done` is the result of a
copy whose completion action waits for SELB (R241); `again` is where a copy that has been cut goes on, at its source
and its destination (R416). -/
structure CopyReq where
  src : Dword
  dst : Dword
  ctl : Dword
  target : Dword
  flag : Word
  cls : Nat
  region : Nat
  moved : Nat
  again : Option (Dword × Dword)
  done : Option (Nat × Nat)
  /-- The firing that pushed it still runs (R140). -/
  mine : Bool
  /-- A SELB has kept its bank: it is an ordinary request, whose registers still read as pushed (R137, R406). -/
  unbanked : Bool
  deriving DecidableEq, Repr

/-- What a validating store records with its slot (R243). -/
structure SlotOwner where
  region : Nat
  root : Nat
  cls : Nat
  deriving DecidableEq, Repr

/-- A row in a link FIFO (R263): sixteen decoded elements (bit patterns, or q − z in two's complement), its mode and region. -/
structure LinkRow where
  mode : Nat
  region : Nat
  elems : List Word
  deriving DecidableEq, Repr

/-- A matrix unit (R242–R263): accumulators m0–m3 (element (i, j) at bits 32(16i+j)), their types and marks, and the
sequencer. `ran` says that the command at HEAD has had its effect and only completes; `west` and `north` are the
FIFOs of rows that have come from those neighbours. -/
structure Matrix where
  acc : Vector AccBits 4
  marks : Vector (BitVec 256) 4
  isFp : Vector Bool 4
  valid : List (Nat × SlotOwner)
  done : BitVec 32
  err : Nat
  errSlot : Nat
  stopped : Bool
  zblk : Nat
  head : Nat
  drops : Nat
  discard : Bool
  ran : Bool
  due : Nat
  /-- The cycle since which the command at HEAD has waited for a link or a stream. -/
  linkSince : Option Nat
  /-- The next k-step of an MMA that has started, with the accumulator and marks as they stood, and the shared stream
  that it reads. -/
  step : Option Nat
  saved : AccBits × BitVec 256
  /-- The accumulators as the last completed command left them (R406). -/
  shown : Vector AccBits 4
  stream : Option Nat
  /-- Bytes that its commands have overwritten since the last MFENCE, with what stood there (R256). -/
  past : List (Nat × List Byte)
  west : List LinkRow
  north : List LinkRow
  deriving DecidableEq, Repr

/-- A Schur context (R363): the bound node's slice offset and target, its KIND and the dimensions of its slots, the joint
block J (η then Λ packed, R358), and the message M. -/
structure Schur where
  bound : Option (Nat × Nat)
  kind : Nat
  dims : List Nat
  j : List Word
  m : List Word
  valid : Bool
  settled : Bool
  deriving DecidableEq, Repr

/-- A resolution (R298): NB, the image slots (physical addresses) with their coefficients, or the escape's weight rows and
decoded segment. It joins the queue when the builds that it awaits (slot and SINCE) are made (R300). -/
structure Resolution where
  coded : Bool
  nb : Nat
  pairs : List (Nat × Half)
  rows : List Nat
  len : Nat
  xh : List Word
  /-- The IMRES that made it: the issue number whose gd waits for the builds. -/
  ord : Nat
  await : List (Nat × Nat)
  deriving DecidableEq, Repr

/-- An image build to be made on a core's matrix unit (R301). -/
structure Build where
  slotPa : Nat
  tagPa : Nat
  since : Nat
  atom : List Word
  rows : List Nat
  nb : Nat
  len : Nat
  deriving DecidableEq, Repr

/-- One core. -/
structure Core where
  regs : Regs
  fenv : Dword
  lacnt : Dword
  /-- SCHED without LASTCH, INH_V and INH (R118); `lastch` beside it. -/
  sched : Dword
  lastch : Nat
  /-- The least class that waits on this core at a peer's barrier, or in a peer's firing (R120). -/
  peerInh : Option Nat
  vl : Nat
  /-- The firing's floor in lanes (R165). -/
  floor : Nat
  /-- REPC.ITER (R168). -/
  iter : BitVec 16
  idempc : Dword
  tlevel : Nat
  banks : Vector TrapBank 2
  replays : Vector (Option Replay) 2
  status : Status
  pc : Dword
  /-- The 64 bits of the pair fetched last (R113). -/
  fetched : Dword
  /-- Where the firing goes on after the pair now issuing. -/
  npc : Dword
  /-- Words issued by the core so far (R19, R103): the place of the next word in issue order. -/
  words : Nat
  fir : Firing
  pend : List Pend
  /-- After-issue traps met and not yet taken, in issue order (R397). -/
  faults : List TrapReq
  halt : Option HaltReq
  wait : Option Wait
  /-- Stream registers whose read is held: each one's code, and the cycles in which the read was first and last held (R122). -/
  held : List (Nat × Nat × Nat)
  /-- Words that TRET is replaying (R402), and where the firing goes on after them. -/
  replay : Option Replay
  rep : Option RepState
  out : Out
  /-- The word that has already added to LACNT.VIOLATIONS while it is held (R104). -/
  violated : Option Nat
  /-- The cycle in which the core last tried to issue or to select, plus 1 (0 for never). -/
  tried : Nat
  /-- A FENCE `.acq` holds later accesses until earlier reads have returned: the issue number of the fence (R313). -/
  fence : Option Nat
  /-- FENCEs `.rel` in force: the scope of each, with the number below which the core's own writes are carried (R204). -/
  rels : List (Nat × Nat)
  /-- Writes of other cores that its reads have returned (R201, rule 1). -/
  seen : List Nat
  region : Option Nat
  entries : List Entry
  counts : Tab Nat
  /-- The receive area: H, T, and its records in area order (R318). -/
  head : Nat
  tail : Nat
  recs : List AreaRec
  arms : List Arm
  /-- Steal attempt outstanding (R131). -/
  stealing : Bool
  streams : Vector (Option Stream) 8
  copies : List CopyReq
  copyDone : BitVec 32
  copyErr : Nat
  copyDue : Nat
  epochA : Nat
  epochB : Nat
  mq : Matrix
  schur : Schur
  resq : List Resolution
  builds : List Build
  /-- Offsets of the spill records on the context and arm lists, in list order (R344). -/
  ctxList : List Nat
  armList : List Nat
  /-- A context switch of the core's region is pending (R412), or has stopped the core. -/
  switching : Bool
  frozen : Bool
  /-- STOP has come and takes effect before the next pair issues (R408). -/
  stop : Bool
  /-- The live mask of a SAFE point at which the firing was pre-empted (R139): g1–g15, v0–v15, p0–p7. -/
  safeMask : Option (BitVec 15 × BitVec 16 × BitVec 8)
  deriving DecidableEq, Repr

/-- An unmet demand for lanes (R167). -/
structure Demand where
  core : Nat
  cls : Nat
  lanes : Nat
  deriving DecidableEq, Repr

/-- A write of a cell register on its way (R161): it reaches the register at `due`. -/
structure SysWrite where
  num : Nat
  val : Dword
  due : Nat
  core : Nat
  deriving DecidableEq, Repr

/-- A watch of the watch table (R331). -/
structure Watch where
  pa : Nat
  exp : Word
  ch : Nat
  tag : Nat
  core : Nat
  cls : Nat
  region : Nat
  deriving DecidableEq, Repr

/-- One segment handed to a cell's encoder (R270, R279, R280), with the snapshot of its dictionary. -/
structure EncJob where
  core : Nat
  /-- ENCX: the issue number of the word whose gd waits; `gs` is the segment's address. -/
  encx : Option Nat
  gs : Dword
  x : List Word
  dict : Nat
  seg : Nat
  shade : Nat
  atoms : List (List Word × Word)
  len : Nat
  smax : Nat
  tauStop : Word
  tauEsc : Word
  cls : Nat
  dst : BitVec 32
  route : Nat
  region : Nat
  charged : Bool
  spec : Bool
  /-- The speculation that ENCX was issued in was discarded: its writes, which are speculative stores, go too (R136, R278). -/
  dropped : Bool
  /-- ENCX: bytes that later words of the core have written since, which its own writes do not undo (R106). -/
  rewritten : List (Nat × Nat)
  /-- The cycle in which the segment at the head is coded; 0 while others are ahead. -/
  due : Nat
  deriving DecidableEq, Repr

/-- A registered binding (R290): its physical address, its dictionary and region, and the pieces of its tag array. -/
structure Binding where
  key : Nat
  dict : Nat
  region : Nat
  tags : List (Nat × Nat)
  deriving DecidableEq, Repr

/-- A held message (R296). `mark` is not 0 once it is to be re-delivered and waits for room (R297). -/
structure Held where
  hdr : Dword
  pay : List Dword
  core : Nat
  dict : Nat
  retCh : Nat
  limit : Nat
  since : Nat
  shade : Nat
  mark : Nat
  deriving DecidableEq, Repr

/-- A cached translation (R193): the root of its tables, log2 of the size of its page, the page's number and the leaf entry. -/
structure Cached where
  root : Nat
  shift : Nat
  page : Nat
  entry : Nat
  deriving DecidableEq, Repr

/-- One cell: what its eight cores share. -/
structure Cell where
  demands : List Demand
  /-- Lanes set aside for a core's next claim (R167). -/
  aside : Tab Nat
  /-- SPECWIN (R133). -/
  specEn : Bool
  specBank : Nat
  specActive : Bool
  specOwner : Nat
  specConflict : Bool
  /-- Dirty lines of the window with the bytes of their shadows (R135). -/
  shadow : Tab (BitVec 256)
  /-- BFMT0–BFMT31 where not 0 (R51). -/
  bfmt : Tab Dword
  sysWrites : List SysWrite
  enc : List EncJob
  views : Tab Nat
  /-- The cell's translation cache, the newest first (R193). -/
  tlb : List Cached
  notices : List (Nat × Nat × Nat)
  bindings : List Binding
  holds : List Held
  watches : List Watch
  /-- A region has held the cell and no region holds it now: messages to it are dropped (R414, R419). -/
  freed : Bool
  deriving DecidableEq, Repr

/-- A distributor and its die (R81, R451). -/
structure Die where
  /-- Heartbeats have begun (R454, step 4), and the die has stopped of itself (R81). -/
  beating : Bool
  stopped : Bool
  beats : Nat
  /-- The counters of the four dies at this distributor's last sample. -/
  sampled : List Nat
  sampleAt : Nat
  beatAt : Nat
  temp : Nat
  /-- The cycle of the last reading of its temperature (R451). -/
  readAt : Nat
  refused : Nat
  deriving DecidableEq, Repr

/-- A tile descriptor that has left the state it shares with its region's other tiles (R386): STATE and TAKER. -/
structure TileDesc where
  tile : Nat
  st : Nat
  taker : Nat
  deriving DecidableEq, Repr

/-- A region as CREATE_REGION copied it, with its effective values (R23–R28), and its life (R83, R84, R418). -/
structure Region where
  fn : Nat
  parent : Option Nat
  kids : List Nat
  level : Nat
  /-- Physical address of its RCB, where STATUS is written. -/
  rcb : Nat
  cls : Nat
  restartable : Bool
  stealable : Bool
  cells : Nat
  lanes : Nat
  matrix : Nat
  sramKib : Nat
  msgs : Nat
  domain : Nat
  supervisor : Nat
  spawn : Nat
  image : List Dword
  dicts : BitVec 4096
  root : Nat
  ext : List Nat
  /-- EXT_X as programmed, before the rounding of R91. -/
  extX : Nat
  tile : List Nat
  spillBase : Nat
  spillSize : Nat
  /-- The translation root of the spill area's defining node (R343); SPILL_BASE is a physical address (R23: the
  defining node is the root of its tree, and bits 63:56 of the address are not 0). -/
  spillRoot : Nat
  spillPhys : Bool
  state : Nat
  done : List Nat
  tilesDone : Nat
  placed : List Nat
  dealing : List Nat
  /-- Tiles dealt and not retired, with the core they went to. -/
  dealt : List (Nat × Nat)
  /-- Every tile below `fresh` has been dealt once, and so have those of `ahead`; those of `redo` are to be dealt again. -/
  fresh : Nat
  ahead : List Nat
  redo : List Nat
  /-- The descriptor of tile 0, by its place among all descriptors; the descriptors that differ from the rest; and
  whether the rest are OFFERED or QUEUED (R386, R389). -/
  descBase : Nat
  descs : List TileDesc
  offered : Bool
  /-- A barrier of a peer has opened the tile set (R389). -/
  peerOpen : Bool
  launchNs : Nat
  /-- The length of the device's record of overwritten bytes when the region was launched (R205). -/
  pastFrom : Nat
  usedCells : Nat
  usedSram : Nat
  usedMatrix : Nat
  usedMsgs : Nat
  usedCtx : Nat
  qevents : Nat
  /-- Q has risen above 0 since the last quiescence event (R375). -/
  qRose : Bool
  /-- The cycle since which Q has been 0 with an event to come. -/
  qZero : Option Nat
  /-- The cycle since which the conditions of retirement have held (R419): the probe wave that tests them began then. -/
  doneSince : Option Nat
  switched : Bool
  deriving DecidableEq, Repr

/-- A function's command page and what the firmware keeps for it (R72, R77, R80). -/
structure Fn where
  tail : Nat
  head : Nat
  hmqBase : Nat
  hmqSize : Nat
  hmqHead : Nat
  hmqTail : Nat
  hmqLost : Nat
  status : Dword
  slots : Tab Dword
  root : Option Nat
  measure : BitVec 384
  /-- MSI-X vectors raised: completions and queue entries (R73, R78). -/
  msix0 : Nat
  msix1 : Nat
  /-- A SWITCH_CONTEXT of this function under way (R414): its regions. -/
  switching : List Nat
  /-- The command's doublewords as it was read, and the records that a READ_COUNTERS has read so far (R73, R427). -/
  taken : List Nat
  counted : List (Nat × Nat)
  deriving DecidableEq, Repr

/-- One atom of the dictionary table (R292): its current version and its prior version. -/
structure AtomVer where
  cur : List Word
  nu : Word
  c : Nat
  prior : List Word
  pnu : Word
  p : Nat
  deriving DecidableEq, Repr

/-- An entry of the dictionary table (R266, R292). `owed` lists the notices not yet acknowledged: atom,
shade, and the subscriber's tag. -/
structure Dict where
  len : Nat
  k : Nat
  smax : Nat
  tauStop : Word
  tauEsc : Word
  /-- Physical address of the atom storage; its group size where it is Q8, none for FP16 (R267). -/
  atomPa : Nat
  q8 : Option Nat
  /-- The norm table's pieces: physical addresses and lengths. -/
  norms : List (Nat × Nat)
  /-- Physical address of the routing table; 0 for none. -/
  route : Nat
  /-- Subscribers, as route tags. -/
  subs : List Nat
  subCap : Nat
  subFull : Bool
  shade : Nat
  atoms : List AtomVer
  owed : List (Nat × Nat × Nat)
  deriving DecidableEq, Repr

/-- An atom-replaced notice on its way to a cell, named by its route tag (R293). -/
structure Notice where
  dict : Nat
  atom : Nat
  shade : Nat
  tag : Nat
  back : Nat
  due : Nat
  refused : Bool
  deriving DecidableEq, Repr

/-- An acknowledgement on its way to the owner (R293). -/
structure Ack where
  dict : Nat
  atom : Nat
  shade : Nat
  tag : Nat
  deriving DecidableEq, Repr

/-- A store to the report port (R79): the function, the record's address, and the region and die it came from. -/
structure Report where
  fn : Nat
  pa : Nat
  region : Nat
  die : Nat
  deriving DecidableEq, Repr

/-- An operation on a codelet counter on its way to its home (R335). -/
structure DepOp where
  pa : Nat
  /-- The value to set, the value to add, or none to decrement: (0, _) decrement, (1, v) set, (2, v) add. -/
  op : Nat
  val : Dword
  src : Nat
  cls : Nat
  region : Nat
  scope : Nat
  /-- The core whose DEPDEC or DEPSET it is; none for an engine's. -/
  core : Option Nat
  /-- The number that the next write had when it was made. -/
  id : Nat
  deriving DecidableEq, Repr

/-- A replication request at a distributor (R90, R304): dictionary, segment, region, and the binding's place when a
receiving cell asked (cell and the binding's physical address). -/
structure ReplReq where
  die : Nat
  dict : Nat
  seg : Nat
  region : Nat
  cell : Option Nat
  key : Nat
  deriving DecidableEq, Repr

/-- A member of a barrier (R379), with the stamp of its arrival and of its latest counted arrival. -/
structure Member where
  kind : Nat
  arr : Bool
  opn : Bool
  gone : Bool
  lag : Nat
  need : Nat
  got : Nat
  next : Nat
  id : Nat
  region : Nat
  late : Nat
  nb : List (BitVec 16)
  hist : List Nat
  stamp : Nat
  latest : Nat
  deriving DecidableEq, Repr

/-- A barrier object in use (R378). -/
structure Barrier where
  region : Nat
  episode : Nat
  arrived : Nat
  scope : Nat
  lth : Nat
  m : Nat
  n : Nat
  first : Nat
  doneAt : Nat
  opens : Nat
  members : List Member
  deriving DecidableEq, Repr

/-- A packet between this device and another: a message by its issue number, a write, a counter operation, or the reply to
a word of a core (R425). -/
inductive Packet where
  | msg (seq : Nat)
  | write (w : Write)
  | dep (o : DepOp)
  | reply (core ord : Nat)
  deriving DecidableEq, Repr

/-- A Keagus port (R453): trained, or down; the devices that it leads to, its partner first (R458); and the packet whose
flit fails now, with the times it has been asked for again (R425). -/
structure Port where
  trained : Bool
  reach : List Nat
  packet : Option Packet
  tries : Nat
  deriving DecidableEq, Repr

/-- How far bring-up has gone (R454): no power, no live die, the heartbeats begun and the firmware not yet ready, or ready. -/
inductive Power where
  | off | dead | starting | ready
  deriving DecidableEq, Repr

/-- The management controller's non-volatile store (R429): BOOTS, powered seconds, and the totals of every counter,
with the counters' values and the cycle of the last update; and the cycle of the last second of the histograms, with SEGS
and ESC as they stood then (R430). -/
structure Lifetime where
  boots : Nat
  seconds : Nat
  totals : Tab Nat
  last : Tab Nat
  updated : Nat
  second : Nat
  segs : Nat
  escs : Nat
  deriving DecidableEq, Repr

/-- What one switch of a region has saved (R414–R416): the cycle of the switch, its cells in order, its cores and
cells as they stood, and the messages of its cores that waited. -/
structure RegionSave where
  /-- The check value of the area that holds it (R415). -/
  crc : Nat
  cycle : Nat
  placed : List Nat
  cores : List (Nat × Core)
  cells : List (Nat × Cell)
  net : List Msg
  deriving DecidableEq, Repr

/-- The device. -/
structure State where
  cycle : Nat
  /-- The domain time base at cycle 0, in nanoseconds (R159). -/
  startNs : Nat
  /-- The core whose pair issues next. The model's own field. -/
  cur : Nat
  cores : Tab Core
  cells : Tab Cell
  dies : Vector Die 4
  live : BitVec 4
  master : Nat
  mem : List Host.Cell
  /-- Aligned doublewords that are uncorrectable, and those with a single-bit error (R421, R422). -/
  bad : List Nat
  soft : List Nat
  /-- Bytes overwritten while a region ran, the latest first: an address and the bytes that stood there (R205). -/
  past : List (Nat × List Byte)
  writes : List Write
  /-- Writes of cores that have been performed, with the bytes of them that a read may still return beside what the home holds (R201,
  R311). -/
  hist : List Write
  /-- The number of the next write of a core. The model's own field. -/
  nextWrite : Nat
  regions : Tab (Option Region)
  nextRegion : Nat
  /-- What each region's switches have saved, the latest first. -/
  saves : Tab (List RegionSave)
  fns : Tab Fn
  /-- The function served last (R73). -/
  lastFn : Nat
  net : List Msg
  seq : Nat
  depOps : List DepOp
  /-- Stores to the report port, in order (R79). -/
  reports : List Report
  /-- Retirements on their way to the master: region, tile, die (R418). -/
  retires : List (Nat × Nat × Nat)
  dicts : Tab (Option Dict)
  shared : List Shared
  nextShared : Nat
  noticeNet : List Notice
  acks : List Ack
  repl : List ReplReq
  hotAt : Nat
  barriers : Tab (Option Barrier)
  /-- Openings and closings of tile sets on their way to this device's regions (R389): the region, and true to open. -/
  tileNotices : List (Nat × Bool)
  /-- Tile descriptors given out so far (R386). -/
  nextDesc : Nat
  /-- The device's own number, the devices of its domain it can reach, and those it knows to be fenced (R41, R392, R458). -/
  device : Nat
  peers : List Nat
  fenced : List Nat
  /-- Devices that were peers and have left, whose descriptors a TDONE may still name (R391). -/
  left : List Nat
  /-- Dies that peers have fenced, as this device has learnt (R82, R376): a device and a die of it. -/
  peerDead : List (Nat × Nat)
  conflict : Bool
  ports : Tab Port
  counters : Tab Nat
  life : Lifetime
  power : Power
  /-- What the outside world does next, in order. The model's own field. -/
  inputs : List Instr
  /-- Draws made of the free values of `Config` so far. The model's own field. -/
  free : Nat
  /-- Which of the steps that could come next does come next; 0 when empty. The model's own field. -/
  oracle : List Nat
  deriving DecidableEq, Repr

/-! ### The values after reset -/

/-- Registers after reset: the spec states no value for `g`, `v` and `p`, and the model names 0 (DESIGN CHOICE, log 1). -/
def Regs.reset : Regs := ⟨Vector.replicate 32 0, Vector.replicate 16 0, Vector.replicate 8 0⟩

/-- A trap bank is 0 at reset (R395). -/
def TrapBank.reset : TrapBank := ⟨0, 0, 0, 0, 0⟩

/-- No firing. -/
def Firing.none : Firing := ⟨0, 0, 0, 0, 0, [], Option.none, 0, Option.none, [], false, 0, 0, 0⟩

/-- A handler entry of zeros (R35). -/
def Entry.zero : Entry := ⟨0, 0, 0, 0, 0, false, false, List.replicate 4 (0, false, 0), 0, 0, false⟩

/-- Accumulators are INT32 zeros without marks (R252, R454); MQSTAT and MQCTL are 0 (R245, R246). -/
def Matrix.reset : Matrix :=
  { acc := Vector.replicate 4 0, marks := Vector.replicate 4 0, isFp := Vector.replicate 4 false, valid := [], done := 0,
    err := 0, errSlot := 0, stopped := false, zblk := 0, head := 0, drops := 0, discard := false, ran := false, due := 0,
    linkSince := none, step := none, saved := (0, 0), shown := Vector.replicate 4 0, stream := none, past := [], west := [], north := [] }

/-- A cleared Schur context (R363). -/
def Schur.reset : Schur := ⟨none, 0, [], [], [], false, false⟩

/-- A core after reset. FENV, LACNT, REPC and the trap banks are 0; SCHED has STO_LOG 6, WLIM_LOG 10 and AGE
0x01_0000 (R57, R108, R118, R168, R395). The program counter has no stated value: 0 (DESIGN CHOICE, log 1). -/
def Core.reset : Core :=
  { regs := Regs.reset, fenv := 0, lacnt := 0, sched := 0x0000_6A00_0001_0000, lastch := 0, peerInh := none, vl := 0, floor := 0,
    iter := 0, idempc := 0, tlevel := 0, banks := Vector.replicate 2 TrapBank.reset, replays := Vector.replicate 2 none,
    status := .idle, pc := 0, fetched := 0, npc := 0, words := 0, fir := Firing.none, pend := [], faults := [], halt := none,
    wait := none, held := [], replay := none, rep := none, out := .ok, violated := none, tried := 0, fence := none, rels := [], seen := [],
    region := none, entries := List.replicate 64 Entry.zero, counts := [], head := 0, tail := 0, recs := [], arms := [],
    stealing := false, streams := Vector.replicate 8 none, copies := [], copyDone := 0, copyErr := 0,
    copyDue := 0, epochA := 0, epochB := 0, mq := Matrix.reset, schur := Schur.reset, resq := [], builds := [],
    ctxList := [], armList := [], switching := false, frozen := false, stop := false, safeMask := none }

/-- A cell after reset: SPECWIN and every BFMT are 0 (R51, R133). -/
def Cell.reset : Cell :=
  { demands := [], aside := [], specEn := false, specBank := 0, specActive := false, specOwner := 0,
    specConflict := false, shadow := [], bfmt := [], sysWrites := [], enc := [], views := [], tlb := [], notices := [],
    bindings := [], holds := [], watches := [], freed := false }

/-- A die whose heartbeat has not begun (R454, step 4). -/
def Die.reset : Die := ⟨false, false, 0, [0, 0, 0, 0], 0, 0, 0, 0, 0⟩

/-- A command page after reset: every register 0 (R72). -/
def Fn.reset : Fn :=
  { tail := 0, head := 0, hmqBase := 0, hmqSize := 0, hmqHead := 0, hmqTail := 0, hmqLost := 0, status := 0, slots := [],
    root := none, measure := 0, msix0 := 0, msix1 := 0, switching := [], taken := [], counted := [] }

/-- Port not trained. -/
def Port.reset : Port := ⟨false, [], none, 0⟩

/-- The device with its registers at their reset values, every memory byte 0 (R454, step 3), no region, no function
ready (R72), and bring-up still to come (`powerOn`, R454). All four dies are in the live mask until a test leaves one
out (R454, step 2). -/
def State.reset : State :=
  { cycle := 0, startNs := 0, cur := 0, cores := [], cells := [], dies := Vector.replicate 4 Die.reset, live := 0xF,
    master := 0, mem := [], bad := [], soft := [], past := [], writes := [], hist := [], nextWrite := 0, regions := [], nextRegion := 1, saves := [], fns := [], lastFn := 0,
    net := [], seq := 0, depOps := [], reports := [], retires := [], dicts := [], shared := [], nextShared := 0,
    noticeNet := [], acks := [], repl := [], hotAt := 0, barriers := [], tileNotices := [], nextDesc := 0, device := 0, peers := [], fenced := [], left := [], peerDead := [],
    conflict := false, ports := [], counters := [], life := ⟨0, 0, [], [], 0, 0, 0, 0⟩, power := .off, inputs := [], free := 0, oracle := [] }

/-! ### How a step can stop -/

/-- Why a step ends in a fault. -/
inductive Fault where
  /-- Raised by the meaning of a device event given to `exec` in a state in which the spec has no such event (no
  message with that number is on its way, no command waits in that slot). Safe: the step itself never gives it. -/
  | notEnabled
  deriving DecidableEq, Repr

/-- Why a step ends in a refusal. -/
inductive Refusal where
  /-- Raised by an arm of `exec` whose instruction has no meaning yet. Safe: nothing is claimed of it. -/
  | notModelled (mnemonic : String)
  deriving DecidableEq, Repr

end Sys2Proof.Machine
end

