-- ==== Sys2Proof/Machine/Tables.lean ====
section
/-! DEFINITION. The sparse tables and memory as data: sorted lists of (key, value) pairs, in one canonical form. -/

namespace Sys2Proof.Machine

/-! ### Tables -/

/-- The value of key `k`, or `d` where the table lists none. -/
def tabGet {α : Type} (d : α) : Tab α → Nat → α
  | [], _ => d
  | (j, v) :: t, k => if j = k then v else if k < j then d else tabGet d t k

/-- The table with `v` at key `k`. -/
def tabSet {α : Type} : Tab α → Nat → α → Tab α
  | [], k, v => [(k, v)]
  | (j, w) :: t, k, v =>
    if j = k then (k, v) :: t else if k < j then (k, v) :: (j, w) :: t else (j, w) :: tabSet t k v

/-- The table without key `k`. -/
def tabDel {α : Type} : Tab α → Nat → Tab α
  | [], _ => []
  | (j, w) :: t, k => if j = k then t else if k < j then (j, w) :: t else (j, w) :: tabDel t k

/-- Element `i` of a list replaced. -/
def listSet {α : Type} : List α → Nat → α → List α
  | [], _, _ => []
  | _ :: t, 0, v => v :: t
  | h :: t, n + 1, v => h :: listSet t n v

/-- Element `i` of a list changed. -/
def listMod {α : Type} : List α → Nat → (α → α) → List α
  | [], _, _ => []
  | h :: t, 0, f => f h :: t
  | h :: t, n + 1, f => h :: listMod t n f

/-- A list without element `i`. -/
def listDel {α : Type} : List α → Nat → List α
  | [], _ => []
  | _ :: t, 0 => t
  | h :: t, n + 1 => h :: listDel t n

/-! ### Memory -/

/-- What an address reads as that memory does not list: 0, as bring-up writes every SRAM byte and every stack
doubleword (R454, step 3). Host and peer memory follow it (DESIGN CHOICE, log 2). -/
def memDefault : Byte := 0

/-- The canonical form: addresses strictly rising, and no entry equal to what an unlisted address reads as. -/
def memWf : List Host.Cell → Bool
  | [] => true
  | (_, v) :: [] => v != memDefault
  | (a, v) :: (b, w) :: t => v != memDefault && a < b && memWf ((b, w) :: t)

/-- The byte at an address. -/
def memGet (m : List Host.Cell) (a : Nat) : Byte := tabGet memDefault m a

/-- Memory with one byte written, in canonical form. -/
def memSet (m : List Host.Cell) (a : Nat) (v : Byte) : List Host.Cell :=
  if v = memDefault then tabDel m a else tabSet m a v

/-- Memory with the bytes of a list written from address `a` upwards. -/
def memSetBytes : List Host.Cell → Nat → List Byte → List Host.Cell
  | m, _, [] => m
  | m, a, b :: t => memSetBytes (memSet m a b) (a + 1) t

/-! ### Bytes and words (R9) -/

/-- A number from its bytes, the lowest address first. -/
def leNat : List Byte → Nat
  | [] => 0
  | b :: t => b.toNat + 256 * leNat t

/-- The `n` low bytes of a number, the lowest address first (DEDUCED, log 85). -/
def leBytes : Nat → Nat → List Byte
  | 0, _ => []
  | n + 1, v => BitVec.ofNat 8 v :: leBytes n (v / 256)

/-- The bytes of a vector register's bits from byte `k`. -/
def bvBytes {w : Nat} (v : BitVec w) (n : Nat) : List Byte := leBytes n v.toNat

/-- Bits hi:lo of a number. -/
def bitsOf (v hi lo : Nat) : Nat := v / 2 ^ lo % 2 ^ (hi - lo + 1)

/-- One bit of a number. -/
def bitOf (v i : Nat) : Bool := v / 2 ^ i % 2 == 1

/-- A number with bits hi:lo replaced. -/
def setBits (v hi lo x : Nat) : Nat := v - bitsOf v hi lo * 2 ^ lo + (x % 2 ^ (hi - lo + 1)) * 2 ^ lo

/-- A doubleword from a number. -/
def dw (n : Nat) : Dword := BitVec.ofNat 64 n

/-- 1 or 0. -/
def b2n (b : Bool) : Nat := if b then 1 else 0

end Sys2Proof.Machine
end

