-- ==== Sys2Proof/Machine/Float.lean ====
section
/-! DEFINITION. Floating-point values and their rounding (R48, R57–R62), the arithmetic of R152–R156 in any format, and
the shared helpers of the manual's pseudocode (R62–R67). A finite value is an exact dyadic; a helper rounds only where
the manual says so. -/

namespace Sys2Proof.Machine

/-- A format: exponent bits, fraction bits, bias (R48). -/
structure Fmt where
  eb : Nat
  mb : Nat
  bias : Nat
  deriving DecidableEq, Repr

def fp16 : Fmt := ⟨5, 10, 15⟩
def bf16 : Fmt := ⟨8, 7, 127⟩
def fp32 : Fmt := ⟨8, 23, 127⟩
def fp64 : Fmt := ⟨11, 52, 1023⟩

/-- Bits of the format, the exponent field of all ones, an infinity, the canonical NaN (R60), the largest finite value. -/
def Fmt.width (f : Fmt) : Nat := 1 + f.eb + f.mb
def Fmt.emax (f : Fmt) : Nat := 2 ^ f.eb - 1
def Fmt.infBits (f : Fmt) : Nat := f.emax * 2 ^ f.mb
def Fmt.nanBits (f : Fmt) : Nat := f.infBits + 2 ^ (f.mb - 1)
def Fmt.maxBits (f : Fmt) : Nat := f.infBits - 1
def Fmt.signBit (f : Fmt) (neg : Bool) : Nat := if neg then 2 ^ (f.eb + f.mb) else 0

/-- A value: a NaN, signalling or quiet; an infinity; or ± m × 2^e. -/
inductive FV where
  | nan (signalling : Bool)
  | inf (neg : Bool)
  | fin (neg : Bool) (m : Nat) (e : Int)
  deriving DecidableEq, Repr

/-- The value of a bit pattern; higher bits are ignored (R48, R151). -/
def Fmt.decode (f : Fmt) (bits : Nat) : FV :=
  let frac := bits % 2 ^ f.mb
  let ex := bits / 2 ^ f.mb % 2 ^ f.eb
  let neg := bitOf bits (f.eb + f.mb)
  if ex = f.emax then (if frac = 0 then .inf neg else .nan (frac < 2 ^ (f.mb - 1)))
  else if ex = 0 then .fin neg frac (1 - (f.bias : Int) - f.mb)
  else .fin neg (2 ^ f.mb + frac) ((ex : Int) - f.bias - f.mb)

/-- The value of an integer. -/
def FV.ofInt (x : Int) : FV := .fin (x < 0) x.natAbs 0

def FV.isNan : FV → Bool
  | .nan _ => true
  | _ => false
def FV.isSig : FV → Bool
  | .nan s => s
  | _ => false
def FV.isZero : FV → Bool
  | .fin _ 0 _ => true
  | _ => false
def FV.isFin : FV → Bool
  | .fin .. => true
  | _ => false
def FV.neg : FV → Bool
  | .nan _ => false
  | .inf n => n
  | .fin n _ _ => n
def FV.flip : FV → FV
  | .nan s => .nan s
  | .inf n => .inf (!n)
  | .fin n m e => .fin (!n) m e

/-! ### Rounding -/

/-- FRM (R57). -/
inductive Mode where
  | rne | rtz | rup | rdn
  deriving DecidableEq, Repr
def Mode.ofFrm : Nat → Mode
  | 0 => .rne
  | 1 => .rtz
  | 2 => .rup
  | _ => .rdn

/-- m × 2^e in units of 2^q, rounded: the number of units, and whether that is inexact. -/
def roundUnits (mode : Mode) (neg : Bool) (m : Nat) (e q : Int) : Nat × Bool :=
  if q ≤ e then (m * 2 ^ (e - q).toNat, false)
  else
    let sh := (q - e).toNat
    let lo := m / 2 ^ sh
    let rem := m % 2 ^ sh
    let up : Bool := match mode with
      | .rne => 2 * rem > 2 ^ sh || (2 * rem = 2 ^ sh && lo % 2 = 1)
      | .rtz => false
      | .rup => rem ≠ 0 && !neg
      | .rdn => rem ≠ 0 && neg
    (if up then lo + 1 else lo, rem ≠ 0)

/-- What an overflow gives (R58). -/
def Fmt.overflow (f : Fmt) (mode : Mode) (neg : Bool) : Nat :=
  f.signBit neg + match mode with
    | .rne => f.infBits
    | .rtz => f.maxBits
    | .rup => if neg then f.maxBits else f.infBits
    | .rdn => if neg then f.infBits else f.maxBits

/-- A value rounded once to a format, with OF, UF and NX (R58, R59): tininess is detected after rounding. A NaN gives
the canonical one and raises nothing here. -/
def Fmt.round (f : Fmt) (mode : Mode) : FV → Nat × FpFlags
  | .nan _ => (f.nanBits, 0)
  | .inf neg => (f.signBit neg + f.infBits, 0)
  | .fin neg m e =>
    if m = 0 then (f.signBit neg, 0)
    else
      let top : Int := e + Nat.log2 m
      let emin : Int := 1 - (f.bias : Int)
      let q : Int := (if top < emin then emin else top) - f.mb
      let (units, inexact) := roundUnits mode neg m e q
      let bits := (q + f.mb + f.bias - 1).toNat * 2 ^ f.mb + units
      if bits ≥ f.infBits then (f.overflow mode neg, flagOF ||| flagNX)
      else
        let tiny : Bool :=
          top < emin && !(top = emin - 1 && (roundUnits mode neg m e (top - f.mb)).1 = 2 ^ (f.mb + 1))
        (f.signBit neg + bits, flagIf inexact flagNX ||| flagIf (inexact && tiny) flagUF)

/-! ### Exact arithmetic -/

/-- A finite value as a signed number of units of 2^q, for q at most its exponent. -/
def toUnits (neg : Bool) (m : Nat) (e q : Int) : Int :=
  let u : Int := (m * 2 ^ (e - q).toNat : Nat)
  if neg then -u else u
/-- The least of two exponents. -/
def imin (a b : Int) : Int := if a ≤ b then a else b

/-- a + b exactly, with whether the operation is invalid. A zero sum of opposite signs is +0, or −0 under RDN (R152). -/
def FV.add (mode : Mode) : FV → FV → FV × Bool
  | .nan _, _ => (.nan false, false)
  | _, .nan _ => (.nan false, false)
  | .inf a, .inf b => if a = b then (.inf a, false) else (.nan false, true)
  | .inf a, _ => (.inf a, false)
  | _, .inf b => (.inf b, false)
  | .fin na ma ea, .fin nb mb eb =>
    let q := imin ea eb
    let x := toUnits na ma ea q + toUnits nb mb eb q
    if x = 0 then (.fin (if na = nb then na else mode = .rdn) 0 0, false) else (.fin (x < 0) x.natAbs q, false)

/-- a × b exactly, with whether the operation is invalid. -/
def FV.mul : FV → FV → FV × Bool
  | .nan _, _ => (.nan false, false)
  | _, .nan _ => (.nan false, false)
  | .inf a, .inf b => (.inf (a != b), false)
  | .inf a, .fin b m _ => if m = 0 then (.nan false, true) else (.inf (a != b), false)
  | .fin a m _, .inf b => if m = 0 then (.nan false, true) else (.inf (a != b), false)
  | .fin na ma ea, .fin nb mb eb => (.fin (na != nb) (ma * mb) (ea + eb), false)

/-- a ÷ b, exact but for a lowest bit that stands for the rest; with the flags NV and DZ. The operands have at most 64
significant bits. -/
def FV.div : FV → FV → FV × FpFlags
  | .nan _, _ => (.nan false, 0)
  | _, .nan _ => (.nan false, 0)
  | .inf _, .inf _ => (.nan false, flagNV)
  | .inf a, .fin b _ _ => (.inf (a != b), 0)
  | .fin a _ _, .inf b => (.fin (a != b) 0 0, 0)
  | .fin na ma ea, .fin nb mb eb =>
    if mb = 0 then (if ma = 0 then (.nan false, flagNV) else (.inf (na != nb), flagDZ))
    else
      let n := ma * 2 ^ 192
      (.fin (na != nb) (2 * (n / mb) + b2n (n % mb ≠ 0)) (ea - eb - 193), 0)

/-- The whole square root of `n`, below 2^fuel. -/
def isqrt (n : Nat) : Nat → Nat → Nat
  | 0, r => r
  | i + 1, r => let t := r + 2 ^ i; isqrt n i (if t * t ≤ n then t else r)

/-- √a, exact but for a lowest bit that stands for the rest. -/
def FV.sqrt : FV → FV × FpFlags
  | .nan _ => (.nan false, 0)
  | .inf neg => if neg then (.nan false, flagNV) else (.inf false, 0)
  | .fin neg m e =>
    if m = 0 then (.fin neg 0 0, 0)
    else if neg then (.nan false, flagNV)
    else
      let odd : Bool := e % 2 ≠ 0
      let n := m * 2 ^ (if odd then 129 else 128)
      let e' : Int := if odd then e - 129 else e - 128
      let r := isqrt n 100 0
      (.fin false (2 * r + b2n (r * r ≠ n)) (e' / 2 - 1), 0)

/-- −1, 0 or 1 as a is below, equal to or above b; neither is a NaN. −0 equals +0. -/
def FV.cmp : FV → FV → Int
  | .inf a, .inf b => if a = b then 0 else if a then -1 else 1
  | .inf a, _ => if a then -1 else 1
  | _, .inf b => if b then 1 else -1
  | .fin na ma ea, .fin nb mb eb =>
    let q := imin ea eb
    let d := toUnits na ma ea q - toUnits nb mb eb q
    if d < 0 then -1 else if d = 0 then 0 else 1
  | _, _ => 0

/-! ### The instructions' arithmetic on bit patterns: result and flags -/

/-- NV for a signalling operand. -/
def sigFlag (l : List FV) : FpFlags := flagIf (l.any FV.isSig) flagNV

def Fmt.add (f : Fmt) (mode : Mode) (a b : Nat) : Nat × FpFlags :=
  let x := f.decode a
  let y := f.decode b
  let (v, inv) := x.add mode y
  let (r, fl) := f.round mode v
  (r, fl ||| flagIf inv flagNV ||| sigFlag [x, y])
def Fmt.sub (f : Fmt) (mode : Mode) (a b : Nat) : Nat × FpFlags :=
  let x := f.decode a
  let y := f.decode b
  let (v, inv) := x.add mode y.flip
  let (r, fl) := f.round mode v
  (r, fl ||| flagIf inv flagNV ||| sigFlag [x, y])
def Fmt.mul (f : Fmt) (mode : Mode) (a b : Nat) : Nat × FpFlags :=
  let x := f.decode a
  let y := f.decode b
  let (v, inv) := x.mul y
  let (r, fl) := f.round mode v
  (r, fl ||| flagIf inv flagNV ||| sigFlag [x, y])
/-- a × b + d with one rounding; 0 × ∞ is invalid whatever d is (R152). -/
def Fmt.fma (f : Fmt) (mode : Mode) (a b d : Nat) : Nat × FpFlags :=
  let x := f.decode a
  let y := f.decode b
  let z := f.decode d
  let (p, inv) := x.mul y
  let (v, inv') := p.add mode z
  let (r, fl) := f.round mode v
  (r, fl ||| flagIf (inv || inv') flagNV ||| sigFlag [x, y, z])
def Fmt.div (f : Fmt) (mode : Mode) (a b : Nat) : Nat × FpFlags :=
  let x := f.decode a
  let y := f.decode b
  let (v, fl') := x.div y
  let (r, fl) := f.round mode v
  (r, fl ||| fl' ||| sigFlag [x, y])
def Fmt.sqrt (f : Fmt) (mode : Mode) (a : Nat) : Nat × FpFlags :=
  let x := f.decode a
  let (v, fl') := x.sqrt
  let (r, fl) := f.round mode v
  (r, fl ||| fl' ||| sigFlag [x])

/-- minimumNumber and maximumNumber (R153); `mx` chooses the greater. -/
def Fmt.minmax (f : Fmt) (mx : Bool) (a b : Nat) : Nat × FpFlags :=
  let x := f.decode a
  let y := f.decode b
  let fl := sigFlag [x, y]
  let a := a % 2 ^ f.width
  let b := b % 2 ^ f.width
  match x.isNan, y.isNan with
  | true, true => (f.nanBits, fl)
  | true, false => (b, fl)
  | false, true => (a, fl)
  | false, false =>
    let aLess : Bool := x.cmp y < 0 || (x.cmp y = 0 && x.neg)
    (if aLess = mx then b else a, fl)

/-- FCMP (R154): the relation, and NV for any NaN (`lt`, `le`) or a signalling one (`eq`). -/
def Fmt.cmpEq (f : Fmt) (a b : Nat) : Bool × FpFlags :=
  let x := f.decode a
  let y := f.decode b
  (!x.isNan && !y.isNan && x.cmp y = 0, sigFlag [x, y])
def Fmt.cmpLt (f : Fmt) (a b : Nat) : Bool × FpFlags :=
  let x := f.decode a
  let y := f.decode b
  let n := x.isNan || y.isNan
  (!n && x.cmp y < 0, flagIf n flagNV)
def Fmt.cmpLe (f : Fmt) (a b : Nat) : Bool × FpFlags :=
  let x := f.decode a
  let y := f.decode b
  let n := x.isNan || y.isNan
  (!n && x.cmp y ≤ 0, flagIf n flagNV)

/-- FCLASS (R156). -/
def Fmt.classify (f : Fmt) (a : Nat) : Nat :=
  let sub : Bool := a / 2 ^ f.mb % 2 ^ f.eb = 0
  match f.decode a with
  | .inf true => 2 ^ 0
  | .inf false => 2 ^ 7
  | .nan true => 2 ^ 8
  | .nan false => 2 ^ 9
  | .fin true m _ => if m = 0 then 2 ^ 3 else if sub then 2 ^ 2 else 2 ^ 1
  | .fin false m _ => if m = 0 then 2 ^ 4 else if sub then 2 ^ 5 else 2 ^ 6

/-- A conversion between formats (R155): rounding, and NV for a signalling NaN. -/
def Fmt.convert (src dst : Fmt) (mode : Mode) (a : Nat) : Nat × FpFlags :=
  let x := src.decode a
  let (r, fl) := dst.round mode x
  (r, fl ||| sigFlag [x])

/-- A value rounded to an integer and clamped to a range (R61, R155). -/
def FV.toInt (mode : Mode) (lo hi : Int) : FV → Int × FpFlags
  | .nan _ => (0, flagNV)
  | .inf neg => (if neg then lo else hi, flagNV)
  | .fin neg m e =>
    let (u, inexact) := roundUnits mode neg m e 0
    let x : Int := if neg then -(u : Int) else u
    if x < lo then (lo, flagNV) else if hi < x then (hi, flagNV) else (x, flagIf inexact flagNX)

/-! ### The shared helpers (R62–R67): bit patterns of FP32 and FP16, round to nearest even, no flags -/

def rne32 (x : FV) : Nat := (fp32.round .rne x).1
def rne16 (x : FV) : Nat := (fp16.round .rne x).1
def rnebf (x : FV) : Nat := (bf16.round .rne x).1
def f32 (a : Nat) : FV := fp32.decode a
def f16 (a : Nat) : FV := fp16.decode a
def add32 (a b : Nat) : Nat := (fp32.add .rne a b).1
def sub32 (a b : Nat) : Nat := (fp32.sub .rne a b).1
def mul32 (a b : Nat) : Nat := (fp32.mul .rne a b).1
def div32 (a b : Nat) : Nat := (fp32.div .rne a b).1
def fma32 (a b d : Nat) : Nat := (fp32.fma .rne a b d).1
def sqrt32 (a : Nat) : Nat := (fp32.sqrt .rne a).1
/-- a < b, false for a NaN. -/
def lt32 (a b : Nat) : Bool := (fp32.cmpLt a b).1
def le32 (a b : Nat) : Bool := (fp32.cmpLe a b).1
def abs32 (a : Nat) : Nat := a % 2 ^ 31
def neg32 (a : Nat) : Nat := if bitOf a 31 then a % 2 ^ 31 else a % 2 ^ 31 + 2 ^ 31

/-- rnei (R62): a finite value's nearest integer, ties to even; none stands for an infinity, with its sign beside it. -/
inductive RInt where
  | int (x : Int)
  | inf (neg : Bool)
  | nan
  deriving DecidableEq, Repr
def rnei : FV → RInt
  | .nan _ => .nan
  | .inf n => .inf n
  | .fin n m e =>
    let (u, _) := roundUnits .rne n m e 0
    .int (if n then -(u : Int) else u)
/-- sat(t, qmax) (R65). -/
def satInt (t : RInt) (qmax : Nat) : Nat :=
  match t with
  | .int x => if x < 0 then 0 else if (qmax : Int) < x then qmax else x.toNat
  | .inf neg => if neg then 0 else qmax
  | .nan => 0

/-- One level of a pairwise tree. -/
def pairUp (f : Nat → Nat → Nat) : List Nat → List Nat
  | a :: b :: t => f a b :: pairUp f t
  | l => l
/-- Levels of a tree until one value is left. -/
def treeFold (f : Nat → Nat → Nat) : Nat → List Nat → List Nat
  | 0, l => l
  | n + 1, l => treeFold f n (pairUp f l)
/-- The least k with 2^k ≥ n. -/
def ceilLog (n : Nat) : Nat := if n ≤ 1 then 0 else Nat.log2 (n - 1) + 1
/-- tree_sum32 (R63). -/
def treeSum32 (l : List Nat) : Nat :=
  let k := ceilLog l.length
  (treeFold add32 k (l ++ List.replicate (2 ^ k - l.length) 0)).headD 0

/-- exact_dot (R64): the exact sum of c and the products. -/
def exactSum (l : List FV) : FV :=
  if l.any FV.isNan then .nan false
  else
    let infs := l.filter fun x => !x.isFin
    match infs with
    | x :: t => if t.all (· = x) then x else .nan false
    | [] =>
      let q := l.foldl (fun q x => match x with
        | .fin _ _ e => imin q e
        | _ => q) 0
      let sum := l.foldl (fun (s : Int) x => match x with
        | .fin n m e => s + toUnits n m e q
        | _ => s) 0
      if sum = 0 then .fin (!l.isEmpty && l.all fun x => x.isZero && x.neg) 0 0 else .fin (sum < 0) sum.natAbs q
def exactDot (ab : List (FV × FV)) (c : FV) : FV := exactSum (c :: ab.map fun (a, b) => (a.mul b).1)

/-- quant_group (R66) on FP32 patterns: codes, scale (FP16), zero point, saturation count. -/
def quantGroup (x : List Nat) (qmax : Nat) : List Nat × Nat × Nat × Nat :=
  let fins := x.filter fun a => (f32 a).isFin
  let lo := fins.foldl (fun m a => if lt32 a m then a else m) 0
  let hi := fins.foldl (fun m a => if lt32 m a then a else m) 0
  let flat : Bool := (f32 hi).cmp (f32 lo) = 0
  let s0 := rne16 (f32 (div32 (sub32 hi lo) (rne32 (FV.ofInt qmax))))
  let big : Bool := s0 = fp16.infBits
  let s := if flat then 0 else if big then 0x7BFF else if s0 = 0 then 1 else s0
  let quot (a : Nat) : FV := f32 (rne32 ((f32 a).div (f16 s)).1)
  let z := if flat then 0 else satInt (rnei (quot (neg32 lo))) qmax
  let code (a : Nat) : Nat × Nat :=
    match f32 a with
    | .nan _ => (z, 0)
    | .inf neg => (if neg then 0 else qmax, 1)
    | .fin .. =>
      if s = 0 then (0, 0)
      else
        let t : RInt := match rnei (quot a) with
          | .int i => .int (i + z)
          | r => r
        let q := satInt t qmax
        (q, if t = .int q then 0 else 1)
  let cs := x.map code
  (cs.map (·.1), s, z, b2n (!flat && big) + cs.foldl (fun n c => n + c.2) 0)

/-- dequant_group (R67): one element, an FP32 pattern. -/
def dequant (q s z : Nat) : Nat :=
  rne32 ((f16 s).mul (FV.ofInt ((q : Int) - z))).1
/-- The value, exact; the sign of a zero follows the scale's (R67). -/
def dequantFv (q s z : Nat) : FV := f32 (dequant q s z)

/-- CRC-32C of one byte added to a state: the reflected polynomial (R184, R227). -/
def crcByte (c : Nat) (b : Nat) : Nat :=
  (List.range 8).foldl (fun c _ => if c % 2 = 1 then (c / 2) ^^^ 0x82F6_3B78 else c / 2) (c ^^^ b)
/-- CRC-32C of bytes (R227). -/
def crc32c (l : List Byte) : Nat := (l.foldl (fun c b => crcByte c b.toNat) 0xFFFF_FFFF) ^^^ 0xFFFF_FFFF

end Sys2Proof.Machine
end

