-- ==== Sys2Proof/Config.lean ====
section
/-! DEFINITION. What one implementation fixes and the spec leaves open: values without a body, of which nothing can be
proved, so that a statement holds whatever they are. -/

namespace Sys2Proof.Config

/-- The firmware version of FN_STATUS bits 23:8 (R72). -/
opaque firmwareVersion : BitVec 16

/-- The certificate chain of the attestation key, DER (R75). -/
opaque certChain : List Byte

/-- The signature (r, s) that the device's private key gives a report (R80). The key never leaves the device (DESIGN CHOICE,
log 13). -/
opaque signature : List Byte → BitVec 384 × BitVec 384

/-- SHA-384 of the main ROM (R80, R454). -/
opaque romHash : BitVec 384

/-- Whether a byte that a cancelled copy had reached holds its new value (R137, R399): the number of the cancellation
and the byte's place. -/
opaque copyReached : Nat → Nat → Bool

/-- The engine, NI and core state of a cell in a save area, private to the firmware version (R415): the number of the
save and the byte's place. -/
opaque privateByte : Nat → Nat → Byte

/-- What the private bytes of an area's region record stand for, where no switch of this power cycle has written the area (R415,
R417) (DEDUCED, log 62): the number of the switch-in and the region. -/
opaque privateSave : Nat → Nat → Option Machine.RegionSave

/-- The bytes of a pad record beyond its TYPE (R318), of which the spec states nothing: the number of the pad and the
byte's place. -/
opaque padByte : Nat → Nat → Byte

/-- Header fields of a message that its rule does not give (R42): the message's TYPE and the number of the draw. -/
opaque openTag : Nat → Nat → BitVec 16
opaque openClass : Nat → Nat → BitVec 2
opaque openSource : Nat → Nat → BitVec 32

/-- A doubleword that a firing of entry 61, 62 or 63 takes from a message too short to carry it, and the address in `g1` of
an arm that a firing takes from the deque (R121): the number of the draw and the doubleword's place. -/
opaque openWord : Nat → Nat → BitVec 64

/-- Whether a cell holds output rows for the destination of a dictionary's segment (R90, which gives no test for it): the
number of the draw, the dictionary, the segment, the cell. -/
opaque holdsRows : Nat → Nat → Nat → Nat → Bool

/-- Whether a correlation uses what another agent has written over an element of an installed atom, or the old value (R269):
the number of the draw, the atom, the element. -/
opaque storedNew : Nat → Nat → Nat → Bool

/-- A bit that the spec states no value for (log 3): the number of the draw. -/
opaque freeBit : Nat → Bool

end Sys2Proof.Config
end

