-- ==== Sys2Proof/Machine/Access.lean ====
section
/-! DEFINITION. The parts of the state by number, the physical address map (R86), translation (R188–R192), and reading
and writing bytes at their home (R311, R421–R423). A physical address is held in one form for each byte: space 0 and the
peer form of the own device become spaces 1 and 2. -/

namespace Sys2Proof.Machine

/-! ### Parts of the state -/

def State.core (s : State) (c : Nat) : Core := tabGet Core.reset s.cores c
def State.setCore (s : State) (c : Nat) (x : Core) : State := { s with cores := tabSet s.cores c x }
def State.modCore (s : State) (c : Nat) (f : Core → Core) : State := s.setCore c (f (s.core c))
/-- The core whose pair issues. -/
def State.me (s : State) : Core := s.core s.cur
def State.modMe (s : State) (f : Core → Core) : State := s.modCore s.cur f
def State.cell (s : State) (n : Nat) : Cell := tabGet Cell.reset s.cells n
def State.modCell (s : State) (n : Nat) (f : Cell → Cell) : State :=
  { s with cells := tabSet s.cells n (f (s.cell n)) }
def State.region (s : State) (r : Nat) : Option Region := tabGet none s.regions r
def State.modRegion (s : State) (r : Nat) (f : Region → Region) : State :=
  match s.region r with
  | none => s
  | some x => { s with regions := tabSet s.regions r (some (f x)) }
def State.fn (s : State) (n : Nat) : Fn := tabGet Fn.reset s.fns n
def State.modFn (s : State) (n : Nat) (f : Fn → Fn) : State := { s with fns := tabSet s.fns n (f (s.fn n)) }
def State.die (s : State) (d : Nat) : Die := s.dies.toList.getD d Die.reset
def State.modDie (s : State) (d : Nat) (f : Die → Die) : State :=
  if h : d < 4 then { s with dies := s.dies.set d (f s.dies[d]) } else s
def State.dict (s : State) (d : Nat) : Option Dict := tabGet none s.dicts d
def State.modDict (s : State) (d : Nat) (f : Dict → Dict) : State :=
  match s.dict d with
  | none => s
  | some x => { s with dicts := tabSet s.dicts d (some (f x)) }
def State.barrier (s : State) (b : Nat) : Option Barrier := tabGet none s.barriers b
def State.modBarrier (s : State) (b : Nat) (f : Barrier → Barrier) : State :=
  match s.barrier b with
  | none => s
  | some x => { s with barriers := tabSet s.barriers b (some (f x)) }
def State.port (s : State) (p : Nat) : Port := tabGet Port.reset s.ports p
def State.modPort (s : State) (p : Nat) (f : Port → Port) : State := { s with ports := tabSet s.ports p (f (s.port p)) }

/-- A vector element by a number, for places read once. -/
def vget {α : Type} {n : Nat} (d : α) (v : Vector α n) (i : Nat) : α := if h : i < n then v[i] else d
def vset {α : Type} {n : Nat} (v : Vector α n) (i : Nat) (x : α) : Vector α n := if h : i < n then v.set i x else v

/-- The cell of a core (R4). -/
def cellOf (c : Nat) : Nat := c / 8
/-- The die of a cell (R4). -/
def dieOfCell (n : Nat) : Nat := n / 256
def dieOfCore (c : Nat) : Nat := c / 2048
/-- The die is in the live-die mask (R82). -/
def State.isLive (s : State) (d : Nat) : Bool := s.live.getLsbD d
/-- The domain time base (R159): `startNs` plus whole nanoseconds of 1.9 GHz cycles (DESIGN CHOICE, log 4). -/
def State.time (s : State) : Nat := (s.startNs + s.cycle * 10 / 19) % 2 ^ 64

/-! ### Counters (R428) -/

/-- The key of a counter. -/
def ckey (kind unit idx : Nat) : Nat := kind * 2 ^ 32 + unit * 2 ^ 16 + idx
def State.counter (s : State) (kind unit idx : Nat) : Nat := tabGet 0 s.counters (ckey kind unit idx)
/-- Every counter stops at 2^64 − 1. -/
def State.bump (s : State) (kind unit idx : Nat) (n : Nat := 1) : State :=
  if n = 0 then s
  else { s with counters := tabSet s.counters (ckey kind unit idx) (Nat.min (s.counter kind unit idx + n) (2 ^ 64 - 1)) }

/-! ### The physical address map -/

def sramKey (cell off : Nat) : Nat := 2 ^ 60 + cell * 2 ^ 21 + off
def dramKey (off : Nat) : Nat := 2 * 2 ^ 60 + off
def dramSize : Nat := 768 * 2 ^ 30
def spaceOf (key : Nat) : Nat := key / 2 ^ 60
/-- The management window (R79). -/
def windowBase : Nat := 2 * 2 ^ 60 + 0x00FF_FFFF_FFFF_0000
def isWindow (key : Nat) : Bool := windowBase ≤ key && key < windowBase + 2 ^ 16
/-- The cell and offset of an address in global SRAM. -/
def sramCell (key : Nat) : Nat := bitsOf key 30 21
def sramOff (key : Nat) : Nat := bitsOf key 20 0
/-- Die and stack of a device-memory address (R87). -/
def stackOf (key : Nat) : Nat := (key - dramKey 0) / (192 * 2 ^ 30) * 4 + (key - dramKey 0) / 4096 % 4

/-- The device belongs to the domain as this device holds it (R458). -/
def State.inDomain (s : State) (dev : Nat) : Bool := dev == s.device || (s.peers.contains dev && !s.fenced.contains dev)

/-- A die of a peer that this device does not know to be fenced (R82). -/
def State.peerLive (s : State) (dev die : Nat) : Bool := !s.peerDead.contains (dev, die)

/-- The one form of a physical address, or none where it breaks R86 or lies on a fenced die (R82, R189). `cell` is the
executing core's. -/
def State.canon (s : State) (cell pa : Nat) : Option Nat :=
  let sram (off : Nat) : Option Nat := if s.isLive (off / 2 ^ 29) then some (2 ^ 60 + off) else none
  let dram (off : Nat) : Option Nat :=
    if off < dramSize && s.isLive (off / (192 * 2 ^ 30)) then some (dramKey off) else none
  match spaceOf pa with
  | 0 => if bitsOf pa 59 21 = 0 then sram (cell * 2 ^ 21 + bitsOf pa 20 0) else none
  | 1 => if bitsOf pa 59 31 = 0 then sram (bitsOf pa 30 0) else none
  | 2 =>
    if isWindow pa then some pa
    else if bitsOf pa 59 56 = 0 then dram (bitsOf pa 55 0) else none
  | 3 =>
    let dev := bitsOf pa 59 47
    let off := bitsOf pa 44 0
    let sp := bitsOf pa 46 45
    if dev = s.device then
      (match sp with
       | 1 => if bitsOf off 44 31 = 0 then sram off else none
       | 2 => dram off
       | _ => none)
    else if s.inDomain dev then
      (match sp with
       | 1 => if bitsOf off 44 31 = 0 && s.peerLive dev (off / 2 ^ 29) then some pa else none
       | 2 => if off < dramSize && s.peerLive dev (off / (192 * 2 ^ 30)) then some pa else none
       | _ => none)
    else none
  | 4 => if bitsOf pa 59 56 = 0 then some pa else none
  | _ => none

/-! ### Scopes and writes (R200–R202) -/

/-- The smallest scope of R200 that holds two cores of the device (R352). -/
def smallestScope (a b : Nat) : Nat :=
  if a = b then 0
  else if a / 8 = b / 8 then 1
  else if a / 32 = b / 32 then 2
  else if a / 128 = b / 128 then 3
  else if a / 2048 = b / 2048 then 4
  else 5
/-- One core of the device lies in a scope of another (R200). -/
def inScope (scope a b : Nat) : Bool := smallestScope a b ≤ scope

/-- A byte that a write gives an address. -/
def Write.byteAt (w : Write) (key : Nat) : Option Byte := if w.pa ≤ key then w.bytes.getD (key - w.pa) none else none
/-- A write has a byte for an address. -/
def Write.has (w : Write) (key : Nat) : Bool := (w.byteAt key).isSome
/-- A write is ordered before another one of the same location (R201, rule 2). -/
def Write.before (w m : Write) : Bool := if w.core = m.core then w.id < m.id else m.known.contains w.id
/-- A core has observed a write (R201, rule 1). -/
def Core.observed (k : Core) (c : Nat) (w : Write) : Bool := w.core = c || k.seen.contains w.id
/-- A write without what it gives to some of the addresses. -/
def Write.without (w : Write) (gone : Nat → Bool) : Write :=
  { w with bytes := w.bytes.zipIdx.map fun (b, i) => if gone (w.pa + i) then none else b }
/-- Performed writes of which a read may still return a byte, or an acquire may still learn what they release. -/
def keepWrites (l : List Write) : List Write := l.filter fun w => w.bytes.any Option.isSome || !w.rel.isEmpty

/-! ### Reading at the home -/

/-- The aligned doubleword of an address. -/
def dwOf (key : Nat) : Nat := key / 8 * 8

/-- The stored byte, 0 in an uncorrectable doubleword (R422) (DEDUCED, log 71). -/
def State.rawByte (s : State) (key : Nat) : Byte := if s.bad.contains (dwOf key) then 0 else memGet s.mem key

/-- MQSTAT (R245). -/
def mqStat (m : Matrix) : Nat :=
  m.done.toNat * 2 ^ 32 + m.err % 256 * 2 ^ 24 + m.errSlot % 16 * 2 ^ 20 + b2n m.stopped * 2 ^ 19
    + Nat.min m.zblk 127 * 2 ^ 12 + m.head % 16 * 2 ^ 8 + Nat.min m.drops 7 * 2 ^ 5 + m.valid.length % 32
/-- MQCTL (R246). -/
def mqCtl (m : Matrix) : Nat := b2n m.discard * 2 + b2n m.stopped

/-- The core whose matrix queue area holds an address (R242), with the offset in it. -/
def queueOf (key : Nat) : Option (Nat × Nat) :=
  if spaceOf key = 1 && sramOff key ≥ 0x1F_C000 then
    some (sramCell key * 8 + (sramOff key - 0x1F_C000) / 0x800, (sramOff key - 0x1F_C000) % 0x800)
  else none

/-- The byte that the home holds, the registers of the queue area (R242) and the management window (R79) included (DEDUCED,
log 70). -/
def State.homeByte (s : State) (key : Nat) : Byte :=
  match queueOf key with
  | some (c, o) =>
    if o < 0x400 then s.rawByte key
    else if o < 0x408 then BitVec.ofNat 8 (mqStat (s.core c).mq / 256 ^ (o - 0x400))
    else if o < 0x410 then BitVec.ofNat 8 (mqCtl (s.core c).mq / 256 ^ (o - 0x408))
    else 0
  | none => if isWindow key then 0 else s.rawByte key

def State.homeBytes (s : State) (key n : Nat) : List Byte := (List.range n).map fun i => s.homeByte (key + i)
def State.homeNat (s : State) (key n : Nat) : Nat := leNat (s.homeBytes key n)

/-- COUNT after an operation on a codelet counter (R335). -/
def DepOp.count (o : DepOp) (old : Nat) : Nat :=
  match o.op with
  | 0 => (old + 2 ^ 64 - 1) % 2 ^ 64
  | 1 => o.val.toNat
  | _ => (old + o.val.toNat) % 2 ^ 64

/-- A byte as core `c` reads it: the home's, or the latest of the core's own writes on their way, its operations on a
codelet counter first, or of others' that it has observed (R106, R201, R312) (DEDUCED, log 8). -/
def State.coreByte (s : State) (c key : Nat) : Byte :=
  let dep := s.depOps.foldl
    (fun b o =>
      if o.core = some c && (queueOf key).isNone && o.pa ≤ key && key < o.pa + 8 then BitVec.ofNat 8 (o.count (s.homeNat o.pa 8) / 256 ^ (key - o.pa))
      else b)
    (s.homeByte key)
  s.writes.foldl
    (fun b w =>
      if (s.core c).observed c w && w.pa ≤ key && key < w.pa + w.bytes.length then ((w.bytes.getD (key - w.pa) none).getD b) else b)
    dep

/-- The line of the cell's speculation window that holds an address: its number in the slice (R133). -/
def State.specLine (s : State) (key : Nat) : Option (Nat × Nat) :=
  let cell := sramCell key
  if spaceOf key = 1 && (s.cell cell).specActive && sramOff key / 0x1_0000 = (s.cell cell).specBank then
    some (cell, sramOff key / 32)
  else none

/-- A byte as the firing on core `c` reads it: a dirty line of its own speculation comes from the shadow (R135). -/
def State.firingByte (s : State) (c key : Nat) : Byte :=
  match s.specLine key with
  | some (cell, line) =>
    if (s.core c).fir.spec && cell = cellOf c then
      match (s.cell cell).shadow.find? (·.1 = line) with
      | some (_, v) => BitVec.ofNat 8 (v.toNat / 256 ^ (key % 32))
      | none => s.coreByte c key
    else s.coreByte c key
  | none => s.coreByte c key

def State.firingBytes (s : State) (c key n : Nat) : List Byte := (List.range n).map fun i => s.firingByte c (key + i)

/-! ### Bank formats (R51–R53) -/

/-- A bank format register's fields (R51). -/
structure BankFmt where
  typ : Nat
  group : Nat
  interleaved : Bool
  metaOff : Nat
  clamp : Bool
  deriving DecidableEq, Repr

/-- RAW8: what a bank without a format counts as (R53). -/
def BankFmt.raw : BankFmt := ⟨0, 0, false, 0, false⟩
def BankFmt.ofReg (v : Dword) : BankFmt :=
  let n := v.toNat
  ⟨n % 16, bitsOf n 5 4, bitOf n 7, bitsOf n 31 24, bitOf n 8⟩

/-- The format of the bank at a home address as an engine of `cell` sees it (R53): RAW8 outside the die's SRAM, and in
the matrix queue area, to which BFMT31 does not apply (R242). -/
def State.bankFmt (s : State) (cell key : Nat) : BankFmt :=
  if spaceOf key = 1 && dieOfCell (sramCell key) = dieOfCell cell && (queueOf key).isNone then
    BankFmt.ofReg (tabGet 0 (s.cell (sramCell key)).bfmt (sramOff key / 0x1_0000))
  else .raw

/-- The formats differ for a copy: R55 names TYPE, GROUP, META and META_OFF whatever the TYPE (DESIGN CHOICE, log 97). -/
def BankFmt.differs (f g : BankFmt) : Bool :=
  !(f.typ = g.typ && f.group = g.group && f.interleaved = g.interleaved && f.metaOff = g.metaOff)

/-- A copy of `cell` from one home address to another converts: both stand in banks of the die that carry formats, and
these differ. With a side that counts as RAW8 it moves raw bytes (R53, R55, R236) (DEDUCED, log 98). -/
def State.converts (s : State) (cell sk dk : Nat) : Bool :=
  let f := s.bankFmt cell sk
  let g := s.bankFmt cell dk
  spaceOf sk = 1 && spaceOf dk = 1 && f.typ ≠ 0 && g.typ ≠ 0 && f.differs g

/-! ### Translation (R188–R192) -/

/-- The kinds of access that translation tells apart. -/
inductive Acc where
  | read | write | exec
  deriving DecidableEq, Repr

/-- The causes of R194. -/
def causeMisalign : Nat := 0x030B
def causeXlate : Nat := 0x030C
def causeProtect : Nat := 0x030D
def causeUnreach : Nat := 0x030E

/-- Index field of a level, and log2 of the size that an entry of the level maps. -/
def walkShift : Nat → Nat
  | 1 => 39
  | 2 => 30
  | 3 => 21
  | _ => 16
def walkIndex (level va : Nat) : Nat :=
  match level with
  | 1 => bitsOf va 55 39
  | 2 => bitsOf va 38 30
  | 3 => bitsOf va 29 21
  | _ => bitsOf va 20 16
/-- log2 of the size of a table of a level (R190). -/
def tableLog : Nat → Nat
  | 1 => 20
  | 2 => 12
  | 3 => 12
  | _ => 8

/-- The home address of a table: spaces 1 and 2 only, within the map and on a live die, and no window (R192). -/
def State.tableKey (s : State) (pa : Nat) : Option Nat :=
  if (spaceOf pa = 1 || spaceOf pa = 2) && !isWindow pa then s.canon 0 pa else none

/-- One walk from a level's table: the leaf entry and the physical address of the byte, or the cause. `n` bounds the levels
left; the table's address is physical (DESIGN CHOICE, log 10). -/
def State.walk (s : State) (va : Nat) : Nat → Nat → Nat → Except Nat (Nat × Nat)
  | 0, _, _ => .error causeXlate
  | n + 1, level, table =>
    match s.tableKey table with
    | none => .error causeXlate
    | some key =>
      if table % 2 ^ tableLog level ≠ 0 then .error causeXlate
      else
        let e := s.homeNat (key + 8 * walkIndex level va) 8
        let pa := e / 256 * 256
        if e % 2 = 0 || bitsOf e 7 4 ≠ 0 then .error causeXlate
        else if bitOf e 1 then
          if level = 1 || pa % 2 ^ walkShift level ≠ 0 || spaceOf pa = 0 || spaceOf pa > 4 then .error causeXlate
          else .ok (e, pa + va % 2 ^ walkShift level)
        else if level ≥ 4 || pa % 2 ^ tableLog (level + 1) ≠ 0 then .error causeXlate
        else s.walk va n (level + 1) pa

/-- The doublewords that a walk reads. -/
def State.walkReads (s : State) (va : Nat) : Nat → Nat → Nat → List Nat
  | 0, _, _ => []
  | n + 1, level, table =>
    match s.tableKey table with
    | none => []
    | some key =>
      let a := key + 8 * walkIndex level va
      let e := s.homeNat a 8
      if e % 2 = 0 || bitOf e 1 || level ≥ 4 then [a] else a :: s.walkReads va n (level + 1) (e / 256 * 256)

/-- A number that no space has. -/
def noSpace : Nat := 16
/-- The number that stands for no cell: what the firmware and the NIs translate for themselves is not cached (log 10). -/
def noCell : Nat := 1024

/-- A cached translation serves an access (R193). -/
def Cached.covers (t : Cached) (root va : Nat) : Bool := t.root = root && va / 2 ^ t.shift = t.page
/-- The leaf entry and the physical address of a byte, from a cell's cache or by a walk (R193) (DESIGN CHOICE, log 10). -/
def State.leaf (s : State) (root cell va : Nat) : Except Nat (Nat × Nat) :=
  match (s.cell cell).tlb.find? (·.covers root va) with
  | some t => .ok (t.entry, t.entry / 256 * 256 + va % 2 ^ t.shift)
  | none => s.walk va 4 1 root

/-- log2 of the size of the page whose leaf a walk finds from a level on: the level of the leaf. -/
def State.walkSize (s : State) (va : Nat) : Nat → Nat → Nat → Nat
  | 0, level, _ => walkShift level
  | n + 1, level, table =>
    match s.tableKey table with
    | none => walkShift level
    | some key =>
      let e := s.homeNat (key + 8 * walkIndex level va) 8
      if bitOf e 1 || level ≥ 4 then walkShift level else s.walkSize va n (level + 1) (e / 256 * 256)

/-- One byte's translation (R188, R192, R194): the one form of its physical address, or the cause. -/
def State.xlate (s : State) (root cell va : Nat) (acc : Acc) : Except Nat Nat :=
  if va / 2 ^ 56 ≠ 0 then .error causeXlate
  else if va < 0x20_0000 then
    match s.canon cell va with
    | some k => .ok k
    | none => .error causeUnreach
  else if root = 0 then .error causeXlate
  else
    match s.leaf root cell va with
    | .error c => .error c
    | .ok (e, pa) =>
      if acc = .write && !bitOf e 2 || acc = .exec && !bitOf e 3 then .error causeProtect
      else
        match s.canon cell pa with
        | some k => .ok k
        | none => .error causeUnreach

/-- The space in which translation finds an address, before spaces 0 and 3 are put in their one form; `noSpace` for none. -/
def State.physSpace (s : State) (root cell va : Nat) : Nat :=
  if va < 0x20_0000 then 0
  else match s.leaf root cell va with
    | .ok (_, pa) => spaceOf pa
    | .error _ => noSpace

/-- A range of bytes cut where a page may end: each piece's first address and length. `fuel` bounds the pieces. -/
def pieces : Nat → Nat → Nat → List (Nat × Nat)
  | 0, _, _ => []
  | fuel + 1, va, n =>
    if n = 0 then []
    else
      let m := Nat.min n (0x1_0000 - va % 0x1_0000)
      (va, m) :: pieces fuel ((va + m) % 2 ^ 64) (n - m)

/-- A range of bytes, in pieces that stand together: their home addresses and lengths, or the cause and the first byte that
faults (R189, R194) (DEDUCED, log 86). -/
def State.xlateRange (s : State) (root cell va n : Nat) (acc : Acc) : Except (Nat × Nat) (List (Nat × Nat)) :=
  if va < 0x20_0000 && va + n > 0x20_0000 then .error (causeUnreach, va)
  else
    (pieces (n / 0x1_0000 + 2) va n).foldl
      (fun r (a, m) =>
        match r with
        | .error e => .error e
        | .ok l =>
          match s.xlate root cell a acc with
          | .error c => .error (c, a)
          | .ok k => .ok (l ++ [(k, m)]))
      (.ok [])

/-- The translation root of a core's region (R44). -/
def State.rootOf (s : State) (c : Nat) : Nat :=
  match (s.core c).region with
  | none => 0
  | some r => ((s.region r).map (·.root)).getD 0

/-! ### Reads that find errors (R421–R424) -/

/-- The bank or stack that holds an address: kind and unit of its counters (R428). -/
def eccUnit (key : Nat) : Option (Nat × Nat) :=
  match spaceOf key with
  | 1 => some (8, 32 * sramCell key + sramOff key / 0x1_0000)
  | 2 => if isWindow key then none else some (9, stackOf key)
  | _ => none

/-- The aligned doublewords that a range touches. -/
def dwordsOf (key n : Nat) : List Nat :=
  if n = 0 then [] else (List.range ((key + n - 1) / 8 - key / 8 + 1)).map fun i => (key / 8 + i) * 8

/-- One read of one doubleword: an uncorrectable one adds to UE; a corrected one adds to CE and is written back. -/
def State.noteRead (s : State) (d : Nat) : State :=
  match eccUnit d with
  | none => s
  | some (kind, unit) =>
    if s.bad.contains d then s.bump kind unit 1
    else if s.soft.contains d then { s with soft := s.soft.filter (· ≠ d) }.bump kind unit 0
    else s

def State.noteReads (s : State) (ds : List Nat) : State := ds.foldl (fun t d => t.noteRead d) s
/-- The first uncorrectable doubleword of a read. -/
def State.badOf (s : State) (ds : List Nat) : Option Nat := ds.find? (s.bad.contains ·)

/-- Translations that a cell's cache holds (R193). -/
def tlbSize : Nat := 256

/-- What a translation leaves behind: where the cell's cache does not hold it, a walk, whose reads are counted and belong to
no region (R424), and whose result the cache keeps (R193). -/
def State.noteWalk (s : State) (root cell va : Nat) : State :=
  if va / 2 ^ 56 ≠ 0 || va < 0x20_0000 || root = 0 || (s.cell cell).tlb.any (·.covers root va) then s
  else
    let t := s.noteReads (s.walkReads va 4 1 root)
    match s.walk va 4 1 root with
    | .error _ => t
    | .ok (e, _) =>
      if cell = noCell then t
      else
        let x : Cached := ⟨root, s.walkSize va 4 1 root, va / 2 ^ s.walkSize va 4 1 root, e⟩
        t.modCell cell fun c => { c with tlb := (x :: c.tlb).take tlbSize }

/-- What the translations of a range leave behind, page by page. -/
def State.noteRange (s : State) (root cell va n : Nat) : State :=
  (pieces (n / 0x1_0000 + 2) va n).foldl (fun t (a, _) => t.noteWalk root cell a) s

/-- What the translations of a range for core `c` leave behind. -/
def State.walked (s : State) (c : Nat) (va : Dword) (n : Nat := 1) : State := s.noteRange (s.rootOf c) (cellOf c) va.toNat n

/-- The region that holds a cell: the cell's cache has translations of that region alone, since it is empty when a region
takes the cell (R193). -/
def State.cellRegion (s : State) (cell : Nat) : Option Nat := (s.core (8 * cell)).region

/-- TINV's removal (R213): of region `r`, the page that holds an address, or every page, in every cell's cache. -/
def State.invalidate (s : State) (r : Option Nat) (va : Option Nat) : State :=
  let gone (t : Cached) : Bool := match va with
    | some a => a / 2 ^ t.shift = t.page
    | none => true
  { s with cells := s.cells.map fun (n, (c : Cell)) =>
      (n, if s.cellRegion n = r then { c with tlb := c.tlb.filter fun t => !gone t } else c) }

/-- A cache gives up the translation at place `i` (R193). -/
def State.evict (s : State) (cell i : Nat) : State := s.modCell cell fun c => { c with tlb := listDel c.tlb i }

/-! ### Writing at the home -/

/-- Memory with bytes written at one doubleword's span: an uncorrectable doubleword is replaced, and where the write
covers only part of it the other bytes become 0 and UE rises (R423). -/
def State.eccWrite (s : State) (key n : Nat) : State :=
  (dwordsOf key n).foldl
    (fun t d =>
      let whole : Bool := key ≤ d && d + 8 ≤ key + n
      let t := if whole && t.soft.contains d then { t with soft := t.soft.filter (· ≠ d) } else t
      if t.bad.contains d then
        let t := { t with bad := t.bad.filter (· ≠ d), mem := memSetBytes t.mem d (List.replicate 8 0) }
        if whole then t
        else match eccUnit d with
          | some (kind, unit) => t.bump kind unit 1
          | none => t
      else t)
    s

/-- A write to a dirty line of an active speculation by anyone but its shadow sets CONFLICT (R135). -/
def State.conflictWrite (s : State) (key n : Nat) : State :=
  (List.range ((key % 32 + n + 31) / 32)).foldl
    (fun t i =>
      match t.specLine (key / 32 * 32 + 32 * i) with
      | some (cell, line) =>
        if (t.cell cell).shadow.any (·.1 = line) then t.modCell cell fun x => { x with specConflict := true } else t
      | none => t)
    s

/-- A region runs. -/
def State.running (s : State) : Bool := s.regions.any fun (_, r) => r.any (·.state = 1)

/-- Memory with bytes written, and what stood there kept while a region runs (R205). No read returns an earlier write of a core any
more, unless the write is itself one of those (`State.perform`). -/
def State.overwrite (s : State) (key : Nat) (bytes : List Byte) : State :=
  let t := { s with
    mem := memSetBytes s.mem key bytes,
    hist := keepWrites (s.hist.map fun (w : Write) => w.without fun k => key ≤ k && k < key + bytes.length) }
  if s.running then { t with past := (key, (List.range bytes.length).map fun i => memGet s.mem (key + i)) :: s.past } else t

/-- Bytes applied at their home, with what ECC and speculation make of them. The queue area and the management window
take no write by this path (R79, R242). -/
def State.putBytes (s : State) (key : Nat) (bytes : List Byte) : State :=
  if bytes.isEmpty || isWindow key || (queueOf key).isSome then s
  else
    let bytes := if spaceOf key = 1 then bytes.take (0x1F_C000 - sramOff key) else bytes
    ((s.eccWrite key bytes.length).conflictWrite key bytes.length).overwrite key bytes

/-- Bytes of the queue area's slots, written by the owning core (R243). -/
def State.putQueue (s : State) (key : Nat) (bytes : List Byte) : State := (s.eccWrite key bytes.length).overwrite key bytes

/-- A doubleword written by the device itself. -/
def State.putDw (s : State) (key v : Nat) : State := s.putBytes key (leBytes 8 v)

end Sys2Proof.Machine
end

