-- ==== Sys2Proof/Machine/Messages.lean ====
section
/-! DEFINITION. Route tags and headers (R41, R42), budgets (R30), handler entries and arrival counts (R35–R40), the
receive areas (R317–R319), messages under way (R32, R320), the host message queue (R78), the class of a firing under inheritance
(R120), fault reports and reads that find errors (R113, R424), and writes performed at their
home together with the watches they set off (R332). -/

namespace Sys2Proof.Machine

/-! ### Tags and headers -/

/-- A route tag (R41). -/
def tagOf (dev core ch : Nat) : Nat := dev * 2 ^ 19 + core / 8 * 2 ^ 9 + core % 8 * 2 ^ 6 + ch % 64
def tagDev (t : Nat) : Nat := bitsOf t 31 19
/-- The device-wide number of the core that a tag names. -/
def tagCore (t : Nat) : Nat := bitsOf t 18 9 * 8 + bitsOf t 8 6
def tagCh (t : Nat) : Nat := bitsOf t 5 0
/-- The tag of a core of this device. -/
def State.tag (s : State) (core ch : Nat) : Nat := tagOf s.device core ch

/-- A header in the generic layout (R42). -/
def header (typ cls len tag source : Nat) : Dword :=
  dw (typ * 2 ^ 60 + cls % 4 * 2 ^ 58 + len % 1024 * 2 ^ 48 + tag % 0x1_0000 * 2 ^ 32 + source % 2 ^ 32)
def hdrType (h : Dword) : Nat := h.toNat / 2 ^ 60

/-- A coded or escape message that breaks R276, with the dictionary's segment length where it is known. -/
def codedMalformed (hdr : Dword) (pay : List Dword) (len : Option Nat) : Bool :=
  let h := hdr.toNat
  let count := bitsOf h 55 52
  let word (i : Nat) : Nat := bitsOf (pay.getD (i / 2) 0).toNat (32 * (i % 2) + 31) (32 * (i % 2))
  if hdrType hdr = 2 then
    bitOf h 57 || h % 256 ≠ (count + 1) / 2
      || (List.range (2 * ((count + 1) / 2))).any fun i => if i < count then bitsOf (word i) 15 11 ≠ 0 else word i ≠ 0
  else
    !bitOf h 57 || bitOf h 56 || count ≠ 0 || (pay.headD 0).toNat / 2 ^ 24 ≠ 0
      || (match len with
        | none => false
        | some n => h % 256 ≠ 1 + (n + 7) / 8 || (List.range (8 * ((n + 7) / 8) - n)).any fun i =>
            bitsOf (pay.getD (1 + (n + i) / 8) 0).toNat (8 * ((n + i) % 8) + 7) (8 * ((n + i) % 8)) ≠ 0)

/-! ### Budgets (R30) -/

inductive Budget where
  | cells | sram | matrix | msgs | ctx
  deriving DecidableEq, Repr

def Region.limit (r : Region) : Budget → Nat
  | .cells => r.cells
  | .sram => r.sramKib
  | .matrix => r.matrix
  | .msgs => r.msgs
  | .ctx => r.spawn
def Region.used (r : Region) : Budget → Nat
  | .cells => r.usedCells
  | .sram => r.usedSram
  | .matrix => r.usedMatrix
  | .msgs => r.usedMsgs
  | .ctx => r.usedCtx
def Region.setUsed (r : Region) (b : Budget) (n : Nat) : Region :=
  match b with
  | .cells => { r with usedCells := n }
  | .sram => { r with usedSram := n }
  | .matrix => { r with usedMatrix := n }
  | .msgs => { r with usedMsgs := n }
  | .ctx => { r with usedCtx := n }

/-- The region and its ancestors; `fuel` bounds the depth. -/
def State.path (s : State) : Nat → Nat → List Nat
  | 0, _ => []
  | fuel + 1, r =>
    match s.region r with
    | none => []
    | some x => r :: (match x.parent with
      | none => []
      | some p => s.path fuel p)

/-- Whether a request is granted: usage plus request within every budget of the path (R30). -/
def State.fits (s : State) (r : Nat) (b : Budget) (n : Nat) : Bool :=
  (s.path 32 r).all fun p =>
    match s.region p with
    | none => true
    | some x => x.used b + n ≤ x.limit b
/-- A granted charge, on the whole path (DEDUCED, log 58). -/
def State.charge (s : State) (r : Nat) (b : Budget) (n : Nat) : State :=
  (s.path 32 r).foldl (fun t p => t.modRegion p fun x => x.setUsed b (x.used b + n)) s
def State.uncharge (s : State) (r : Nat) (b : Budget) (n : Nat) : State :=
  (s.path 32 r).foldl (fun t p => t.modRegion p fun x => x.setUsed b (x.used b - n)) s

/-! ### Handler entries (R35–R39, R119) -/

def Entry.hasSlot (e : Entry) : Bool := e.slots.any fun (_, v, _) => v
/-- The key channel (R116). -/
def Entry.key (e : Entry) : Nat := ((e.slots.find? fun (_, v, _) => v).map fun (_, _, ch) => ch).getD 0
def Entry.names (e : Entry) (ch : Nat) : Bool := e.slots.any fun (_, v, c) => v && c = ch
/-- DEPTH, where 0 means 64. -/
def Entry.depthOf (e : Entry) : Nat := if e.depth = 0 then 64 else e.depth
/-- EN and PEND set; the wait timer starts when both become 1, and a change that makes one 0 clears timer and LIFT. -/
def Entry.setFlags (e : Entry) (en pend : Bool) (now : Nat) : Entry :=
  if en && pend then { e with en := en, pend := pend, since := if e.en && e.pend then e.since else now }
  else { e with en := en, pend := pend, since := 0, lift := false }

def Core.count (k : Core) (ch : Nat) : Nat := tabGet 0 k.counts ch
def Core.setCount (k : Core) (ch n : Nat) : Core := { k with counts := if n = 0 then tabDel k.counts ch else tabSet k.counts ch n }
def Core.entry (k : Core) (e : Nat) : Entry := k.entries.getD e Entry.zero
def Core.setEntry (k : Core) (e : Nat) (x : Entry) : Core := { k with entries := listSet k.entries e x }
/-- Every valid slot has an arrival count of at least its CNT (R36). -/
def Core.met (k : Core) (e : Entry) : Bool := e.slots.all fun (n, v, ch) => !v || n ≤ k.count ch
/-- The entry whose valid slot names a channel. -/
def Core.entryOf (k : Core) (ch : Nat) : Option Nat := k.entries.findIdx? (·.names ch)

/-- An arrival on a channel (R36). -/
def Core.arrive (k : Core) (ch now : Nat) : Core :=
  let k := k.setCount ch (k.count ch + 1)
  match k.entryOf ch with
  | none => k
  | some e => if k.met (k.entry e) then k.setEntry e ((k.entry e).setFlags (k.entry e).en true now) else k
/-- PEND recomputed after a change of the counts that a program or a thief made (R128, R131, R327). -/
def Core.repend (k : Core) (ch now : Nat) : Core :=
  match k.entryOf ch with
  | none => k
  | some e => k.setEntry e ((k.entry e).setFlags (k.entry e).en (k.met (k.entry e)) now)

/-- Messages queued on a channel: records, and on channel 2 the arms of the deque. -/
def Core.queued (k : Core) (ch : Nat) : List AreaRec := k.recs.filter fun r => r.st = .queued && r.ch = ch

/-! ### Receive areas (R317–R319) -/

def areaSize : Nat := 0x4000
/-- Slice offset of a core's receive area. -/
def areaBase (core : Nat) : Nat := 0x1C_0000 + areaSize * (core % 8)
/-- Records that are queued or held. -/
def Core.recCount (k : Core) : Nat := (k.recs.filter fun r => r.st = .queued || r.st = .held).length

/-- Where a record of `size` bytes goes: its offset, and whether a pad is written first; none refuses (R318). -/
def Core.placeOff (k : Core) (size : Nat) : Option (Nat × Bool) :=
  if k.recCount = 256 then none
  else if k.recCount = 0 || k.tail > k.head then
    if areaSize - k.tail ≥ size then some (k.tail, false)
    else if k.head ≥ size then some (0, true)
    else none
  else if k.head - k.tail ≥ size then some (k.tail, false)
  else none

/-- H moves over released records and pads; an empty area starts again at 0 (R319). -/
def Core.advanceHead (k : Core) : Core :=
  let l := k.recs.dropWhile fun r => r.st = .freed || r.st = .pad
  if k.recCount = 0 then { k with recs := [], head := 0, tail := 0 }
  else { k with recs := l, head := (l.head?.map (·.off)).getD 0 }

/-- Records at the given offsets released. -/
def Core.releaseRecs (k : Core) (offs : List Nat) : Core :=
  let free (r : AreaRec) : AreaRec := if r.st = .held && offs.contains r.off then { r with st := .freed } else r
  Core.advanceHead { k with recs := k.recs.map free }

/-- Bytes of a message: its header and payload. -/
def msgBytes (hdr : Dword) (pay : List Dword) : List Byte := (hdr :: pay).flatMap fun d => leBytes 8 d.toNat
/-! ### Host message queue (R78) -/

/-- One entry of a function's queue, or one more of HMQ_LOST. -/
def State.hmq (s : State) (fn tag region fd kind : Nat) (detail : List Nat) : State :=
  let f := s.fn fn
  if f.hmqSize = 0 || (f.hmqTail + 1) % f.hmqSize = f.hmqHead % f.hmqSize then
    s.modFn fn fun f => { f with hmqLost := Nat.min (f.hmqLost + 1) (2 ^ 64 - 1) }
  else
    let d0 := tag % 0x1_0000 * 2 ^ 48 + region % 0x1_0000 * 2 ^ 32 + fd % 0x1_0000 * 2 ^ 16 + kind
    let words := [d0, s.time] ++ detail ++ List.replicate (6 - detail.length) 0
    let s := s.putBytes (4 * 2 ^ 60 + (f.hmqBase + 64 * f.hmqTail) % 2 ^ 56) (words.flatMap (leBytes 8))
    s.modFn fn fun f => { f with hmqTail := (f.hmqTail + 1) % f.hmqSize, msix1 := f.msix1 + 1 }
/-- The same entry for every function, 0 to 384. -/
def State.hmqAll (s : State) (tag kind : Nat) (detail : List Nat) : State :=
  (List.range 385).foldl (fun t f => t.hmq f tag 0 0 kind detail) s
/-- The function that owns a core's region. -/
def State.fnOf (s : State) (core : Nat) : Nat :=
  (((s.core core).region.bind s.region).map (·.fn)).getD 0
/-- An access that the management window turns away: counted, once (R79). -/
def State.windowLost (s : State) (fn : Nat) : State :=
  s.modFn fn fun f => { f with hmqLost := Nat.min (f.hmqLost + 1) (2 ^ 64 - 1) }

/-- Accesses that the management window takes, one for each 64 bytes (R79, R198). -/
def windowHits (l : List (Nat × Nat)) : Nat :=
  (l.filter fun (k, _) => isWindow k).foldl (fun n (k, m) => n + ((k + m - 1) / 64 - k / 64 + 1)) 0
/-- `n` accesses counted in HMQ_LOST. -/
def State.windowLostN (s : State) (fn : Nat) : Nat → State
  | 0 => s
  | n + 1 => (s.windowLost fn).windowLostN fn n

/-! ### Messages under way -/

/-- A message from a core. -/
def Msg.from (core region : Nat) (hdr : Dword) (pay : List Dword) (dst : Nat) : Msg :=
  { hdr := hdr, pay := pay, dst := BitVec.ofNat 32 dst, src := some core, region := region, slot := false,
    charged := false, rel := none, ctx := none, answer := none, back := 0, due := 0, refused := false, seq := 0, quiet := false }

/-- The answer of an NI to a SPAWN: its pending gd takes the first one (R351) (DEDUCED, log 84). -/
def State.answer (s : State) (m : Msg) (code : Nat) : State :=
  match m.answer with
  | none => s
  | some (c, ord) =>
    s.modCore c fun k =>
      { k with pend := k.pend.map fun p =>
          if p.who.ord = ord && !p.ready then
            { p with ready := true, due := s.cycle,
                     writes := p.writes.map fun w => match w with
                       | .g r _ => .g r (dw code)
                       | w => w }
          else p }

/-- A message leaves the sender's care: its slot and charge are free again (R32). -/
def State.settle (s : State) (m : Msg) : State := if m.charged then s.uncharge m.region .msgs 1 else s

/-- A message dropped (R41, R43, R425): counted, its slot and charges released, a context ended. -/
def State.dropMsg (s : State) (m : Msg) : State :=
  let s := match m.src with
    | some c => s.bump 3 c 5
    | none => s
  let s := s.settle m
  let s := match m.ctx with
    | some r => s.uncharge r .ctx 1
    | none => s
  s.answer m 4

/-- A message that reaches a freed cell is dropped (R414, R419): DROPPED counts it at the core that sent it, or at the one it
was sent to (DEDUCED, log 106). -/
def State.dropFreed (s : State) (core : Nat) (m : Msg) : State :=
  if m.src.isSome then s.dropMsg m else (s.dropMsg m).bump 3 core 5

/-- The destination of a message is a device outside the domain, or a cell on a fenced die (R41). -/
def State.unreachableTag (s : State) (dst : Nat) : Bool :=
  if tagDev dst = s.device then !s.isLive (dieOfCore (tagCore dst))
  else !s.inDomain (tagDev dst) || !s.peerLive (tagDev dst) (dieOfCore (tagCore dst))

/-- A message given to the network, or dropped at the sending NI. A fault report is dropped at its arrival, where it ends its
fault domain (R115). -/
def State.post (s : State) (m : Msg) : State :=
  let s := match m.src with
    | some c => s.bump 3 c 0
    | none => s
  let s := if m.quiet then s else s.modRegion m.region fun r => { r with qRose := true }
  if s.unreachableTag m.dst.toNat && hdrType m.hdr ≠ 10 then s.dropMsg m
  else { s with net := s.net ++ [{ m with seq := s.seq, due := s.cycle }], seq := s.seq + 1 }

/-- Outgoing slots of a core that are taken: reserved, in a message under way, or with its encoder (R32). -/
def State.outUsed (s : State) (core : Nat) : Nat :=
  (s.net.filter fun m => m.slot && m.src = some core).length + (s.core core).fir.prodLeft
    + ((s.cell (cellOf core)).enc.filter fun j => j.core = core && j.charged).length

/-- A message to channel 0 of a region's supervisor, charged to nothing (R34). -/
def State.toSupervisor (s : State) (region : Nat) (src : Option Nat) (hdr : Dword) (pay : List Dword) : State :=
  match s.region region with
  | none => s
  | some r =>
    s.post { Msg.from 0 region hdr pay (s.tag r.supervisor 0) with src := src }

/-! ### The class of a firing -/

/-- Episode `e` has completed where `episode` have (R384). -/
def episodeOver (episode e : Nat) : Bool :=
  let d := (episode + 2 ^ 32 - e) % 2 ^ 32
  1 ≤ d && d ≤ 2 ^ 31

/-- A running firing waits in BWAIT for the current episode of barrier `b` of device `dev` (R120). -/
def Core.bwaits (k : Core) (dev b : Nat) (bar : Barrier) : Bool :=
  match k.status, k.wait with
  | .running, some w =>
    w.kind = .bwait && bitsOf w.handle.toNat 9 0 = b && bitsOf w.handle.toNat 28 16 = dev && !episodeOver bar.episode w.episode
  | _, _ => false

/-- A member that has not arrived raises this core: itself, or a core of its device that holds a cell of its region. -/
def Member.raises (m : Member) (dev core : Nat) (region : Option Nat) : Bool :=
  !m.arr && !m.gone
    && ((m.kind = 1 && m.id = core) || (m.kind = 2 && m.id = dev && m.region ≠ 0 && region = some m.region))

/-- The cores whose waiting firings raise a core: they wait for a barrier of this device at which it has yet to arrive. -/
def State.raisers (s : State) (core : Nat) : List Nat :=
  s.barriers.flatMap fun (b, x) =>
    match x with
    | none => []
    | some bar =>
      if bar.members.any (·.raises s.device core (s.core core).region) then
        (s.cores.filter fun (_, k) => k.bwaits s.device b bar).map (·.1)
      else []

/-- The lesser of two classes, where there are any. -/
def leastClass (a b : Option Nat) : Option Nat :=
  match a, b with
  | some x, some y => some (Nat.min x y)
  | some x, none => some x
  | none, y => y

/-- A firing's class under INH (R120). -/
def Core.classUnder (k : Core) (inh : Option Nat) : Nat :=
  match inh with
  | some i => Nat.min k.fir.cls i
  | none => k.fir.cls

/-- INH of a core, none while INH_V is 0 (R120): the least class that waits on one of its unarrived memberships, where a waiting
firing's class is itself under inheritance. `fuel` bounds the chain of waiting firings. -/
def State.inhOf (s : State) : Nat → Nat → Option Nat
  | 0, core => (s.core core).peerInh
  | fuel + 1, core =>
    (s.raisers core).foldl (fun acc c => leastClass acc (some ((s.core c).classUnder (s.inhOf fuel c)))) (s.core core).peerInh

/-- INH of a core (R120): a chain has no more links than firings wait. -/
def State.inh (s : State) (core : Nat) : Option Nat :=
  s.inhOf (s.cores.filter fun (_, k) => k.wait.any (·.kind = .bwait)).length core

/-- The class of the running firing, inheritance included (R120, R138). -/
def State.classOf (s : State) (core : Nat) : Nat := (s.core core).classUnder (s.inh core)

/-! ### Reports -/

/-- A fault report (R113): a message of TYPE 10 to channel 0 of the region's supervisor, with the class of the firing. -/
def State.reportMsg (s : State) (core cls region cause word : Nat) (pc pair detail : Dword) : State :=
  let d0 := dw (cause % 0x1_0000 * 2 ^ 48 + region % 0x1_0000 * 2 ^ 32 + core % 0x2000 * 2 ^ 16 + word % 4)
  s.toSupervisor region (some core) (header 10 cls 5 0 (s.tag core 0)) [d0, pc, pair, detail, dw s.time]

/-- A fault report sent. Where the supervisor's die is fenced, it is dropped when it arrives there, and the fault domain ends
(R115). -/
def State.sendReport (s : State) (core region cause word : Nat) (pc pair detail : Dword) : State :=
  s.reportMsg core (s.classOf core) region cause word pc pair detail

/-- The report of an uncorrectable read by a core or by an engine acting for it (R424). -/
def State.reportUe (s : State) (core : Nat) (bad : Option Nat) : State :=
  match bad with
  | none => s
  | some d =>
    match (s.core core).region with
    | none => s
    | some id => s.sendReport core id 0x0501 0 (s.core core).pc 0 (dw d)

/-- What a read of home bytes leaves behind: corrected and uncorrectable doublewords counted, one report for an access
of a core (R421, R422, R424). -/
def State.readDone (s : State) (core : Nat) (ds : List Nat) : State :=
  let bad := s.badOf ds
  (s.noteReads ds).reportUe core bad

/-! ### Writes performed at their home (R311, R332) -/

/-- The notice of a watched word (R332), counted at its sending (R340). -/
def State.notice (s : State) (w : Watch) : State :=
  (s.bump 3 w.core 7).post (Msg.from w.core w.region (header 12 w.cls 1 w.tag (s.tag w.core 0)) [dw w.pa] (s.tag w.core w.ch))

/-- Watches whose word a write touched and that the write leaves equal to EXP are noticed and freed. -/
def State.fireWatches (s : State) (key n : Nat) : State :=
  if spaceOf key ≠ 1 then s
  else
    let hit (w : Watch) : Bool := w.pa < key + n && key < w.pa + 4 && s.homeNat w.pa 4 = w.exp.toNat
    let cell := sramCell key
    match (s.cell cell).watches.filter hit with
    | [] => s
    | ws =>
      let s := s.modCell cell fun x => { x with watches := x.watches.filter fun w => !hit w }
      ws.foldl (fun t w => t.notice w) s

/-- A waiting WAITW of core `c`: its condition and its doubleword's home. -/
def Pend.waits (p : Pend) : Option (Reg × BitVec 2 × Nat) :=
  match p.who.instr, p.ready with
  | .waitw _ a _ _ _ kd, false => p.dwords.head?.map fun key => (a, kd, key)
  | _, _ => none

/-- The condition on the doubleword: P ≠ C, or P = C (R330). -/
def waitwMet (k : BitVec 2) (w : Nat) : Bool := if k = 0 then w % 2 ^ 32 ≠ w / 2 ^ 32 else w % 2 ^ 32 = w / 2 ^ 32
/-- The doubleword as the core reads it. -/
def State.waitwRead (s : State) (core key : Nat) : Nat := leNat (s.firingBytes core key 8)

/-- A `g` register write with its value put in, where it is still to be made (R406). -/
def RegWrite.fill (v : Dword) : RegWrite → RegWrite
  | .g r _ => .g r v
  | w => w

/-- A read of a waiting WAITW that finds its condition true ends the wait with the value read (R330). -/
def State.reread (s : State) (core : Nat) (p : Pend) : Pend :=
  match p.waits with
  | some (_, kd, key) =>
    let w := s.waitwRead core key
    if waitwMet kd w then { p with ready := true, due := s.cycle + 1, writes := p.writes.map (RegWrite.fill (dw w)) } else p
  | none => p

/-- Every WAITW on a doubleword that a write has touched reads it again (R330). -/
def State.rereadAt (s : State) (key n : Nat) : State :=
  let hit (p : Pend) : Bool := match p.waits with
    | some (_, _, k) => k < key + n && key < k + 8
    | none => false
  if s.cores.any fun (_, k) => k.pend.any hit then
    { s with cores := s.cores.map fun (c, (k : Core)) =>
        (c, { k with pend := k.pend.map fun p => if hit p then s.reread c p else p }) }
  else s

/-- The reads that WAITW makes at least every 1,024 cycles, however the word has come to hold (R330). -/
def State.periodicReads (s : State) : State :=
  let hit (p : Pend) : Bool := p.waits.isSome && (s.cycle - p.issued) % 1024 = 0
  if s.cores.any fun (_, k) => k.pend.any hit then
    { s with cores := s.cores.map fun (c, (k : Core)) =>
        (c, { k with pend := k.pend.map fun p => if hit p then s.reread c p else p }) }
  else s

/-- A write performed at its home: watched words and waiting WAITWs see it (R330, R332). -/
def State.writeHome (s : State) (key : Nat) (bytes : List Byte) : State :=
  ((s.putBytes key bytes).fireWatches key bytes.length).rereadAt key bytes.length

/-- Room for a record in a core's area, or none: the record written and entered, and its offset (DEDUCED, log 14). -/
def State.record (s : State) (core : Nat) (hdr : Dword) (pay : List Dword) (r : AreaRec) : Option State :=
  let k := s.core core
  let size := 8 + 8 * pay.length
  match k.placeOff size with
  | none => none
  | some (off, pad) =>
    let base := sramKey (cellOf core) (areaBase core)
    let (s, recs) :=
      if pad then
        let bytes := (List.range (areaSize - k.tail)).map fun i =>
          if i = 7 then BitVec.ofNat 8 (0xF0 + (Config.padByte s.free i).toNat % 16) else Config.padByte s.free i
        ({ s.writeHome (base + k.tail) bytes with free := s.free + 1 },
          k.recs ++ [{ r with off := k.tail, size := areaSize - k.tail, st := .pad, ch := 0 }])
      else (s, k.recs)
    let s := s.writeHome (base + off) (msgBytes hdr pay)
    let tile := if hdrType hdr = 5 then some (bitsOf (pay.getD 1 0).toNat 63 32) else none
    some (s.modCore core fun k =>
      { k with recs := recs ++ [{ r with off := off, size := size, tile := tile }], tail := (off + size) % areaSize })

/-- A message placed in a core's receive area and counted as an arrival, or none where the area refuses it (R318). -/
def State.place (s : State) (core ch : Nat) (hdr : Dword) (pay : List Dword) (mark : Nat) (rel : Option (Nat × Nat))
    (region : Nat) (ctx : Option Nat) : Option State :=
  let k := s.core core
  let deep : Bool :=
    ch ≠ 2 && ch ≠ 3 && k.entries.any fun e =>
      match e.slots.head? with
      | some (_, true, c) => c = ch && e.depthOf ≤ (k.queued ch).length
      | _ => false
  match s.record core hdr pay
      { off := 0, size := 0, ch := ch, st := .queued, mark := mark, rel := rel, region := region, ctx := ctx, tile := none, quiet := false } with
  | none => none
  | some s =>
    let s := s.modCore core fun k => k.arrive ch s.cycle
    let s := s.bump 3 core 1
    let s := if deep then s.bump 3 core 4 else s
    some (if hdrType hdr = 8 && ch = 1 then s.bump 3 core 6 else s)

/-- The crossing of a packet to a peer's memory (R425): whether it is dropped after its eighth retry, and the retries counted at a
trained port. Which port it takes, and how often a flit is bad, is free (DEDUCED, log 67). -/
def State.crossing (s : State) (key : Nat) : Bool × State :=
  let ports := (s.ports.filter fun (_, p) => p.trained).map (·.1)
  if spaceOf key ≠ 3 || ports.isEmpty then (false, s)
  else
    let port := ports.getD ((Config.openWord s.free 0).toNat % ports.length) 0
    let bad := (Config.openWord s.free 1).toNat % 10
    let t := { s with free := s.free + 1 }.bump 10 port 0 (Nat.min bad 8)
    if bad = 9 then (true, t.bump 10 port 1) else (false, t)

/-- Bytes that an engine writes at a peer, in packets of at most 64 bytes: a packet that is dropped writes nothing (R425). `fuel`
bounds the packets. -/
def State.writeFar (s : State) : Nat → Nat → List Byte → State
  | 0, _, _ => s
  | fuel + 1, key, bytes =>
    if bytes.isEmpty then s
    else
      let n := 64 - key % 64
      let (lost, t) := s.crossing key
      (if lost then t else t.writeHome key (bytes.take n)).writeFar fuel (key + n) (bytes.drop n)

/-- Bytes that an engine writes at one home address. -/
def State.engineWrite (s : State) (key : Nat) (bytes : List Byte) : State :=
  if spaceOf key = 3 then s.writeFar (bytes.length / 64 + 2) key bytes else s.writeHome key bytes

/-- Pieces of a range written from the bytes of a list. -/
def State.writePieces (s : State) : List (Nat × Nat) → List Byte → State
  | [], _ => s
  | (k, m) :: t, bytes => (s.engineWrite k (bytes.take m)).writePieces t (bytes.drop m)

/-- The runs of bytes that a write holds, with their addresses. -/
def runs : Nat → List (Option Byte) → List (Nat × List Byte)
  | _, [] => []
  | a, none :: t => runs (a + 1) t
  | a, some b :: t =>
    match runs (a + 1) t with
    | (a', l) :: r => if a' = a + 1 then (a, b :: l) :: r else (a, [b]) :: (a', l) :: r
    | [] => [(a, [b])]

/-- Runs of bytes written as one access: all of them, then what sees them (R198, R332). -/
def State.writeParts (s : State) (l : List (Nat × List Byte)) : State :=
  let t := l.foldl (fun t (a, b) => t.putBytes a b) s
  l.foldl (fun t (a, b) => (t.fireWatches a b.length).rereadAt a b.length) t
/-- A core's write performed at its home, as one access. A write to the same bytes that its core had observed is returned by no read
from now on; others may still be (R201, R311). -/
def State.perform (s : State) (w : Write) : State :=
  let t := s.writeParts (runs w.pa w.bytes)
  { t with hist := keepWrites ((s.hist.map fun (h : Write) => if h.before w then h.without w.has else h) ++ [w]) }

/-- The home reads a descriptor's doubleword for an operation (R335): the report of an uncorrectable one goes to the region of the
core whose operation it is (R424). -/
def State.depRead (s : State) (o : DepOp) (d : Nat) : State :=
  if tagDev o.src = s.device then s.readDone (tagCore o.src) [d] else s.noteReads [d]

/-- A descriptor whose counter has reached zero pushed onto its owner's ready ring (R336). -/
def State.push (s : State) (o : DepOp) : State :=
  let s := s.depRead o (o.pa + 8)
  let owner := bitsOf (s.homeNat (o.pa + 8) 8) 58 56
  let core := sramCell o.pa * 8 + owner
  let hdr := header 8 o.cls 1 (Config.openTag 8 s.seq).toNat o.src
  s.post { Msg.from core o.region hdr [dw (sramOff o.pa)] (s.tag core 1) with
    src := if tagDev o.src = s.device then some (tagCore o.src) else none }

/-- An operation performed at its counter's home (R335). A peer's counter is that device's to push. -/
def State.depPerform (s : State) (o : DepOp) : State :=
  let new := o.count (s.homeNat o.pa 8)
  let s := (if o.op = 1 then s else s.depRead o o.pa).writeHome o.pa (leBytes 8 new)
  if new = 0 && spaceOf o.pa = 1 && (queueOf o.pa).isNone then s.push o else s

/-- An operation on its way reaches its counter, or is lost with the counter's die as a write is (R82, R425). -/
def State.depArrive (s : State) (o : DepOp) : State :=
  if spaceOf o.pa = 1 && !s.isLive (dieOfCell (sramCell o.pa)) then s else s.depPerform o

/-- An ENCX of the core is under way. -/
def State.encxUnder (s : State) (core : Nat) : Bool := (s.cell (cellOf core)).enc.any fun j => j.core = core && j.encx.isSome

/-- A write shares a byte with `n` bytes at an address. -/
def Write.overlapsAt (w : Write) (key n : Nat) : Bool := w.pa < key + n && key < w.pa + w.bytes.length
/-- Two writes share a byte. -/
def Write.overlaps (a b : Write) : Bool := a.pa < b.pa + b.bytes.length && b.pa < a.pa + a.bytes.length

/-- Writes of a core performed in the order in which the core made them (R312), its operations on codelet counters, which are
older than any of them, first. -/
def State.performAll (s : State) (core : Nat) (ws : List Write) : State :=
  let ops := s.depOps.filter fun o => o.core = some core
  let t := ops.foldl (fun t o => t.depArrive o) { s with depOps := s.depOps.filter fun o => !(o.core = some core) }
  ws.foldl (fun t w => t.perform w) t

/-- The writes of a core below a number are performed, as a release carries them (R204, R314). -/
def State.flushTo (s : State) (core bound : Nat) : State :=
  let mine := s.writes.filter fun (w : Write) => w.core = core && w.id < bound
  if bound = 0 then s
  else { s with writes := s.writes.filter fun w => !(w.core = core && w.id < bound) }.performAll core mine
/-- The number below which a release's own writes are carried; 0 for a write that is no release. -/
def carriedTo (rels : List (Nat × Nat)) : Nat := (rels.map (·.2)).foldl Nat.max 0

/-- Every write of a core on its way is performed (R314). -/
def State.flush (s : State) (core : Nat) : State :=
  let mine := s.writes.filter fun (w : Write) => w.core = core
  { s with writes := s.writes.filter fun w => !(w.core = core) }.performAll core mine

/-- Whether a core's write, or its operation on a codelet counter, touches some of `n` bytes at an address. -/
def State.ownsAt (s : State) (core key n : Nat) : Bool :=
  s.writes.any (fun w => w.core = core && w.pa < key + n && key < w.pa + w.bytes.length)
    || s.depOps.any fun o => o.core = some core && o.pa < key + n && key < o.pa + 8

/-- A decrement on its way that an engine of a core made, of a counter that shares some of `n` bytes at an address. -/
def State.engineOp (s : State) (core key n : Nat) (o : DepOp) : Bool :=
  o.core.isNone && o.src = s.tag core 0 && o.pa < key + n && key < o.pa + 8
/-- Decrements that the engines of a core made of a counter are performed before a later write of theirs to it (R312). -/
def State.engineFlush (s : State) (core key n : Nat) : State :=
  (s.depOps.filter (s.engineOp core key n)).foldl (fun t o => t.depArrive o)
    { s with depOps := s.depOps.filter fun o => !s.engineOp core key n o }

/-- A core's writes on their way to `n` bytes at an address are performed, with those that it made before the last of them
(R312). -/
def State.flushOwn (s : State) (core key n : Nat) : State :=
  if !s.ownsAt core key n then s
  else
    let hit (w : Write) : Bool := w.core = core && w.pa < key + n && key < w.pa + w.bytes.length
    let last := s.writes.length - (s.writes.reverse.findIdx? hit).getD s.writes.length
    let old : List Write := s.writes.take last
    let mine := old.filter fun (w : Write) => w.core = core
    let others := old.filter fun (w : Write) => !(w.core = core)
    { s with writes := others ++ s.writes.drop last }.performAll core mine
/-- Writes of other cores to `n` bytes at an address that a core has observed on their way are performed: what the core does there
next comes after them (R201, rule 2). -/
def State.flushSeen (s : State) (core key n : Nat) : State :=
  (s.writes.filter fun w => w.core ≠ core && (s.core core).seen.contains w.id && w.pa < key + n && key < w.pa + w.bytes.length).foldl
    (fun t w => t.flushOwn w.core w.pa w.bytes.length) s
/-- What an access of a core at the home of `n` bytes must find done: its own earlier writes there (R106, R312), those of others that
it has observed, and its engines' decrements. -/
def State.flushAt (s : State) (core key n : Nat) : State :=
  ((s.engineFlush core key n).flushSeen core key n).flushOwn core key n
/-- The same for every one of some doublewords, or of some pieces. -/
def State.flushDwords (s : State) (core : Nat) (ds : List Nat) : State := ds.foldl (fun t d => t.flushAt core d 8) s
def State.flushPieces (s : State) (core : Nat) (l : List (Nat × Nat)) : State := l.foldl (fun t (k, n) => t.flushAt core k n) s

/-! ### Acquires (R202, R204) -/

/-- An acquire of core `c` at a scope, of those writes on their way that it has observed and that `hit` picks: where it synchronises
with a release, the writes that the release carries are performed, and the release; where it does not, the write alone, if its core
lies in the scope. What it acquires is then performed, for every later reader (DEDUCED, log 8). -/
def State.acquire (s : State) (c scope : Nat) (hit : Write → Bool) : State :=
  (s.writes.filter fun w => w.core ≠ c && (s.core c).seen.contains w.id && hit w).foldl
    (fun t w =>
      if !inScope scope w.core c then t
      else if w.rel.any fun (r, _) => inScope r w.core c then (t.flushTo w.core (carriedTo w.rel)).flushOwn w.core w.pa w.bytes.length
      else t.flushOwn w.core w.pa w.bytes.length)
    s

end Sys2Proof.Machine
end

