-- ==== Sys2Proof/Machine/Firing.lean ====
section
/-! DEFINITION. Spill areas (R343, R344), the class of a firing under inheritance (R120), the end of a firing (R127,
R128, R346), the end of a region (R355, R399, R419), and fault reports (R113, R115). -/

namespace Sys2Proof.Machine

/-! ### Spill areas -/

/-- The home address of a doubleword of a region's spill area, translated under its defining node (R343). -/
def State.spillDw (s : State) (r : Region) (off : Nat) : Option Nat :=
  let own (k : Nat) : Option Nat := if spaceOf k = 1 || (spaceOf k = 2 && !isWindow k) then some k else none
  if r.spillBase = 0 || r.spillSize < 256 then none
  else if r.spillPhys then (if spaceOf r.spillBase = 0 then none else (s.canon 0 (r.spillBase + off)).bind own)
  else if r.spillBase < 0x20_0000 then none
  else match s.xlate r.spillRoot noCell (r.spillBase + off) .read with
    | .ok k => own k
    | .error _ => none

def State.spillGet (s : State) (r : Region) (off : Nat) : Nat :=
  match s.spillDw r off with
  | some k => s.homeNat k 8
  | none => 0
def State.spillPut (s : State) (r : Region) (off v : Nat) : State :=
  match s.spillDw r off with
  | some k => s.writeHome k (leBytes 8 v)
  | none => s
/-- The doublewords of memory that a read of an area's doublewords reads. -/
def State.spillKeys (s : State) (r : Region) (offs : List Nat) : List Nat := (offs.filterMap (s.spillDw r)).map dwOf

/-- The head of the free list taken: USED and HIGH change in the same step. None where no record is free. -/
def State.takeRecord (s : State) (r : Region) : Option (State × Nat) :=
  let free := bitsOf (s.spillGet r 0) 31 0
  if free = 0 then none
  else
    let next := bitsOf (s.spillGet r free) 31 0
    let d1 := s.spillGet r 8
    let used := (bitsOf d1 31 0 + 1) % 2 ^ 32
    some (((s.noteReads (s.spillKeys r [0, free, 8])).spillPut r 0 next).spillPut r 8 (Nat.max used (bitsOf d1 63 32) * 2 ^ 32 + used), free)

/-- A record given back to the head of the free list. -/
def State.releaseRecord (s : State) (r : Region) (off : Nat) : State :=
  let d1 := s.spillGet r 8
  let s := (s.noteReads (s.spillKeys r [0, 8])).spillPut r off (bitsOf (s.spillGet r 0) 31 0)
  (s.spillPut r 0 off).spillPut r 8 (bitsOf d1 63 32 * 2 ^ 32 + (bitsOf d1 31 0 - 1))

/-- FULL counts a context or arm that found no free record. -/
def State.spillFull (s : State) (r : Region) : State :=
  (s.noteReads (s.spillKeys r [16])).spillPut r 16 (Nat.min (s.spillGet r 16 + 1) (2 ^ 64 - 1))

/-- A record written: KIND 6 or 7, its core and next record, the time, and the message. -/
def State.writeRecord (s : State) (r : Region) (off kind core next : Nat) (hdr : Dword) (pay : List Dword) : State :=
  let words := [kind * 2 ^ 60 + core * 2 ^ 32 + next, s.time, hdr.toNat] ++ pay.map (·.toNat)
  (words.zipIdx).foldl (fun t (v, i) => t.spillPut r (off + 8 * i) v) s
/-- NEXT of a record. -/
def State.linkRecord (s : State) (r : Region) (off next : Nat) : State :=
  let d := s.spillGet r off
  (s.noteReads (s.spillKeys r [off])).spillPut r off (d - bitsOf d 31 0 + next)
/-- The message of a record: header and nine payload doublewords. -/
def State.readRecord (s : State) (r : Region) (off : Nat) : Dword × List Dword :=
  (dw (s.spillGet r (off + 16)), (List.range 9).map fun i => dw (s.spillGet r (off + 24 + 8 * i)))

/-- The offsets of a record's header and message, as a read of the record reads them. -/
def recordOffs (off : Nat) : List Nat := off :: (List.range 10).map fun i => off + 16 + 8 * i

/-- A list of records from an offset on, as the NEXT fields in memory link it (R343, R344); `fuel` bounds it. -/
def State.chain (s : State) (r : Region) : Nat → Nat → List Nat
  | 0, _ => []
  | fuel + 1, off => if off = 0 then [] else off :: s.chain r fuel (bitsOf (s.spillGet r off) 31 0)
/-- What a list holds once its head is unlinked: what NEXT of the head names, as it stands in memory (R343) (DEDUCED, log 56).
`rest` is what the NI itself has linked. -/
def State.afterHead (s : State) (r : Region) (off : Nat) (rest : List Nat) : List Nat :=
  let next := bitsOf (s.spillGet r off) 31 0
  if next = rest.headD 0 then rest else s.chain r (r.spillSize / 128) next
/-- The records whose NEXT the NI reads to find what a list holds once its head is unlinked. -/
def State.afterReads (s : State) (r : Region) (off : Nat) (rest : List Nat) : List Nat :=
  if bitsOf (s.spillGet r off) 31 0 = rest.headD 0 then [] else s.afterHead r off rest

/-- What the NI of a core read of its region's spill area is reported where it is uncorrectable; the reads themselves are
counted where they are made (R424). -/
def State.spillReport (s : State) (core : Nat) (r : Region) (before : State) (offs : List Nat) : State :=
  s.reportUe core (before.badOf (before.spillKeys r offs))

/-! ### Pieces -/

/-- The doublewords of pieces. -/
def piecesDwords (l : List (Nat × Nat)) : List Nat := l.flatMap fun (k, n) => dwordsOf k n

/-! ### Streams and copies of a firing -/

/-- A shared stream has ended when all its subscribers have subscribed and passed the end (R225). -/
def Shared.ended (x : Shared) : Bool := x.subs.length ≥ x.desc.subs && x.subs.all fun u => u.pos.isNone

/-- A subscriber leaves a shared stream: it counts as past the end (R226). A stream of a region that has ended goes with its
last subscriber. -/
def State.unsubscribe (s : State) (id core : Nat) (code : Option Nat) : State :=
  let leave (x : Shared) : Shared :=
    if x.id = id then
      { x with subs := x.subs.map fun u => if u.core = core && u.code = code then { u with pos := none } else u }
    else x
  let past (x : Shared) : Bool :=
    x.ended || ((s.region x.region).any (2 ≤ ·.state) && x.subs.all fun u => u.pos.isNone)
  { s with shared := (s.shared.map leave).filter fun x => !(x.id = id && past x) }

/-- SFREE's effect on stream register `i` of a core (R222). -/
def State.unbind (s : State) (core i : Nat) : State :=
  match vget none (s.core core).streams i with
  | none => s
  | some st =>
    let s := match st.shared with
      | some id => s.unsubscribe id core (some i)
      | none => s
    s.modCore core fun k => { k with streams := vset k.streams i none }

/-- BANK of a copy request (R234), 0 once a SELB has kept its bank (R137). -/
def CopyReq.bank (q : CopyReq) : Nat := if q.unbanked then 0 else bitsOf q.ctl.toNat 33 32
def CopyReq.len (q : CopyReq) : Nat := bitsOf q.ctl.toNat 31 0
/-- Cycles that a copy takes at 64 bytes a cycle (R236). -/
def CopyReq.cycles (q : CopyReq) : Nat := q.len / 64 + 1
/-- What is left of a copy that a context switch, or a new format of its bank, has cut (R52, R416) (DEDUCED, log 88). -/
def CopyReq.rest (q : CopyReq) : CopyReq :=
  match q.again with
  | none => q
  | some (a, b) => { q with src := a, dst := b, ctl := dw (setBits q.ctl.toNat 31 0 (q.len - q.moved)) }

/-- The pages of an extent, up to the first byte that faults: the pieces, and the cause with the offset (R236). -/
def State.extent (s : State) (root cell va n : Nat) (acc : Acc) : List (Nat × Nat) × Option (Nat × Nat) :=
  let (l, f, _) := (pieces (n / 0x1_0000 + 2) va n).foldl
    (fun (l, f, off) (a, m) =>
      match f with
      | some x => (l, some x, off)
      | none =>
        match s.xlate root cell a acc with
        | .error c => (l, some (c, off), off)
        | .ok k => (l ++ [(k, m)], none, off + m))
    (([], none, 0) : List (Nat × Nat) × Option (Nat × Nat) × Nat)
  (l, f)

/-- The first `n` bytes of pieces. -/
def takePieces : List (Nat × Nat) → Nat → List (Nat × Nat)
  | [], _ => []
  | (k, m) :: t, n => if n = 0 then [] else (k, Nat.min m n) :: takePieces t (n - Nat.min m n)
def lenPieces (l : List (Nat × Nat)) : Nat := (l.map (·.2)).foldl (· + ·) 0

/-- The destination of a copy that was under way when it was cancelled: each byte before the first that faults holds its old or
its new value (R137, R399). A converting copy has reached none (DEDUCED, log 23). -/
def State.abandonCopy (s : State) (core : Nat) (q : CopyReq) : State :=
  let root := ((s.region q.region).map (·.root)).getD 0
  let cell := cellOf core
  let (sp, _) := s.extent root cell q.src.toNat q.len .read
  let (dp, _) := s.extent root cell q.dst.toNat q.len .write
  let n := Nat.min (lenPieces sp) (lenPieces dp)
  let src := takePieces sp n
  let dst := takePieces dp n
  if n = 0 || s.converts cell (sp.headD (0, 0)).1 (dp.headD (0, 0)).1 then s
  else
    let new := src.flatMap fun (k, m) => (List.range m).map fun i => s.coreByte core (k + i)
    let t := ({ s with free := s.free + 1 }.readDone core (piecesDwords src)).flushPieces core dst
    let old := dst.flatMap fun (k, m) => t.homeBytes k m
    t.writePieces dst (((new.zip old).zipIdx).map fun ((n, o), i) => if Config.copyReached s.free i then n else o)

/-- The copies of the cancelled banks gone (R137): the one under way at the head of the FIFO stops, and what comes to the head
starts. -/
def State.dropCopies (s : State) (core : Nat) (banks : List Nat) : State :=
  match (s.core core).copies with
  | [] => s
  | q :: _ =>
    let gone := banks.contains q.bank
    let t := if gone && q.done.isNone then s.abandonCopy core q.rest else s
    t.modCore core fun k =>
      let kept := k.copies.filter fun (x : CopyReq) => !banks.contains x.bank
      { k with copies := kept, copyDue := if !gone then k.copyDue else match kept with
                 | x :: _ => s.cycle + x.cycles
                 | [] => 0 }

/-- SELB's cancellation of queue banks (R137). -/
def State.cancelBanks (s : State) (core : Nat) (banks : List Nat) : State :=
  let s := (List.range 8).foldl
    (fun t i =>
      match vget none (t.core core).streams i with
      | some st => if banks.contains st.bank then t.unbind core i else t
      | none => t)
    s
  (s.dropCopies core banks).modCore core fun k =>
    { k with epochA := if banks.contains 1 then k.epochA + 1 else k.epochA,
             epochB := if banks.contains 2 then k.epochB + 1 else k.epochB }

/-- The speculation of a core's firing over (R136): committed, or discarded. The writes that an ENCX issued in it has still
to make are writes of the firing, or are discarded with it (R278) (DEDUCED, log 103). -/
def State.closeSpec (s : State) (core : Nat) (commit : Bool) : State :=
  let fate (j : EncJob) : EncJob :=
    if j.core = core && j.spec then { j with spec := false, dropped := !commit } else j
  if (s.core core).fir.spec then
    (s.modCell (cellOf core) fun c => { c with specActive := false, shadow := [], enc := c.enc.map fate }).modCore core
      fun k => { k with fir := { k.fir with spec := false } }
  else s
/-- The speculation of a core's firing discarded (R136). -/
def State.endSpec (s : State) (core : Nat) : State := s.closeSpec core false

/-- The demand of a core withdrawn; lanes set aside for it become free (R167). -/
def State.withdraw (s : State) (core : Nat) : State :=
  s.modCell (cellOf core) fun c => { c with demands := c.demands.filter (·.core ≠ core), aside := tabDel c.aside (core % 8) }

/-! ### The end of a firing -/

/-- How a firing ends: END, ENDR, or MIGRATE, whose context lives on (R127, R128, R350). -/
inductive Ending where
  | done | back | migrated
  deriving DecidableEq, Repr

/-- Messages consumed by the firing go back to the heads of their channels, with their counts (R128). -/
def Core.putBack (k : Core) (now : Nat) : Core :=
  let k := k.fir.held.foldl
    (fun k (off, ch) =>
      let k := { k with recs := k.recs.map fun (r : AreaRec) => if r.off = off && r.st = RecStatus.held then { r with st := .queued } else r }
      k.arrive ch now)
    k
  match k.fir.arm with
  | some a => Core.arrive { k with arms := a :: k.arms } 2 now
  | none => k

/-- The oldest arm of a core's deque moved to the spill area; none where there is no record for it (R130). -/
def State.spillArm (s : State) (core : Nat) : Option State :=
  let k := s.core core
  match k.region.bind s.region, k.arms.getLast? with
  | some r, some arm =>
    (match s.takeRecord r with
     | none => none
     | some (t, off) =>
       let t := t.writeRecord r off 7 core (k.armList.headD 0) arm.hdr arm.pay
       some ((t.modCore core fun k => { k with arms := k.arms.dropLast, armList := off :: k.armList }).spillReport core r s
         [0, 8, bitsOf (s.spillGet r 0) 31 0]))
  | _, _ => none

/-- Room on the fork deque: as it stands, or with its oldest arm moved to the spill area; none where there is no record
for it (R130). -/
def State.dequeRoom (s : State) (core : Nat) : Option State :=
  if (s.core core).arms.length < ((s.core core).entry 62).depthOf then some s else s.spillArm core

/-- The arm that ENDR put back has made the deque longer than DEPTH: the oldest arm moves to the spill area, where there is a
record for it (R128, R130) (DESIGN CHOICE, log 102). -/
def State.fitDeque (s : State) (core : Nat) : State :=
  let k := s.core core
  if k.arms.length ≤ (k.entry 62).depthOf then s else (s.spillArm core).getD s

/-- The tiles of tile messages that a firing held retire at its end; those of a stealable region do so at TDONE (R84). -/
def State.retireTiles (s : State) (core : Nat) (held : List (Nat × Nat)) : State :=
  let mine := (s.core core).recs.filter fun r => r.st = .held && held.any (·.1 = r.off)
  let tiles := mine.filterMap fun r =>
    if ((s.region r.region).map Region.stealable).getD false then none else r.tile.map fun t => (r.region, t, dieOfCore core)
  { s with retires := s.retires ++ tiles }

/-- The end of a core's firing, all in one step (R127). -/
def State.endFiring (s : State) (core : Nat) (how : Ending) : State :=
  let f := (s.core core).fir
  let s := s.uncharge f.region .msgs f.prodLeft
  let s := s.endSpec core
  let s := (List.range 8).foldl (fun t i => t.unbind core i) s
  let s := s.cancelBanks core [1, 2]
  let s := s.withdraw core
  let s := match f.ctx, how with
    | some r, .done => (s.uncharge r .ctx 1).bump 4 core 6
    | _, _ => s
  let s := match how with
    | .back => s
    | _ => s.retireTiles core f.held
  State.fitDeque (core := core) <| s.modCore core fun k =>
    let k := match how with
      | .back => k.putBack s.cycle
      | _ => k.releaseRecs (f.held.map Prod.fst)
    { k with status := .idle, fir := Firing.none, pend := [], faults := [], halt := none, wait := none, replay := none,
             rep := none, tlevel := 0, fence := none, stop := false, vl := 0,
             copies := k.copies.map fun (q : CopyReq) => { q with mine := false }, floor := 0, iter := 0, resq := [],
             schur := Schur.reset, violated := none,
             regs := { k.regs with v := Vector.replicate 16 0, p := Vector.replicate 8 0 } }

/-! ### The end of a region -/

/-- STATUS of a region (R26). -/
def Region.statusDw (r : Region) : Nat := r.tilesDone % 2 ^ 32 * 2 ^ 32 + r.state % 4
/-- STATUS written to the region's RCB. -/
def State.writeStatus (s : State) (id : Nat) : State :=
  match s.region id with
  | none => s
  | some r => s.writeHome (r.rcb + 0x78) (leBytes 8 r.statusDw)
def State.setState (s : State) (id st : Nat) : State := (s.modRegion id fun r => { r with state := st }).writeStatus id

/-- The cores of a region's cells. -/
def Region.cores (r : Region) : List Nat := r.placed.flatMap fun c => (List.range 8).map (8 * c + ·)

/-- Spill records of a core given back, its lists emptied (R355). -/
def State.dropSpills (s : State) (core : Nat) : State :=
  match (s.core core).region.bind s.region with
  | none => s
  | some r =>
    let k := s.core core
    let s := (k.ctxList ++ k.armList).foldl (fun t off => t.releaseRecord r off) s
    s.modCore core fun k => { k with ctxList := [], armList := [] }

/-- A command of a matrix unit runs. -/
def Matrix.busy (m : Matrix) : Bool := m.ran || m.step.isSome
/-- No slot of a matrix unit stays valid, and its links hold nothing. -/
def Matrix.clear (m : Matrix) : Matrix := { m with valid := [], west := [], north := [], past := [], shown := m.acc }
/-- The region of a matrix unit's core ends: the command that runs drains, and no other slot stays valid (R265). -/
def Matrix.drop (m : Matrix) : Matrix :=
  if m.busy then { m with valid := m.valid.filter fun x => x.1 = m.head } else m.clear
/-- The matrix unit of a core that holds no region has drained. -/
def Core.drainMq (k : Core) : Core := if k.region.isNone && !k.mq.busy then { k with mq := k.mq.clear } else k

/-- A core leaves its region: what its NI holds of it goes, and the core has no region. Accumulators, registers and
trap banks stay. -/
def State.clearCore (s : State) (core : Nat) : State :=
  let s := s.dropSpills core
  s.modCore core fun k =>
    { k with region := none, recs := [], head := 0, tail := 0, counts := [], arms := [], stealing := false, fir := Firing.none,
             switching := false, frozen := false, mq := k.mq.drop,
             builds := [], stop := false }

/-- The translation caches of cells emptied: no access of a region that has ended uses one. -/
def State.invalidateCells (s : State) (cells : List Nat) : State :=
  cells.foldl (fun t n => t.modCell n fun c => { c with tlb := [] }) s

/-- Cells freed: a message that reaches one is dropped from now on (R419), and what its hold store has is dropped and counted
(R297). As a subscriber it goes on to apply and acknowledge notices (R293). -/
def State.freeCells (s : State) (cells : List Nat) : State :=
  cells.foldl
    (fun t c =>
      (((List.range 8).foldl (fun t i => t.clearCore (8 * c + i)) t).bump 2 c 8 (t.cell c).holds.length).modCell c fun x =>
        { x with freed := true, demands := [], aside := [], holds := [] })
    s

/-- What a region's switches have saved is given up, with the spill records of a region that is switched out. -/
def State.dropSave (s : State) (id : Nat) (r : Region) : State :=
  let t := { s with saves := tabDel s.saves id }
  match r.switched, (tabGet [] s.saves id).head? with
  | true, some x => (x.cores.flatMap fun (_, k) => k.ctxList ++ k.armList).foldl (fun t off => t.releaseRecord r off) t
  | _, _ => t

/-- What a region itself has charged: its usage less that of its children, which charge it too (R30, R347). -/
def State.ownCharge (s : State) (r : Region) (b : Budget) : Nat :=
  r.used b - (r.kids.map fun c => ((s.region c).map (·.used b)).getD 0).foldl (· + ·) 0
/-- Everything that a region itself has charged of one budget, released on its path (R30, R347, R419). -/
def State.releaseCharge (s : State) (id : Nat) (b : Budget) : State :=
  match s.region id with
  | none => s
  | some r => s.uncharge id b (s.ownCharge r b)

/-- A region's watches, bindings, barriers and budget charges released, and its cells freed (R290, R355, R381, R399,
R419). Messages under way are charged to nothing any more. -/
def State.releaseRegion (s : State) (id : Nat) : State :=
  match s.region id with
  | none => s
  | some r =>
    let s := { s with
      cells := s.cells.map fun (n, (c : Cell)) =>
        (n, { c with watches := c.watches.filter (·.region ≠ id), bindings := c.bindings.filter (·.region ≠ id),
                     enc := c.enc.map fun (j : EncJob) => if j.region = id then { j with charged := false } else j }),
      barriers := s.barriers.map fun (n, (b : Option Barrier)) => (n, b.filter fun x => x.region ≠ id),
      net := s.net.map fun (m : Msg) => if m.region = id then { m with charged := false, ctx := none } else m,
      shared := s.shared.filter fun x => x.region ≠ id || r.cores.any fun c =>
        (s.core c).mq.busy && (s.core c).mq.stream = some x.id }
    let s := s.dropSave id r
    let s := ([.cells, .msgs, .ctx, .sram, .matrix] : List Budget).foldl (fun t b => t.releaseCharge id b) s
    let s := (s.freeCells r.placed).invalidateCells r.placed
    let s := s.modRegion id fun r => { r with placed := [], dealing := [], dealt := [], redo := [], descs := [], switched := false }
    if s.regions.any (fun (i, x) => i ≠ id && x.any (·.state = 1)) then s else { s with past := [], hist := [] }

/-- One region killed (R399, step 2): its firings end as CKILL ends them, the command that its matrix units run drains,
its copies stop, and everything it holds is released. -/
def State.killRegion (s : State) (id : Nat) : State :=
  match s.region id with
  | none => s
  | some r =>
    if r.state ≥ 2 then s
    else
      let s := r.cores.foldl
        (fun t c =>
          let t := match (t.core c).status with
            | .idle => t
            | _ => t.endFiring c .done
          let t := match (t.core c).copies with
            | q :: _ => if q.done.isNone then t.abandonCopy c q.rest else t
            | [] => t
          t.modCore c fun k => { k with copies := [], copyDue := 0 })
        s
      (s.releaseRegion id).setState id 3

/-- Every region of a fault domain killed (R33): the state and the regions that it killed. -/
def State.killDomain (s : State) (fd : Nat) : State × List Nat :=
  let ids := (s.regions.filter fun (_, r) => match r with
    | some r => r.domain = fd && r.state < 2
    | none => false).map (·.1)
  (ids.foldl (fun t id => t.killRegion id) s, ids)

/-- A region and its descendants (KILL, R75); `fuel` bounds the depth. -/
def State.subtree (s : State) : Nat → Nat → List Nat
  | 0, _ => []
  | fuel + 1, id =>
    match s.region id with
    | none => []
    | some r => id :: r.kids.flatMap fun c => s.subtree fuel c

/-! ### Fault reports and the context kill -/

/-- The fault domain of region `id` ends, with the host's entry of KIND 1 (R33, R115, R399). -/
def State.endDomain (s : State) (id : Nat) (r : Region) (core cause : Nat) (val pc : Dword) : State :=
  (s.killDomain r.domain).1.hmq r.fn 0 id r.domain 1 [cause % 0x1_0000 + core % 0x2000 * 2 ^ 16, val.toNat, pc.toNat]

/-- What a fault report that reaches a fenced die ends: the fault domain of its region, with its cause, core, PC and DETAIL
(R115). -/
def State.lostReport (s : State) (m : Msg) : State :=
  let d0 := (m.pay.getD 0 0).toNat
  match s.region m.region with
  | none => s
  | some r =>
    if r.state < 2 then s.endDomain m.region r (bitsOf d0 28 16) (bitsOf d0 63 48) (m.pay.getD 3 0) (m.pay.getD 1 0) else s

/-- The fault domain of a core's firing ends as at trap level 2 (R33, R115, R399): the kill, the entry of KIND 1, and,
where the supervisor's region survives, a report with FCAUSE 0x0205. -/
def State.contextKill (s : State) (core cause word : Nat) (pc pair val : Dword) : State :=
  let id := (s.core core).region.getD (s.core core).fir.region
  let cls := s.classOf core
  match s.region id with
  | none => s.endFiring core .done
  | some r =>
    let t := s.endDomain id r core cause val pc
    if (t.core r.supervisor).region.isSome then t.reportMsg core cls id 0x0205 word pc pair (dw cause) else t

/-- The report of a halt, or the end of the fault domain where nobody could serve it (R115). -/
def State.reportHalt (s : State) (core cause word : Nat) (pc pair detail : Dword) : State :=
  let id := (s.core core).region.getD (s.core core).fir.region
  match s.region id with
  | none => s
  | some r =>
    if r.supervisor = core || !s.isLive (dieOfCore r.supervisor) then s.endDomain id r core cause detail pc
    else s.sendReport core id cause word pc pair detail

end Sys2Proof.Machine
end

