-- ==== Sys2Proof/Machine/Ops.lean ====
section
/-! DEFINITION. What every instruction shares: registers, how a word ends (`Res`, `deliver`), pending results (R103),
TAKING A TRAP (R396, R397) and TRET beside it (R402), and halts (R112, R404). -/

namespace Sys2Proof.Machine

/-! ### Registers -/

/-- `g` register: `g0` reads as zero (R1). -/
def Core.g (k : Core) (r : Reg) : Dword := if r = 0 then 0 else k.regs.g[r.toNat]'(r.isLt)
/-- A write of a `g` register: one of `g0` is discarded. -/
def Core.setG (k : Core) (r : Reg) (v : Dword) : Core :=
  if r = 0 then k else { k with regs := { k.regs with g := k.regs.g.set r.toNat v r.isLt } }
/-- A `v` register by its code (R96). -/
def Core.v (k : Core) (r : Reg) : VReg := vget 0 k.regs.v r.toNat
def Core.setV (k : Core) (r : Reg) (x : VReg) : Core := { k with regs := { k.regs with v := vset k.regs.v r.toNat x } }

/-- Ones at the first `n` bits. -/
def onesBelow (w n : Nat) : BitVec w := BitVec.ofNat w (2 ^ n - 1)
/-- The bits that `vl` lanes hold in a vector register, and in a predicate register (R162). -/
def laneMask (vl : Nat) : VReg := onesBelow 8192 (32 * vl)
def predMask (vl : Nat) : PReg := onesBelow 1024 (4 * vl)
/-- A predicate register: `p0` reads as all ones (R162). -/
def Core.p (k : Core) (r : BitVec 3) : PReg := if r = 0 then predMask k.vl else k.regs.p[r.toNat]'(r.isLt)
/-- `p0` cannot be written. -/
def Core.setP (k : Core) (r : BitVec 3) (x : PReg) : Core :=
  if r = 0 then k else { k with regs := { k.regs with p := k.regs.p.set r.toNat x r.isLt } }

/-- One register write of a result. -/
def Core.write (k : Core) : RegWrite → Core
  | .g r x => k.setG r x
  | .v r x m => k.setV r ((k.v r &&& ~~~m) ||| (x &&& m &&& laneMask k.vl))
  | .p r x => k.setP r (x &&& predMask k.vl)
def Core.writeAll (k : Core) (l : List RegWrite) : Core := l.foldl Core.write k

/-- FENV flags raised (R59): they are sticky. -/
def Core.raise (k : Core) (flags : BitVec 5) : Core := { k with fenv := k.fenv ||| flags.setWidth 64 }
/-- FRM (R57). -/
def Core.frm (k : Core) : Nat := bitsOf k.fenv.toNat 9 8

/-! ### Pending results (R103–R105) -/

/-- Who a word is: its place in the firing's issue order and where its window begins (R19, R103). A word that a replay
or a REP issues is alone. -/
def Core.issued (k : Core) (word la : Nat) (i : Instr) : Issued :=
  let alone := k.replay.isSome || k.rep.isSome
  { ord := if alone then k.words else k.words + (word - 1),
    base := if alone || i.literal.isSome then k.words + 1 else k.words + 2,
    la := la, pc := k.pc, word := word, instr := i, regs := k.regs, bits := k.fetched }

/-- A pending result that its unit will write. -/
def Pend.unit (who : Issued) (now lat : Nat) (writes : List RegWrite) (flags : BitVec 5) (fp : Bool) : Pend :=
  { who := who, kind := .unit, writes := writes, flags := flags, fp := fp, acq := false, issued := now, due := now + lat,
    va := 0, dwords := [], fault := none, ready := true, lost := false }

def Core.addPend (k : Core) (p : Pend) : Core := { k with pend := k.pend ++ [p] }

/-- A pending result written and its instruction complete: registers, and the flags that it raises (R59). -/
def Core.complete (k : Core) (p : Pend) : Core :=
  Core.writeAll { k with pend := k.pend.filter (· ≠ p) } p.writes |>.raise p.flags

/-- A later memory access of the firing is held: an acquire has not completed, or a FENCE `.acq` waits for earlier
reads (R313). -/
def Core.accessHeld (k : Core) : Bool :=
  k.pend.any (·.acq) ||
    match k.fence with
    | some o => k.pend.any fun p => p.kind = .reply && p.who.ord < o
    | none => false

/-! ### The pair in memory -/

/-- The 64 bits of the pair at an address as core `c` fetches them, 0 where they cannot be fetched (DEDUCED, log 83). -/
def State.pairBits (s : State) (c : Nat) (pc : Dword) : Dword :=
  match s.xlate (s.rootOf c) (cellOf c) (pc.toNat / 8 * 8) .exec with
  | .ok k => dw (leNat (s.firingBytes c k 8))
  | .error _ => 0

/-! ### Halts -/

/-- The firing of core `c` halts (R112, R404): its state freezes, its watchdog clock stops (R411), and a report goes to
the supervisor, with the pair's bits as fetched. -/
def State.haltNow (s : State) (c cause word : Nat) (detail pair : Dword) : State :=
  let k := s.core c
  let s := s.setCore c
    { k with status := .halted cause, halt := none, wait := none, faults := [], replay := none, rep := none, stop := false,
             fir := { k.fir with wdAcc := k.fir.wdAcc + (s.cycle - k.fir.wdFrom), wdFrom := s.cycle } }
  s.reportHalt c cause word k.pc pair detail

/-- STOP (R408): the firing halts before its next pair, with its results still pending. -/
def State.stopNow (s : State) (c : Nat) : State :=
  let k := s.core c
  let s := s.setCore c
    { k with status := .halted 0x0203, halt := none, wait := none, rep := none, stop := false,
             fir := { k.fir with wdAcc := k.fir.wdAcc + (s.cycle - k.fir.wdFrom), wdFrom := s.cycle } }
  s.reportHalt c 0x0203 0 k.pc (s.pairBits c k.pc) 0

/-! ### Taking a trap -/

def TrapBank.en (b : TrapBank) : Bool := bitOf b.status.toNat 0
/-- Address of the handler's first pair (R395). -/
def TrapBank.entry (b : TrapBank) : Dword := dw (bitsOf b.status.toNat 55 3 * 8)
def TrapBank.resume (b : TrapBank) : Nat := bitsOf b.status.toNat 57 56

def Core.bank (k : Core) (n : Nat) : TrapBank := vget TrapBank.reset k.banks (n - 1)
def Core.setBank (k : Core) (n : Nat) (b : TrapBank) : Core := { k with banks := vset k.banks (n - 1) b }

/-- Words issued after the trapping word's pair (R397): NWIN. -/
def Core.nwin (k : Core) (w : Issued) : Nat := Nat.min (k.words - w.base) 15

/-- NWIN and RESUME of each kind of trap (R397). -/
def trapFields (k : Core) (q : TrapReq) : Nat × Nat :=
  match q.kind with
  | .atIssue | .fetch => (0, 0)
  | .afterIssue => (k.nwin q.who, 1)
  | .trapInstr => (0, 2)

/-- The bank of the level that a trap enters (R396): EN and ENTRY stay. -/
def TrapBank.take (b : TrapBank) (q : TrapReq) (nwin resume : Nat) : TrapBank :=
  { b with cause := dw (q.cause % 0x1_0000), epc := dw (bitsOf q.who.pc.toNat 55 3 * 8), val := q.val,
           status := dw (setBits (setBits (setBits b.status.toNat 63 62 q.who.word) 61 58 nwin) 57 56 resume) }

/-- A failed block has had its DECOMP_CHECK trap, and the read that issues again delivers it (R230): TVAL names the block and the
stream code. -/
def Core.answerBlock (k : Core) (q : TrapReq) : Core :=
  if q.cause ≠ 0x0310 || q.kind = .trapInstr then k
  else
    let i := q.val.toNat % 256 - 16
    { k with streams := vset k.streams i ((vget none k.streams i).map fun x => { x with trapped := q.val.toNat / 2 ^ 32 :: x.trapped }) }

/-- TAKING A TRAP (R396): at level 2 the context is killed; where the next level is not enabled the firing halts;
otherwise the level's bank is written, the replay record kept or discarded (R397), and the firing goes on at ENTRY.
Every result of the firing is complete by then. SINGULAR is counted here (R368). -/
def State.takeTrap (s : State) (c : Nat) (q : TrapReq) (record : Option Replay) : State :=
  let s := (if q.cause = 0x0318 then s.bump 5 (cellOf c) 4 else s).modCore c fun k => k.answerBlock q
  let k := s.core c
  let n := k.tlevel + 1
  if n ≥ 3 then s.contextKill c q.cause q.who.word q.who.pc q.who.bits q.val
  else if !(k.bank n).en then
    (s.setCore c { k with pc := q.who.pc }).haltNow c q.cause q.who.word q.val q.who.bits
  else
    let (nwin, resume) := trapFields k q
    let k := k.setBank n ((k.bank n).take q nwin resume)
    s.setCore c
      { k with tlevel := n, pc := (k.bank n).entry, npc := (k.bank n).entry, replays := vset k.replays (n - 1) record,
               faults := [], halt := none, wait := none, replay := none, rep := none }

/-- The trap that stands first among those met, in issue order (R397). -/
def firstTrap (l : List TrapReq) : Option TrapReq :=
  l.foldl
    (fun r q =>
      match r with
      | none => some q
      | some p => if q.who.ord < p.who.ord then some q else some p)
    none

/-- Issue order. -/
def insertTrap (q : TrapReq) : List TrapReq → List TrapReq
  | [] => [q]
  | p :: t => if q.who.ord < p.who.ord then q :: p :: t else p :: insertTrap q t

/-- The replay record of a trap after issue (R397): the trapping word, every later word that also faulted, the rest of
a list that TRET was replaying (R402), and the first word that had not issued. -/
def Core.record (k : Core) : Replay :=
  let faulted := (k.faults.foldl (fun l q => insertTrap q l) []).filter (·.kind = .afterIssue)
  match k.replay with
  | some r => { r with words := faulted.map (·.who) ++ r.words }
  | none => { words := faulted.map (·.who), resume := k.pc, rep := k.rep }

/-- The earliest trap met is taken, once every result is complete. -/
def State.takeFirst (s : State) (c : Nat) : State :=
  let k := s.core c
  match firstTrap k.faults with
  | none => s
  | some q => s.takeTrap c q (if q.kind = .afterIssue then some k.record else none)

/-- TRET from a level above 0 (R402): the level falls, and the firing reissues, replays, or goes on at the next pair. -/
def Core.tret (k : Core) : Core :=
  let n := k.tlevel
  let b := k.bank n
  let k := { k with tlevel := n - 1 }
  match b.resume, vget none k.replays (n - 1) with
  | 1, some r => { k with npc := r.resume, replay := some r, replays := vset k.replays (n - 1) none }
  | 2, _ => { k with npc := b.epc + 8 }
  | _, _ => { k with npc := b.epc }

/-! ### How a word ends -/

/-- The outcome of a word given to a core: its effect; held at issue; illegal, with FCAUSE and DETAIL (R111, R113); or
a trap of one of the kinds of R397, in which the word changes nothing. -/
inductive Res where
  | ok (s : State)
  | hold (s : State)
  | illegal (cause : Nat) (detail : Dword)
  | trap (kind : TrapKind) (cause : Nat) (val : Dword)
  /-- A trap of a word that has left something behind: what its reads counted. -/
  | trapIn (s : State) (kind : TrapKind) (cause : Nat) (val : Dword)
  deriving DecidableEq, Repr

/-- What `exec` answers. -/
abbrev Next := Host.Outcome State Fault Refusal

/-- Nothing of the firing is pending: a halt or a trap at issue is taken at once (R107, R112, R396). -/
def Core.settled (k : Core) : Bool := k.pend.isEmpty && k.faults.isEmpty

/-- A word traps (R107, R396): after issue it counts as issued; at issue the pair takes no effect. A word that TRET replays traps
after issue. -/
def State.trapWord (s : State) (word la : Nat) (i : Instr) (kind : TrapKind) (cause : Nat) (val : Dword) : Next :=
  let who := s.me.issued word la i
  if kind = .afterIssue || s.me.replay.isSome then
    .next (s.modMe fun k => { k with out := .ok, wait := none, faults := k.faults ++ [⟨.afterIssue, cause, val, who⟩] })
  else
    let t := s.modMe fun k => { k with out := .trapped, wait := none, faults := k.faults ++ [⟨kind, cause, val, who⟩] }
    if s.me.settled then .next (t.takeFirst s.cur) else .next t

/-- What a word's outcome makes of the machine. `word` is 1 for word A and 2 for word B. -/
def deliver (word la : Nat) (i : Instr) (s : State) (r : Res) : Next :=
  match r with
  | .ok t => .next (t.modMe fun k => { k with out := .ok, wait := none })
  | .hold t => .next (t.modMe fun k => { k with out := .hold })
  | .illegal cause detail =>
    let t := s.modMe fun k => { k with out := .illegal cause, wait := none }
    if s.me.settled then .next (t.haltNow s.cur cause word detail s.me.fetched)
    else .next (t.modMe fun k => { k with halt := some ⟨k.pc, cause, word, detail, k.fetched⟩ })
  | .trap kind cause val => s.trapWord word la i kind cause val
  | .trapIn t kind cause val => t.trapWord word la i kind cause val

/-- The word has its effect on its own core alone. -/
def Res.core (s : State) (f : Core → Core) : Res := .ok (s.modMe f)

/-- Register writes made after `lat` cycles: at once where that is the next pair, pending otherwise (R103, R157). A
replayed word reads recorded sources, so its results always pend (R402). -/
def State.result (s : State) (word la : Nat) (i : Instr) (lat : Nat) (writes : List RegWrite) (flags : BitVec 5 := 0)
    (fp : Bool := false) : Res :=
  if lat ≤ 1 && s.me.replay.isNone then .core s fun k => (k.writeAll writes).raise flags
  else .core s fun k => k.addPend (Pend.unit (k.issued word la i) s.cycle lat writes flags fp)

/-- The value that a word A reads from RC: the literal, zero-extended, where L is 1 (R99). -/
def rcValue (k : Core) (lit : Option Word) (c : Reg) : Dword :=
  match lit with
  | some l => l.setWidth 64
  | none => k.g c

/-- A word that waits for every pending result of its firing (R105) is held while there is one. -/
def State.drained (s : State) (r : Res) : Res := if s.me.pend.isEmpty then r else .hold s

/-- An instruction that traps inside a speculation (R135). -/
def State.unlessSpec (s : State) (r : Res) : Res := if s.me.fir.spec then .trap .atIssue 0x0309 0 else r

end Sys2Proof.Machine
end

