-- ==== Sys2Proof/Machine/Operands.lean ====
section
/-! DEFINITION. Operand forms: the registers that each word reads or writes (for the holds of R104), branch
displacements (R98), effective addresses (R20, R197), widths of scalar operands (R101, R143), and the elements of vector
registers (R162, R163). -/

namespace Sys2Proof.Machine

/-! ### Registers of a word -/

/-- A vector operand field: a `v` register, unless it is a stream code (R102). -/
def vsrc (r : Reg) : List Dest := if r.toNat < 16 then [.v r] else []
def psrc (p : BitVec 3) : List Dest := [.p p]
/-- `g8` to `g15`, which a fork arm and a context carry (R129, R341). -/
def carried : List Dest := (List.range 8).map fun i => .g (BitVec.ofNat 5 (8 + i))
/-- `n` registers from one. -/
def gRange (a : Reg) (n : Nat) : List Dest := (List.range n).map fun i => .g (BitVec.ofNat 5 (a.toNat + i))

/-- The payload registers that SEND's control value names (R323). -/
def sendRegs (a : Reg) (rc : Dword) : List Dest := gRange a (Nat.min (bitsOf rc.toNat 34 32 + 1) (32 - a.toNat))

/-- The registers that a word reads, with those that it writes without naming them in a destination field. `k` gives SEND its
control value. -/
def sources (k : Core) : Instr → List Dest
  | .ret _ | .call _ _ => [.g 31]
  | .jmpi _ a | .selb _ a | .bz _ a _ | .bnz _ a _ | .join _ a _ | .rep a _ _ _ _ | .mts _ a _ | .lclaim _ _ a _ _
  | .lrel _ a | .tinv a _ | .chen _ _ a | .chdis _ _ a | .chpnd _ _ a _ | .gbel _ _ a _ | .trap _ a _ | .halt _ a => [.g a]
  | .beq _ a b _ | .bne _ a b _ | .blt _ a b _ | .bge _ a b _ | .bltu _ a b _ | .bgeu _ a b _ | .mqwait _ a b
  | .stl _ a b _ _ | .aadd _ a b _ _ _ _ | .aswap _ a b _ _ _ _ | .amin _ a b _ _ _ _ | .amax _ a b _ _ _ _
  | .aand _ a b _ _ _ _ | .aor _ a b _ _ _ _ | .axor _ a b _ _ _ _ | .waitw _ a b _ _ _ | .armw _ a b
  | .depset _ a b _ _ | .barr _ a b _ | .barrInit _ a b _ | .barrFree _ a b _ | .barrDump _ a b _ | .bwait _ a b
  | .hwinw _ a b | .hresume _ a b => [.g a, .g b]
  | .fork _ _ => carried
  | .ld _ _ b _ _ _ _ | .lds _ _ b _ _ _ _ | .vld _ _ b _ _ _ | .lda _ _ b _ _ _ | .pref _ b | .sbind _ _ b _ _
  | .depdec _ b _ | .bstat _ _ b _ _ _ | .ttake _ _ b _ | .tdone _ _ b _ | .hwinr _ _ b _ | .ckill _ b _ => [.g b]
  | .st _ t b _ _ _ => [.g t, .g b]
  | .vst _ t b _ p _ => [.v t, .g b, .p p]
  | .acas _ a b _ _ _ _ => [.g a, .g (a + 1), .g b]
  | .gather _ b _ _ i => [.g b, .v (i.setWidth 5)]
  | .scadd a b _ _ i => [.v a, .g b, .v (i.setWidth 5)]
  | .xpush _ a c | .xtry _ a _ c => gRange a 4 ++ [.g c]
  | .send lit t a _ c => .g t :: .g c :: sendRegs a (rcValue k lit c)
  | .sendv _ t s _ c | .senda _ t s _ c => [.g t, .g s, .g c]
  | .recv _ _ _ c | .peek _ _ _ c | .dstat _ _ _ c | .holdr _ _ _ c | .ctxld _ _ _ c => [.g c]
  | .encx _ _ s _ c => [.g s, .g c]
  | .dinst _ _ a _ c | .drepl _ _ a _ c | .dsync _ _ a _ c | .imres _ _ a _ c | .gjoin _ _ a _ c => [.g a, .g c]
  | .migrate _ a c | .spawn _ _ a _ c => .g a :: .g c :: carried
  | .tsteal _ d b _ _ => .g b :: gRange d 4
  | .sel d a b _ _ | .insb d a b _ _ | .ffma d a b _ _ => [.g d, .g a, .g b]
  | .add _ a b _ _ | .sub _ a b _ _ | .and _ a b _ _ | .or _ a b _ _ | .xor _ a b _ _ | .andn _ a b _ _ | .shl _ a b _ _
  | .shr _ a b _ _ | .sar _ a b _ _ | .rol _ a b _ _ | .min _ a b _ _ | .max _ a b _ _ | .minu _ a b _ _
  | .maxu _ a b _ _ | .slt _ a b _ _ | .sltu _ a b _ _ | .extr _ a b _ _ | .lea _ a b _ _ | .mul _ a b _ _
  | .mulh _ a b _ _ | .mulhu _ a b _ _ | .div _ a b _ _ | .divu _ a b _ _ | .rem _ a b _ _ | .remu _ a b _ _
  | .fadd _ a b _ _ | .fsub _ a b _ _ | .fmul _ a b _ _ | .fdiv _ a b _ _ | .fmin _ a b _ _ | .fmax _ a b _ _
  | .fcmpEq _ a b _ _ | .fcmpLt _ a b _ _ | .fcmpLe _ a b _ _ => [.g a, .g b]
  | .clz _ a _ _ | .ctz _ a _ _ | .popc _ a _ _ | .bswap _ a _ _ | .fsqrt _ a _ _ | .fcvt _ a _ _ _ | .fclass _ a _ _
  | .addi _ a _ | .andi _ a _ | .ori _ a _ | .xori _ a _ | .shli _ a _ | .shri _ a _ | .sari _ a _ => [.g a]
  | .vadd d a b p _ _ | .vsub d a b p _ _ | .vmul d a b p _ _ | .vmadd d a b p _ _ | .vmin d a b p _ _ | .vmax d a b p _ _
  | .vand d a b p _ | .vor d a b p _ | .vxor d a b p _ | .vshl d a b p _ _ | .vshr d a b p _ _ | .vsar d a b p _ _
  | .vsadd d a b p _ _ | .vfadd d a b p _ _ | .vfsub d a b p _ _ | .vfmul d a b p _ _ | .vfma d a b p _ _
  | .vfdiv d a b p _ _ | .vfmin d a b p _ _ | .vfmax d a b p _ _ | .vdot4 d a b p _ _ | .vperm d a b p _ _
  | .vinss d a b p _ _ => .v d :: vsrc a ++ vsrc b ++ psrc p
  | .vabs d a p _ _ | .vneg d a p _ _ | .vfsqrt d a p _ _ | .vcvt d a p _ _ | .vbcast d a p _ _ | .vhash d a p _ _ =>
    .v d :: vsrc a ++ psrc p
  | .vred _ a p _ _ => vsrc a ++ psrc p
  | .vcmp _ a b p _ _ | .vsel _ a b p _ _ | .vtopk _ a b p _ _ | .vbcmp _ a b p _ _ => vsrc a ++ vsrc b ++ psrc p
  | .vqnt _ a _ _ | .vdqn _ a _ _ | .vmovs _ a _ _ => vsrc a
  | .vcmpr _ a p _ _ => vsrc a ++ psrc p
  | .imacc d p _ => .v d :: psrc p
  | .pand _ a b _ | .por _ a b _ | .pxor _ a b _ => [.p (a.extractLsb' 0 3), .p (b.extractLsb' 0 3)]
  | .pnot _ a _ | .pcnt _ a _ => [.p (a.extractLsb' 0 3)]
  | _ => []

/-- A pending result is of a register (R104). -/
def RegWrite.isDest : RegWrite → Dest → Bool
  | .g r _, .g q => r = q && r ≠ 0
  | .v r _ _, .v q => r = q
  | .p r _, .p q => r = q && r ≠ 0
  | _, _ => false

def Pend.hasDest (p : Pend) (ds : List Dest) : Bool := p.writes.any fun w => ds.any w.isDest

/-! ### Displacements and addresses -/

/-- A pair displacement from the word's own pair (R98). -/
def pairTarget {w : Nat} (pc : Dword) (disp : BitVec w) : Dword := pc + 8 * disp.signExtend 64

/-- The effective address of the memory format: base plus the scaled offset, or plus the literal (R20, R197). -/
def effAddr (base : Dword) (off : BitVec 8) (unit : Nat) (lit : Option Word) : Dword :=
  match lit with
  | some l => base + l.signExtend 64
  | none => base + off.setWidth 64 * BitVec.ofNat 64 unit

/-- The effective address of a form whose only offset is the literal (R203, R206, R212). -/
def effLit (base : Dword) (lit : Option Word) : Dword :=
  match lit with
  | some l => base + l.signExtend 64
  | none => base

/-! ### Widths -/

/-- Bits of a scalar integer width W (R101). -/
def wBits (w : BitVec 2) : Nat :=
  match w with
  | 0 => 64
  | 1 => 32
  | 2 => 16
  | _ => 8

/-- The low `n` bits of a register, unsigned and signed (R143). -/
def uval (n : Nat) (x : Dword) : Nat := x.toNat % 2 ^ n
def sval (n : Nat) (x : Dword) : Int := (BitVec.ofNat n x.toNat).toInt
/-- A result at width `n`, sign-extended to 64 bits (R143). -/
def sres (n : Nat) (x : Int) : Dword := BitVec.ofInt 64 ((BitVec.ofInt n x).toInt)

/-! ### Elements of vector registers -/

/-- Element `e` of `b` bytes, unsigned (R163). -/
def elem (x : VReg) (b e : Nat) : Nat := x.toNat / 2 ^ (8 * b * e) % 2 ^ (8 * b)
/-- Element `e` of `b` bytes, signed. -/
def elemS (x : VReg) (b e : Nat) : Int := (BitVec.ofNat (8 * b) (elem x b e)).toInt
/-- A register of elements of `b` bytes, the lowest first. -/
def ofElems (b : Nat) : List Nat → Nat
  | [] => 0
  | x :: t => x % 2 ^ (8 * b) + 2 ^ (8 * b) * ofElems b t
def vOfElems (b : Nat) (l : List Nat) : VReg := BitVec.ofNat 8192 (ofElems b l)
/-- Element `e` of `b` bytes is active under a predicate (R163). -/
def active (p : PReg) (b e : Nat) : Bool := p.getLsbD (b * e)
/-- The bits of the active elements. -/
def activeMask (p : PReg) (b n : Nat) : VReg :=
  vOfElems b ((List.range n).map fun e => if active p b e then 2 ^ (8 * b) - 1 else 0)
/-- A predicate from one bit per element, at bit b·e. -/
def ofFlags (b : Nat) : List Bool → Nat
  | [] => 0
  | x :: t => b2n x + 2 ^ b * ofFlags b t
/-- Elements of `b` bytes in `vl` lanes (R163). -/
def elems (vl b : Nat) : Nat := 4 * vl / b

/-- A signed value clamped to a range. -/
def clampInt (lo hi x : Int) : Int := if x < lo then lo else if hi < x then hi else x

/-- Vector opcodes of word B whose RB field names no source (R110). -/
def oneSource : List Nat := [0x1C, 0x1D, 0x25, 0x29, 0x2C, 0x2D, 0x2E, 0x30, 0x31, 0x34, 0x35]

end Sys2Proof.Machine
end

