-- ==== Sys2Proof/Machine/Formats.lean ====
section
/-! DEFINITION. Bank formats (R47–R56): where an element and its record stand in a bank, what it decodes to, and how a
value is encoded for a bank. -/

namespace Sys2Proof.Machine

/-- The type is Q4 or Q8. -/
def BankFmt.isQ (f : BankFmt) : Bool := f.typ = 1 || f.typ = 2
/-- Bits of an element (R47). -/
def typeBits : Nat → Nat
  | 1 => 4
  | 3 => 16
  | 4 => 32
  | 5 => 16
  | 6 => 64
  | 7 => 32
  | _ => 8
def BankFmt.bits (f : BankFmt) : Nat := typeBits f.typ
def BankFmt.g (f : BankFmt) : Nat := 32 * 2 ^ f.group
/-- Payload bytes of a group (R54). -/
def BankFmt.gb (f : BankFmt) : Nat := f.g * f.bits / 8
def BankFmt.qmax (f : BankFmt) : Nat := 2 ^ f.bits - 1

def bankSize : Nat := 0x1_0000
def bankBase (key : Nat) : Nat := key / bankSize * bankSize

/-- Bank offsets of the payload byte and the record of element `e` of a Q4 or Q8 bank (R54). -/
def BankFmt.loc (f : BankFmt) (e : Nat) : Nat × Nat :=
  let grp := e / f.g
  if !f.interleaved then (e * f.bits / 8, f.metaOff * 256 + 4 * grp)
  else
    let blk := 32 + 8 * f.gb
    (grp / 8 * blk + 32 + grp % 8 * f.gb + e % f.g * f.bits / 8, grp / 8 * blk + 4 * (grp % 8))

/-- The first element of a row at a bank offset (R250). -/
def BankFmt.firstElem (f : BankFmt) (off : Nat) : Nat := off * 8 / f.bits

/-- `n` elements from element `e` of a Q bank, or from offset `off` of another bank, lie inside the bank (R54, R250). -/
def BankFmt.fits (f : BankFmt) (off n : Nat) : Bool :=
  if f.isQ then (List.range n).all fun i => let (p, m) := f.loc (f.firstElem off + i); p < bankSize && m + 4 ≤ bankSize
  else off + n * f.bits / 8 ≤ bankSize

/-- Element `e` of a Q bank as it stands: code, scale, zero point. -/
def State.qElem (s : State) (f : BankFmt) (base e : Nat) : Nat × Nat × Nat :=
  let (p, m) := f.loc e
  let b := s.homeNat (base + p) 1
  let r := s.homeNat (base + m) 4
  (if f.bits = 4 then b / 16 ^ (e % 2) % 16 else b, r % 2 ^ 16, if f.bits = 4 then bitsOf r 19 16 else bitsOf r 23 16)

/-- The exact value of the bits of an element that is not Q4 or Q8 (R55). A byte of a RAW8 bank is a signed byte, for the encoder's
atoms too, as R250 has it for MMA (DESIGN CHOICE, log 78). -/
def rawVal (typ x : Nat) : FV :=
  match typ with
  | 3 => fp16.decode x
  | 4 => fp32.decode x
  | 5 => bf16.decode x
  | 6 => fp64.decode x
  | 7 => FV.ofInt (BitVec.ofNat 32 x).toInt
  | _ => FV.ofInt (BitVec.ofNat 8 x).toInt

/-- The values of `n` elements from bank offset `off` of the bank at `base`; in a Q bank from the element that the offset
names (R250). -/
def State.elemVals (s : State) (f : BankFmt) (base off n : Nat) : List FV :=
  (List.range n).map fun i =>
    if f.isQ then let (q, sc, z) := s.qElem f base (f.firstElem off + i); dequantFv q sc z
    else rawVal f.typ (s.homeNat (base + off + i * (f.bits / 8)) (f.bits / 8))

/-- The doublewords that reading those elements reads, payload and records. -/
def BankFmt.elemDwords (f : BankFmt) (base off n : Nat) : List Nat :=
  if f.isQ then
    ((List.range n).flatMap fun i =>
      let (p, m) := f.loc (f.firstElem off + i)
      [dwOf (base + p), dwOf (base + m)]).eraseDups
  else dwordsOf (base + off) (n * f.bits / 8)

/-- A value encoded for a bank that is not Q4 or Q8: its bits, and 1 where it saturates (R55). A NaN becomes the canonical one, in
an FP64 bank too (R60) (DESIGN CHOICE, log 95). -/
def encodeVal (typ : Nat) (clamp : Bool) (x : FV) : Nat × Nat :=
  let int (lo hi : Int) (w : Nat) : Nat × Nat :=
    match rnei x with
    | .nan => (0, 1)
    | .inf neg => ((BitVec.ofInt w (if neg then lo else hi)).toNat, 1)
    | .int v => ((BitVec.ofInt w (clampInt lo hi v)).toNat, b2n (v < lo || hi < v))
  let flt (f : Fmt) : Nat × Nat :=
    let (r, fl) := f.round .rne x
    if clamp && fl &&& flagOF ≠ 0 then (f.maxBits + f.signBit x.neg, 1) else (r, 0)
  match typ with
  | 3 => flt fp16
  | 4 => flt fp32
  | 5 => flt bf16
  | 6 => ((fp64.round .rne x).1, 0)
  | 7 => int (-2 ^ 31) (2 ^ 31 - 1) 32
  | _ => int (-128) 127 8

/-- SAT_COUNT of the bank at a home address raised (R51): it stops at 2^32 − 1. -/
def State.addSat (s : State) (key n : Nat) : State :=
  if n = 0 || spaceOf key ≠ 1 then s
  else
    s.modCell (sramCell key) fun c =>
      let b := sramOff key / bankSize
      let v := (tabGet 0 c.bfmt b).toNat
      { c with bfmt := tabSet c.bfmt b (dw (setBits v 63 32 (Nat.min (bitsOf v 63 32 + n) (2 ^ 32 - 1)))) }

/-- Codes of a group as payload bytes (R49). -/
def packCodes (bits : Nat) : List Nat → List Byte
  | a :: b :: t => if bits = 4 then BitVec.ofNat 8 (a + 16 * b) :: packCodes bits t else BitVec.ofNat 8 a :: packCodes bits (b :: t)
  | [a] => [BitVec.ofNat 8 a]
  | [] => []

/-- One group of a Q bank formed and written, payload and record together (R52, R55, R66). -/
def State.putGroup (s : State) (f : BankFmt) (base e : Nat) (vals : List FV) : State :=
  let (q, sc, z, n) := quantGroup (vals.map rne32) f.qmax
  let (p, m) := f.loc e
  (s.writeParts [(base + p, packCodes f.bits q), (base + m, leBytes 4 (z * 2 ^ 16 + sc))]).addSat base n

/-- Values written from bank offset `off`, or as groups from element `e` of a Q bank. `fuel` bounds the groups. -/
def State.putGroups (s : State) (f : BankFmt) (base : Nat) : Nat → Nat → List FV → State
  | 0, _, _ => s
  | fuel + 1, e, vals =>
    if vals.isEmpty then s else (s.putGroup f base e (vals.take f.g)).putGroups f base fuel (e + f.g) (vals.drop f.g)
def State.putVals (s : State) (f : BankFmt) (base off : Nat) (vals : List FV) : State :=
  let enc := vals.map (encodeVal f.typ f.clamp)
  (s.writeHome (base + off) (enc.flatMap fun (x, _) => leBytes (f.bits / 8) x)).addSat base (enc.foldl (fun n (_, k) => n + k) 0)

/-- The group whose first payload byte stands at a bank offset (R56). -/
def BankFmt.groupAt (f : BankFmt) (off : Nat) : Option Nat :=
  if !f.interleaved then (if off % f.gb = 0 then some (off / f.gb) else none)
  else
    let blk := 32 + 8 * f.gb
    if off % blk ≥ 32 && (off % blk - 32) % f.gb = 0 then some (off / blk * 8 + (off % blk - 32) / f.gb) else none

/-- The bank offset that stands `n` elements behind another, which begins a group of a Q bank. -/
def BankFmt.offAfter (f : BankFmt) (off n : Nat) : Nat :=
  if f.isQ then (f.loc ((f.groupAt off).getD 0 * f.g + n)).1 else off + n * f.bits / 8

/-- The extent of one side of a converting copy (R56, R236): the first element, or none where it breaks the rule or leaves
the bank. `n` counts elements (DEDUCED, log 25). -/
def BankFmt.extent (f : BankFmt) (off n : Nat) : Option Nat :=
  if f.isQ then
    match f.groupAt off with
    | none => none
    | some grp =>
      let e := grp * f.g
      if n % f.g = 0 && (List.range (n / f.g)).all fun j =>
          let (p, m) := f.loc (e + j * f.g)
          p + f.gb ≤ bankSize && m + 4 ≤ bankSize
      then some e else none
  else if off + n * f.bits / 8 ≤ bankSize then some 0 else none

end Sys2Proof.Machine
end

