-- ==== Sys2Proof/Machine/Lanes.lean ====
section
/-! DEFINITION. The lane pool of a cell (R164–R167): claims, releases, demands, and the renegotiation at a SAFE point. -/

namespace Sys2Proof.Machine

/-- The smallest effective LANES on a region's path (R31). -/
def State.laneCap (s : State) (r : Option Nat) : Nat :=
  match r with
  | none => 256
  | some r => (s.path 32 r).foldl (fun m p => Nat.min m (((s.region p).map Region.lanes).getD 256)) 256

/-- Lanes that no firing of the cell holds and that are not set aside for another core (R165). -/
def State.freeLanes (s : State) (core : Nat) : Nat :=
  let base := core / 8 * 8
  let held := (List.range 8).foldl (fun n i => n + (s.core (base + i)).vl) 0
  let aside := (s.cell (cellOf core)).aside.foldl (fun n (c, l) => if c = core % 8 then n else n + l) 0
  256 - held - aside

/-- What the pool grants of `q` lanes: as far as the cap and the free lanes go, in sixteens (R165). -/
def State.laneGrant (s : State) (core q : Nat) : Nat :=
  let k := s.core core
  Nat.min q (Nat.min (s.laneCap k.region - k.vl) (s.freeLanes core)) / 16 * 16

/-- LCLAIM's effect on the pool and on the firing's lanes; a shortfall that only the free lanes cause is a demand. -/
def State.claimLanes (s : State) (core q floor : Nat) : State :=
  let k := s.core core
  let g := s.laneGrant core q
  let short : Bool := g < q && s.laneCap k.region - k.vl ≥ q
  let cls := s.classOf core
  let s := s.withdraw core
  let s := if short then s.modCell (cellOf core) fun c => { c with demands := c.demands ++ [⟨core, cls, q - g⟩] } else s
  s.modCore core fun k => { k with vl := k.vl + g, floor := Nat.min floor (k.vl + g) }

/-- A pending write of a vector or predicate register loses the lanes given up (R104, R162). -/
def RegWrite.keep (vl : Nat) : RegWrite → RegWrite
  | .v r x m => .v r x (m &&& laneMask vl)
  | .p r x => .p r (x &&& predMask vl)
  | w => w

/-- The firing keeps its first `vl` lanes: the others take their contents with them, pending writes included (R162). -/
def Core.keepLanes (k : Core) (vl : Nat) : Core :=
  { k with vl := vl, floor := Nat.min k.floor vl,
           pend := k.pend.map fun (p : Pend) => { p with writes := p.writes.map (RegWrite.keep vl) },
           regs := { k.regs with v := k.regs.v.map (· &&& laneMask vl), p := k.regs.p.map (· &&& predMask vl) } }

/-- LREL's effect. -/
def State.releaseLanes (s : State) (core n : Nat) : State :=
  (s.withdraw core).modCore core fun k => k.keepLanes (k.vl - n)

/-- Demands still unmet: what is set aside for the core already counts. -/
def Cell.unmet (c : Cell) (d : Demand) : Nat := d.lanes - tabGet 0 c.aside (d.core % 8)

/-- Surrendered lanes meet demands in class order, the oldest first within a class (R167). `fuel` bounds the demands. -/
def Cell.serve (c : Cell) : Nat → Nat → Cell
  | 0, _ => c
  | fuel + 1, lanes =>
    let open' := c.demands.filter fun d => c.unmet d > 0
    match open'.foldl (fun (b : Option Demand) d => match b with
        | none => some d
        | some x => if d.cls < x.cls then some d else some x) none with
    | none => c
    | some d =>
      let n := Nat.min lanes (c.unmet d)
      if n = 0 then c
      else Cell.serve { c with aside := tabSet c.aside (d.core % 8) (tabGet 0 c.aside (d.core % 8) + n) } fuel (lanes - n)

/-- Lane renegotiation at a SAFE point (R167). -/
def State.renegotiate (s : State) (core : Nat) : State :=
  let k := s.core core
  let c := s.cell (cellOf core)
  let cls := s.classOf core
  let d := c.demands.foldl (fun n x => if x.cls < cls then n + c.unmet x else n) 0
  let n := Nat.min (k.vl - k.floor) ((d + 15) / 16 * 16)
  if n = 0 then s
  else
    (s.modCore core fun k => k.keepLanes (k.vl - n)).modCell (cellOf core) fun c => c.serve c.demands.length n

/-- LCLAIM (R164, R165). It completes after 3 cycles. -/
def execLclaim (lit : Option Word) (d a : Reg) (c : BitVec 4) (f : BitVec 6) (s : State) : Next :=
  let i := Instr.lclaim lit d a c f
  let q := (s.me.g a).toNat
  deliver 1 c.toNat i s
    (if f.toNat > 16 then .illegal 0x0108 (f.setWidth 64)
     else if q % 16 ≠ 0 || q > 256 then .illegal 0x0108 (s.me.g a)
     else (s.claimLanes s.cur q (16 * f.toNat)).result 1 c.toNat i 3 [.g d (dw (s.laneGrant s.cur q))])

/-- LREL (R165). -/
def execLrel (lit : Option Word) (a : Reg) (s : State) : Next :=
  let n := (s.me.g a).toNat
  deliver 1 0 (.lrel lit a) s
    (if n % 16 ≠ 0 || n > s.me.vl then .illegal 0x0108 (s.me.g a) else .ok (s.releaseLanes s.cur n))

end Sys2Proof.Machine
end

