-- ==== Sys2Proof/Machine/Control.lean ====
section
/-! DEFINITION. The control instructions: branches and jumps (R124–R126), the end of a firing (R127, R128), fork and join
(R129–R132), speculation (R133–R136), queue banks (R137), PRIO, SAFE, IDEM, NOP (R138–R142), and REP (R174). `npc` is
where the firing goes on after the pair; the step has set it to the next pair. -/

namespace Sys2Proof.Machine

/-- The firing goes on at an address. -/
def goOn (s : State) (target : Dword) : Res := .core s fun k => { k with npc := target }

/-- A jump to an address in a register: bits 2:0 must be 0 (R126). -/
def goReg (s : State) (target : Dword) : Res :=
  if target.toNat % 8 ≠ 0 then .trap .atIssue 0x0307 target else goOn s target

/-- A branch (R124). -/
def branch (i : Instr) (d : BitVec 12) (s : State) (taken : Bool) : Next :=
  deliver 1 0 i s (goOn s (if taken then pairTarget s.me.pc d else s.me.pc + 8))

/-- NOP_A (R142): Word-A no-operation that changes nothing. -/
def execNopA (s : State) : Next := deliver 1 0 .nopA s (.ok s)
/-- NOP_B (R142): Word-B no-operation. -/
def execNopB (s : State) : Next := deliver 2 0 .nopB s (.ok s)

/-- BEQ (R124): Branches by a pair displacement when ga equals gb. -/
def execBeq (lit : Option Word) (a b : Reg) (d : BitVec 12) (s : State) : Next :=
  branch (.beq lit a b d) d s (s.me.g a == s.me.g b)
/-- BNE (R124): Branches when ga differs from gb. -/
def execBne (lit : Option Word) (a b : Reg) (d : BitVec 12) (s : State) : Next :=
  branch (.bne lit a b d) d s (s.me.g a != s.me.g b)
/-- BLT (R124): Branches when ga is less than gb, signed. -/
def execBlt (lit : Option Word) (a b : Reg) (d : BitVec 12) (s : State) : Next :=
  branch (.blt lit a b d) d s ((s.me.g a).slt (s.me.g b))
/-- BGE (R124): Branches when ga is at least gb, signed. -/
def execBge (lit : Option Word) (a b : Reg) (d : BitVec 12) (s : State) : Next :=
  branch (.bge lit a b d) d s ((s.me.g b).sle (s.me.g a))
/-- BLTU (R124): Branches when ga is less than gb, unsigned. -/
def execBltu (lit : Option Word) (a b : Reg) (d : BitVec 12) (s : State) : Next :=
  branch (.bltu lit a b d) d s ((s.me.g a).ult (s.me.g b))
/-- BGEU (R124): Branches when ga is at least gb, unsigned. -/
def execBgeu (lit : Option Word) (a b : Reg) (d : BitVec 12) (s : State) : Next :=
  branch (.bgeu lit a b d) d s ((s.me.g b).ule (s.me.g a))
/-- BZ (R124): Branches when ga is zero. -/
def execBz (lit : Option Word) (a : Reg) (d : BitVec 12) (s : State) : Next :=
  branch (.bz lit a d) d s (s.me.g a == 0)
/-- BNZ (R124): Branches when ga is nonzero. -/
def execBnz (lit : Option Word) (a : Reg) (d : BitVec 12) (s : State) : Next :=
  branch (.bnz lit a d) d s (s.me.g a != 0)

/-- JMP (R125): Continues at a pair-relative displacement. -/
def execJmp (lit : Option Word) (d : BitVec 25) (s : State) : Next :=
  deliver 1 0 (.jmp lit d) s (goOn s (pairTarget s.me.pc d))
/-- CALL writes the return address to `g31` (R125). -/
def execCall (lit : Option Word) (d : BitVec 25) (s : State) : Next :=
  deliver 1 0 (.call lit d) s (.core s fun k => { k.setG 31 (k.pc + 8) with npc := pairTarget k.pc d })
/-- RET (R126): Continues at the address in g31, trapping with BAD_TARGET if it is misaligned. -/
def execRet (lit : Option Word) (s : State) : Next := deliver 1 0 (.ret lit) s (goReg s (s.me.g 31))
/-- JMPI (R126): Continues at the address in ga, trapping with BAD_TARGET if it is misaligned. -/
def execJmpi (lit : Option Word) (a : Reg) (s : State) : Next := deliver 1 0 (.jmpi lit a) s (goReg s (s.me.g a))

/-- END (R127): Waits for pending results and ends the firing, freeing its messages, slots, lanes, streams, banked
requests and speculation. -/
def execEndFiring (lit : Option Word) (s : State) : Next :=
  deliver 1 0 (.endFiring lit) s (s.drained (.ok (s.endFiring s.cur .done)))
/-- ENDR (R128): Ends the firing as END does but puts its consumed messages back at the heads of their channels. -/
def execEndrFiring (lit : Option Word) (s : State) : Next :=
  deliver 1 0 (.endrFiring lit) s (s.drained (.ok (s.endFiring s.cur .back)))

/-! ### Fork and join -/

/-- The arm that FORK pushes (R129) (DESIGN CHOICE, log 15). -/
def State.forkArm (s : State) (core : Nat) (code : Dword) : Arm :=
  let k := s.core core
  { hdr := header 7 (s.classOf core) 9 (Config.openTag 7 s.seq).toNat (s.tag core 2),
    pay := code :: (List.range 8).map (fun i => k.g (BitVec.ofNat 5 (8 + i))), region := k.fir.region }

/-- FORK (R129, R130): a release at span scope, and a push that counts as an arrival on channel 2. -/
def execFork (lit : Option Word) (d : BitVec 25) (s : State) : Next :=
  let i := Instr.fork lit d
  if s.me.fir.spec then deliver 1 0 i s (.trap .atIssue 0x0309 0)
  else
    match s.dequeRoom s.cur with
    | none =>
      let t := match s.me.region.bind s.region with
        | some r => s.spillFull r
        | none => s
      deliver 1 0 i t (.trap .atIssue 0x0308 0)
    | some t =>
      let arm := s.forkArm s.cur (pairTarget s.me.pc d)
      let t := { t.flush s.cur with seq := t.seq + 1 }
      deliver 1 0 i s (.ok (t.modMe fun k => Core.arrive { k with arms := arm :: k.arms } 2 t.cycle))

/-- The home address of an atomic's location: W is needed, and space 4 is UNREACH (R207). -/
def State.atomicKey (s : State) (core : Nat) (va : Dword) : Except Nat Nat :=
  match s.xlate (s.rootOf core) (cellOf core) va.toNat .write with
  | .ok k => if spaceOf k = 4 then .error causeUnreach else .ok k
  | .error c => .error c

/-- A read-modify-write at the home (R207): the old value as `n` bytes and the state after it. An uncorrectable
doubleword reads as 0 (R422); the queue area and the management window take no write (R79, R242), and an atomic of the owning
core, which `drop` marks, adds to its DROPS. -/
def State.atomic (s : State) (core key n : Nat) (drop : Bool) (f : Nat → Option Nat) : Nat × State :=
  let old := s.homeNat key n
  let t := s.readDone core (dwordsOf key n)
  match queueOf key with
  | some (c, _) =>
    (old, if c = core && drop then t.modCore core fun k => { k with mq := { k.mq with drops := Nat.min (k.mq.drops + 1) 7 } } else t)
  | none =>
    if isWindow key then (old, t.windowLost (t.fnOf core))
    else (old, match f old with
      | some new => t.writeHome key (leBytes n new)
      | none => t)

/-- JOIN (R22, R132): a release at span scope and an atomic decrement; at 0 the firing goes on at the label, otherwise
it ends. Where the packet of the request or of the reply is dropped on the way to a peer it traps with MEM_REPLY (R122, R425). -/
def execJoin (lit : Option Word) (a : Reg) (d : BitVec 12) (s : State) : Next :=
  let va := s.me.g a
  deliver 1 0 (.join lit a d) s
    (s.unlessSpec (s.drained
      (if va.toNat % 8 ≠ 0 then .trap .afterIssue causeMisalign va
       else match s.atomicKey s.cur va with
         | .error c => .trapIn (s.noteWalk (s.rootOf s.cur) (cellOf s.cur) va.toNat) .afterIssue c va
         | .ok key =>
           let t := (s.flush s.cur).noteWalk (s.rootOf s.cur) (cellOf s.cur) va.toNat
           let (lost, t) := t.crossing key
           let (old, t) := if lost then (0, t) else t.atomic s.cur key 8 true fun v => some ((v + 2 ^ 64 - 1) % 2 ^ 64)
           let (gone, t) := if lost then (true, t) else t.crossing key
           if gone then .trapIn t .afterIssue 0x0306 va
           else if old = 1 then goOn t (pairTarget s.me.pc d) else .ok (t.endFiring s.cur .done))))

/-! ### Speculation -/

/-- SPEC (R134). The core's own earlier writes to the window are performed first, so that none falls into the speculation. -/
def execSpec (lit : Option Word) (d : Reg) (s : State) : Next :=
  let c := s.cell (cellOf s.cur)
  deliver 1 0 (.spec lit d) s
    (if s.me.fir.spec then .illegal 0x0107 0
     else if !c.specEn || c.specActive then .core s fun k => k.setG d 0
     else
       let t := (s.flushAt s.cur (sramKey (cellOf s.cur) (0x1_0000 * c.specBank)) 0x1_0000).modCell (cellOf s.cur) fun c =>
         { c with specActive := true, specOwner := s.cur % 8, specConflict := false, shadow := [] }
       .core t fun k => { k.setG d 1 with fir := { k.fir with spec := true } })

/-- The dirty lines made visible, as writes of the firing made now (R136): after a FENCE `.rel` they are releases (R314). -/
def State.commitLines (s : State) (core : Nat) : State :=
  let lines := (s.cell (cellOf core)).shadow
  let s := s.flushTo core (carriedTo (s.core core).rels)
  let t := s.closeSpec core true
  lines.foldl (fun t (line, v) => t.writeHome (sramKey (cellOf core) (32 * line)) (leBytes 32 v.toNat)) t

/-- SCOMMIT (R136). -/
def execScommit (lit : Option Word) (d : Reg) (s : State) : Next :=
  deliver 1 0 (.scommit lit d) s
    (if !s.me.fir.spec then .illegal 0x0107 0
     else if (s.cell (cellOf s.cur)).specConflict then .core (s.endSpec s.cur) fun k => k.setG d 0
     else .core (s.commitLines s.cur) fun k => k.setG d 1)

/-- SABORT (R136). -/
def execSabort (lit : Option Word) (s : State) : Next :=
  deliver 1 0 (.sabort lit) s (if !s.me.fir.spec then .illegal 0x0107 0 else .ok (s.endSpec s.cur))

/-! ### Queue banks, class, SAFE, IDEM -/

/-- A bank has a stream or a copy. -/
def Core.bankUsed (k : Core) (bank : Nat) : Bool :=
  k.streams.toList.any (fun o => match o with
    | some x => x.bank = bank
    | none => false) || k.copies.any fun q => q.bank = bank

/-- The kept bank's requests become ordinary ones. -/
def Core.unbank (k : Core) (bank : Nat) : Core :=
  { k with streams := k.streams.map fun (o : Option Stream) => o.map fun x => if x.bank = bank then { x with bank := 0 } else x,
           copies := k.copies.map fun (q : CopyReq) =>
             if q.bank = bank then { q with unbanked := true } else q }

/-- SELB (R137). -/
def execSelb (lit : Option Word) (a : Reg) (s : State) : Next :=
  let keep := if s.me.g a ≠ 0 then 1 else 2
  deliver 1 0 (.selb lit a) s
    (if s.me.bankUsed 1 || s.me.bankUsed 2 then .core (s.cancelBanks s.cur [3 - keep]) fun k => k.unbank keep else .ok s)

/-- PRIO (R138). -/
def execPrio (lit : Option Word) (c : BitVec 2) (s : State) : Next :=
  deliver 1 0 (.prio lit c) s (.core s fun k => { k with fir := { k.fir with cls := Nat.max c.toNat k.fir.base } })

/-- SAFE_SKIP counts and stops at 2^16 − 1 (R118). -/
def skipSafe (sched : Dword) : Dword :=
  dw (setBits sched.toNat 63 48 (Nat.min (bitsOf sched.toNat 63 48 + 1) 0xFFFF))

/-- Nothing keeps the firing from being pre-empted at a SAFE point (R412). -/
def Core.preemptible (k : Core) : Bool :=
  k.tlevel = 0 && k.schur.bound.isNone && k.resq.isEmpty && !k.bankUsed 1 && !k.bankUsed 2

/-- A SAFE point (R140, R398, R412): lane renegotiation first, then a pending pre-emption (DEDUCED, log 18). -/
def State.safePoint (s : State) (mask : BitVec 15 × BitVec 16 × BitVec 8) : Res :=
  if s.me.tlevel ≠ 0 then .ok s
  else if s.me.copies.any (·.mine) then .core s fun k => { k with sched := skipSafe k.sched }
  else
    let t := s.renegotiate s.cur
    if t.me.switching && t.me.preemptible then .core t fun k => { k with frozen := true, safeMask := some mask }
    else .ok t

/-- SAFE with every register live (R139). At a trap level it acts as NOP, inside a speculation too (R398) (DEDUCED, log 18). -/
def execSafe (s : State) : Next :=
  deliver 1 0 .safe s
    (s.drained (if s.me.fir.spec && s.me.tlevel = 0 then .trap .atIssue 0x0309 0 else s.safePoint (-1, -1, -1)))

/-- SAFE with a live mask (R139). -/
def execSafeL (a b c : Reg) (lit : Word) (s : State) : Next :=
  deliver 1 0 (.safeL a b c lit) s
    (if lit.toNat / 2 ^ 24 ≠ 0 then .illegal 0x0108 0
     else s.drained
       (if s.me.fir.spec && s.me.tlevel = 0 then .trap .atIssue 0x0309 0
        else s.safePoint (a ++ b ++ c, lit.extractLsb' 0 16, lit.extractLsb' 16 8)))

/-- IDEM (R141). -/
def execIdem (lit : Option Word) (s : State) : Next :=
  deliver 1 0 (.idem lit) s (.core s fun k => { k with idempc := k.pc + 8 })

/-! ### REP -/

/-- What a register field of word B names, for REP: a `g` register of a scalar word, a `v` register of a vector word, or
something that cannot be stepped (R174). -/
inductive StepField where
  | g | v | fixed
  deriving DecidableEq, Repr

/-- The fields D, SA and SB of a word B. -/
def stepFields (w : Word) : StepField × StepField × StepField :=
  let op := (w.extractLsb' 26 6).toNat
  let fn := (w.extractLsb' 2 5).toNat
  let vreg (c : Nat) (x : BitVec 5) : StepField := if c ≠ 0 && x.toNat < 16 then .v else .fixed
  if op = 0 then (.fixed, .fixed, .fixed)
  else if op < 0x10 then
    (.g, if op = 0x0F then .fixed else .g,
      if op = 1 then (if 17 ≤ fn && fn ≤ 20 then .fixed else .g)
      else if op = 2 then .g
      else if op = 3 then (if fn = 5 || fn = 11 || fn = 12 then .fixed else .g)
      else .fixed)
  else
    let pred : Bool := op = 0x3E
    (if pred || op = 0x29 || op = 0x2A || op = 0x31 then .fixed else .v,
      vreg (b2n (!pred && op ≠ 0x37)) (w.extractLsb' 16 5),
      vreg (b2n (!pred && op ≠ 0x37 && !(oneSource.contains op)))
        (w.extractLsb' 11 5))

/-- The first register that a stepped field would pass to, or the code of a field that cannot be stepped (R174). -/
def stepFault (f : StepField) (base : BitVec 5) (stride n : Nat) : Option Nat :=
  let limit := match f with
    | .g => 31
    | _ => 15
  if f = .fixed then some base.toNat
  else if base.toNat + stride * (n - 1) ≤ limit then none
  else some (base.toNat + stride * ((limit - base.toNat) / stride + 1))

/-- Word B as the pair was fetched. -/
def RepState.wb (r : RepState) : Word := r.bits.extractLsb' 32 32

/-- Word B of iteration `k` (R174). -/
def RepState.wordB (r : RepState) (k : Nat) : Word :=
  let step (on : Bool) (lo : Nat) : Nat := if on then r.stride * k % 32 * 2 ^ lo else 0
  r.wb + BitVec.ofNat 32 (step r.stepD 21 + step r.stepA 16 + step r.stepB 11)

/-- REP (R174): its checks, and the start of its iterations. The firing stays at the pair while they run. -/
def execRep (a : Reg) (x y z : BitVec 1) (st : BitVec 4) (s : State) : Next :=
  let k := s.me
  let n := (k.g a).toNat
  let r : RepState := ⟨k.iter.toNat, n, st.toNat, x = 1, y = 1, z = 1, k.fetched⟩
  let wb := r.wb
  let (fd, fa, fb) := stepFields wb
  let stride := st.toNat
  let faults := (if x = 1 then [stepFault fd (wb.extractLsb' 21 5) stride n] else [])
    ++ (if y = 1 then [stepFault fa (wb.extractLsb' 16 5) stride n] else [])
    ++ (if z = 1 then [stepFault fb (wb.extractLsb' 11 5) stride n] else [])
  deliver 1 0 (.rep a x y z st) s
    (match (if n = 0 then none else faults.findSome? id) with
     | some r => .illegal 0x0107 (dw r)
     | none =>
       if n > 65535 then .illegal 0x0108 (k.g a)
       else if k.iter.toNat ≥ n then .core s fun k => { k with iter := 0 }
       else .core s fun k => { k with npc := k.pc, rep := some r })

end Sys2Proof.Machine
end

