-- ==== Sys2Proof/Machine/Queue.lean ====
section
/-! DEFINITION. The matrix queue area as its core writes it (R242–R246): slots made valid, stores discarded, and MQCTL. -/

namespace Sys2Proof.Machine

/-- A write of MQCTL (R246): DISCARD first; then, where 1 is written to STOPPED while it is 1, the failed slot is
invalidated, HEAD advances and the sequencer runs again. -/
def Matrix.writeCtl (m : Matrix) (v : Nat) : Matrix :=
  let m := { m with discard := bitOf v 1 }
  if bitOf v 0 && m.stopped then
    { m with stopped := false, err := 0, linkSince := none, head := (m.head + 1) % 16,
             valid := if m.discard then [] else m.valid.filter fun (i, _) => i ≠ m.head }
  else m

/-- A slot of the matrix queue is valid (R243). -/
def Matrix.isValid (m : Matrix) (slot : Nat) : Bool := m.valid.any fun (i, _) => i = slot

/-- The owner recorded with a slot that core `c`'s store makes valid (R243). -/
def State.slotOwner (s : State) (c : Nat) : SlotOwner := ⟨((s.core c).region).getD 0, s.rootOf c, s.classOf c⟩

/-- Bytes of the slots written as one access, with what sees them (R332). -/
def State.storeSlot (s : State) (l : List (Nat × List Byte)) : State :=
  let t := l.foldl (fun t (a, b) => t.putQueue a b) s
  l.foldl (fun t (a, b) => (t.fireWatches a b.length).rereadAt a b.length) t

/-- One piece of a store of core `c` to its own queue area, at offset `o`, that touches no valid slot (R242, R243). -/
def State.queuePiece (s : State) (c key o : Nat) (bytes : List (Option Byte)) : State :=
  if o < 0x400 then
    let t := s.storeSlot (runs key bytes)
    let tail := (List.range 8).all fun i => o % 64 ≤ 56 + i && ((bytes.getD (56 + i - o % 64) none).isSome)
    if tail then
      let own := s.slotOwner c
      t.modCore c fun k => { k with mq := { k.mq with valid := k.mq.valid ++ [(o / 64, own)] } }
    else t
  else if o ≤ 0x408 && 0x408 < o + bytes.length then
    match bytes.getD (0x408 - o) none with
    | some b => s.modCore c fun k => { k with mq := k.mq.writeCtl b.toNat }
    | none => s
  else s

/-- A piece of a store lies in the queue area of core `c`: its offset there. -/
def ownQueue (c key : Nat) : Option Nat :=
  match queueOf key with
  | some (k, o) => if k = c then some o else none
  | none => none

/-- A piece touches a valid slot of core `c`. -/
def State.hitsSlot (s : State) (c : Nat) (p : Nat × List (Option Byte)) : Bool :=
  match ownQueue c p.1 with
  | some o =>
    (p.2.zipIdx).any fun (b, i) => b.isSome && o + i < 0x400 && (s.core c).mq.isValid ((o + i) / 64)
  | none => false

end Sys2Proof.Machine
end

