-- ==== Sys2Proof/Machine/MemInstr.lean ====
section
/-! DEFINITION. Loads, stores, acquires and releases, atomics, gather and scatter-add, TINV and PREF (R196–R214). -/

namespace Sys2Proof.Machine

/-! ### Latencies -/

/-- Die boundaries on a route (R5): dies whose numbers differ in both bits, 0 and 3, and 1 and 2, stand diagonally (DESIGN
CHOICE, log 94). -/
def crossings (a b : Nat) : Nat := if a = b then 0 else if Nat.xor a b = 3 then 2 else 1
/-- Mesh hops between two spans of a die: SPAN is 4 times the row plus the column of a 4 × 4 grid (R4, R85). -/
def spanHops (a b : Nat) : Nat :=
  let apart (x y : Nat) : Nat := Nat.max x y - Nat.min x y
  apart (a / 4) (b / 4) + apart (a % 4) (b % 4)

/-- The least latency of an SRAM access from a core to a bank (R6), and of a stack (R199); the spec gives no figure for the
others, nor the hops of a route to another die. They bind timing only (DESIGN CHOICE, log 20). -/
def latencyOf (core key : Nat) : Nat :=
  let c := cellOf core
  match spaceOf key with
  | 1 =>
    let t := sramCell key
    (if t = c then 1 else if t / 4 = c / 4 then 3 else if t / 16 = c / 16 then 5
     else if t / 256 = c / 256 then 5 + 2 * spanHops (t / 16 % 16) (c / 16 % 16)
     else 5 + 40 * crossings (t / 256) (c / 256)) + 1
  | 2 => 120 + 40 * crossings (stackOf key / 4) (dieOfCell c)
  | _ => 200

/-! ### Reads -/

/-- A read that pends for its reply: the writes it will make, or the fault it will bring (R195, R199). -/
def State.readPend (s : State) (word la : Nat) (i : Instr) (va : Dword) (acq : Bool) (lat : Nat) (ds : List Nat)
    (fault : Option (Nat × Dword)) (writes : List RegWrite) : Res :=
  .core s fun k => k.addPend
    { who := k.issued word la i, kind := .reply, writes := writes, flags := 0, fp := false, acq := acq,
      issued := s.cycle, due := s.cycle + lat, va := va, dwords := ds, fault := fault, ready := true, lost := false }

/-- Overwrites of the bytes of memory that the region of core `c` can still meet in an `.i` read (R205). -/
def State.pastLength (s : State) (c : Nat) : Nat :=
  match (s.core c).region.bind s.region with
  | some r => s.past.length - r.pastFrom
  | none => 0
/-- A byte as a core reads it, or as it stood before the latest `n` overwrites (R205). -/
def State.pastByte (s : State) (c n key : Nat) : Byte :=
  (s.past.take n).foldl (fun b (a, l) => if a ≤ key && key < a + l.length then l.getD (key - a) b else b) (s.firingByte c key)

/-- A byte of which core `c` may read more than one write: plain memory, outside the firing's speculation, with nothing of the core's
own on its way there (R106). -/
def State.openByte (s : State) (c key : Nat) : Bool :=
  (queueOf key).isNone && !isWindow key && !s.bad.contains (dwOf key)
    && !(s.writes.any fun w => w.core = c && w.has key)
    && !(s.depOps.any fun o => o.core = some c && o.pa ≤ key && key < o.pa + 8)
    && (match s.specLine key with
      | some (cell, _) => !((s.core c).fir.spec && cell = cellOf c)
      | none => true)

/-- The writes that a read of core `c` may return for a byte (R201, rule 3): those, performed or on their way, before which the core
has observed no write that is ordered after them; none stands for what the home holds where no such write gave it. -/
def State.returnable (s : State) (c key : Nat) : List (Option Write) :=
  let ws := (s.hist ++ s.writes).filter (·.has key)
  let l := ws.filter fun w => !ws.any fun m => (s.core c).observed c m && w.before m
  (if s.hist.any (·.has key) || s.writes.any (fun m => m.has key && (s.core c).observed c m) then [] else [none]) ++ l.map some

/-- The one of some writes that a read returns: the one to which the draw gives the most, so that a write is returned whole. -/
def State.prefers (s : State) (l : List (Option Write)) : Option Write :=
  let rank (w : Option Write) : Nat := (Config.openWord s.free ((w.map (·.id + 1)).getD 0)).toNat
  (l.drop 1).foldl (fun b w => if rank b < rank w then w else b) (l.headD none)

/-- A byte as a load of core `c` returns it, with the write of another core that it comes from (R201). -/
def State.readAt (s : State) (c key : Nat) : Byte × Option Nat :=
  match (if s.openByte c key then s.prefers (s.returnable c key) else none) with
  | none => (s.firingByte c key, none)
  | some w => ((w.byteAt key).getD 0, if w.core = c then none else some w.id)

/-- Some byte of pieces may come from more than one write. -/
def State.openRead (s : State) (c : Nat) (keys : List Nat) : Bool := keys.any fun k => s.openByte c k && 1 < (s.returnable c k).length

/-- The addresses of pieces, byte by byte. -/
def pieceKeys (l : List (Nat × Nat)) : List Nat := l.flatMap fun (k, m) => (List.range m).map fun j => k + j

/-- The bytes of pieces as a load of core `c` returns them, and the state with the core's observations (R201). -/
def State.readPieces (s : State) (c : Nat) (l : List (Nat × Nat)) : List Byte × State :=
  let r := (pieceKeys l).map (s.readAt c)
  let ids := (r.filterMap (·.2)).eraseDups.filter fun i => !(s.core c).seen.contains i
  let t := if s.openRead c (pieceKeys l) then { s with free := s.free + 1 } else s
  (r.map (·.1), if ids.isEmpty then t else t.modCore c fun k => { k with seen := ids ++ k.seen })

/-- The bytes that a load returns, and the state after the choice: each location that an `.i` load reads may return what any
write of the region's run left or overwrote (R205) (DESIGN CHOICE, log 76). -/
def State.loaded (s : State) (inv : Bool) (l : List (Nat × Nat)) : List Byte × State :=
  if inv && 0 < s.pastLength s.cur then
    let at' (i : Nat) : Nat := (Config.openWord s.free i).toNat % (s.pastLength s.cur + 1)
    ((pieceKeys l).zipIdx.map fun (key, i) => s.pastByte s.cur (at' i) key, { s with free := s.free + 1 })
  else s.readPieces s.cur l

/-- A load of `n` bytes: `mk` makes the register writes of the bytes read (R197, R198) (DESIGN CHOICE, log 9). `acq` is the scope
of an acquire. -/
def State.load (s : State) (la : Nat) (i : Instr) (va : Dword) (n align : Nat) (acq : Option Nat) (inv : Bool)
    (mk : List Byte → List RegWrite) : Res :=
  if va.toNat % align ≠ 0 then .trap .afterIssue causeMisalign va
  else
    let t := s.noteRange (s.rootOf s.cur) (cellOf s.cur) va.toNat n
    match s.xlateRange (s.rootOf s.cur) (cellOf s.cur) va.toNat n .read with
    | .error (c, a) => t.readPend 1 la i va acq.isSome 1 [] (some (c, dw a)) (mk (List.replicate n 0))
    | .ok l =>
      let (bytes, t) := t.loaded inv l
      let t := match acq with
        | some sc => t.acquire s.cur sc fun w => (pieceKeys l).any w.has
        | none => t
      let lat := l.foldl (fun m (k, _) => Nat.max m (latencyOf s.cur k)) 1
      let t := (t.windowLostN (s.fnOf s.cur) (windowHits l)).readDone s.cur (piecesDwords l)
      t.readPend 1 la i va acq.isSome lat (piecesDwords l) none (mk bytes)

/-- Bytes of a scalar access (R196). -/
def sizeBytes (z : BitVec 2) : Nat := 2 ^ z.toNat
/-- The write of a scalar load: zero- or sign-extended (R197). -/
def loadWrite (d : Reg) (signed : Bool) (bytes : List Byte) : List RegWrite :=
  let v := dw (leNat bytes)
  [.g d (if signed then sres (8 * bytes.length) v.toInt else v)]

/-- LD (R197): Loads a byte, half, word or doubleword zero-extended into gd (DESIGN CHOICE, log 76). -/
def execLd (lit : Option Word) (t b : Reg) (c : BitVec 4) (i : BitVec 1) (z : BitVec 2) (o : BitVec 8) (s : State) : Next :=
  let ins := Instr.ld lit t b c i z o
  let n := sizeBytes z
  deliver 1 c.toNat ins s (s.load c.toNat ins (effAddr (s.me.g b) o n lit) n n none (i = 1) (loadWrite t false))
/-- LDS (R197): Loads a byte, half or word sign-extended into gd. -/
def execLds (lit : Option Word) (t b : Reg) (c : BitVec 4) (i : BitVec 1) (z : BitVec 2) (o : BitVec 8) (s : State) : Next :=
  let ins := Instr.lds lit t b c i z o
  let n := sizeBytes z
  deliver 1 c.toNat ins s (s.load c.toNat ins (effAddr (s.me.g b) o n lit) n n none (i = 1) (loadWrite t true))
/-- LDA: a load that acquires (R203, R313). -/
def execLda (lit : Option Word) (d b : Reg) (c : BitVec 4) (sc : BitVec 4) (z : BitVec 2) (s : State) : Next :=
  let ins := Instr.lda lit d b c sc z
  let n := sizeBytes z
  deliver 1 c.toNat ins s (s.load c.toNat ins (effLit (s.me.g b) lit) n n (some sc.toNat) false (loadWrite d false))
/-- VLD: the 4·VL bytes of a vector register (R198). -/
def execVld (lit : Option Word) (t b : Reg) (c : BitVec 4) (i : BitVec 1) (o : BitVec 8) (s : State) : Next :=
  let ins := Instr.vld lit t b c i o
  let n := 4 * s.me.vl
  deliver 1 c.toNat ins s
    (if s.me.vl = 0 then .illegal 0x0107 0
     else s.load c.toNat ins (effAddr (s.me.g b) o 64 lit) n 64 none (i = 1) fun l => [.v t (BitVec.ofNat 8192 (leNat l)) (onesBelow 8192 (8 * n))])

/-! ### Writes -/

/-- The 64-byte pieces of a store that have a byte to write (R198). `fuel` bounds the pieces. -/
def storePieces : Nat → Nat → List (Option Byte) → List (Nat × List (Option Byte))
  | 0, _, _ => []
  | fuel + 1, va, bytes =>
    let p := bytes.take 64
    let r := if bytes.length ≤ 64 then [] else storePieces fuel ((va + 64) % 2 ^ 64) (bytes.drop 64)
    if p.any Option.isSome then (va, p) :: r else r

/-- The first byte that a piece writes. -/
def firstByte (p : List (Option Byte)) : Nat := (p.findIdx? Option.isSome).getD 0

/-- The home addresses of a store's pieces, or its fault (R189, R194): no byte is written before all are translated. -/
def State.storeKeys (s : State) (core va : Nat) (bytes : List (Option Byte)) :
    Except (Nat × Nat) (List (Nat × List (Option Byte))) :=
  let ps := storePieces 17 va bytes
  let first := va + firstByte bytes
  if first < 0x20_0000 && ps.any (fun (a, p) => 0x20_0000 ≤ a + firstByte p && a ≥ va) then .error (causeUnreach, va)
  else
    ps.foldl
      (fun r (a, p) =>
        match r with
        | .error e => .error e
        | .ok l =>
          let j := firstByte p
          match s.xlate (s.rootOf core) (cellOf core) ((a + j) % 2 ^ 64) .write with
          | .error c => .error (c, (a + j) % 2 ^ 64)
          | .ok k => .ok (l ++ [(k - j, p)]))
      (.ok [])

/-- The first write of a speculating firing to a clean line copies the visible line into the shadow, as a read of the core, whose
own earlier writes are in it (R106, R135). -/
def State.shadowLine (s : State) (core key : Nat) : State :=
  let cell := cellOf core
  let base := key / 32 * 32
  if (s.cell cell).shadow.any (·.1 = sramOff key / 32) then s
  else
    let t := (s.flushAt core base 32).readDone core (dwordsOf base 32)
    t.modCell cell fun c => { c with shadow := tabSet c.shadow (sramOff key / 32) (BitVec.ofNat 256 (t.homeNat base 32)) }

/-- A byte of a speculating firing's store, in the shadow of its line (R135). -/
def State.shadowByte (s : State) (core key : Nat) (b : Byte) : State :=
  let j := 8 * (key % 32)
  let line := sramOff key / 32
  (s.shadowLine core key).modCell (cellOf core) fun c =>
    let v := BitVec.ofNat 256 (setBits (tabGet 0 c.shadow line).toNat (j + 7) j b.toNat)
    { c with shadow := tabSet c.shadow line v }

def State.shadowPiece (s : State) (core key : Nat) (bytes : List (Option Byte)) : State :=
  (bytes.zipIdx).foldl (fun t (b, i) => match b with
    | some b => t.shadowByte core (key + i) b
    | none => t) s

/-- A report that an STL at device scope gives to the port: its record is 64-byte-aligned, or it is dropped and counted
(R79) (DEDUCED, log 44). -/
def State.report (s : State) (core v : Nat) : State :=
  let s := s.flush core
  if v % 64 ≠ 0 then s.windowLost (s.fnOf core) else { s with reports := s.reports ++ [⟨s.fnOf core, v, (s.core core).region.getD 0, dieOfCore core⟩] }

/-- A write that a core makes now (R201, R202): what it has observed, and the releases that it is, its own and those of the FENCEs
before it (R204). -/
def State.newWrite (s : State) (core key : Nat) (bytes : List (Option Byte)) (rel : Option Nat) : Write :=
  { core := core, pa := key, bytes := bytes, rel := (rel.map fun sc => (sc, s.nextWrite)).toList ++ (s.core core).rels,
    id := s.nextWrite, known := (s.core core).seen }

/-- One piece of a store outside a speculation: to the core's queue area, discarded at another core's, to the management
window, or on its way to its home (R79, R242, R311). `rel` is the scope of a release; `port` marks an STL at device scope. -/
def State.storePiece (s : State) (core key : Nat) (bytes : List (Option Byte)) (rel : Option Nat) (port : Bool) : State :=
  match ownQueue core key with
  | some o => (if rel.isSome then s.flush core else s.flushTo core (carriedTo (s.core core).rels)).queuePiece core key o bytes
  | none =>
    if (queueOf key).isSome then s
    else if isWindow key then
      (if port && key = windowBase && bytes.length = 8 then s.report core (leNat (bytes.filterMap id))
       else s.windowLost (s.fnOf core))
    else
      let t := s.flushSeen core key bytes.length
      { t with writes := t.writes ++ [s.newWrite core key bytes rel], nextWrite := t.nextWrite + 1 }

/-- Bytes of a core that it writes while an ENCX of its own is still to write: the ENCX, which is older, leaves them (R106). -/
def State.noteOver (s : State) (core key : Nat) (bytes : List (Option Byte)) : State :=
  if s.encxUnder core then
    let l := (runs key bytes).map fun (a, b) => (a, b.length)
    s.modCell (cellOf core) fun c =>
      { c with enc := c.enc.map fun j => if j.core = core && j.encx.isSome then { j with rewritten := j.rewritten ++ l } else j }
  else s

/-- What the translations of a store's pieces leave behind: a byte that is not written is not translated (R198). -/
def State.noteStore (s : State) (core va : Nat) (bytes : List (Option Byte)) : State :=
  (storePieces 17 va bytes).foldl
    (fun t (a, p) => t.noteWalk (s.rootOf core) (cellOf core) ((a + firstByte p) % 2 ^ 64)) s

/-- A store (R197, R198, R203): it completes when it is accepted. Inside a speculation MISALIGN and a fault of translation come
before SPEC_STORE, since only a translated address lies outside the window (DESIGN CHOICE, log 112). -/
def State.store (s : State) (va : Dword) (align : Nat) (bytes : List (Option Byte)) (rel : Option Nat) (port : Bool) : Res :=
  if va.toNat % align ≠ 0 then .trap .afterIssue causeMisalign va
  else
    let t := s.noteStore s.cur va.toNat bytes
    match s.storeKeys s.cur va.toNat bytes with
    | .error (c, a) => .trapIn t .afterIssue c (dw a)
    | .ok ps =>
      if s.me.fir.spec then
        if ps.all fun (k, _) => (queueOf k).isNone && (match s.specLine k with
            | some (cell, _) => cell = cellOf s.cur
            | none => false)
        then .ok (ps.foldl (fun t (k, p) => (t.noteOver s.cur k p).shadowPiece s.cur k p) t)
        else .trapIn t .atIssue 0x0309 0
      else if ps.any (s.hitsSlot s.cur) then
        .core t fun k => { k with mq := { k.mq with drops := Nat.min (k.mq.drops + 1) 7 } }
      else .ok (ps.foldl (fun t (k, p) => (t.noteOver s.cur k p).storePiece s.cur k p rel port) t)

/-- ST (R197): Stores the low bytes of ga to memory. -/
def execSt (lit : Option Word) (t b : Reg) (c : BitVec 4) (z : BitVec 2) (o : BitVec 8) (s : State) : Next :=
  let n := sizeBytes z
  deliver 1 c.toNat (.st lit t b c z o) s
    (s.store (effAddr (s.me.g b) o n lit) n ((leBytes n (s.me.g t).toNat).map some) none false)
/-- STL: a store that releases (R203). Inside a speculation it traps at issue (R135). -/
def execStl (lit : Option Word) (a b : Reg) (sc : BitVec 4) (z : BitVec 2) (s : State) : Next :=
  let n := sizeBytes z
  deliver 1 0 (.stl lit a b sc z) s
    (s.unlessSpec (s.store (effLit (s.me.g b) lit) n ((leBytes n (s.me.g a).toNat).map some) (some sc.toNat) (sc = 5)))
/-- VST: byte k where bit k of the predicate is 1 (R198) (DEDUCED, log 29). -/
def execVst (lit : Option Word) (t b : Reg) (c : BitVec 4) (p : BitVec 3) (o : BitVec 8) (s : State) : Next :=
  let v := (s.me.v t).toNat
  let m := s.me.p p
  deliver 1 c.toNat (.vst lit t b c p o) s
    (if s.me.vl = 0 then .illegal 0x0107 0
     else s.store (effAddr (s.me.g b) o 64 lit) 64
       ((List.range (4 * s.me.vl)).map fun i => if m.getLsbD i then some (BitVec.ofNat 8 (v / 256 ^ i)) else none) none false)

/-- FENCE (R204): it completes at issue. With `.acq` it acquires what the core's earlier reads returned, and later accesses wait for
earlier reads (R313); with `.rel` every later write is a release of what the core has written so far. -/
def execFence (lit : Option Word) (sc : BitVec 4) (kd : BitVec 2) (s : State) : Next :=
  deliver 1 0 (.fence lit sc kd) s
    (.core (if kd.toNat % 2 = 1 then s.acquire s.cur sc.toNat fun _ => true else s) fun k =>
      { k with fence := if kd.toNat % 2 = 1 then some k.words else k.fence,
               rels := if kd.toNat / 2 = 1 then (sc.toNat, s.nextWrite) :: k.rels.filter (·.1 ≠ sc.toNat) else k.rels })

/-! ### Atomics (R206, R207) -/

/-- An atomic on `8·n` bits: `f` gives the new value, or none where nothing is written. The old value comes back in
`ga` with the reply. One after a FENCE `.rel` is a release as well (R204, R314). One whose packet is dropped on the way to a peer
writes nothing and gets no reply (R425). -/
def State.atomicOp (s : State) (lit : Option Word) (i : Instr) (a b : Reg) (c : BitVec 4) (o : BitVec 2) (z : BitVec 1)
    (f : Nat → Nat → Option Nat) : Res :=
  let n := if z = 1 then 8 else 4
  let va := effLit (s.me.g b) lit
  s.unlessSpec
    (if va.toNat % n ≠ 0 then .trap .afterIssue causeMisalign va
     else match s.atomicKey s.cur va with
       | .error e => .trapIn (s.noteWalk (s.rootOf s.cur) (cellOf s.cur) va.toNat) .afterIssue e va
       | .ok key =>
         let t := (if o.toNat / 2 = 1 then s.flush s.cur else s.flushTo s.cur (carriedTo s.me.rels)).flushAt s.cur key n
         let (lost, t) := (t.noteWalk (s.rootOf s.cur) (cellOf s.cur) va.toNat).crossing key
         if lost then .core t fun k => k.addPend
           { who := k.issued 1 c.toNat i, kind := .reply, writes := [.g a 0], flags := 0, fp := false, acq := o.toNat % 2 = 1,
             issued := s.cycle, due := s.cycle, va := va, dwords := [], fault := none, ready := false, lost := true }
         else
         let (old, t) := t.atomic s.cur key n true (f (8 * n))
         t.readPend 1 c.toNat i va (o.toNat % 2 = 1) (latencyOf s.cur key) [] none [.g a (sres (8 * n) old)])

/-- The operand of an atomic at its width. -/
def State.atomArg (s : State) (a : Reg) (w : Nat) : Nat := uval w (s.me.g a)
/-- The signed order of two values of `w` bits. -/
def sle (w x y : Nat) : Bool := (BitVec.ofNat w x).sle (BitVec.ofNat w y)
/-- A firing that holds a tile whose IDEM is 1 makes no AADD, AXOR or SCADD (R391). -/
def State.unlessTile (s : State) (r : Res) : Res := if !s.me.fir.tiles.any (·.2) then r else .illegal 0x0107 0

/-- AADD (R207): Atomically adds ga to the location at its home and returns the old value. -/
def execAadd (lit : Option Word) (a b : Reg) (c : BitVec 4) (sc : BitVec 3) (o : BitVec 2) (z : BitVec 1) (s : State) : Next :=
  let i := Instr.aadd lit a b c sc o z
  deliver 1 c.toNat i s (s.unlessTile (s.atomicOp lit i a b c o z fun w v => some ((v + s.atomArg a w) % 2 ^ w)))
/-- ASWAP (R207): Atomically swaps ga with the location and returns the old value. -/
def execAswap (lit : Option Word) (a b : Reg) (c : BitVec 4) (sc : BitVec 3) (o : BitVec 2) (z : BitVec 1) (s : State) : Next :=
  let i := Instr.aswap lit a b c sc o z
  deliver 1 c.toNat i s (s.atomicOp lit i a b c o z fun w _ => some (s.atomArg a w))
/-- ACAS compares with `ga` and writes `g(a+1)`; a failed compare writes nothing. -/
def execAcas (lit : Option Word) (a b : Reg) (c : BitVec 4) (sc : BitVec 3) (o : BitVec 2) (z : BitVec 1) (s : State) : Next :=
  let i := Instr.acas lit a b c sc o z
  deliver 1 c.toNat i s
    (if a = 0 || a = 31 then .illegal 0x0108 (a.setWidth 64)
     else s.atomicOp lit i a b c o z fun w v => if v = s.atomArg a w then some (s.atomArg (a + 1) w) else none)
/-- AMIN (R207): Atomically stores the signed minimum of the location and ga. -/
def execAmin (lit : Option Word) (a b : Reg) (c : BitVec 4) (sc : BitVec 3) (o : BitVec 2) (z : BitVec 1) (s : State) : Next :=
  let i := Instr.amin lit a b c sc o z
  deliver 1 c.toNat i s
    (s.atomicOp lit i a b c o z fun w v => some (if sle w v (s.atomArg a w) then v else s.atomArg a w))
/-- AMAX (R207): Atomically stores the signed maximum of the location and ga. -/
def execAmax (lit : Option Word) (a b : Reg) (c : BitVec 4) (sc : BitVec 3) (o : BitVec 2) (z : BitVec 1) (s : State) : Next :=
  let i := Instr.amax lit a b c sc o z
  deliver 1 c.toNat i s
    (s.atomicOp lit i a b c o z fun w v => some (if sle w v (s.atomArg a w) then s.atomArg a w else v))
/-- AAND (R207): Atomically ANDs ga into the location. -/
def execAand (lit : Option Word) (a b : Reg) (c : BitVec 4) (sc : BitVec 3) (o : BitVec 2) (z : BitVec 1) (s : State) : Next :=
  let i := Instr.aand lit a b c sc o z
  deliver 1 c.toNat i s (s.atomicOp lit i a b c o z fun w v => some (Nat.land v (s.atomArg a w)))
/-- AOR (R207): Atomically ORs ga into the location. -/
def execAor (lit : Option Word) (a b : Reg) (c : BitVec 4) (sc : BitVec 3) (o : BitVec 2) (z : BitVec 1) (s : State) : Next :=
  let i := Instr.aor lit a b c sc o z
  deliver 1 c.toNat i s (s.atomicOp lit i a b c o z fun w v => some (Nat.lor v (s.atomArg a w)))
/-- AXOR (R207): Atomically XORs ga into the location. -/
def execAxor (lit : Option Word) (a b : Reg) (c : BitVec 4) (sc : BitVec 3) (o : BitVec 2) (z : BitVec 1) (s : State) : Next :=
  let i := Instr.axor lit a b c sc o z
  deliver 1 c.toNat i s (s.unlessTile (s.atomicOp lit i a b c o z fun w v => some (Nat.xor v (s.atomArg a w))))

/-! ### Gather and scatter-add (R208–R210) -/

/-- The addresses of the elements in order, none for a null index. -/
def elemAddrs (base : Dword) (idx : VReg) (bytes n : Nat) : List (Option Nat) :=
  (List.range n).map fun i =>
    let x := elem idx 4 i
    if x = 0xFFFF_FFFF then none else some ((base.toNat + x * bytes) % 2 ^ 64)

/-- Every element translated before any is accessed: their home addresses, or the fault of the lowest-numbered one that
faults (R209). Additions take no host memory (R207). -/
def State.elemKeys (s : State) (addrs : List (Option Nat)) (acc : Acc) : Except (Nat × Nat) (List (Option Nat)) :=
  addrs.foldl
    (fun r a =>
      match r, a with
      | .error e, _ => .error e
      | .ok l, none => .ok (l ++ [none])
      | .ok l, some va =>
        match s.xlate (s.rootOf s.cur) (cellOf s.cur) va acc with
        | .error c => .error (c, va)
        | .ok k => if acc = .write && spaceOf k = 4 then .error (causeUnreach, va) else .ok (l ++ [some k]))
    (.ok [])

/-- What the translations of elements leave behind. -/
def State.noteElems (s : State) (addrs : List (Option Nat)) : State :=
  addrs.foldl (fun t a => match a with
    | some va => t.noteWalk (s.rootOf s.cur) (cellOf s.cur) va
    | none => t) s

/-- Elements that an instruction of `vl` lanes works on (R208). -/
def gatherCount (vl bytes : Nat) : Nat := Nat.min vl (4 * vl / bytes)

/-- The elements of a gather from the bytes read for those that are not null, in order. -/
def gathered (bytes : Nat) : List Bool → List Byte → List Nat
  | [], _ => []
  | false :: t, b => 0 :: gathered bytes t b
  | true :: t, b => leNat (b.take bytes) :: gathered bytes t (b.drop bytes)

/-- GATHER (R209). -/
def execGather (d b : Reg) (c : BitVec 4) (z : BitVec 2) (iv : BitVec 4) (s : State) : Next :=
  let i := Instr.gather d b c z iv
  let bytes := sizeBytes z
  let n := gatherCount s.me.vl bytes
  let base := s.me.g b
  let mask := onesBelow 8192 (8 * bytes * n)
  deliver 1 c.toNat i s
    (if s.me.vl = 0 then .illegal 0x0107 0
     else s.unlessSpec
       (if base.toNat % bytes ≠ 0 then .trap .afterIssue causeMisalign base
        else
         let addrs := elemAddrs base (s.me.v (iv.setWidth 5)) bytes n
         match s.elemKeys addrs .read with
          | .error (e, va) => (s.noteElems addrs).readPend 1 c.toNat i base false 1 [] (some (e, dw va)) [.v d 0 mask]
          | .ok ks =>
            let hits := ks.filterMap id
            let (read, t) := s.readPieces s.cur (hits.map fun k => (k, bytes))
            let vals := gathered bytes (ks.map Option.isSome) read
            let lat := hits.foldl (fun m k => Nat.max m (latencyOf s.cur k)) 2
            let ds := hits.flatMap fun k => dwordsOf k bytes
            (((t.noteElems addrs).windowLostN (s.fnOf s.cur) (hits.filter isWindow).length).readDone s.cur ds).readPend 1 c.toNat i
              base false lat ds none [.v d (vOfElems bytes vals) mask]))

/-- One addition at an element's home (R210). -/
def scaddVal (t : BitVec 2) (old x : Nat) : Nat :=
  match t with
  | 0 => (old + x) % 2 ^ 32
  | 1 => (old + x) % 2 ^ 64
  | 2 => (fp32.add .rne old x).1
  | _ => (fp64.add .rne old x).1

/-- SCADD (R210): the additions in increasing element number. -/
def execScadd (a b : Reg) (c : BitVec 4) (z : BitVec 2) (iv : BitVec 4) (s : State) : Next :=
  let bytes := if z.toNat % 2 = 1 then 8 else 4
  let n := gatherCount s.me.vl bytes
  let base := s.me.g b
  deliver 1 c.toNat (.scadd a b c z iv) s
    (if s.me.vl = 0 then .illegal 0x0107 0
     else s.unlessTile (s.unlessSpec
       (if base.toNat % bytes ≠ 0 then .trap .afterIssue causeMisalign base
        else
         let addrs := elemAddrs base (s.me.v (iv.setWidth 5)) bytes n
         match s.elemKeys addrs .write with
          | .error (e, va) => .trapIn (s.noteElems addrs) .afterIssue e (dw va)
          | .ok ks =>
            let x := s.me.v a
            let add (t : State) (p : Option Nat × Nat) : State :=
              match p.1 with
              | none => t
              | some k =>
                let (lost, t) := (t.flushAt s.cur k bytes).crossing k
                if lost then t else (t.atomic s.cur k bytes false fun old => some (scaddVal z old (elem x bytes p.2))).2
            .ok (ks.zipIdx.foldl add ((s.flushTo s.cur (carriedTo s.me.rels)).noteElems addrs)))))

/-! ### TINV and PREF -/

/-- TINV (R213): it releases at device scope, and every cache of the device gives up the region's translations of the page, or
all of them. No walk of the model is in flight between steps. -/
def execTinv (a : Reg) (x : BitVec 1) (s : State) : Next :=
  deliver 1 0 (.tinv a x) s
    (.ok ((s.flush s.cur).invalidate s.me.region (if x = 1 then none else some (s.me.g a).toNat)))
/-- PREF (R214). -/
def execPref (lit : Option Word) (b : Reg) (s : State) : Next :=
  deliver 1 0 (.pref lit b) s (.ok (s.noteWalk (s.rootOf s.cur) (cellOf s.cur) (effLit (s.me.g b) lit).toNat))

end Sys2Proof.Machine
end

