-- ==== Sys2Proof/Machine/Streams.lean ====
section
/-! DEFINITION. Streams (R215–R226): descriptors, the byte sequence, reads of a stream register, SBIND, SFREE, SSTAT; the
fetching ahead (R221); and coded blocks with their decoder (R227–R232). -/

namespace Sys2Proof.Machine

/-! ### Waits at issue (R122) -/

/-- STO and WLIM in cycles. -/
def Core.sto (k : Core) : Nat := 2 ^ (bitsOf k.sched.toNat 47 44 + 10)
def Core.wlim (k : Core) : Nat := 2 ^ (bitsOf k.sched.toNat 43 40 + 10)

/-- The pair is held by a bounded wait: the wait goes on, or begins now. -/
def Core.hold (k : Core) (kind : WaitKind) (now limit : Nat) (val : Dword) : Core :=
  match k.wait with
  | some w => if w.kind = kind then { k with wait := some { w with val := val } } else { k with wait := some ⟨kind, now, limit, val, 0, 0⟩ }
  | none => { k with wait := some ⟨kind, now, limit, val, 0, 0⟩ }

/-! ### Descriptors -/

/-- Bytes of an element type (R47); 0 for Q4, which a plain stream cannot have. -/
def typeBytes : Nat → Nat
  | 0 => 1
  | 2 => 1
  | 3 => 2
  | 4 => 4
  | 5 => 2
  | 6 => 8
  | 7 => 4
  | _ => 0

/-- A descriptor from its 48 bytes, and whether a reserved field is nonzero (R215, R216). -/
def StreamDesc.ofBytes (b : List Byte) : StreamDesc × Bool :=
  let at4 (o : Nat) : Nat := leNat ((b.drop o).take 4)
  let fl := at4 0x28
  ({ base := dw (leNat (b.take 8)), counts := (List.range 4).map fun i => at4 (8 + 4 * i),
     strides := (List.range 4).map fun i => BitVec.ofNat 32 (at4 (0x18 + 4 * i)), decomp := bitOf fl 4, typ := fl % 16,
     win := bitsOf fl 23 16, subs := bitsOf fl 15 12 },
   bitsOf fl 31 24 ≠ 0 || bitsOf fl 11 5 ≠ 0 || at4 0x2C ≠ 0)

def StreamDesc.count (d : StreamDesc) (i : Nat) : Nat := d.counts.getD i 1
def StreamDesc.stride (d : StreamDesc) (i : Nat) : Dword := (d.strides.getD i 0).signExtend 64
/-- Elements, or blocks, of the walk. -/
def StreamDesc.items (d : StreamDesc) : Nat := d.counts.foldl (· * ·) 1
/-- Bytes of the sequence of a plain stream. -/
def StreamDesc.total (d : StreamDesc) : Nat := typeBytes d.typ * d.items
/-- The level counters of item `e`: i0 to i3. -/
def StreamDesc.index (d : StreamDesc) (e : Nat) : List Nat :=
  [e % d.count 0, e / d.count 0 % d.count 1, e / (d.count 0 * d.count 1) % d.count 2, e / (d.count 0 * d.count 1 * d.count 2)]
/-- BASE plus the strides of levels `from` to 3 at item `e` (R217). -/
def StreamDesc.addr (d : StreamDesc) (e lo : Nat) : Dword :=
  ((d.index e).zipIdx).foldl (fun a (i, l) => if lo ≤ l then a + dw i * d.stride l else a) d.base

/-- The checks of R220. -/
def StreamDesc.bad (d : StreamDesc) (sub : Bool) : Bool :=
  let step : Nat := if d.decomp then 64 else typeBytes d.typ
  d.counts.any (· = 0) || d.typ ≥ 8 || (d.typ = 1 && !d.decomp) || (d.decomp && d.typ ≠ 1 && d.typ ≠ 4)
    || d.base.toNat % step ≠ 0 || d.strides.any (fun x => x.toNat % step ≠ 0)
    || (!d.decomp && d.total > 2 ^ 40) || (1 ≤ d.win && d.win ≤ 15) || (d.win ≠ 0 && d.subs = 0)
    || (d.win = 0 && d.subs ≠ 0) || (sub && d.win = 0)

/-- The fetching side of a stream just bound. -/
def Feed.fresh (d : StreamDesc) : Feed := ⟨0, [], 0, d.base, [], false, none, []⟩
/-- A feed whose data fetched ahead is discarded: it fetches again from the byte `pos`, or from the coded block that holds
it (R221, R416). -/
def Feed.restart (f : Feed) (d : StreamDesc) (pos : Nat) : Feed :=
  if !d.decomp || f.start + f.buf.length ≤ pos then { f with start := pos, buf := [], fault := none, hdrErr := false }
  else
    let j := ((f.blocks.filter fun (b, _) => b ≤ pos).length - 1)
    match f.blocks[j]? with
    | none => Feed.fresh d
    | some (b, _, _, addr) =>
      { start := b, buf := [], block := j, blockAddr := addr, bad := f.bad.filter (·.1 < j), hdrErr := false, fault := none,
        blocks := f.blocks.take j }
/-- Where the next fetched byte stands in the sequence. -/
def Feed.next (f : Feed) : Nat := f.start + f.buf.length
/-- The length of the sequence, once it is known. -/
def Feed.theEnd (f : Feed) (d : StreamDesc) : Option Nat :=
  if d.decomp then (if f.block ≥ d.items then some f.next else none) else some d.total
/-- Bytes before a place dropped. -/
def Feed.trim (f : Feed) (pos : Nat) : Feed :=
  let n := Nat.min (pos - f.start) f.buf.length
  { f with start := f.start + n, buf := f.buf.drop n }

/-! ### Reading a group (R218, R221, R224, R230, R231) -/

/-- What a read of the next group meets. -/
inductive Group where
  | bytes (l : List Byte)
  | wait
  /-- Cause, value, and the failed block that this trap answers for. -/
  | trap (cause : Nat) (val : Dword) (block : Option Nat)
  deriving DecidableEq, Repr

/-- The value of the decompression traps. -/
def decompVal (block kind code : Nat) : Dword := dw (block * 2 ^ 32 + kind * 256 + code)

/-- The group of `n` bytes at `pos`. -/
def Feed.group (f : Feed) (d : StreamDesc) (pos n code : Nat) (trapped : List Nat) : Group :=
  let stop := Nat.min (pos + n) ((f.theEnd d).getD (pos + n))
  if (f.theEnd d).any (· ≤ pos) then .trap 0x030F (dw code) none
  else
    match f.bad.find? fun (b, _, lo, hi) => lo < pos + n && pos < hi && !trapped.contains b with
    | some (b, kind, _, _) => .trap 0x0310 (decompVal b kind code) (some b)
    | none =>
      if stop ≤ f.next then
        let l := (f.buf.drop (pos - f.start)).take (stop - pos)
        .bytes (l ++ List.replicate (n - l.length) 0)
      else if f.hdrErr then .trap 0x0313 (decompVal f.block 3 code) none
      else
        match f.fault with
        | some (c, va) => .trap c va none
        | none => .wait

/-- A shared stream by its id. -/
def State.sharedOf (s : State) (id : Nat) : Option Shared := s.shared.find? (·.id = id)
def State.modShared (s : State) (id : Nat) (f : Shared → Shared) : State :=
  { s with shared := s.shared.map fun x => if x.id = id then f x else x }

/-- A subscriber's place, none once it is past the end. -/
def Shared.place (x : Shared) (core : Nat) (code : Option Nat) : Option Nat :=
  (x.subs.find? fun u => u.core = core && u.code = code && u.pos.isSome).bind (·.pos)
/-- The slowest subscriber: one not yet subscribed stands at 0 (R226). -/
def Shared.slowest (x : Shared) : Nat :=
  if x.subs.length < x.desc.subs then 0
  else (x.subs.filterMap (·.pos)).foldl (fun m p => match m with
    | none => some p
    | some q => some (Nat.min p q)) none |>.getD x.feed.next
/-- A subscriber moved on; past the end it counts as gone, and units that all have passed are dropped. -/
def Shared.move (x : Shared) (core : Nat) (code : Option Nat) (pos : Nat) : Shared :=
  let pos' := if (x.feed.theEnd x.desc).any (· ≤ pos) then none else some pos
  let step (u : Subscriber) : Subscriber :=
    if u.core = core && u.code = code && u.pos.isSome then { u with pos := pos' } else u
  let x := { x with subs := x.subs.map step }
  { x with feed := x.feed.trim (x.slowest / 64 * 64) }
/-- A shared stream changed; one that is over is gone (R225). -/
def State.moveShared (s : State) (id core : Nat) (code : Option Nat) (pos : Nat) : State :=
  let t := s.modShared id fun x => x.move core code pos
  { t with shared := t.shared.filter fun x => !(x.id = id && x.ended) }

/-- What `n` bytes at a place deliver is held back while a unit of theirs lies WIN or more units beyond the slowest subscriber:
it counts as not fetched (R226). -/
def Shared.inWindow (x : Shared) (p n : Nat) (g : Group) : Group :=
  let stop := Nat.min (p + n) ((x.feed.theEnd x.desc).getD (p + n))
  match g with
  | .bytes _ | .trap _ _ (some _) => if x.slowest / 64 + x.desc.win < (stop + 63) / 64 then .wait else g
  | g => g

/-- The next group of `n` bytes that a subscriber of a shared stream reads. -/
def State.sharedGroup (s : State) (id core : Nat) (code : Option Nat) (n : Nat) (trapped : List Nat) : Group :=
  match (s.sharedOf id).bind fun x => (x.place core code).map fun p => (x, p) with
  | none => .trap 0x030F (dw (16 + code.getD 0)) none
  | some (x, p) => x.inWindow p n (x.feed.group x.desc p n (16 + code.getD 0) trapped)

/-- The next group of stream register `i` of a core. -/
def State.nextGroup (s : State) (core i n : Nat) (st : Stream) : Group :=
  match st.shared with
  | some id => s.sharedGroup id core (some i) n st.trapped
  | none => st.feed.group st.desc st.pos n (16 + i) st.trapped

def State.modStream (s : State) (core i : Nat) (f : Stream → Stream) : State :=
  s.modCore core fun k => { k with streams := vset k.streams i ((vget none k.streams i).map f) }

/-- A group taken (R218): the stream moves on. -/
def State.popGroup (s : State) (core i n : Nat) (st : Stream) : State :=
  let pos := st.pos + n
  let s := match st.shared with
    | some id => s.moveShared id core (some i) pos
    | none => s
  s.modStream core i fun x => { x with pos := pos, pops := (x.pops + 1) % 2 ^ 24, feed := x.feed.trim pos }

/-- What a trap at a read leaves behind: a fault is fetched again when the read issues again (R231). A failed block has had its
trap once the trap is taken. -/
def State.readTrap (s : State) (core i : Nat) (st : Stream) (block : Option Nat) : State :=
  match block, st.shared with
  | some _, _ => s
  | none, some id => s.modShared id fun x => { x with feed := { x.feed with fault := none } }
  | none, none => s.modStream core i fun x => { x with feed := { x.feed with fault := none } }

/-- A read of one stream register by the firing of core `s.cur`: the group and the state after it, or how the word
stops, with what that leaves behind. -/
def State.readStream (s : State) (code : Reg) : Except (State × Res) (State × VReg) :=
  let i := code.toNat - 16
  let n := 4 * s.me.vl
  match vget none s.me.streams i with
  | none => .error (s, .illegal 0x0107 (code.setWidth 64))
  | some st =>
    if st.bank ≠ 0 then .error (s, .illegal 0x0107 (code.setWidth 64))
    else
      match s.nextGroup s.cur i n st with
      | .bytes l => .ok (s.popGroup s.cur i n st, BitVec.ofNat 8192 (leNat l))
      | .trap c v b => .error (s.readTrap s.cur i st b, .trap .atIssue c v)
      | .wait =>
        .error (s, .hold (s.modMe fun k => k.hold (.stream code.toNat) s.cycle k.sto (code.setWidth 64)))

/-- The decompressor of a block (R232): its stack. -/
def decompStack (core key : Nat) : Nat :=
  if spaceOf key = 2 && !isWindow key then stackOf key else dieOfCore core * 4 + cellOf core / 16 % 16 / 4

/-- A held cycle of a reader of a coded stream: its decompressor's output is late (R428) (DEDUCED, log 108). -/
def State.outStall (s : State) (core root : Nat) (d : StreamDesc) (f : Feed) : State :=
  if !d.decomp then s
  else match s.xlate root (cellOf core) f.blockAddr.toNat .read with
    | .ok k => s.bump 7 (decompStack core k) 2
    | .error _ => s

/-- The same for a stream register whose group has not been fetched; a shared stream's window holds a group back for no
decompressor. -/
def State.lateGroup (s : State) (core i n : Nat) (st : Stream) (t : State) : State :=
  match st.shared.bind s.sharedOf with
  | none => t.outStall core (s.rootOf core) st.desc st.feed
  | some x =>
    match (x.place core (some i)).map fun p => x.feed.group x.desc p n (16 + i) st.trapped with
    | some .wait => t.outStall core (s.rootOf core) x.desc x.feed
    | _ => t

/-- The reads of some stream registers are held in cycle `now`: each one's bound runs from the cycle in which it was first held
(R122). -/
def Core.holdStreams (k : Core) (codes : List Nat) (now : Nat) : Core :=
  let since (c : Nat) : Nat := ((k.held.find? fun (d, _, last) => d = c && now ≤ last + 1).map (·.2.1)).getD now
  { k with held := codes.map fun c => (c, since c, now),
           wait := k.wait.map fun (w : Wait) => match w.kind with
             | .stream c => { w with since := since c }
             | _ => w }

/-- A held cycle counts in STALLS of every stream that the word reads and whose group is not ready (R221). -/
def State.stall (s held : State) (codes : List Reg) : State :=
  let n := 4 * s.me.vl
  let late := codes.filter fun c => match vget none s.me.streams (c.toNat - 16) with
    | none => false
    | some st => s.nextGroup s.cur (c.toNat - 16) n st = .wait
  let count (t : State) (c : Reg) : State :=
    let i := c.toNat - 16
    match vget none s.me.streams i with
    | none => t
    | some st => s.lateGroup s.cur i n st (t.modStream s.cur i fun x => { x with stalls := Nat.min (x.stalls + 1) (2 ^ 24 - 1) })
  (late.foldl count held).modMe fun k => k.holdStreams (late.map (·.toNat)) s.cycle

/-- The vector operands of a word, in field order: a `v` register as it stands, a stream register popped once however
often it is named (R102, R170). An unreadable stream is illegal before any other is popped. -/
def State.vread (s : State) (codes : List Reg) : Except (State × Res) (State × List VReg) :=
  let names := (codes.filter fun r => r.toNat ≥ 16).eraseDups
  let unreadable (r : Reg) : Bool := match vget none s.me.streams (r.toNat - 16) with
    | none => true
    | some st => st.bank ≠ 0
  match names.find? unreadable with
  | some r => .error (s, .illegal 0x0107 (r.setWidth 64))
  | none =>
    match names.foldl
        (fun (r : Except (State × Res) (State × List (Reg × VReg))) c =>
          match r with
          | .error e => .error e
          | .ok (t, l) =>
            match s.readStream c, t.readStream c with
            | .error e, _ | _, .error e => .error e
            | .ok _, .ok (t, x) => .ok (t, l ++ [(c, x)]))
        (.ok (s, [])) with
    | .error (t, .hold u) => .error (t, .hold (s.stall u names))
    | .error e => .error e
    | .ok (t, l) =>
      .ok (t, codes.map fun r => if r.toNat < 16 then s.me.v r else ((l.find? (·.1 = r)).map (·.2)).getD 0)

/-! ### SBIND, SFREE, SSTAT -/

/-- SBIND's binding of a private stream, or of a subscriber. -/
def State.bind (s : State) (i bank : Nat) (shared : Option Nat) (d : StreamDesc) (badblk : Nat) (fail : Bool) : State :=
  s.modMe fun k => { k with streams := vset k.streams i (some ⟨d, Feed.fresh d, bank, shared, 0, 0, badblk, 0, fail, []⟩) }

/-- A subscription of a core's register, or of its matrix unit (`code = none`): an existing stream of the region and die with that
descriptor, or a new one (R225). None where SUBS subscribers have subscribed already. The binding core of a shared stream is its
first subscriber (DESIGN CHOICE, log 109). -/
def State.subscribe (s : State) (core : Nat) (code : Option Nat) (pa : Nat) (d : StreamDesc) : Option (State × Shared) :=
  let region := ((s.core core).region).getD 0
  match s.shared.find? fun x => x.region = region && x.die = dieOfCore core && x.descPa = pa with
  | some x =>
    if x.subs.length ≥ x.desc.subs then none
    else some (s.modShared x.id fun x => { x with subs := x.subs ++ [⟨core, code, some 0⟩] }, x)
  | none =>
    let x : Shared := ⟨s.nextShared, region, dieOfCore core, pa, d, Feed.fresh d, core, [⟨core, code, some 0⟩]⟩
    some ({ s with shared := s.shared ++ [x], nextShared := s.nextShared + 1 }, x)

/-- A shared stream that a descriptor's address already names (R225). -/
def State.sharedAt (s : State) (core pa : Nat) : Option Shared :=
  s.shared.find? fun x => x.region = ((s.core core).region).getD 0 && x.die = dieOfCore core && x.descPa = pa

/-- SBIND (R220, R225). A shared stream's descriptor is not read again. -/
def execSbind (lit : Option Word) (sr b : Reg) (u : BitVec 1) (kb : BitVec 2) (s : State) : Next :=
  let va := s.me.g b
  let i := sr.toNat - 16
  let sub : Bool := u = 1
  deliver 1 0 (.sbind lit sr b u kb) s
    (if (vget none s.me.streams i).isSome then .illegal 0x0107 (sr.setWidth 64)
     else if va.toNat % 8 ≠ 0 then .trap .afterIssue causeMisalign va
     else
       match s.xlateRange (s.rootOf s.cur) (cellOf s.cur) va.toNat 48 .read with
       | .error (c, a) => .trapIn (s.walked s.cur va 48) .afterIssue c (dw a)
       | .ok l =>
         let pa := (l.head?.map (·.1)).getD 0
         let known := if sub then s.sharedAt s.cur pa else none
         let (d, res) := match known with
           | some x => (x.desc, false)
           | none => StreamDesc.ofBytes (l.flatMap fun (k, m) => s.firingBytes s.cur k m)
         let t := s.walked s.cur va 48
         let t := if known.isSome then t
           else (t.windowLostN (s.fnOf s.cur) (windowHits l)).readDone s.cur (piecesDwords l)
         if res || d.bad sub then .trapIn t .atIssue 0x0311 va
         else
           if sub then
             match t.subscribe t.cur (some i) pa d with
             | none => .trapIn t .atIssue 0x0312 va
             | some (t, x) => .ok (t.bind i 0 (some x.id) d x.feed.bad.length x.feed.hdrErr)
           else .ok (t.bind i kb.toNat none d 0 false))

/-- SFREE (R222). -/
def execSfree (lit : Option Word) (sr : Reg) (s : State) : Next :=
  deliver 1 0 (.sfree lit sr) s (.ok (s.unbind s.cur (sr.toNat - 16)))

/-- Every byte of a stream has been delivered. -/
def State.streamDone (s : State) (core i : Nat) (st : Stream) : Bool :=
  match st.shared with
  | some id => match s.sharedOf id with
    | some x => (x.place core (some i)).isNone
    | none => true
  | none => (st.feed.theEnd st.desc).any (· ≤ st.pos)

/-- The state word of a stream register (R223). -/
def State.streamStat (s : State) (core i : Nat) : Dword :=
  match vget none (s.core core).streams i with
  | none => 0
  | some st =>
    dw (st.stalls * 2 ^ 40 + Nat.min st.badblk 255 * 2 ^ 32 + st.pops * 2 ^ 8 + b2n (s.streamDone core i st) * 32
      + b2n st.fail * 16 + st.bank * 4 + b2n st.shared.isSome * 2 + 1)

/-- SSTAT (R223). -/
def execSstat (lit : Option Word) (d sr : Reg) (s : State) : Next :=
  let i := Instr.sstat lit d sr
  deliver 1 0 i s (s.result 1 0 i 1 [.g d (s.streamStat s.cur (sr.toNat - 16))])

/-! ### Coded blocks (R227–R229) -/

/-- A block's header (R227). -/
structure BlockHdr where
  uncLen : Nat
  group : Nat
  lens : List Nat
  scaleOff : Nat
  codedLen : Nat
  blockLen : Nat
  crc : Nat
  ok : Bool
  deriving DecidableEq, Repr

/-- The header of 64 bytes and its checks (R227, R228, R231). -/
def BlockHdr.ofBytes (b : List Byte) : BlockHdr :=
  let at8 (i : Nat) : Nat := leNat ((b.drop (8 * i)).take 8)
  let unc := bitsOf (at8 0) 63 32
  let g := 32 * 2 ^ bitsOf (at8 0) 17 16
  let lens := (List.range 16).map fun i => bitsOf (at8 1) (4 * i + 3) (4 * i)
  let so := bitsOf (at8 2) 63 32
  let cl := bitsOf (at8 2) 31 0
  let bl := bitsOf (at8 3) 63 32
  let kraft := lens.foldl (fun n l => if l = 0 then n else n + 2 ^ (15 - l)) 0
  { uncLen := unc, group := g, lens := lens, scaleOff := so, codedLen := cl, blockLen := bl, crc := bitsOf (at8 3) 31 0,
    ok := bitsOf (at8 0) 15 0 = 1 && bitsOf (at8 0) 31 18 = 0 && (List.range 4).all (fun i => at8 (4 + i) = 0)
      && unc ≠ 0 && unc % (g / 2) = 0 && so % 4 = 0 && so ≥ 64 + cl && bl % 64 = 0
      && bl ≥ so + 4 * (unc / (g / 2)) && kraft ≤ 2 ^ 15 && lens.any (· ≠ 0) }

/-- The canonical code (R228): length, value and symbol of each code. -/
def blockCodes (lens : List Nat) : List (Nat × Nat × Nat) :=
  ((List.range 15).foldl
    (fun (acc : Nat × List (Nat × Nat × Nat)) i =>
      let len := i + 1
      let (code, l) := (lens.zipIdx).foldl
        (fun (a : Nat × List (Nat × Nat × Nat)) (cl, sym) =>
          if cl = len then (a.1 + 1, a.2 ++ [(len, a.1, sym)]) else a)
        acc
      (code * 2, l))
    (0, [])).2

/-- One symbol from the bits: the symbol and the bits left, or none where no code matches within 15 bits or the bits
run out. -/
def takeSym (codes : List (Nat × Nat × Nat)) : Nat → Nat → Nat → List Bool → Option (Nat × List Bool)
  | 0, _, _, _ => none
  | _ + 1, _, _, [] => none
  | fuel + 1, len, val, b :: t =>
    let len := len + 1
    let val := 2 * val + b2n b
    match codes.find? fun (l, v, _) => l = len && v = val with
    | some (_, _, sym) => some (sym, t)
    | none => takeSym codes fuel len val t

/-- `n` symbols. -/
def takeSyms (codes : List (Nat × Nat × Nat)) : Nat → List Bool → Option (List Nat)
  | 0, _ => some []
  | n + 1, bits =>
    match takeSym codes 15 0 0 bits with
    | none => none
    | some (x, t) => (takeSyms codes n t).map (x :: ·)

/-- The bits of a bitstream, bit 7 of each byte first. -/
def bitStream (l : List Byte) : List Bool := l.flatMap fun b => (List.range 8).map fun i => b.getLsbD (7 - i)

/-- The payload: two symbols to a byte (R49). -/
def packNibbles : List Nat → List Byte
  | a :: b :: t => BitVec.ofNat 8 (a + 16 * b) :: packNibbles t
  | _ => []

/-- The elements of a decoded block in FP32 (R229). -/
def dequantBlock (g : Nat) (syms recs : List Nat) : List Byte :=
  (syms.zipIdx).flatMap fun (q, i) =>
    let r := recs.getD (i / g) 0
    leBytes 4 (dequant q (r % 2 ^ 16) (bitsOf r 19 16))

/-- A block's output for a stream of TYPE `typ`, or zeros with the kind of its failure: 1 checksum, 2 decode (R229,
R230). -/
def BlockHdr.output (h : BlockHdr) (typ : Nat) (coded table : List Byte) : List Byte × Option Nat :=
  let groups := h.uncLen / (h.group / 2)
  let len := if typ = 1 then h.uncLen + 4 * groups else 8 * h.uncLen
  match takeSyms (blockCodes h.lens) (2 * h.uncLen) (bitStream coded) with
  | none => (List.replicate len 0, some 2)
  | some syms =>
    let pay := packNibbles syms
    if crc32c pay ≠ h.crc then (List.replicate len 0, some 1)
    else if typ = 1 then (pay ++ table.take (4 * groups), none)
    else (dequantBlock h.group syms ((List.range groups).map fun i => leNat ((table.drop (4 * i)).take 4)), none)

/-! ### Fetching ahead (R221, R226) -/

/-- Bytes read by the stream unit of a core at a virtual address: their pieces, or the fault. They are no loads of the firing: they
take the visible lines of a speculation window (DEDUCED, log 83). -/
def State.unitRead (s : State) (core root va n : Nat) : Except (Nat × Dword) (State × List Byte × Nat) :=
  match s.xlateRange root (cellOf core) va n .read with
  | .error (c, a) => .error (c, dw a)
  | .ok l =>
    let bytes := l.flatMap fun (k, m) => (List.range m).map fun i => s.coreByte core (k + i)
    let t := s.noteRange root (cellOf core) va n
    let t := (t.windowLostN (s.fnOf core) (windowHits l)).readDone core (piecesDwords l)
    .ok (t, bytes, (l.head?.map (·.1)).getD 0)

/-- The elements of a plain stream up to the next multiple of 64 bytes of the sequence. -/
def State.fetchPlain (s : State) (core root : Nat) (d : StreamDesc) (f : Feed) : State × Feed :=
  let b := typeBytes d.typ
  let n := Nat.min (64 - f.next % 64) (d.total - f.next)
  (List.range (n / b)).foldl
    (fun (t, f) _ =>
      if f.fault.isSome then (t, f)
      else
        match t.unitRead core root (d.addr (f.next / b) 0).toNat b with
        | .error e => (t, { f with fault := some e })
        | .ok (t, l, _) => (t, { f with buf := f.buf ++ l }))
    (s, f)

/-- One coded block fetched, decoded and delivered, with its failure counted (R230); or a header error (R231); or the
fault of its fetch. -/
def State.fetchBlock (s : State) (core root : Nat) (d : StreamDesc) (f : Feed) : State × Feed :=
  match s.unitRead core root f.blockAddr.toNat 64 with
  | .error e => (s, { f with fault := some e })
  | .ok (t, l, key) =>
    let h := BlockHdr.ofBytes l
    let stack := decompStack core key
    if !h.ok then (t.bump 7 stack 1, { f with hdrErr := true })
    else
      let base := f.blockAddr.toNat
      match t.unitRead core root ((base + 64) % 2 ^ 64) h.codedLen with
      | .error e => (t, { f with fault := some e })
      | .ok (t, coded, _) =>
        match t.unitRead core root ((base + h.scaleOff) % 2 ^ 64) (4 * (h.uncLen / (h.group / 2))) with
        | .error e => (t, { f with fault := some e })
        | .ok (t, table, _) =>
          let (out, bad) := h.output d.typ coded table
          let next := f.block + 1
          let t := if bad.isSome then t.bump 7 stack 0 else t
          (t, { f with
            buf := f.buf ++ out, block := next, blocks := f.blocks ++ [(f.next, h.uncLen, h.group, f.blockAddr)],
            blockAddr := if next % d.count 0 = 0 then d.addr next 1
              else if d.stride 0 ≠ 0 then f.blockAddr + d.stride 0 else f.blockAddr + dw h.blockLen,
            bad := match bad with
              | some kind => f.bad ++ [(f.block, kind, f.next, f.next + out.length)]
              | none => f.bad })

/-- There is more to fetch, and no fault or header error stops it. -/
def Feed.open (f : Feed) (d : StreamDesc) : Bool :=
  f.fault.isNone && !f.hdrErr && (if d.decomp then f.block < d.items else f.next < d.total)

/-- A fetch is due: a private stream within 2 KiB of its pops, a shared one within its window. -/
def Stream.wants (st : Stream) : Bool := st.shared.isNone && st.feed.open st.desc && st.feed.next < st.pos + 2048
def Shared.wants (x : Shared) : Bool := x.feed.open x.desc && x.feed.next / 64 < x.slowest / 64 + x.desc.win

/-- Failures and header errors become visible in the registers bound to a stream. -/
def State.spread (s : State) (id n : Nat) (fail : Bool) : State :=
  let mark (o : Option Stream) : Option Stream :=
    o.map fun st => if st.shared = some id then { st with badblk := n, fail := st.fail || fail } else st
  { s with cores := s.cores.map fun (c, (k : Core)) => (c, { k with streams := k.streams.map mark }) }

/-- One fetch of a stream: register `strm` of a core, or from 8 on the shared stream `strm − 8`; none where it has none
to make. `coded` says which of the two events asks. -/
def State.fetch (s : State) (core strm : Nat) (coded : Bool) : Option State :=
  let go (t : State) (c root : Nat) (d : StreamDesc) (f : Feed) : State × Feed :=
    if coded then t.fetchBlock c root d f else t.fetchPlain c root d f
  if strm < 8 then
    match vget none (s.core core).streams strm with
    | none => none
    | some st =>
      if !st.wants || st.desc.decomp != coded then none
      else
        let (t, f) := go s core (s.rootOf core) st.desc st.feed
        some (t.modStream core strm fun x =>
          { x with feed := f, badblk := Nat.max x.badblk f.bad.length, fail := x.fail || f.hdrErr })
  else
    match s.sharedOf (strm - 8) with
    | none => none
    | some x =>
      if x.core ≠ core || !x.wants || x.desc.decomp != coded then none
      else
        let root := ((s.region x.region).map (·.root)).getD 0
        let (t, f) := go s x.core root x.desc x.feed
        some ((t.modShared x.id fun y => { y with feed := f }).spread x.id f.bad.length f.hdrErr)

/-- The event happened, or the state has no such event (DEDUCED, log 75). -/
def event (o : Option State) : Next :=
  match o with
  | some s => .next s
  | none => .fault .notEnabled

/-- STREAM_PREFETCH (R221): The stream unit or distributor fetches sequence bytes ahead of the pops. -/
def execStreamPrefetch (core strm : Nat) (s : State) : Next := event (s.fetch core strm false)
/-- DECOMP_BLOCK (R230): A decompressor finishes a coded block and delivers it, or zeros after a failed check. -/
def execDecompBlock (core strm : Nat) (s : State) : Next := event (s.fetch core strm true)

/-! ### Expiry of a bounded wait at issue (R122) -/

/-- The bounded wait of a core has expired. -/
def State.expired (s : State) (core : Nat) : Option Wait :=
  match (s.core core).wait with
  | some w => if s.cycle + 1 ≥ w.since + w.limit then some w else none
  | none => none

/-- The trap that a core's expired wait takes at issue (R397), at word 1 or 2 of its pair. -/
def State.waitTrap (s : State) (core word cause : Nat) (val : Dword) : State :=
  let k := s.core core
  let t := s.setCore core
    { k with wait := none, faults := k.faults ++ [⟨.atIssue, cause, val, k.issued word 0 (if word = 1 then .nopA else .nopB)⟩] }
  if k.settled then t.takeFirst core else t

/-- A wait of one of the given kinds expires. -/
def State.expire (s : State) (core word cause : Nat) (is : WaitKind → Bool) : Option State :=
  match s.expired core with
  | some w => if is w.kind then some (s.waitTrap core word cause w.val) else none
  | none => none

/-- A stream register whose held read has reached STO, while the core still waits with it. -/
def Core.streamExpired (k : Core) (now : Nat) : Option Nat :=
  if k.wait.isNone then none
  else (k.held.find? fun (_, since, last) => now ≤ last + 1 && now + 1 ≥ since + k.sto).map (·.1)

/-- A read of an empty stream register exceeds STO (R122). -/
def execStreamWait (core : Nat) (s : State) : Next :=
  event (((s.core core).streamExpired s.cycle).map fun c => s.waitTrap core 2 0x0301 (dw c))

end Sys2Proof.Machine
end

