-- ==== Sys2Proof/Machine/Copy.lean ====
section
/-! DEFINITION. The copy engine (R233–R241): XPUSH, XTRY, XSTAT, the copy itself and its completion action, which a matrix
MSIG performs as well (R257). -/

namespace Sys2Proof.Machine

/-! ### Requests -/

def CopyReq.kind (q : CopyReq) : Nat := bitsOf q.ctl.toNat 35 34
def CopyReq.scope (q : CopyReq) : Nat := bitsOf q.ctl.toNat 39 36
def CopyReq.tag (q : CopyReq) : Nat := bitsOf q.ctl.toNat 63 48

/-- The checks of R235 on a request's third and fourth registers. Bits 63:32 of TARGET with KIND 1 are not among them and are
ignored (DESIGN CHOICE, log 110). -/
def copyBad (ctl target : Dword) : Bool :=
  let c := ctl.toNat
  bitsOf c 47 40 ≠ 0 || bitsOf c 33 32 = 3 || bitsOf c 39 36 > 8 || (bitsOf c 39 36 ≠ 0 && bitsOf c 35 34 ≠ 3)
    || (target ≠ 0 && bitsOf c 35 34 = 0)

/-- A request appended to the core's FIFO. -/
def State.pushCopy (s : State) (a : Reg) (flag : Dword) : State :=
  let k := s.me
  let q : CopyReq :=
    { src := k.g a, dst := k.g (a + 1), ctl := k.g (a + 2), target := k.g (a + 3), flag := flag.setWidth 32,
      cls := s.classOf s.cur, region := k.region.getD 0, moved := 0, again := none, done := none, mine := true, unbanked := false }
  s.modMe fun k =>
    { k with copies := k.copies ++ [q], copyDue := if k.copies.isEmpty then s.cycle + q.cycles else k.copyDue }

/-- The checks that XPUSH and XTRY share, before the effect `r`. -/
def State.copyChecked (s : State) (a : Reg) (r : Res) : Res :=
  if a = 0 || a.toNat > 28 then .illegal 0x0108 (a.setWidth 64)
  else if copyBad (s.me.g (a + 2)) (s.me.g (a + 3)) then .illegal 0x0108 (s.me.g (a + 2))
  else s.unlessSpec r

/-- XPUSH (R235). -/
def execXpush (lit : Option Word) (a c : Reg) (s : State) : Next :=
  deliver 1 0 (.xpush lit a c) s
    (s.copyChecked a
      (if s.me.copies.length ≥ 16 then .hold (s.modMe fun k => k.hold .copyFifo s.cycle k.wlim 0)
       else .ok (s.pushCopy a (rcValue s.me lit c))))

/-- XTRY (R235). -/
def execXtry (lit : Option Word) (a d c : Reg) (s : State) : Next :=
  let i := Instr.xtry lit a d c
  deliver 1 0 i s
    (s.copyChecked a
      (if s.me.copies.length ≥ 16 then s.result 1 0 i 1 [.g d 1]
       else (s.pushCopy a (rcValue s.me lit c)).result 1 0 i 1 [.g d 0]))

/-- XSTAT (R240). -/
def Core.copyStat (k : Core) : Dword :=
  let inBank (b : Nat) : Nat := (k.copies.filter fun q => q.bank = b).length
  dw (k.copyDone.toNat * 2 ^ 32 + k.copyErr % 256 * 2 ^ 24 + k.copies.length * 2 ^ 16 + inBank 1 * 2 ^ 8 + inBank 2)
/-- XSTAT (R240): Writes the core's copy-engine state to gd. -/
def execXstat (lit : Option Word) (d : Reg) (s : State) : Next :=
  let i := Instr.xstat lit d
  deliver 1 0 i s (s.result 1 0 i 1 [.g d s.me.copyStat])

/-! ### The payload -/

/-- The code of a fault on the source or the destination (R239). -/
def copyCode (dst : Bool) (cause : Nat) : Nat :=
  if cause = causeUnreach then 4 else if cause = causeProtect then 3 else if dst then 2 else 1

/-- The lowest fault of both sides: its code and offset; the source's where they are equal. -/
def copyFault (src dst : Option (Nat × Nat)) : Option (Nat × Nat) :=
  match src, dst with
  | some (c, o), some (d, p) => if o ≤ p then some (copyCode false c, o) else some (copyCode true d, p)
  | some (c, o), none => some (copyCode false c, o)
  | none, some (d, p) => some (copyCode true d, p)
  | none, none => none

/-- Bytes moved as they are. Every byte is read before any is written; the source is read as the core reads it, and what the
copy writes comes after the core's own writes (R236). An uncorrectable source byte is written as zero and the copy ends with
code 6. -/
def State.moveRaw (s : State) (core : Nat) (src dst : List (Nat × Nat)) : State × Nat :=
  let bytes := src.flatMap fun (k, m) => (List.range m).map fun i => s.coreByte core (k + i)
  let ds := piecesDwords src
  let code := if (s.badOf ds).isSome then 6 else 0
  let t := s.windowLostN (s.fnOf core) (windowHits src + windowHits dst)
  (((t.readDone core ds).flushPieces core dst).writePieces dst bytes, code)

/-- A converting copy whose extents stand in one bank each (R55, R56, R236): the state and the code. It ends with code 5 too
where LEN is no whole number of source elements (DESIGN CHOICE, log 96). -/
def State.convertCopy (s : State) (core sk dk n : Nat) (f g : BankFmt) : State × Nat :=
  let so := sk % bankSize
  let d0 := dk % bankSize
  if n * 8 % f.bits ≠ 0 then (s, 5)
  else
    let cnt := n * 8 / f.bits
    match f.extent so cnt, g.extent d0 cnt with
    | some e, some e' =>
      let base := bankBase sk
      let off := if f.isQ then e * f.bits / 8 else so
      let ds := f.elemDwords base off cnt
      let s := (s.flushDwords core ds).flushDwords core
        (g.elemDwords (bankBase dk) (if g.isQ then e' * g.bits / 8 else d0) cnt)
      let vals := s.elemVals f base off cnt
      let code := if (s.badOf ds).isSome then 6 else 0
      let t := s.readDone core ds
      (if g.isQ then t.putGroups g (bankBase dk) cnt e' vals else t.putVals g (bankBase dk) d0 vals, code)
    | _, _ => (s, 5)

/-- The payload of a request (R236), or of what is left of it: the state, the code, and the bytes moved; all of it in one step, in
the formats of the banks as they stand (R52) (DEDUCED, log 24). Its translations leave nothing in the cell's cache (DESIGN CHOICE,
log 10). -/
def State.copyPayload (s : State) (core : Nat) (q : CopyReq) : State × Nat × Nat :=
  let root := ((s.region q.region).map (·.root)).getD 0
  let cell := cellOf core
  if q.len = 0 then (s, 0, 0)
  else
    let (sp, sf) := s.extent root cell q.src.toNat q.len .read
    let (dp, df) := s.extent root cell q.dst.toNat q.len .write
    let plain (_ : Unit) : State × Nat × Nat :=
      let stop := (copyFault sf df).map (·.2) |>.getD q.len
      let (t, code) := s.moveRaw core (takePieces sp stop) (takePieces dp stop)
      match copyFault sf df with
      | some (c, o) => (t, c, o)
      | none => (t, code, q.len)
    match sp, dp with
    | (sk, _) :: _, (dk, _) :: _ =>
      let f := s.bankFmt cell sk
      let g := s.bankFmt cell dk
      if s.converts cell sk dk then
        let dn := q.len * 8 / f.bits * g.bits / 8
        match copyFault sf (s.extent root cell q.dst.toNat dn .write).2 with
        | some (c, _) => (s, c, 0)
        | none =>
          let (t, code) := s.convertCopy core sk dk q.len f g
          (t, code, if code = 5 then 0 else q.len)
      else plain ()
    | _, _ => plain ()

/-! ### Completion actions (R237, R238) -/

/-- The home of a codelet counter, or the cause that DEPDEC meets (R334). -/
def State.depKey (s : State) (root cell : Nat) (va : Dword) : Except Nat Nat :=
  if va.toNat % 64 ≠ 0 then .error causeMisalign
  else
    match s.xlate root cell va.toNat .write with
    | .error c => .error c
    | .ok k => if spaceOf k = 1 || (spaceOf k = 3 && bitsOf k 46 45 = 1) then .ok k else .error causeUnreach

/-- The completion action of a copy or of MSIG, made by an engine of core `core` for a region: none where its target
faults. The payload's writes are performed already (R314), and so is what the core wrote to the target before (R311). -/
def State.complete (s : State) (core region kind : Nat) (target : Dword) (flag : Word) (tag cls : Nat) (pay : Dword) :
    Option State :=
  let root := ((s.region region).map (·.root)).getD 0
  match kind with
  | 0 => some s
  | 1 => some (s.post (Msg.from core region (header 9 cls 1 tag (s.tag core 0)) [pay] (bitsOf target.toNat 31 0)))
  | 2 =>
    match s.depKey root (cellOf core) target with
    | .error _ => none
    | .ok k => let t := s.flushAt core k 8
      some { t with depOps := t.depOps ++ [⟨k, 0, 0, s.tag core 0, cls, region, 1, none, t.nextWrite⟩] }
  | _ =>
    if target.toNat % 4 ≠ 0 then none
    else
      match s.xlate root (cellOf core) target.toNat .write with
      | .error _ => none
      | .ok k => some (if isWindow k then s.windowLost (s.fnOf core) else (s.flushAt core k 4).engineWrite k (leBytes 4 flag.toNat))

/-- The bytes of the source, and the elements, that the steps of a converting copy between two formats move: whole groups of
either side (R52, R416). -/
def groupStep (f g : BankFmt) : Nat × Nat :=
  let n := Nat.max (if f.isQ then f.g else 1) (if g.isQ then g.g else 1)
  let n := if n * f.bits % 8 = 0 then n else 2 * n
  (n * f.bits / 8, n)

/-- The places of the first bytes of a copy, where both translate. -/
def State.copyEnds (s : State) (c : Nat) (q : CopyReq) : Option (Nat × Nat) :=
  let root := ((s.region q.region).map (·.root)).getD 0
  match s.xlate root (cellOf c) q.src.toNat .read, s.xlate root (cellOf c) q.dst.toNat .write with
  | .ok a, .ok b => some (a, b)
  | _, _ => none

/-- Two lists of pieces share a byte. -/
def overlaps (a b : List (Nat × Nat)) : Bool := a.any fun (k, m) => b.any fun (l, n) => k < l + n && l < k + m

/-- The first `n` bytes of a raw copy's destination are none of the bytes that its rest still reads, which stand as they were
before the copy wrote anything (R236). -/
def State.restUntouched (s : State) (c : Nat) (q : CopyReq) (n : Nat) : Bool :=
  let root := ((s.region q.region).map (·.root)).getD 0
  let (dp, _) := s.extent root (cellOf c) q.dst.toNat n .write
  let (sp, _) := s.extent root (cellOf c) (q.src.toNat + n) (q.len - n) .read
  !overlaps dp sp

/-- The copy at the head of a FIFO has moved what lies before a 64-byte boundary, or before a group boundary of a converting
copy: at which one is a free value. The rest is still to be moved (R52, R416). A converting copy that will write nothing (R56) has
moved nothing, and neither has a raw one whose rest reads what the part would overwrite (R236). -/
def State.cutCopy (s : State) (c : Nat) : State :=
  match (s.core c).copies with
  | [] => s
  | q :: rest =>
    if q.done.isSome then s
    else
      let left := q.rest
      let plain : Nat × (Nat → Nat × Nat) × (Nat → Bool) := (64, fun j => (64 * j, 64 * j), fun j => s.restUntouched c left (64 * j))
      let (unit, after, may) : Nat × (Nat → Nat × Nat) × (Nat → Bool) :=
        match s.copyEnds c left with
        | some (a, b) =>
          if s.converts (cellOf c) a b then
            let f := s.bankFmt (cellOf c) a
            let g := s.bankFmt (cellOf c) b
            let (m, n) := groupStep f g
            let code := (s.copyPayload c left).2.1
            (m, fun j => (f.offAfter (a % bankSize) (j * n) - a % bankSize, g.offAfter (b % bankSize) (j * n) - b % bankSize),
              fun _ => code = 0 || code = 6)
          else plain
        | none => plain
      let j := (Config.openWord s.free 0).toNat % (left.len / unit + 1)
      let s := { s with free := s.free + 1 }
      let part := { left with ctl := dw (setBits left.ctl.toNat 31 0 (j * unit)) }
      let (t, again) := if j = 0 || !may j then (s, q.again) else match s.copyPayload c part with
        | (t, 0, _) => (t, some (left.src + dw (after j).1, left.dst + dw (after j).2))
        | _ => (s, q.again)
      let moved := if again = q.again then q.moved else q.moved + j * unit
      t.modCore c fun k => { k with copies := { q with moved := moved, again := again } :: rest }

/-- The copy at the head of a core's FIFO is under way and converts from or into the bank that begins at `base`. -/
def State.convertsIn (s : State) (c base : Nat) : Bool :=
  match (s.core c).copies with
  | [] => false
  | q :: _ => q.done.isNone && match s.copyEnds c q.rest with
    | some (a, b) => s.converts (cellOf c) a b && (bankBase a = base || bankBase b = base)
    | none => false

/-- The format of a bank is about to change: of each copy that converts there, a free part has been moved in the old one, group by
group (R52) (DEDUCED, log 24). -/
def State.cutCopies (s : State) (base : Nat) : State :=
  (s.cores.map (·.1)).foldl (fun t c => if t.convertsIn c base then t.cutCopy c else t) s

/-- The head request leaves the FIFO with its code (R236, R240). -/
def Core.retireCopy (k : Core) (code now : Nat) : Core :=
  let rest := k.copies.drop 1
  { k with copies := rest, copyDone := k.copyDone + 1, copyErr := if code ≠ 0 then code else k.copyErr,
           copyDue := match rest with
             | q :: _ => now + q.cycles
             | [] => 0 }

/-- The completion action of the head request, performed, and the request gone (R237). -/
def State.finishCopy (s : State) (core : Nat) (q : CopyReq) (code moved : Nat) : State :=
  let pay := dw (moved % 2 ^ 32 * 2 ^ 32 + code % 256)
  match s.complete core q.region q.kind q.target q.flag q.tag q.cls pay with
  | some t => t.modCore core fun k => k.retireCopy code s.cycle
  | none => s.modCore core fun k => k.retireCopy 7 s.cycle

/-- The head of a core's FIFO moves its payload, or performs an action that waited for SELB (R236, R241). -/
def State.copyStep (s : State) (core : Nat) : Option State :=
  match (s.core core).copies with
  | [] => none
  | q :: rest =>
    match q.done with
    | some (code, moved) => if q.bank = 0 then some (s.finishCopy core q code moved) else none
    | none =>
      if (s.core core).copyDue > s.cycle + 1 then none
      else
        let (t, code, more) := s.copyPayload core q.rest
        let moved := q.moved + more
        if q.bank = 0 then some (t.finishCopy core q code moved)
        else some (t.modCore core fun k => { k with copies := { q with done := some (code, moved), moved := moved } :: rest })

/-- COPY_COMPLETION (R237): A copy finishes or faults and its completion action is performed. -/
def execCopyCompletion (core : Nat) (s : State) : Next := event (s.copyStep core)

/-- An XPUSH held on a full FIFO exceeds WLIM (R122). -/
def execCopyFull (core : Nat) (s : State) : Next :=
  event (s.expire core 1 0x0302 fun
    | .copyFifo => true
    | _ => false)

end Sys2Proof.Machine
end

