-- ==== Sys2Proof/Machine/Channels.lean ====
section
/-! DEFINITION. Messages and channels (R317–R340): SEND, SENDV, RECV, PEEK, the entry instructions, WAITW, ARMW, DEPDEC and
DEPSET; the arrival and the resending of messages; codelet counters at their home. -/

namespace Sys2Proof.Machine

/-! ### Sending -/

/-- An outgoing slot for one message of core `c`'s firing (R325): one reserved at its start, or an extra one, which needs
a free slot and a grant. -/
def State.takeSlot (s : State) (c : Nat) : Option State :=
  let k := s.core c
  if k.fir.prodLeft > 0 then some (s.modCore c fun k => { k with fir := { k.fir with prodLeft := k.fir.prodLeft - 1 } })
  else
    let r := k.region.getD 0
    if s.outUsed c < 32 && s.fits r .msgs 1 then some (s.charge r .msgs 1) else none

/-- The control value of SEND and SENDV (R323) breaks its layout. -/
def sendBad (ctl : Dword) (vector : Bool) : Bool :=
  let n := ctl.toNat
  bitsOf n 63 42 ≠ 0 || bitsOf n 31 30 ≠ 0 || bitsOf n 24 22 ≠ 0 || bitsOf n 28 25 > 8
    || (bitsOf n 28 25 ≠ 0 && !bitOf n 29) || (!vector && bitsOf n 41 35 ≠ 0)

/-- A message of TYPE 0 or 1 given to the network (R324, R326): a release waits for the writes that it carries. -/
def State.sendMsg (s : State) (typ : Nat) (ctl gt : Dword) (pay : List Dword) : State :=
  let n := ctl.toNat
  let rel := if bitOf n 29 then some (bitsOf n 28 25) else none
  let region := s.me.region.getD 0
  let hdr := header typ (s.classOf s.cur) pay.length (bitsOf n 15 0) (s.tag s.cur (bitsOf n 21 16))
  let t := if rel.isSome then s.flush s.cur else s
  t.post { Msg.from s.cur region hdr pay gt.toNat with slot := true, charged := true, rel := rel }

/-- The checks of R323 and R325 before a send's effect: `r` gets the state with the slot taken. -/
def State.sendChecked (s : State) (ctl gt : Dword) (bad : Bool) (r : State → Res) : Res :=
  if bad then .illegal 0x0108 ctl
  else if gt.toNat / 2 ^ 32 ≠ 0 then .illegal 0x0108 gt
  else s.unlessSpec
    (match s.takeSlot s.cur with
     | none => .trap .atIssue 0x0316 gt
     | some t => r t)

/-- SEND (R322–R326). -/
def execSend (lit : Option Word) (t a : Reg) (e : BitVec 4) (c : Reg) (s : State) : Next :=
  let ctl := rcValue s.me lit c
  let gt := s.me.g t
  let n := bitsOf ctl.toNat 34 32 + 1
  deliver 1 e.toNat (.send lit t a e c) s
    (s.sendChecked ctl gt (sendBad ctl false || a.toNat + n > 32) fun u =>
      .ok (u.sendMsg 0 ctl gt ((List.range n).map fun i => s.me.g (BitVec.ofNat 5 (a.toNat + i)))))

/-- Doublewords of bytes. -/
def dwordList (n : Nat) (b : List Byte) : List Dword := (List.range n).map fun i => dw (leNat ((b.drop (8 * i)).take 8))

/-- SENDV (R322–R326): the payload is read at issue. -/
def execSendv (lit : Option Word) (t sr : Reg) (e : BitVec 4) (c : Reg) (s : State) : Next :=
  let ctl := rcValue s.me lit c
  let gt := s.me.g t
  let va := s.me.g sr
  let n := bitsOf ctl.toNat 41 32
  deliver 1 e.toNat (.sendv lit t sr e c) s
    (s.sendChecked ctl gt (sendBad ctl true) fun u =>
      if va.toNat % 8 ≠ 0 then .trap .afterIssue causeMisalign va
      else if n = 0 then .ok (u.sendMsg 1 ctl gt [])
      else match s.xlateRange (s.rootOf s.cur) (cellOf s.cur) va.toNat (8 * n) .read with
        | .error (e, a) => .trapIn (s.walked s.cur va (8 * n)) .afterIssue e (dw a)
        | .ok l =>
          let b := l.flatMap fun (k, m) => s.firingBytes s.cur k m
          let u := u.noteRange (s.rootOf s.cur) (cellOf s.cur) va.toNat (8 * n)
          let u := (u.windowLostN (s.fnOf s.cur) (windowHits l)).readDone s.cur (piecesDwords l)
          .ok (u.sendMsg 1 ctl gt (dwordList n b)))

/-! ### Receiving (R327) -/

/-- The cell-window address of a record of a core (R317). -/
def recAddr (core off : Nat) : Dword := dw (areaBase core + off)

/-- A record becomes held by the running firing: it leaves its queue, and the count of its channel falls. -/
def Core.holdRec (k : Core) (r : AreaRec) : Core :=
  let take (x : AreaRec) : AreaRec := if x.off = r.off && x.st = .queued then { x with st := .held } else x
  { k with recs := k.recs.map take, fir := { k.fir with held := k.fir.held ++ [(r.off, r.ch)] } }

/-- RECV's effect on channel `ch`: the value for gd and the core after it. -/
def Core.recv (k : Core) (core ch now : Nat) : Dword × Core :=
  match (k.queued ch).head? with
  | none => (0, k)
  | some r =>
    if k.fir.held.length ≥ 64 then (1, k)
    else (recAddr core r.off, ((k.holdRec r).setCount ch (k.count ch - 1)).repend ch now)

/-- A channel operand of RECV and PEEK that is illegal. -/
def chanBad (v : Dword) : Bool := v.toNat / 64 ≠ 0 || (1 ≤ v.toNat && v.toNat ≤ 3)

/-- RECV (R327): Consumes the oldest unconsumed message of a channel and writes its address. -/
def execRecv (lit : Option Word) (d : Reg) (e : BitVec 4) (c : Reg) (s : State) : Next :=
  let i := Instr.recv lit d e c
  let v := rcValue s.me lit c
  let (x, k) := s.me.recv s.cur v.toNat s.cycle
  deliver 1 e.toNat i s (if chanBad v then .illegal 0x0108 v else (s.modMe fun _ => k).result 1 e.toNat i 3 [.g d x])
/-- PEEK (R327): Writes the address of the oldest unconsumed message of a channel without consuming it. -/
def execPeek (lit : Option Word) (d : Reg) (e : BitVec 4) (c : Reg) (s : State) : Next :=
  let i := Instr.peek lit d e c
  let v := rcValue s.me lit c
  deliver 1 e.toNat i s
    (if chanBad v then .illegal 0x0108 v
     else s.result 1 e.toNat i 3
       [.g d (((s.me.queued v.toNat).head?.map fun r => recAddr s.cur r.off).getD 0)])

/-! ### Entry control (R328) -/

/-- The state of an entry as CHEN, CHDIS and CHPND write it to gd. -/
def Core.entryState (k : Core) (e : Entry) : Dword :=
  dw ((if e.hasSlot then k.count e.key else 0) % 2 ^ 32 * 2 ^ 32 + b2n e.pend * 2 + b2n e.en)

/-- One of the three entry instructions: `f` gives the entry's new EN and PEND. -/
def State.entryOp (s : State) (i : Instr) (d a : Reg) (f : Entry → Bool × Bool) : Next :=
  let v := s.me.g a
  let e := s.me.entry v.toNat
  let (en, pend) := f e
  deliver 1 0 i s
    (if v.toNat / 64 ≠ 0 then .illegal 0x0108 v
     else (s.modMe fun k => k.setEntry v.toNat (e.setFlags en pend s.cycle)).result 1 0 i 1 [.g d (s.me.entryState e)])

/-- CHEN (R328): Enables a handler entry and sets PEND if its rates are met. -/
def execChen (lit : Option Word) (d a : Reg) (s : State) : Next :=
  s.entryOp (.chen lit d a) d a fun e => (true, e.pend || (e.hasSlot && s.me.met e))
/-- CHDIS (R328): Disables a handler entry. -/
def execChdis (lit : Option Word) (d a : Reg) (s : State) : Next := s.entryOp (.chdis lit d a) d a fun e => (false, e.pend)
/-- CHPND (R328): Clears, sets or reads a handler entry's PEND. -/
def execChpnd (lit : Option Word) (d a : Reg) (m : BitVec 2) (s : State) : Next :=
  s.entryOp (.chpnd lit d a m) d a fun e => (e.en, if m = 0 then false else if m = 1 then true else e.pend)

/-! ### WAITW (R329, R330) -/

/-- WAITW (R330): the read that finds the condition is an acquire. It waits as a pending result, whose reply comes when the condition holds (DEDUCED, log 21). -/
def execWaitw (lit : Option Word) (a b : Reg) (c : BitVec 4) (sc : BitVec 4) (kd : BitVec 2) (s : State) : Next :=
  let i := Instr.waitw lit a b c sc kd
  let va := s.me.g b
  let limit := (s.me.g a).toNat
  deliver 1 c.toNat i s
    (if limit ≥ 2 ^ 32 then .illegal 0x0108 (s.me.g a)
     else if va.toNat % 8 ≠ 0 then .trap .afterIssue causeMisalign va
     else match s.xlate (s.rootOf s.cur) (cellOf s.cur) va.toNat .read with
       | .error e => .trapIn (s.noteWalk (s.rootOf s.cur) (cellOf s.cur) va.toNat) .afterIssue e va
       | .ok key =>
         if spaceOf key = 4 then .trapIn (s.walked s.cur va) .afterIssue causeUnreach va
         else
           let w := s.waitwRead s.cur key
           let met := waitwMet kd w
           let t := (s.noteWalk (s.rootOf s.cur) (cellOf s.cur) va.toNat).windowLostN (s.fnOf s.cur) (windowHits [(key, 8)])
           let t := t.readDone s.cur [key]
           let t := if met then t.acquire s.cur sc.toNat (·.overlapsAt key 8) else t
           if !met && limit = 0 then .trapIn t .afterIssue 0x0303 (dw w)
           else
             .core t fun k => k.addPend
               { who := k.issued 1 c.toNat i, kind := .reply, writes := [.g a (dw w)], flags := 0, fp := false, acq := true,
                 issued := s.cycle, due := if met then s.cycle + latencyOf s.cur key else s.cycle + limit, va := va,
                 dwords := [key], fault := none, ready := met, lost := false })

/-- WAITW's limit passes without the condition (R330): a trap after issue. -/
def execWaitwLimit (core : Nat) (s : State) : Next :=
  let due (p : Pend) : Bool := match p.waits with
    | some (_, kd, key) => p.due ≤ s.cycle + 1 && !waitwMet kd (s.waitwRead core key)
    | none => false
  event
    (match (s.core core).pend.find? due with
     | none => none
     | some p =>
       let w := s.waitwRead core ((p.dwords.headD 0))
       some (s.modCore core fun k =>
         { k with pend := k.pend.filter (· ≠ p), faults := insertTrap ⟨.afterIssue, 0x0303, dw w, p.who⟩ k.faults }))

/-! ### ARMW (R331, R332) -/

/-- A watch armed at its home: a notice at once where the word already equals EXP. -/
def State.arm (s : State) (w : Watch) : State :=
  if s.homeNat w.pa 4 = w.exp.toNat then s.notice w
  else s.modCell (sramCell w.pa) fun c => { c with watches := c.watches ++ [w] }

/-- ARMW (R331): Arms a watch on a word at its home and ends the firing. -/
def execArmw (lit : Option Word) (a b : Reg) (s : State) : Next :=
  let v := (s.me.g a).toNat
  let va := s.me.g b
  deliver 1 0 (.armw lit a b) s
    (if bitsOf v 37 32 < 5 || bitsOf v 47 38 ≠ 0 then .illegal 0x0108 (s.me.g a)
     else s.drained
       (if va.toNat % 4 ≠ 0 then .trap .afterIssue causeMisalign va
        else match s.xlate (s.rootOf s.cur) (cellOf s.cur) va.toNat .read with
          | .error e => .trapIn (s.walked s.cur va) .afterIssue e va
          | .ok key =>
            if spaceOf key ≠ 1 then .trapIn (s.walked s.cur va) .afterIssue causeUnreach va
            else if (s.cell (sramCell key)).watches.length ≥ 16 then .trapIn (s.walked s.cur va) .atIssue 0x0315 va
            else
              let w : Watch := ⟨key, BitVec.ofNat 32 v, bitsOf v 37 32, bitsOf v 63 48, s.cur, s.classOf s.cur, s.me.region.getD 0⟩
              let t := ((s.flushAt s.cur key 4).walked s.cur va).readDone s.cur [dwOf key]
              .ok ((t.arm w).endFiring s.cur .done)))

/-! ### Codelets (R334–R337) -/

/-- DEPDEC and DEPSET: a release, posted to the counter's home (R334, R335). -/
def State.depPost (s : State) (va : Dword) (op : Nat) (val : Dword) (scope : Nat) : Res :=
  s.unlessSpec
    (match s.depKey (s.rootOf s.cur) (cellOf s.cur) va with
     | .error e => .trapIn (if e = causeMisalign then s else s.walked s.cur va) .atIssue e va
     | .ok k =>
       let t := (s.flush s.cur).walked s.cur va
       .ok { t with depOps := t.depOps ++ [⟨k, op, val, s.tag s.cur 0, s.classOf s.cur, s.me.region.getD 0, scope, some s.cur, t.nextWrite⟩] })

/-- DEPDEC (R335): Posts a release decrement of a codelet counter to its home. -/
def execDepdec (lit : Option Word) (b : Reg) (sc : BitVec 4) (s : State) : Next :=
  deliver 1 0 (.depdec lit b sc) s (s.depPost (s.me.g b) 0 0 sc.toNat)
/-- DEPSET (R335): Posts a release set or add of a codelet counter to its home. -/
def execDepset (lit : Option Word) (a b : Reg) (sc : BitVec 4) (kd : BitVec 2) (s : State) : Next :=
  deliver 1 0 (.depset lit a b sc kd) s (s.depPost (s.me.g b) (if kd = 0 then 1 else 2) (s.me.g a) sc.toNat)

/-- An operation takes effect at its counter's home; those of one issuer keep their order. -/
def execCodeletCounterUpdate (idx : Nat) (s : State) : Next :=
  event
    (match s.depOps[idx]? with
     | none => none
     | some o =>
       if (s.depOps.take idx).any fun p => p.src = o.src && (p.pa = o.pa || p.core.isSome && p.core = o.core) then none
       else some ({ s with depOps := listDel s.depOps idx }.depArrive o))

/-! ### Arrival (R318, R320, R43) -/

/-- Two pairs go to one slot of one node (R362). -/
def Msg.sameSlot (m p : Msg) : Bool :=
  hdrType m.hdr = 4 && hdrType p.hdr = 4 && m.dst.toNat / 512 = p.dst.toNat / 512 && bitsOf m.hdr.toNat 51 33 = bitsOf p.hdr.toNat 51 33

/-- The messages of the net that a message stands behind: the earlier ones of its sender to the same channel (R320), or to the same
slot (R362). -/
def State.ahead (s : State) (idx : Nat) (m : Msg) : List Msg :=
  (s.net.take idx).filter fun p => p.src = m.src && (p.dst = m.dst || m.sameSlot p) && m.src.isSome
def State.behind (s : State) (idx : Nat) (m : Msg) : Bool := !(s.ahead idx m).isEmpty

/-- A refusal (R320): the sender tries again after 64 cycles, and then after twice the wait before, up to 4,096. -/
def State.refuse (s : State) (idx core : Nat) : State :=
  let again (m : Msg) : Msg :=
    let b := if m.back = 0 then 64 else Nat.min (2 * m.back) 4096
    { m with refused := true, back := b, due := s.cycle + b }
  { s.bump 3 core 2 with net := listMod s.net idx again }

/-- The message reaches its destination's receive area, or leaves the device, or is dropped. -/
def State.arriveMsg (s : State) (idx : Nat) (m : Msg) : State :=
  let t := { s with net := listDel s.net idx }
  let core := tagCore m.dst.toNat
  let ch := tagCh m.dst.toNat
  let typ := hdrType m.hdr
  if s.unreachableTag m.dst.toNat then (if typ = 10 then (t.dropMsg m).lostReport m else t.dropMsg m)
  else if tagDev m.dst.toNat ≠ s.device then t.settle m
  else if typ ≥ 13 then (t.settle m).bump 3 core 5
  else if (typ = 2 || typ = 3) && codedMalformed m.hdr m.pay ((s.dict (bitsOf m.hdr.toNat 51 40)).map Dict.len) then
    (t.settle m).bump 2 (cellOf core) 7
  else if (s.core core).region.isNone && (s.cell (cellOf core)).freed && !(ch = 0 && (typ = 10 || typ = 11)) then t.dropFreed core m
  else
    match t.place core ch m.hdr m.pay 0 (m.rel.map fun x => (x, m.src.getD core)) m.region m.ctx with
    | some t =>
      let t := if m.quiet then t.modCore core fun k =>
          { k with recs := k.recs.dropLast ++ (k.recs.getLast?.toList.map fun (r : AreaRec) => { r with quiet := true }) }
        else t
      t.settle m
    | none => s.refuse idx core

/-- A dirty entry (R361): only the NI of its node's cell makes one, and no core sends it. -/
def Msg.isDirty (m : Msg) : Bool := hdrType m.hdr = 4 && bitOf m.hdr.toNat 57 && m.src.isNone

/-- A message may arrive now. Contexts and Gaussian pairs have events of their own (R345, R361) (DEDUCED, log 87). -/
def State.canArrive (s : State) (idx : Nat) (m : Msg) : Bool :=
  !m.refused && m.due ≤ s.cycle + 1 && !s.behind idx m && hdrType m.hdr ≠ 6 && (hdrType m.hdr ≠ 4 || m.isDirty)

/-- MESSAGE_ARRIVAL (R318): A message reaches a receive area and is placed, counted as an arrival, or refused. -/
def execMessageArrival (idx : Nat) (s : State) : Next :=
  event
    (match s.net[idx]? with
     | none => none
     | some m => if s.canArrive idx m then some (s.arriveMsg idx m) else none)

/-- The backoff of a refused message expires and it is sent again (R320). -/
def State.retry (s : State) (idx : Nat) (m : Msg) : State :=
  let s := match m.src with
    | some c => s.bump 3 c 3
    | none => s
  { s with net := listSet s.net idx { m with refused := false, due := s.cycle } }

/-- MESSAGE_RETRY (R320): The backoff of a refused message expires and it is sent again. -/
def execMessageRetry (idx : Nat) (s : State) : Next :=
  event
    (match s.net[idx]? with
     | none => none
     | some m => if m.refused && m.due ≤ s.cycle + 1 then some (s.retry idx m) else none)

end Sys2Proof.Machine
end

