-- ==== Sys2Proof/Machine/Encoder.lean ====
section
/-! DEFINITION. The pursuit encoder (R266–R285): dictionaries and their installation, the encoding, coded and escape
messages and their routing (R88–R90), SENDA, ENCX, DINST, DSTAT. -/

namespace Sys2Proof.Machine

/-! ### Reading for an instruction -/

/-- Bytes at a virtual address as core `c` reads them at issue, or the fault and its address. -/
def State.readVa (s : State) (c va n : Nat) : Except (Nat × Nat) (State × List Byte) :=
  match s.xlateRange (s.rootOf c) (cellOf c) va n .read with
  | .error e => .error e
  | .ok l =>
    let b := l.flatMap fun (k, m) => s.firingBytes c k m
    let t := s.noteRange (s.rootOf c) (cellOf c) va n
    .ok ((t.windowLostN (t.fnOf c) (windowHits l)).readDone c (piecesDwords l), b)

/-- A number among bytes, little-endian. -/
def bytesAt (b : List Byte) (off n : Nat) : Nat := leNat ((b.drop off).take n)
/-- The words of bytes. -/
def wordList (b : List Byte) (n : Nat) : List Word := (List.range n).map fun i => BitVec.ofNat 32 (bytesAt b (4 * i) 4)

/-- A dictionary belongs to the region of core `c` (R44). -/
def State.inSet (s : State) (c id : Nat) : Bool :=
  match (s.core c).region.bind s.region with
  | some r => r.dicts.getLsbD id
  | none => false

/-- The route tag of a cell of this device, with core and channel 0. -/
def State.cellTag (s : State) (cell : Nat) : Nat := s.tag (8 * cell) 0
def Dict.hasSub (d : Dict) (tag : Nat) : Bool := d.subs.contains tag
/-- A subscriber appended, or SUBFULL set (R266). -/
def Dict.subscribe (d : Dict) (tag : Nat) : Dict :=
  if d.hasSub tag then d else if d.subs.length < d.subCap then { d with subs := d.subs ++ [tag] } else { d with subFull := true }

/-- The view of a cell of an installed dictionary; the table's shade where the cell is no subscriber (R291). -/
def State.view (s : State) (cell id : Nat) (d : Dict) : Nat :=
  if d.hasSub (s.cellTag cell) then tabGet d.shade (s.cell cell).views id else d.shade

/-! ### The encoding (R271, R272) -/

/-- Counts that one encoding adds (R285): NaN correlations, saturated coefficients, saturated codes, non-finite
segments, gated slots. -/
structure EncCounts where
  nanCorr : Nat := 0
  csat : Nat := 0
  qsat : Nat := 0
  nonfin : Nat := 0
  gated : Nat := 0
  deriving DecidableEq, Repr

/-- What the encoder gives: entries with RACC, or an escape's codes, scale and zero point; and the final residual. -/
structure EncResult where
  entries : List (Nat × Nat)
  racc : Bool
  escape : Option (List Nat × Nat × Nat)
  residual : List Nat
  counts : EncCounts
  deriving DecidableEq, Repr

def energy (r : List Nat) : Nat := treeSum32 (r.map fun x => mul32 x x)

/-- The best atom by score: index, score, correlation; and how many correlations were NaN. -/
def bestAtom (atoms : List (List Nat × Nat)) (r : List Nat) : Option (Nat × Nat × Nat) × Nat :=
  (atoms.zipIdx).foldl
    (fun (best, nans) ((d, nu), k) =>
      if nu = 0 then (best, nans)
      else
        let g := treeSum32 ((d.zip r).map fun (a, b) => mul32 a b)
        if (f32 g).isNan then (best, nans + 1)
        else
          let sc := div32 (mul32 g g) nu
          let better : Bool := lt32 0 sc && (match best with
            | none => true
            | some (_, scb, _) => lt32 scb sc)
          (if better then some (k, sc, g) else best, nans))
    (none, 0)

/-- A coefficient (R271): FP16, clamped where it is infinite. -/
def coefficient (g nu : Nat) : Nat × Bool :=
  let c := rne16 (f32 (div32 g nu))
  if c % 2 ^ 15 = fp16.infBits then (fp16.maxBits + fp16.signBit (f16 c).neg, true) else (c, false)

/-- The step slots: entries, residual and counts. `slots` is the number of slots left. -/
def pursue (atoms : List (List Nat × Nat)) (bstop : Nat) : Nat → List (Nat × Nat) → List Nat → EncCounts →
    List (Nat × Nat) × List Nat × EncCounts
  | 0, es, r, n => (es, r, n)
  | slots + 1, es, r, n =>
    if le32 (energy r) bstop then (es, r, { n with gated := n.gated + slots + 1 })
    else
      let (best, nans) := bestAtom atoms r
      let n := { n with nanCorr := n.nanCorr + nans }
      match best with
      | none => (es, r, { n with gated := n.gated + slots })
      | some (k, _, g) =>
        let (d, nu) := atoms.getD k ([], 0)
        let (c, sat) := coefficient g nu
        let c32 := rne32 (f16 c)
        let r := (r.zip d).map fun (x, y) => fma32 (neg32 c32) y x
        pursue atoms bstop slots (es ++ [(k, c)]) r { n with csat := n.csat + b2n sat }

def escapeOf (x r : List Nat) (n : EncCounts) : EncResult :=
  let (q, sc, z, nsat) := quantGroup x 255
  ⟨[], false, some (q, sc, z), r, { n with qsat := nsat }⟩

/-- The encoding of a segment against a snapshot. -/
def encodeSegmentOf (x : List Nat) (atoms : List (List Nat × Nat)) (smax tauStop tauEsc : Nat) : EncResult :=
  let e0 := energy x
  if x.any (fun v => !(f32 v).isFin) || e0 = fp32.infBits then escapeOf x x { nonfin := 1 }
  else
    let bstop := mul32 tauStop e0
    let besc := mul32 tauEsc e0
    let (es, r, n) := pursue atoms bstop smax [] x {}
    let e := energy r
    if le32 e bstop then ⟨es, false, none, r, n⟩
    else if (f32 e).isNan || lt32 besc e then escapeOf x r n
    else ⟨es, true, none, r, n⟩

/-! ### Messages (R274–R276) -/

/-- The header and payload of a result. -/
def EncJob.message (j : EncJob) (r : EncResult) : Dword × List Dword :=
  let pack (ws : List Nat) : List Dword :=
    (List.range ((ws.length + 1) / 2)).map fun i => dw (ws.getD (2 * i) 0 + 2 ^ 32 * ws.getD (2 * i + 1) 0)
  let head (typ esc racc count len : Nat) : Dword :=
    dw (typ * 2 ^ 60 + j.cls % 4 * 2 ^ 58 + esc * 2 ^ 57 + racc * 2 ^ 56 + count * 2 ^ 52 + j.dict * 2 ^ 40
      + j.shade % 0x1_0000 * 2 ^ 24 + j.seg % 0x1_0000 * 2 ^ 8 + len)
  match r.escape with
  | some (q, sc, z) =>
    let pay := dw (z * 2 ^ 16 + sc) :: dwordList ((j.len + 7) / 8) (q.map (BitVec.ofNat 8 ·))
    (head 3 1 0 0 pay.length, pay)
  | none =>
    let pay := pack (r.entries.map fun (k, c) => c * 2 ^ 16 + k)
    (head 2 0 (b2n r.racc) r.entries.length pay.length, pay)

/-- The encoding of a job. -/
def EncJob.result (j : EncJob) : EncResult :=
  encodeSegmentOf (j.x.map (·.toNat)) (j.atoms.map fun (d, nu) => (d.map (·.toNat), nu.toNat)) j.smax j.tauStop.toNat j.tauEsc.toNat

/-! ### Routing (R88–R90) -/

/-- The route tag that a message of segment `seg` takes, and the state after the NI's access to the entry. A message whose
entry the map does not hold, or whose entry's die is fenced, goes to gt (DESIGN CHOICE, log 104). -/
def State.routeMsg (s : State) (route seg cls dict region core gt : Nat) : Nat × State :=
  let e := route + 32 * seg
  match (if route = 0 then none else s.canon 0 e) with
  | none => (gt, s)
  | some key =>
    if isWindow key then (gt, s)
    else
      let d0 := s.homeNat key 8
      let d3 := s.homeNat (key + 24) 8
      let cnt := bitsOf d0 10 8
      let rot := d0 % 256
      let alt (i : Nat) : Nat := s.homeNat (key + 8 + 4 * i) 4
      let s := s.noteReads (dwordsOf key 32)
      if !bitOf d0 63 || cnt = 0 || cnt > 4 then (gt, s)
      else if cls ≥ 2 then (alt 0, s)
      else
        let hot := (d3 + 1) % 2 ^ 32
        let t := (s.writeHome key (leBytes 8 (setBits d0 7 0 (rot + 1)))).writeHome (key + 24) (leBytes 8 (setBits d3 31 0 hot))
        let th := d3 / 2 ^ 32
        (alt (rot % cnt),
          if th ≠ 0 && hot = th && cnt < 4 then { t with repl := t.repl ++ [⟨dieOfCore core, dict, seg, region, none, 0⟩] } else t)

/-! ### SENDA and ENCX -/

/-- Cycles that a segment takes (R273). -/
def encCycles (len k smax : Nat) : Nat := 8 + smax * ((k * len + 1023) / 1024 + 6) + (len + 15) / 16

/-- A version of an atom as a snapshot takes it: the one that covers the view (R291) (DEDUCED, log 51). -/
def AtomVer.at (a : AtomVer) (view : Nat) : List Word × Word := if a.c ≤ view then (a.cur, a.nu) else (a.prior, a.pnu)

/-- The format that R267 gives the banks of a storage: FP16, or Q8 of the group size. -/
def storageFmt : Option Nat → BankFmt
  | none => ⟨3, 0, false, 0, false⟩
  | some g => ⟨2, Nat.log2 (g / 32), true, 0, false⟩
/-- Where the install placed atom `k`, bank by bank: the bank, the bank offset of its first element there, and how many of its
elements stand there (R267). An offset in a Q bank counts elements. -/
def atomParts (key : Nat) (q8 : Option Nat) (len k : Nat) : List (Nat × Nat × Nat) :=
  match q8 with
  | none =>
    let a := key + 2 * k * len
    let n := Nat.min len ((bankSize - a % bankSize) / 2)
    (bankBase a, a % bankSize, n) :: (if n < len then [(bankBase a + bankSize, 0, len - n)] else [])
  | some g =>
    let perBank := 8 * (65536 / (32 + 8 * g))
    [(key + k / perBank * bankSize, k % perBank * g, len)]

/-- The elements of an atom that stand in one bank, as FP32 words, each with whether the bank has the format of the install, and
the doublewords read: through the format that the bank has for `cell` now, from the place that the install gave them (R53, R267). A
bank that has become RAW8, or lies on another die than `cell`, gives signed bytes; a place that passes the bank's last byte under
the new format is read on into the next bank (DESIGN CHOICE, log 78). -/
def State.atomPart (s : State) (cell : Nat) (q8 : Option Nat) (part : Nat × Nat × Nat) : List (Word × Bool) × List Nat :=
  let (base, off, n) := part
  let f := s.bankFmt cell base
  let g := storageFmt q8
  let off := match q8 with
    | some _ => if f.isQ then off * f.bits / 8 else (g.loc off).1
    | none => off
  let same : Bool := f.typ = g.typ && (!f.isQ || (f.group = g.group && f.interleaved = g.interleaved))
  ((s.elemVals f base off n).map fun v => (BitVec.ofNat 32 (rne32 v), same), f.elemDwords base off n)

/-- The elements of atom `k` in the storage as `cell` decodes them, and the doublewords read. -/
def State.atomFrom (s : State) (cell key : Nat) (q8 : Option Nat) (len k : Nat) : List (Word × Bool) × List Nat :=
  let l := (atomParts key q8 len k).map (s.atomPart cell q8)
  (l.flatMap (·.1), l.flatMap (·.2))

/-- The values of atom `k` in the storage, as the device decodes them at an install (R268), and the doublewords read. -/
def State.storedAtom (s : State) (key : Nat) (q8 : Option Nat) (len k : Nat) : List Word × List Nat :=
  let (l, ds) := s.atomFrom (sramCell key) key q8 len k
  (l.map (·.1), ds)

/-- An atom as a correlation of the encoder of `cell` reads it: the version that covers the view, through the bank's format (R53).
Where another agent has written over the storage, each element of the current version holds the old value or the one that stands
there (R269) (DESIGN CHOICE, log 78). -/
def State.atomSeen (s : State) (cell : Nat) (d : Dict) (view k : Nat) (a : AtomVer) : List Word × Word :=
  let (w, nu) := a.at view
  if view < a.c then (w, nu)
  else
    ((w.zip (s.atomFrom cell d.atomPa d.q8 d.len k).1).zipIdx.map fun ((o, n, same), i) =>
      if !same || Config.storedNew s.free k i then n else o, nu)

/-- The job of a segment that core `s.cur` hands over now (R270). -/
def State.encJob (s : State) (id seg : Nat) (d : Dict) (gs : Dword) (x : List Word) (encx : Option Nat) (dst : Nat) : EncJob :=
  let view := s.view (cellOf s.cur) id d
  { core := s.cur, encx := encx, gs := gs, x := x, dict := id, seg := seg, shade := view,
    atoms := d.atoms.zipIdx.map fun (a, k) => s.atomSeen (cellOf s.cur) d view k a,
    len := d.len, smax := d.smax, tauStop := d.tauStop, tauEsc := d.tauEsc, cls := s.classOf s.cur, dst := BitVec.ofNat 32 dst,
    route := d.route, region := s.me.region.getD 0, charged := encx.isNone, spec := s.me.fir.spec, dropped := false, rewritten := [], due := 0 }

/-- The segment joins the cell's encoder (R281). -/
def State.handOver (s : State) (j : EncJob) : State :=
  State.modCell { s with free := s.free + 1 } (cellOf j.core) fun c =>
    { c with enc := c.enc ++ [if c.enc.isEmpty then { j with due := s.cycle + encCycles j.len j.atoms.length j.smax } else j] }

/-- The checks of the parameter (R278): dictionary, segment index and entry, for `r`. -/
def State.encParam (s : State) (gc : Dword) (r : Nat → Nat → Dict → Res) : Res :=
  let n := gc.toNat
  let id := bitsOf n 11 0
  if n / 2 ^ 28 ≠ 0 then .illegal 0x0108 gc
  else if !s.inSet s.cur id then .illegal 0x0108 (dw id)
  else match s.dict id with
    | none => .illegal 0x0108 (dw id)
    | some d => r id (bitsOf n 27 12) d

/-- SENDA (R279). -/
def execSenda (lit : Option Word) (t sr : Reg) (e : BitVec 4) (c : Reg) (s : State) : Next :=
  let gs := s.me.g sr
  let gt := s.me.g t
  deliver 1 e.toNat (.senda lit t sr e c) s
    (s.encParam (rcValue s.me lit c) fun id seg d =>
      s.unlessSpec
        (match s.takeSlot s.cur with
         | none => .trap .atIssue 0x0316 gt
         | some u =>
           if gs.toNat % 4 ≠ 0 then .trap .afterIssue causeMisalign gs
           else match u.readVa s.cur gs.toNat (4 * d.len) with
             | .error (c, a) => .trapIn (s.walked s.cur gs (4 * d.len)) .afterIssue c (dw a)
             | .ok (u, b) => .ok (u.handOver (s.encJob id seg d gs (wordList b d.len) none gt.toNat))))

/-- The bytes that ENCX writes: the residual, then the message (R280). -/
def EncJob.output (j : EncJob) : List Byte :=
  let r := j.result
  let (hdr, pay) := j.message r
  r.residual.flatMap (leBytes 4) ++ msgBytes hdr pay

/-- Every piece lies in the core's speculation window. -/
def State.inWindow (s : State) (core : Nat) (l : List (Nat × Nat)) : Bool :=
  l.all fun (k, n) => (List.range (n / 32 + 1)).all fun i =>
    match s.specLine (Nat.min (k + 32 * i) (k + n - 1)) with
    | some (cell, _) => cell = cellOf core && (queueOf k).isNone
    | none => false

/-- ENCX inside a speculation writes the window only (R278). -/
def State.encxAllowed (s : State) (j : EncJob) : Bool :=
  !j.spec || (match s.xlateRange (s.rootOf j.core) (cellOf j.core) j.gs.toNat j.output.length .write with
    | .ok l => s.inWindow j.core l
    | .error _ => true)

/-- ENCX (R280). -/
def execEncx (lit : Option Word) (d sr : Reg) (e : BitVec 4) (c : Reg) (s : State) : Next :=
  let i := Instr.encx lit d sr e c
  let gs := s.me.g sr
  let who := s.me.issued 1 e.toNat i
  deliver 1 e.toNat i s
    (s.encParam (rcValue s.me lit c) fun id seg dict =>
      if gs.toNat % 8 ≠ 0 then .trap .afterIssue causeMisalign gs
      else match s.readVa s.cur gs.toNat (4 * dict.len) with
        | .error (c, a) => .trapIn (s.walked s.cur gs (4 * dict.len)) .afterIssue c (dw a)
        | .ok (u, b) =>
          let j := s.encJob id seg dict gs (wordList b dict.len) (some who.ord) 0
          if !s.encxAllowed j then .trapIn u .atIssue 0x0309 0
          else .core (u.handOver j) fun k => k.addPend
            { who := who, kind := .reply, writes := [.g d 0], flags := 0, fp := false, acq := false, issued := s.cycle,
              due := s.cycle, va := gs, dwords := [], fault := none, ready := false, lost := false })

/-- The core's own writes of the bytes of pieces (R280), but for bytes that later words of the core have written since (R106):
shadows in a speculation, else writes on their way. -/
def State.ownWrites (s : State) (core : Nat) (spec : Bool) (rewritten : List (Nat × Nat)) : List (Nat × Nat) → List Byte → State
  | [], _ => s
  | (k, n) :: t, b =>
    let p := ((b.take n).zipIdx).map fun (x, i) => if rewritten.any fun (a, m) => a ≤ k + i && k + i < a + m then none else some x
    let s := if spec then s.shadowPiece core k p
      else if (queueOf k).isSome || isWindow k then
        (List.range (n / 8)).foldl (fun s i => s.storePiece core (k + 8 * i) ((p.drop (8 * i)).take 8) none false) s
      else s.storePiece core k p none false
    s.ownWrites core spec rewritten t (b.drop n)

/-- A pending word's reply comes, with its writes or its fault. -/
def State.replyReady (s : State) (core ord : Nat) (writes : List RegWrite) (fault : Option (Nat × Dword)) : State :=
  s.modCore core fun k =>
    { k with pend := k.pend.map fun p =>
        if p.who.ord = ord && p.kind = .reply && !p.ready then
          { p with ready := true, due := s.cycle, writes := if fault.isNone then p.writes.zipWith (fun a b => match a, b with
              | .g r _, .g _ v => .g r v
              | a, _ => a) writes else p.writes, fault := fault }
        else p }

/-- ENCX's writes, in order before the write of gd: speculative stores while the speculation that it was issued in lasts, none
once that is discarded (R278). -/
def State.finishEncx (s : State) (j : EncJob) (ord : Nat) (hdr : Dword) : State :=
  let out := j.output
  match s.xlateRange (s.rootOf j.core) (cellOf j.core) j.gs.toNat out.length .write with
  | .error (c, a) => s.replyReady j.core ord [] (some (c, dw a))
  | .ok l =>
    let s := s.noteRange (s.rootOf j.core) (cellOf j.core) j.gs.toNat out.length
    (if j.dropped then s else s.ownWrites j.core j.spec j.rewritten l out).replyReady j.core ord [.g 0 hdr] none

/-- The counters of a coded segment (R285). -/
def State.encCount (s : State) (cell : Nat) (r : EncResult) (late : Nat) : State :=
  let n := r.counts
  let s := (s.bump 1 cell 0).bump 1 cell (if r.escape.isSome then 3 else if r.racc then 2 else 1)
  let s := ((s.bump 1 cell 4 n.nanCorr).bump 1 cell 5 n.csat).bump 1 cell 6 n.qsat
  ((s.bump 1 cell 7 n.nonfin).bump 1 cell 8 n.gated).bump 1 cell 9 late

/-- The encoder's head segment is coded and leaves: as a message on its route, or in memory and gd. -/
def State.encodeHead (s : State) (cell : Nat) (j : EncJob) (rest : List EncJob) : State :=
  let now := s.cycle + 1
  let r := j.result
  let (hdr, pay) := j.message r
  let rest := match rest with
    | n :: t => { n with due := now + encCycles n.len n.atoms.length n.smax } :: t
    | [] => []
  let s := (s.modCell cell fun c => { c with enc := rest }).encCount cell r (now - j.due)
  match j.encx with
  | some ord => s.finishEncx j ord hdr
  | none =>
    let (tag, s) := s.routeMsg j.route j.seg j.cls j.dict j.region j.core j.dst.toNat
    s.post { Msg.from j.core j.region hdr pay tag with slot := true, charged := j.charged }

/-- A segment has been in the encoder for its time (R271, R273). -/
def execEncodeSegment (cell : Nat) (s : State) : Next :=
  event
    (match (s.cell cell).enc with
     | [] => none
     | j :: rest => if j.due ≤ s.cycle + 1 then some (s.encodeHead cell j rest) else none)

/-! ### DINST (R266–R269, R282) -/

/-- A thresholds pair that R266 allows. -/
def tausOk (stop esc : Nat) : Bool := (f32 stop).isFin && (f32 esc).isFin && le32 0 stop && le32 stop esc

/-- Descriptor fields against the ranges of R266. -/
def descOk (b : List Byte) : Bool :=
  let d0 := bytesAt b 0 8
  let d5 := bytesAt b 0x28 8
  let len := bitsOf d0 24 16
  let k := bitsOf d0 39 28
  let cap := bitsOf d5 31 16
  bitsOf d0 63 40 = 0 && bitsOf d0 27 25 = 0 && 1 ≤ k && k ≤ 2048 && 4 ≤ len && len ≤ 256 && len % 4 = 0
    && 1 ≤ bitsOf d0 15 12 && tausOk (bytesAt b 8 4) (bytesAt b 12 4) && bytesAt b 0x18 8 % 4 = 0 && bytesAt b 0x20 8 % 4 = 0
    && bytesAt b 0x30 8 % 32 = 0 && d5 / 2 ^ 32 = 0 && 1 ≤ cap && cap ≤ 4096 && d5 % 0x1_0000 ≤ cap
    && bytesAt b 0x3C 4 = 0

/-- The storage's format where it follows R267: `some none` for FP16, `some (some G)` for Q8. -/
def State.storageOk (s : State) (key k len : Nat) : Option (Option Nat) :=
  if spaceOf key ≠ 1 || key % bankSize ≠ 0 then none
  else
    let cell := sramCell key
    let bank := sramOff key / bankSize
    let f := BankFmt.ofReg (tabGet 0 (s.cell cell).bfmt bank)
    let perBank := 8 * (65536 / (32 + 8 * f.g))
    let banks := if f.typ = 3 then (2 * k * len + 65535) / 65536 else if perBank = 0 then 33 else (k + perBank - 1) / perBank
    let same := (List.range banks).all fun i =>
      let g := BankFmt.ofReg (tabGet 0 (s.cell cell).bfmt (bank + i))
      g.typ = f.typ && g.group = f.group && g.interleaved = f.interleaved
    if bank + banks > 32 || !same then none
    else if f.typ = 3 then some none
    else if f.typ = 2 && f.interleaved && len ≤ f.g then some (some f.g)
    else none

/-- The norm of an atom (R268). -/
def atomNorm (d : List Word) : Word := BitVec.ofNat 32 (energy (d.map (·.toNat)))

/-- The home address of norm `k`. -/
def normKey (norms : List (Nat × Nat)) (k : Nat) : Option Nat :=
  match norms with
  | [] => none
  | (a, n) :: t => if 4 * k < n then some (a + 4 * k) else normKey t (k - n / 4)

/-- How an install reaches memory, by translation for DINST and physically for SET_DICTIONARY (R283): the home addresses of a
range, the space that an address stands in, and pieces with the issuing core's own earlier writes to them performed (R106). -/
structure Reach where
  keys : State → Nat → Nat → Acc → Except (Nat × Nat) (List (Nat × Nat))
  space : State → Nat → Nat
  settle : State → List (Nat × Nat) → State

def reachVirtual (core : Nat) : Reach :=
  ⟨fun s va n acc => s.xlateRange (s.rootOf core) (cellOf core) va n acc, fun s va => s.physSpace (s.rootOf core) (cellOf core) va,
    fun s l => s.flushPieces core l⟩
def reachPhysical : Reach :=
  ⟨fun s pa n _ =>
    if spaceOf pa = 0 then .error (causeUnreach, pa)
    else match s.canon 0 pa, s.canon 0 (pa + Nat.max n 1 - 1) with
      | some k, some l => if l = k + Nat.max n 1 - 1 then .ok [(k, n)] else .error (causeUnreach, pa)
      | _, _ => .error (causeUnreach, pa),
   fun _ pa => spaceOf pa, fun s _ => s⟩

/-- Cells placed for a region whose set holds the dictionary, in increasing number (R282). -/
def State.placedCells (s : State) (id : Nat) : List Nat :=
  (s.regions.flatMap fun (_, r) => match r with
    | some r => if r.dicts.getLsbD id then r.placed else []
    | none => []).mergeSort (· ≤ ·)

/-- Cells of this device among subscribers. -/
def State.ownCells (s : State) (subs : List Nat) : List Nat :=
  (subs.filter fun t => tagDev t = s.device).map fun t => tagCore t / 8

/-- An install's result: the state, the status, and the zero atoms (R282). -/
def State.install (s : State) (reach : Reach) (descVa : Nat) : State × Nat × Nat :=
  match reach.keys s descVa 64 .read with
  | .error _ => (s, 3, 0)
  | .ok dl =>
    let s := reach.settle s dl
    let b := dl.flatMap fun (k, n) => s.homeBytes k n
    let s := s.noteReads (piecesDwords dl)
    let d0 := bytesAt b 0 8
    let k := bitsOf d0 39 28
    let len := bitsOf d0 24 16
    let id := bitsOf d0 11 0
    if !descOk b then (s, 1, 0)
    else if (s.dict id).isSome then (s, 4, 0)
    else match reach.keys s (bytesAt b 0x10 8) 1 .read with
      | .error _ => (s, 3, 0)
      | .ok al =>
        let key := (al.head?.map Prod.fst).getD 0
        match (if reach.space s (bytesAt b 0x10 8) ≤ 1 then s.storageOk key k len else none) with
        | none => (s, 2, 0)
        | some q8 =>
          let cnt := bytesAt b 0x28 2
          let routeVa := bytesAt b 0x30 8
          let route : Except (Nat × Nat) Nat := if routeVa = 0 then .ok 0 else match reach.keys s routeVa 1 .read with
            | .error e => .error e
            | .ok l =>
              let r := (l.head?.map Prod.fst).getD 0
              let sp := reach.space s routeVa
              if (sp = 1 || sp = 2) && !isWindow r then .ok r else .error (causeUnreach, routeVa)
          match reach.keys s (bytesAt b 0x20 8) (4 * cnt) .read, reach.keys s (bytesAt b 0x18 8) (4 * k) .write, route,
              reach.keys s (descVa + 0x38) 4 .write with
          | .ok sl, .ok nl, .ok route, .ok hl =>
            let s := reach.settle s (sl ++ ((List.range k).flatMap fun i => (s.storedAtom key q8 len i).2.map fun d => (d, 8)) ++ nl ++ hl)
            let tags := (wordList (sl.flatMap fun (k, n) => s.homeBytes k n) cnt).map fun w => w.toNat / 512 * 512
            let atoms := (List.range k).map fun i => s.storedAtom key q8 len i
            let s := s.noteReads (piecesDwords sl ++ atoms.flatMap Prod.snd)
            let vers := atoms.map fun (d, _) => (⟨d, atomNorm d, 1, [], 0, 0⟩ : AtomVer)
            let d : Dict :=
              { len := len, k := k, smax := bitsOf d0 15 12, tauStop := BitVec.ofNat 32 (bytesAt b 8 4),
                tauEsc := BitVec.ofNat 32 (bytesAt b 12 4), atomPa := key, q8 := q8, norms := nl, route := route, subs := tags,
                subCap := bytesAt b 0x2A 2, subFull := false, shade := 1, atoms := vers, owed := [] }
            let d := (s.placedCells id).foldl (fun d c => d.subscribe (s.cellTag c)) d
            let s := (vers.zipIdx).foldl (fun t (a, i) => match normKey nl i with
              | some key => t.writeHome key (leBytes 4 a.nu.toNat)
              | none => t) s
            let s := { s with dicts := tabSet s.dicts id (some d) }
            let s := (s.ownCells d.subs).foldl (fun t c => t.modCell c fun x => { x with views := tabSet x.views id 1 }) s
            (s.writePieces hl (leBytes 4 1), 0, (vers.filter fun a => a.nu = 0).length)
          | _, _, _, _ => (s, 3, 0)

/-- A dictionary removed (R282), and what that does in every cell (R309). -/
def State.removeDict (s : State) (id : Nat) : State :=
  let out : List (Nat × Cell) := s.saves.flatMap fun (r, l) =>
    if (s.region r).any (·.switched) then (l.head?.map (·.cells)).getD [] else []
  let s := (s.cells ++ out).foldl (fun t (n, c) => t.bump 2 n 8 (c.holds.filter (·.dict = id)).length) s
  let clean (c : Cell) : Cell :=
    { c with bindings := c.bindings.filter (·.dict ≠ id), holds := c.holds.filter (·.dict ≠ id),
             notices := c.notices.filter fun x => x.1 ≠ id, views := tabDel c.views id }
  { s with
    dicts := tabDel s.dicts id,
    cells := s.cells.map fun (n, c) => (n, clean c),
    saves := s.saves.map fun (n, (l : List RegionSave)) =>
      (n, l.map fun (x : RegionSave) => { x with cells := x.cells.map fun (m, c) => (m, clean c) }),
    noticeNet := s.noticeNet.filter (·.dict ≠ id), acks := s.acks.filter (·.dict ≠ id) }

/-- gd of DINST. -/
def dinstValue (shade zeros status : Nat) : Dword := dw (shade * 2 ^ 32 + zeros * 2 ^ 20 + status)
/-- The shade of an entry, 0 where there is none. -/
def State.shadeOf (s : State) (id : Nat) : Nat := ((s.dict id).map Dict.shade).getD 0

/-- DINST's operation on the descriptor at `ga`: the state, gd, and its cycles; or an id outside the region's set. -/
def State.dinst (s : State) (core op ga : Nat) : Except Nat (State × Dword × Nat) :=
  match s.readVa core ga 2 with
  | .error _ => .ok (s, dinstValue 0 0 3, 12)
  | .ok (s, b) =>
    let id := bytesAt b 0 2 % 4096
    if !s.inSet core id then .error id
    else if op = 0 then
      let (t, status, zeros) := s.install (reachVirtual core) ga
      let cycles := match t.dict id with
        | some d => 12 + (d.k * d.len + 1023) / 1024
        | none => 12
      .ok (t, dinstValue (t.shadeOf id) zeros status, cycles)
    else if op = 1 then
      (match s.dict id with
       | none => .ok (s, dinstValue 0 0 5, 12)
       | some _ => .ok (s.removeDict id, dinstValue 0 0 0, 12))
    else
      match s.readVa core (ga + 8) 8 with
      | .error _ => .ok (s, dinstValue (s.shadeOf id) 0 3, 12)
      | .ok (s, b) =>
        match s.dict id with
        | none => .ok (s, dinstValue 0 0 5, 12)
        | some d =>
          if !tausOk (bytesAt b 0 4) (bytesAt b 4 4) then .ok (s, dinstValue d.shade 0 1, 12)
          else .ok (s.modDict id fun d =>
              { d with tauStop := BitVec.ofNat 32 (bytesAt b 0 4), tauEsc := BitVec.ofNat 32 (bytesAt b 4 4) },
            dinstValue d.shade 0 0, 12)

/-- DINST (R282). What it reads and writes it finds as the core's own earlier writes leave it (R106). -/
def execDinst (lit : Option Word) (d a : Reg) (e : BitVec 4) (c : Reg) (s : State) : Next :=
  let i := Instr.dinst lit d a e c
  let gc := rcValue s.me lit c
  let ga := s.me.g a
  deliver 1 e.toNat i s
    (if gc.toNat > 2 then .illegal 0x0108 gc
     else s.unlessSpec
       (if ga.toNat % 8 ≠ 0 then .trap .afterIssue causeMisalign ga
        else match s.dinst s.cur gc.toNat ga.toNat with
          | .error id => .illegal 0x0108 (dw id)
          | .ok (t, v, cycles) => t.result 1 e.toNat i cycles [.g d v]))

/-! ### DSTAT (R284) -/

/-- The state of a dictionary as a cell holds it. -/
def State.dictStat (s : State) (cell id : Nat) : Dword :=
  match s.dict id with
  | none => 0
  | some d =>
    dw (s.view cell id d * 2 ^ 32 + 2 ^ 31 + b2n d.subFull * 2 ^ 30 + d.smax * 2 ^ 26 + d.k * 2 ^ 14 + d.len * 2 ^ 5)

/-- DSTAT (R284): Reads a dictionary's state or an encoder counter. -/
def execDstat (lit : Option Word) (d : Reg) (e : BitVec 4) (c : Reg) (s : State) : Next :=
  let i := Instr.dstat lit d e c
  let gc := rcValue s.me lit c
  let n := gc.toNat
  let id := bitsOf n 11 0
  deliver 1 e.toNat i s
    (if n / 2 ^ 16 ≠ 0 || bitsOf n 14 12 ≠ 0 || (bitOf n 15 && (bitsOf n 11 4 ≠ 0 || n % 16 > 9)) then .illegal 0x0108 gc
     else if bitOf n 15 then s.result 1 e.toNat i 3 [.g d (dw (s.counter 1 (cellOf s.cur) (n % 16)))]
     else if !s.inSet s.cur id then .illegal 0x0108 (dw id)
     else s.result 1 e.toNat i 3 [.g d (s.dictStat (cellOf s.cur) id)])

end Sys2Proof.Machine
end

