-- ==== Sys2Proof/Machine/Barriers.lean ====
section
/-! DEFINITION. Barriers and stolen tiles (R376–R393): BARR in its four forms, BWAIT, BSTAT, TTAKE, TSTEAL, TDONE, the
opening and closing of a tile set, the loss of a device of the domain, and what peers ask of this device. What a peer
answers is free (`Config.openWord`), within the values that the rules allow. -/

namespace Sys2Proof.Machine

/-! ### Handles and images (R376, R378, R379) -/

def handleHome (h : Dword) : Nat := bitsOf h.toNat 28 16
def handleNum (h : Dword) : Nat := bitsOf h.toNat 9 0
def handleBad (h : Dword) : Bool := h.toNat / 2 ^ 29 ≠ 0 || bitsOf h.toNat 15 10 ≠ 0
/-- The home of a handle can be reached. -/
def State.homeReachable (s : State) (h : Dword) : Bool :=
  if handleHome h = s.device then s.isLive (handleNum h / 256)
  else s.inDomain (handleHome h) && s.peerLive (handleHome h) (handleNum h / 256)

/-- Header dw0 of a barrier. -/
def Barrier.dw0 (b : Barrier) : Nat :=
  b.episode % 2 ^ 32 * 2 ^ 32 + b.arrived * 2 ^ 20 + b.members.length * 2 ^ 8 + b.scope * 2 ^ 4
/-- dw0 of a member entry. -/
def Member.dw0 (m : Member) : Nat :=
  m.kind * 2 ^ 62 + b2n m.arr * 2 ^ 61 + b2n m.opn * 2 ^ 60 + b2n m.gone * 2 ^ 59 + m.lag * 2 ^ 54 + m.need * 2 ^ 40
    + m.got * 2 ^ 27 + m.next * 2 ^ 14 + m.id
/-- Four halves as a doubleword, from the low end. -/
def halves (l : List Nat) : Nat := l.getD 0 0 + l.getD 1 0 * 2 ^ 16 + l.getD 2 0 * 2 ^ 32 + l.getD 3 0 * 2 ^ 48
def Member.image (m : Member) : List Nat :=
  let nb := m.nb.map (·.toNat)
  [m.dw0, m.region * 2 ^ 48 + Nat.min m.late (2 ^ 32 - 1), halves nb, halves (nb.drop 4), halves m.hist,
    halves (m.hist.drop 4), halves (m.hist.drop 8), halves (m.hist.drop 12)]
/-- The 264 doublewords of an object (R378). -/
def Barrier.image (b : Barrier) : List Nat :=
  [b.dw0, b.lth * 2 ^ 48 + b.m * 2 ^ 40 + b.n * 2 ^ 32, b.first, b.doneAt, Nat.min b.opens (2 ^ 32 - 1) * 2 ^ 32, 0, 0, 0]
    ++ b.members.flatMap Member.image ++ List.replicate (8 * (32 - b.members.length)) 0

/-- A member entry as a descriptor sets it up, every RO field at its reset value. -/
def Member.parse (d : List Nat) : Member :=
  { kind := bitsOf (d.getD 0 0) 63 62, arr := false, opn := false, gone := false, lag := 0, need := bitsOf (d.getD 0 0) 53 40,
    got := 0, next := 0, id := bitsOf (d.getD 0 0) 12 0, region := bitsOf (d.getD 1 0) 63 48, late := 0,
    nb := (List.range 8).map fun j => BitVec.ofNat 16 (bitsOf (d.getD (2 + j / 4) 0) (16 * (j % 4) + 15) (16 * (j % 4))),
    hist := List.replicate 16 0, stamp := 0, latest := 0 }

/-- A member entry keeps R379. -/
def State.memberOk (s : State) (d : List Nat) : Bool :=
  let m := Member.parse d
  (m.kind = 1 || m.kind = 2) && bitsOf (d.getD 0 0) 61 54 = 0 && 1 ≤ m.need && m.need ≤ 4096 && bitsOf (d.getD 0 0) 39 13 = 0
    && bitsOf (d.getD 1 0) 47 0 = 0 && (List.range 4).all (fun i => d.getD (4 + i) 0 = 0)
    && (if m.kind = 1 then m.region = 0 && d.getD 2 0 = 0 && d.getD 3 0 = 0
        else m.nb.all fun x =>
          bitsOf x.toNat 14 13 = 0 && (!bitOf x.toNat 15 || (s.inDomain (bitsOf x.toNat 12 0) && bitsOf x.toNat 12 0 ≠ m.id)))

/-- A descriptor keeps R378 and R379. -/
def State.barrierOk (s : State) (d : List Nat) : Bool :=
  let d0 := d.getD 0 0
  let d1 := d.getD 1 0
  let n := bitsOf d0 13 8
  let entry (i : Nat) : List Nat := (d.drop (8 + 8 * i)).take 8
  let ms := (List.range n).map fun i => Member.parse (entry i)
  let scope := bitsOf d0 7 4
  bitsOf d0 63 14 = 0 && 1 ≤ n && n ≤ 32 && bitsOf d0 3 0 = 0
    && (if ms.all (·.kind = 1) then scope = 5 else scope = 6 || scope = 7)
    && 1 ≤ bitsOf d1 63 48 && bitsOf d1 47 45 = 0 && 1 ≤ bitsOf d1 44 40 && bitsOf d1 44 40 ≤ bitsOf d1 36 32
    && bitsOf d1 39 37 = 0 && bitsOf d1 36 32 ≤ 16 && bitsOf d1 31 0 = 0
    && (List.range 6).all (fun i => d.getD (2 + i) 0 = 0)
    && (List.range n).all (fun i => s.memberOk (entry i))
    && (List.range (32 - n)).all (fun i => (entry (n + i)).all (· = 0))
    && ((ms.map fun m => (m.kind, m.id)).eraseDups.length = n)

def Barrier.parse (d : List Nat) (region : Nat) : Barrier :=
  let d0 := d.getD 0 0
  let d1 := d.getD 1 0
  { region := region, episode := 0, arrived := 0, scope := bitsOf d0 7 4, lth := bitsOf d1 63 48, m := bitsOf d1 44 40,
    n := bitsOf d1 36 32, first := 0, doneAt := 0, opens := 0,
    members := (List.range (bitsOf d0 13 8)).map fun i => Member.parse ((d.drop (8 + 8 * i)).take 8) }

/-! ### Arrival and completion (R382, R383) -/

/-- Every member that is not GONE has arrived. A barrier all of whose members are GONE completes nothing but the episode that
waited for the last of them (R392) (DEDUCED, log 39). -/
def Barrier.complete (b : Barrier) : Bool := b.members.any (!·.gone) && b.members.all fun m => m.gone || m.arr

/-- A member at the completion of an episode that began at `first`: its new entry, whether it was late, and whether its tile
set opens (true) or closes (false) (DEDUCED, log 50). -/
def Member.settle (m : Member) (first lth mm n : Nat) : Member × Bool × Option Bool :=
  if m.gone then (m, false, none)
  else
    let lat := Nat.min ((m.stamp - first) / 64) 65535
    let hist := lat :: m.hist.take 15
    let lag := ((hist.take n).filter (lth < ·)).length
    let late : Bool := lth < lat
    let change := if m.kind = 2 && m.region ≠ 0 then
        (if mm ≤ lag && !m.opn then some true else if lag < mm && m.opn then some false else none)
      else none
    let again : Bool := m.next = m.need
    ({ m with hist := hist, lag := lag, late := if late then Nat.min (m.late + 1) (2 ^ 32 - 1) else m.late,
              opn := change.getD m.opn, arr := again, got := m.next, next := 0,
              stamp := if again then m.latest else m.stamp }, late, change)

/-- The completion of an episode: the barrier after it, members found late, and the tile sets to open or close. FIRST is
taken over every member that has arrived, one that was fenced since included. -/
def Barrier.finish (b : Barrier) (now : Nat) : Barrier × Nat × List (Nat × Nat × Bool) :=
  let here := b.members.filter (·.arr)
  let first := (here.map (·.stamp)).foldl Nat.min ((here.head?.map (·.stamp)).getD 0)
  let r := b.members.map fun m => m.settle first b.lth b.m b.n
  let changes := (b.members.zip r).filterMap fun (m, _, _, c) => c.map fun o => (m.id, m.region, o)
  let members := r.map (·.1)
  ({ b with first := first, members := members, arrived := (members.filter (·.arr)).length,
            episode := (b.episode + 1) % 2 ^ 32, doneAt := now,
            opens := Nat.min (b.opens + (changes.filter (·.2.2)).length) (2 ^ 32 - 1) },
    (r.filter (·.2.1)).length, changes)

/-- The episode under way at a barrier completes. -/
def State.completeAt (s : State) (n : Nat) (b : Barrier) : State :=
  let (b, late, changes) := b.finish s.time
  let mine := changes.filterMap fun (dev, region, o) => if dev = s.device then some (region, o) else none
  let s := { s with barriers := tabSet s.barriers n (some b), tileNotices := s.tileNotices ++ mine }
  (s.bump 6 0 0).bump 6 0 1 late

/-- The episode under way at barrier `n` completes, if every member that it waits for has arrived. -/
def State.settleBarrier (s : State) (n : Nat) : State :=
  match s.barrier n with
  | none => s
  | some b => if b.complete then s.completeAt n b else s

/-- An episode that the arrivals carried forward complete at once completes in a further step (R383). -/
def State.nextEpisode (n : Nat) (s : State) : Next :=
  event (if (s.barrier n).any Barrier.complete then some (s.settleBarrier n) else none)

/-- One arrival of member `i` at barrier `n`: status and episode (R382). -/
def State.arriveAt (s : State) (n : Nat) (i : Option Nat) (stamp : Nat) : State × Nat × Nat :=
  match s.barrier n with
  | none => (s, 4, 0)
  | some b =>
    match i.bind fun i => (b.members[i]?).map fun m => (i, m) with
    | none => (s, 3, 0)
    | some (i, m) =>
      let put (m : Member) (more : Nat) : State :=
        s.modBarrier n fun b => { b with members := listSet b.members i m, arrived := b.arrived + more }
      if m.gone then (s, 3, 0)
      else if !m.arr then
        let full : Bool := m.got + 1 = m.need
        let m := { m with got := m.got + 1, arr := full, stamp := if full then stamp else m.stamp, latest := stamp }
        ((put m (b2n full)).settleBarrier n, 0, b.episode)
      else if m.next < m.need then (put { m with next := m.next + 1, latest := stamp } 0, 1, (b.episode + 1) % 2 ^ 32)
      else (s, 2, 0)

/-- The member that core `c` of this device arrives for (R382). -/
def State.memberOf (s : State) (n c : Nat) : Option Nat :=
  match s.barrier n with
  | none => none
  | some b =>
    match b.members.findIdx? fun m => m.kind = 1 && m.id = c with
    | some i => some i
    | none => b.members.findIdx? fun m => m.kind = 2 && m.id = s.device

/-! ### Instructions on barriers -/

/-- The checks of a handle (R376) and of a speculation (R380), for `r`. -/
def State.handleChecked (s : State) (h : Dword) (r : Res) : Res :=
  if handleBad h then .illegal 0x0108 h
  else s.unlessSpec (if s.homeReachable h then r else .trap .afterIssue causeUnreach h)

/-- The answer of a home or an owner: written to `d` when the reply comes. -/
def State.answered (s : State) (i : Instr) (la : Nat) (h : Dword) (acq : Bool) (writes : List RegWrite) : Res :=
  s.readPend 1 la i h acq 1 [] none writes

/-- One open word. -/
def State.draw (s : State) (j : Nat) : Nat := (Config.openWord s.free j).toNat
def State.drawn (s : State) : State := { s with free := s.free + 1 }

/-- BARR: an arrival (R382). -/
def execBarr (lit : Option Word) (a b : Reg) (c : BitVec 4) (s : State) : Next :=
  let i := Instr.barr lit a b c
  let h := s.me.g b
  deliver 1 c.toNat i s
    (s.handleChecked h
      (let u := s.flush s.cur
       if handleHome h = s.device then
         let (u, st, e) := u.arriveAt (handleNum h) (s.memberOf (handleNum h) s.cur) s.time
         u.answered i c.toNat h false [.g a (dw (e * 2 ^ 32 + st))]
       else
         let st := s.draw 0 % 5
         u.drawn.answered i c.toNat h false [.g a (dw ((if st < 2 then s.draw 1 % 2 ^ 32 else 0) * 2 ^ 32 + st))]))

/-- The three forms that only a core of the home device may use (R381). -/
def State.atHome (s : State) (h : Dword) (r : Res) : Res :=
  if handleBad h || handleHome h ≠ s.device then .illegal 0x0108 h else s.handleChecked h r

/-- BARR `.init` (R381). -/
def execBarrInit (lit : Option Word) (a b : Reg) (c : BitVec 4) (s : State) : Next :=
  let i := Instr.barrInit lit a b c
  let h := s.me.g b
  let ga := s.me.g a
  deliver 1 c.toNat i s
    (s.atHome h
      (if ga.toNat % 64 ≠ 0 then .trap .afterIssue causeMisalign ga
       else match s.readVa s.cur ga.toNat 2112 with
         | .error (e, x) => .trapIn (s.walked s.cur ga 2112) .afterIssue e (dw x)
         | .ok (u, bytes) =>
           let d := (List.range 264).map fun j => bytesAt bytes (8 * j) 8
           let n := handleNum h
           if !s.barrierOk d then u.answered i c.toNat h false [.g a 1]
           else if (s.barrier n).isSome then u.answered i c.toNat h false [.g a 2]
           else
             { u with barriers := tabSet u.barriers n (some (Barrier.parse d (s.me.region.getD 0))) }.answered i c.toNat h
               false [.g a 0]))

/-- BARR `.free` (R381). -/
def execBarrFree (lit : Option Word) (a b : Reg) (c : BitVec 4) (s : State) : Next :=
  let i := Instr.barrFree lit a b c
  let h := s.me.g b
  let n := handleNum h
  deliver 1 c.toNat i s
    (s.atHome h
      (if (s.barrier n).isSome then { s with barriers := tabDel s.barriers n }.answered i c.toNat h false [.g a 0]
       else s.answered i c.toNat h false [.g a 4]))

/-- BARR `.dump` (R381). -/
def execBarrDump (lit : Option Word) (a b : Reg) (c : BitVec 4) (s : State) : Next :=
  let i := Instr.barrDump lit a b c
  let h := s.me.g b
  let ga := s.me.g a
  deliver 1 c.toNat i s
    (s.atHome h
      (match s.barrier (handleNum h) with
       | none => s.answered i c.toNat h false [.g a 4]
       | some x =>
         match s.xlateRange (s.rootOf s.cur) (cellOf s.cur) ga.toNat 2112 .write with
         | .error (e, v) => .trapIn (s.walked s.cur ga 2112) .afterIssue e (dw v)
         | .ok l =>
           let u := l.foldl (fun t (k, m) => t.noteOver s.cur k (List.replicate m (some 0))) (s.walked s.cur ga 2112)
           (u.ownWrites s.cur false [] l (x.image.flatMap (leBytes 8))).answered i c.toNat h false [.g a 0]))

/-- What a waiting BWAIT sees at its barrier: the episode where it may go on, the header's dw0 where it must wait, or
nothing where the object is free or lost. -/
inductive BarrierView where
  | past (episode : Nat)
  | wait (dw0 : Dword)
  | lost
  deriving DecidableEq, Repr

/-- A peer's barrier may answer at any time. -/
def State.viewBarrier (s : State) (h : Dword) (e : Nat) : BarrierView :=
  if !s.homeReachable h then .lost
  else if handleHome h = s.device then
    match s.barrier (handleNum h) with
    | none => .lost
    | some b => if episodeOver b.episode e then .past b.episode else .wait (dw b.dw0)
  else if Config.freeBit s.free then .past ((e + 1 + s.draw 0 % 2 ^ 31) % 2 ^ 32)
  else if s.draw 1 % 2 = 0 then .wait (dw (s.draw 2))
  else .lost

/-- BWAIT waits already for the barrier. -/
def Core.waitsFor (k : Core) (h : Dword) : Option Wait :=
  match k.wait with
  | some w => if w.kind = .bwait && w.handle = h then some w else none
  | none => none

/-- BWAIT (R384). -/
def execBwait (lit : Option Word) (a b : Reg) (s : State) : Next :=
  let i := Instr.bwait lit a b
  let h := s.me.g b
  let v := (s.me.g a).toNat
  let e := v % 2 ^ 32
  let limit := v / 2 ^ 32
  let body : Res :=
    match s.viewBarrier h e with
    | .past n => s.drawn.result 1 0 i 1 [.g a (dw n)]
    | .lost => .trap .atIssue 0x0305 (((s.me.waitsFor h).map (·.val)).getD 0)
    | .wait d =>
      if limit = 0 then .trap .atIssue 0x0305 d
      else .hold (s.drawn.modMe fun k =>
        let since := ((k.waitsFor h).map (·.since)).getD s.cycle
        { k with wait := some ⟨.bwait, since, limit, d, h, e⟩ })
  deliver 1 0 i s
    (if handleBad h then .illegal 0x0108 h
     else s.unlessSpec (if (s.me.waitsFor h).isSome || s.homeReachable h then body else .trap .afterIssue causeUnreach h))

/-- BWAIT's limit passes (R384). -/
def execBwaitLimit (core : Nat) (s : State) : Next :=
  event
    (match s.expired core with
     | some w =>
       if w.kind = .bwait then
         let past : Bool := handleHome w.handle = s.device && (match s.barrier (handleNum w.handle) with
           | some b => episodeOver b.episode w.episode
           | none => false)
         if past then none
         else
           let d := (if handleHome w.handle = s.device then (s.barrier (handleNum w.handle)).map fun b => dw b.dw0 else none).getD w.val
           some (s.waitTrap core 1 0x0305 d)
       else none
     | none => none)

/-- BSTAT (R385): an object not in use has no member, and a header of zeros. -/
def execBstat (lit : Option Word) (d b : Reg) (c : BitVec 4) (hd : BitVec 1) (m : BitVec 5) (s : State) : Next :=
  let i := Instr.bstat lit d b c hd m
  let h := s.me.g b
  let x := match s.barrier (handleNum h) with
    | none => 0
    | some bar => if hd = 1 then bar.dw0 else ((bar.members[m.toNat]?).map Member.dw0).getD 0
  deliver 1 c.toNat i s
    (s.handleChecked h
      (if handleHome h = s.device then s.answered i c.toNat h false [.g d (dw x)]
       else s.drawn.answered i c.toNat h false [.g d (dw (s.draw 0))]))

/-! ### Tiles (R45, R386–R391) -/

/-- Tiles of a region: n_x · n_y · n_z (R45). -/
def Region.tileDims (r : Region) : List Nat :=
  (List.range 3).map fun i => (r.ext.getD i 1 + r.tile.getD i 1 - 1) / r.tile.getD i 1
def Region.total (r : Region) : Nat := r.tileDims.foldl (· * ·) 1

/-- The descriptor of a tile: STATE and TAKER (R386). -/
def Region.desc (r : Region) (dev t : Nat) : TileDesc :=
  (r.descs.find? (·.tile = t)).getD ⟨t, if r.offered then 1 else 0, dev⟩
def Region.setDesc (r : Region) (d : TileDesc) : Region :=
  { r with descs := d :: r.descs.filter (·.tile ≠ d.tile) }
/-- dw0 of a descriptor of device `dev`; every tile is idempotent. -/
def TileDesc.dw0 (d : TileDesc) (dev : Nat) : Nat := d.st * 2 ^ 62 + 2 ^ 61 + d.taker * 2 ^ 45 + dev * 2 ^ 32

/-- The offset in device memory of a region's descriptor of tile `t`: beyond what a program reaches (log 40). -/
def descOffset (base t : Nat) : Nat := dramSize + 32 * (base + t)
/-- The peer form of a descriptor's address (R86). -/
def descPeer (dev off : Nat) : Nat := 3 * 2 ^ 60 + dev % 2 ^ 13 * 2 ^ 47 + 2 * 2 ^ 45 + off % 2 ^ 45

/-- The payload of a tile message (R45, R46, R91), but for TDESC. -/
def Region.tilePayload (r : Region) (t : Nat) : List Nat :=
  let n := r.tileDims
  let i := [t % n.getD 0 1, t / n.getD 0 1 % n.getD 1 1, t / (n.getD 0 1 * n.getD 1 1)]
  let org (j : Nat) : Nat := i.getD j 0 * r.tile.getD j 1
  let size (j : Nat) : Nat := Nat.min (r.tile.getD j 1) (r.ext.getD j 1 - org j)
  let nvalid := if r.cls ≥ 2 then Nat.min (size 0) (r.extX - org 0) else size 0
  [org 1 % 2 ^ 32 * 2 ^ 32 + org 0 % 2 ^ 32, t % 2 ^ 32 * 2 ^ 32 + org 2 % 2 ^ 32,
    nvalid % 2 ^ 16 * 2 ^ 48 + size 2 % 2 ^ 16 * 2 ^ 32 + size 1 % 2 ^ 16 * 2 ^ 16 + size 0 % 2 ^ 16]
/-- TDESC: the descriptor's address in space 2, 0 where the region is not stealable. -/
def Region.tdesc (r : Region) (t : Nat) : Nat := if r.stealable then 2 * 2 ^ 60 + descOffset r.descBase t else 0

/-- What a descriptor address names: a tile of a region of this device, or an offset in a peer's device memory. -/
inductive DescRef where
  | own (region tile : Nat)
  | peer (dev off : Nat)
  | bad
  deriving DecidableEq, Repr

/-- The region and tile whose descriptor stands at an offset of this device. -/
def State.findDesc (s : State) (off : Nat) : DescRef :=
  if off < dramSize || off % 32 ≠ 0 then .bad
  else
    let k := (off - dramSize) / 32
    match s.regions.find? fun (_, r) => match r with
      | some r => r.stealable && r.state ≠ 0 && r.descBase ≤ k && k < r.descBase + r.total
      | none => false with
    | some (id, some r) => .own id (k - r.descBase)
    | _ => .bad

/-- TTAKE's and TDONE's operand (R386): space 2, or the peer form with the owner's number, beyond what programs reach. The
owner may have left the domain since (R391). -/
def State.descRef (s : State) (v : Dword) : DescRef :=
  let n := v.toNat
  if spaceOf n = 2 then s.findDesc (bitsOf n 59 0)
  else if spaceOf n = 3 && bitsOf n 46 45 = 2 then
    let dev := bitsOf n 59 47
    let off := bitsOf n 44 0
    if dev = s.device then s.findDesc off
    else if dramSize ≤ off && off % 32 = 0 && (s.peers.contains dev || s.left.contains dev) then
      .peer dev off
    else .bad
  else .bad

/-- The running firing holds a tile, by its descriptor's peer form (R391), or holds it no more. -/
def State.holdTile (s : State) (key : Nat) : State := s.modMe fun k => { k with fir := { k.fir with tiles := (key, true) :: k.fir.tiles } }
def State.leaveTile (s : State) (key : Nat) : State :=
  s.modMe fun k => { k with fir := { k.fir with tiles := k.fir.tiles.filter (·.1 ≠ key) } }

/-- TTAKE (R387, R388). -/
def execTtake (lit : Option Word) (d b : Reg) (c : BitVec 4) (s : State) : Next :=
  let i := Instr.ttake lit d b c
  let gb := s.me.g b
  deliver 1 c.toNat i s
    (match s.descRef gb with
     | .own id t =>
       match s.region id with
       | none => .illegal 0x0108 gb
       | some r =>
         let x := r.desc s.device t
         let old := x.dw0 s.device
         if r.state ≠ 1 then .illegal 0x0108 gb
         else s.unlessSpec
           (if x.st < 2 then
              let u := s.modRegion id fun r => r.setDesc ⟨t, 2, s.device⟩
              (u.holdTile (descPeer s.device (descOffset r.descBase t))).answered i c.toNat gb true [.g d (dw (old + 2 ^ 31))]
            else s.answered i c.toNat gb true [.g d (dw old)])
     | _ => .illegal 0x0108 gb)

/-- TDONE (R391). -/
def execTdone (lit : Option Word) (d b : Reg) (c : BitVec 4) (s : State) : Next :=
  let i := Instr.tdone lit d b c
  let gb := s.me.g b
  let u := s.flush s.cur
  deliver 1 c.toNat i s
    (match s.descRef gb with
     | .bad => .illegal 0x0108 gb
     | .peer dev off =>
       s.unlessSpec
         (let st := if s.inDomain dev then s.draw 0 % 3 else 2
          (u.leaveTile (descPeer dev off)).drawn.answered i c.toNat gb false [.g d (dw st)])
     | .own id t =>
       match s.region id with
       | none => .illegal 0x0108 gb
       | some r =>
         s.unlessSpec
           (let u := u.leaveTile (descPeer s.device (descOffset r.descBase t))
            let x := r.desc s.device t
            if r.state ≠ 1 then u.answered i c.toNat gb false [.g d 2]
            else if x.st = 2 && x.taker = s.device then
              let u := u.modRegion id fun r => r.setDesc ⟨t, 3, s.device⟩
              { u with retires := u.retires ++ [(id, t, dieOfCore s.cur)] }.answered i c.toNat gb false [.g d 0]
            else u.answered i c.toNat gb false [.g d 1]))

/-- TSTEAL's four destinations. -/
def stealWrites (d : Reg) (l : List Nat) : List RegWrite :=
  (List.range 4).map fun j => .g (BitVec.ofNat 5 (d.toNat + j)) (dw (l.getD j 0))

/-- What TSTEAL finds at the home (R390): a status, or the member device that answers. -/
def State.stealFrom (s : State) (h : Dword) (m : Nat) : Nat × Option Nat :=
  match (s.barrier (handleNum h)).bind fun b => b.members[m]? with
  | none => (3, none)
  | some x =>
    if x.kind ≠ 2 || !x.opn || x.gone then (1, none)
    else if x.id = s.device || !x.nb.any (fun n => bitOf n.toNat 15 && bitsOf n.toNat 12 0 = s.device) then (2, none)
    else (0, some x.id)

/-- A tile of a peer is stolen: its descriptor's address and range as the peer gives them. -/
def State.stolen (s : State) (i : Instr) (la : Nat) (h : Dword) (d : Reg) (dev : Nat) : Res :=
  let key := descPeer dev (dramSize + s.draw 1 % 2 ^ 39 * 32)
  ((s.drawn.holdTile key).bump 6 0 4).answered i la h false (stealWrites d [key, s.draw 2, s.draw 3, s.draw 4])

/-- TSTEAL (R390). The member device is always a peer, and what it answers is open. -/
def execTsteal (lit : Option Word) (d b : Reg) (c : BitVec 4) (m : BitVec 5) (s : State) : Next :=
  let i := Instr.tsteal lit d b c m
  let h := s.me.g b
  let la := c.toNat
  deliver 1 la i s
    (if d = 0 || d.toNat > 28 then .illegal 0x0108 (d.setWidth 64)
     else s.handleChecked h
       (if handleHome h = s.device then
          match s.stealFrom h m.toNat with
          | (st, none) => s.answered i la h false (stealWrites d [st])
          | (_, some dev) =>
            if s.inDomain dev && s.draw 0 % 2 = 0 then s.stolen i la h d dev
            else s.drawn.answered i la h false (stealWrites d [5])
        else match s.draw 0 % 5 with
          | 0 =>
            let others := s.peers.filter s.inDomain
            s.stolen i la h d (others.getD (s.draw 5 % others.length) (handleHome h))
          | 4 => s.drawn.answered i la h false (stealWrites d [5])
          | n => s.drawn.answered i la h false (stealWrites d [n])))

/-! ### Opening and closing a tile set (R389) -/

/-- Every QUEUED descriptor becomes OFFERED, or every OFFERED one QUEUED (DEDUCED, log 79). -/
def Region.offer (r : Region) (open' : Bool) : Region :=
  { r with offered := open',
           descs := r.descs.map fun (d : TileDesc) => if d.st < 2 then { d with st := b2n open' } else d }

/-- A notice of a barrier's home for a region's tile set: one of this device's barriers, or one of a peer's. -/
def State.tileSet (s : State) (id : Nat) (open' : Bool) : Option State :=
  let mine := s.tileNotices.findIdx? fun (r, _) => r = id
  let own : Bool := match mine.bind fun i => s.tileNotices[i]? with
    | some (_, o) => o = open'
    | none => false
  if !own && !s.peers.any s.inDomain then none
  else
    let s := if own then { s with tileNotices := listDel s.tileNotices (mine.getD 0) } else s
    match s.region id with
    | none => if own then some s else none
    | some r =>
      if r.stealable && r.state = 1 then
        some ((s.modRegion id fun r => { r.offer open' with peerOpen := r.peerOpen || (open' && !own) }).bump 6 0 2 (b2n open'))
      else if own then some s else none

/-- TILE_SET_OPEN (R389): A member device offers its queued tile descriptors. -/
def execTileSetOpen (region : Nat) (s : State) : Next := event (s.tileSet region true)
/-- TILE_SET_CLOSE (R389): A member device returns its offered tile descriptors to QUEUED. -/
def execTileSetClose (region : Nat) (s : State) : Next := event (s.tileSet region false)

/-! ### The loss of a device (R392) -/

/-- Descriptors taken by a lost device return, and their tiles are dealt again. -/
def Region.returnTiles (r : Region) (dev own : Nat) : Region × Nat :=
  let back := r.descs.filter fun d => d.st = 2 && d.taker = dev
  let fix (d : TileDesc) : TileDesc := if d.st = 2 && d.taker = dev then ⟨d.tile, b2n r.offered, own⟩ else d
  let tiles := back.map (·.tile)
  ({ r with descs := r.descs.map fix, dealt := r.dealt.filter fun (t, _) => !tiles.contains t, redo := r.redo ++ tiles },
    back.length)

/-- The members of device `dev` are GONE. -/
def Barrier.lose (b : Barrier) (dev : Nat) : Barrier :=
  { b with members := b.members.map fun (m : Member) => if m.kind = 2 && m.id = dev then { m with gone := true } else m }
/-- The episode waits for the members of a device and for nothing else (R392). -/
def Barrier.onlyAwaits (b : Barrier) (dev : Nat) : Bool :=
  b.members.any (fun m => m.kind = 2 && m.id = dev && !m.gone && !m.arr) && (b.lose dev).members.all fun m => m.gone || m.arr

/-- Members of a lost device are no longer waited for: an episode that waited only for them completes (R392). -/
def State.loseMembers (s : State) (dev : Nat) : State :=
  (s.barriers.map (·.1)).foldl
    (fun t n => match t.barrier n with
      | none => t
      | some b =>
        let t := t.modBarrier n (Barrier.lose · dev)
        if b.onlyAwaits dev then t.completeAt n (b.lose dev) else t)
    s

/-- Once no peer of the domain is left, none raises a core of this device (R120, R384). -/
def State.calm (s : State) : State :=
  if s.peers.any s.inDomain then s else { s with cores := s.cores.map fun (n, (k : Core)) => (n, { k with peerInh := none }) }

/-- A device of the domain is fenced from it (R392). -/
def State.loseDevice (s : State) (dev : Nat) : State :=
  let s := { s with fenced := dev :: s.fenced }
  let s := (s.regions.map (·.1)).foldl
    (fun t id => match t.region id with
      | some r =>
        if r.state = 1 && r.stealable then
          let (r, n) := r.returnTiles dev t.device
          (t.modRegion id fun _ => r).bump 6 0 5 n
        else t
      | none => t)
    s
  (s.loseMembers dev).calm

/-- DEVICE_FENCED_FROM_DOMAIN (R392): A peer silent for 2^20 ns is marked lost, its taken tiles return and its barrier
members go. -/
def execDeviceFencedFromDomain (device : Nat) (s : State) : Next :=
  event (if device < 2 ^ 13 && !s.fenced.contains device && device ≠ s.device then some (s.loseDevice device) else none)

/-! ### What peers ask of this device -/

/-- A peer's BARR for its member of a barrier homed here (R382): its stamp is the TIME at which the peer issued it, which may be
any earlier one (DESIGN CHOICE, log 41). -/
def State.peerArrive (n i : Nat) (s : State) : Next :=
  event
    (match (s.barrier n).bind fun b => b.members[i]? with
     | some m => if m.kind = 2 && m.id ≠ s.device && s.inDomain m.id then
         some (s.drawn.arriveAt n (some i) (s.time - s.draw 0 % (s.time + 1))).1
       else none
     | none => none)

/-- A barrier's home in another device, or a waiter there, raises a core of this one to a class, or no longer does (R120, R384). -/
def State.peerRaise (core : Nat) (cls : Option Nat) (s : State) : Next :=
  event (if s.peers.any s.inDomain && cls.all (· < 4) then some (s.modCore core fun k => { k with peerInh := cls }) else none)

/-- A peer's die is fenced, and this device learns of it (R82, R376). -/
def State.peerFence (dev die : Nat) (s : State) : Next :=
  event (if dev ≠ s.device && s.inDomain dev && die < 4 then some { s with peerDead := (dev, die) :: s.peerDead } else none)

/-- The lowest-numbered OFFERED tile (R390). -/
def Region.lowestOffered (r : Region) : Option Nat :=
  let listed := (r.descs.filter (·.st = 1)).map (·.tile)
  let rest := if r.offered then (List.range (Nat.min r.total (r.descs.length + 1))).filter fun t => !r.descs.any (·.tile = t) else []
  (listed ++ rest).foldl (fun m t => match m with
    | none => some t
    | some x => some (Nat.min x t)) none

/-- A peer learns at its barrier's home that it may ask for a tile of region `id`: a member of one homed here that stands for
this device and that region is open and names the peer as its neighbour; or a barrier homed at a peer has opened the tile set, which
answers as it likes (R390) (DESIGN CHOICE, log 41). -/
def State.maySteal (s : State) (id dev : Nat) : Bool :=
  let ms := s.barriers.flatMap fun (_, b) => match b with
    | some b => b.members.filter fun m => m.kind = 2 && m.id = s.device && m.region = id
    | none => []
  (s.region id).any (·.peerOpen) || ms.any fun m => m.opn && !m.gone && m.nb.any fun n => bitOf n.toNat 15 && bitsOf n.toNat 12 0 = dev

/-- A peer steals the lowest offered tile of a region (R390). -/
def State.peerSteal (id dev : Nat) (s : State) : Next :=
  event
    (match s.region id with
     | some r =>
       if r.state = 1 && s.inDomain dev && dev ≠ s.device && s.maySteal id dev then
         r.lowestOffered.map fun t => (s.modRegion id fun r => r.setDesc ⟨t, 2, dev⟩).bump 6 0 3
       else none
     | none => none)

/-- A peer's TDONE of a tile that it has taken (R391): its writes are performed, and the tile retires. -/
def State.peerDone (id t : Nat) (s : State) : Next :=
  event
    (match s.region id with
     | some r =>
       let d := r.desc s.device t
       if r.state = 1 && d.st = 2 && d.taker ≠ s.device && s.inDomain d.taker then
         some { (s.modRegion id fun r => r.setDesc { d with st := 3 }) with retires := s.retires ++ [(id, t, s.master)] }
       else none
     | none => none)

end Sys2Proof.Machine
end

