-- ==== Sys2Proof/Machine/Contexts.lean ====
section
/-! DEFINITION. Travelling contexts (R341–R355): MIGRATE, SPAWN, CTXLD, and the arrival of a context. -/

namespace Sys2Proof.Machine

/-- The owner core of an address in global SRAM (R342). -/
def ownerCore (key : Nat) : Nat := sramCell key * 8 + bitsOf (sramOff key) 20 18

/-- The message of a context (R341). -/
def State.contextMsg (s : State) (core target : Nat) (gc : Dword) (ctx : Option Nat) (answer : Option (Nat × Nat)) : Msg :=
  let k := s.core core
  let region := k.region.getD 0
  let pay := gc :: (List.range 8).map fun i => k.g (BitVec.ofNat 5 (8 + i))
  { Msg.from core region (header 6 (s.classOf core) 9 region (s.tag core 0)) pay (s.tag target 3) with
    slot := true, charged := true, rel := some (smallestScope core target), ctx := ctx, answer := answer }

/-- Steps 1 to 4 of R349: the state after the walk and the home address of ga, then `r`. -/
def State.contextChecked (s : State) (ga gc : Dword) (r : State → Nat → Res) : Res :=
  if gc.toNat % 8 ≠ 0 || gc.toNat / 2 ^ 56 ≠ 0 then .trap .atIssue 0x0307 gc
  else match s.xlate (s.rootOf s.cur) (cellOf s.cur) ga.toNat .read with
    | .error c => .trapIn (s.walked s.cur ga) .atIssue c ga
    | .ok key =>
      let t := s.walked s.cur ga
      if spaceOf key ≠ 1 then .trapIn t .atIssue causeUnreach ga
      else if s.me.fir.spec then .trapIn t .atIssue 0x0309 0
      else r t key

/-- MIGRATE (R349, R350, R352). -/
def execMigrate (lit : Option Word) (a c : Reg) (s : State) : Next :=
  let ga := s.me.g a
  let gc := rcValue s.me lit c
  let region := s.me.region.getD 0
  deliver 1 0 (.migrate lit a c) s
    (s.drained
      (s.contextChecked ga gc fun s key =>
        if s.me.fir.ctx.isNone && !s.fits region .ctx 1 then .trapIn s .atIssue 0x0317 ga
        else
          let t := if s.me.fir.ctx.isSome then s else s.charge region .ctx 1
          match t.takeSlot s.cur with
          | none => .trapIn s .atIssue 0x0316 ga
          | some u =>
            let ctx := if s.me.fir.ctx.isSome then s.me.fir.ctx else some region
            let m := u.contextMsg s.cur (ownerCore key) gc ctx none
            .ok (((u.flush s.cur).post m).endFiring s.cur .migrated)))

/-- SPAWN (R349, R351, R352): gd is pending until the target NI answers. -/
def execSpawn (lit : Option Word) (d a : Reg) (e : BitVec 4) (c : Reg) (s : State) : Next :=
  let i := Instr.spawn lit d a e c
  let ga := s.me.g a
  let gc := rcValue s.me lit c
  let region := s.me.region.getD 0
  let who := s.me.issued 1 e.toNat i
  deliver 1 e.toNat i s
    (s.contextChecked ga gc fun s key =>
      if !s.fits region .ctx 1 then (s.bump 4 s.cur 5).result 1 e.toNat i 1 [.g d 0]
      else match (s.charge region .ctx 1).takeSlot s.cur with
        | none => .trapIn s .atIssue 0x0316 ga
        | some u =>
          let m := u.contextMsg s.cur (ownerCore key) gc (some region) (some (s.cur, who.ord))
          let u := (u.flush s.cur).modMe fun k => k.addPend
            { who := who, kind := .reply, writes := [.g d 0], flags := 0, fp := false, acq := false, issued := s.cycle,
              due := s.cycle, va := ga, dwords := [], fault := none, ready := false, lost := false }
          .ok (u.post m))

/-! ### Spilling and reloading -/

/-- Channel 3 is at its depth (R345). -/
def Core.contextsFull (k : Core) : Bool := (k.entry 63).depthOf ≤ k.count 3

/-- A record at the tail of a core's context list (R344, R345), or none where no record is free. -/
def State.spillContext (s : State) (core : Nat) (r : Region) (hdr : Dword) (pay : List Dword) : Option State :=
  match s.takeRecord r with
  | none => none
  | some (t, off) =>
    let t := t.writeRecord r off 6 core 0 hdr pay
    let t := match (s.core core).ctxList.getLast? with
      | some last => t.linkRecord r last off
      | none => t
    let t := t.modCore core fun k => { k with ctxList := k.ctxList ++ [off] }
    some (t.spillReport core r s ([0, 8, bitsOf (s.spillGet r 0) 31 0] ++ (s.core core).ctxList.getLast?.toList))

/-- CTXLD OP 0 (R353): contexts placed from the head of the list; `fuel` bounds the list. -/
def State.reload (s : State) (core : Nat) (r : Region) (id n : Nat) : Nat → Nat → Nat × State
  | 0, k => (k, s)
  | fuel + 1, k =>
    match (s.core core).ctxList with
    | [] => (k, s)
    | off :: rest =>
      if n ≠ 0 && n ≤ k || (s.core core).contextsFull then (k, s)
      else
        let (hdr, pay) := s.readRecord r off
        let after := s.afterHead r off rest
        match s.place core 3 hdr pay 0 none id (some id) with
        | none => (k, s)
        | some t =>
          let t := (t.modCore core fun x => { x with ctxList := after }).noteReads
            (s.spillKeys r (recordOffs off ++ s.afterReads r off rest))
          let t := (t.releaseRecord r off).spillReport core r s (recordOffs off ++ [0, 8] ++ s.afterReads r off rest)
          (t.bump 4 core 2).reload core r id n fuel (k + 1)

/-- The parameter of CTXLD breaks its layout (R353). -/
def ctxldBad (v : Nat) : Bool :=
  v / 2 ^ 20 ≠ 0 || bitsOf v 7 2 ≠ 0 || 2 ≤ bitsOf v 1 0 || (bitsOf v 1 0 = 0 && bitsOf v 19 16 ≠ 0)
    || (bitsOf v 1 0 = 1 && (bitsOf v 15 8 ≠ 0 || 6 < bitsOf v 19 16))

/-- CTXLD (R353, R354). -/
def execCtxld (lit : Option Word) (d : Reg) (e : BitVec 4) (c : Reg) (s : State) : Next :=
  let i := Instr.ctxld lit d e c
  let gc := rcValue s.me lit c
  let v := gc.toNat
  deliver 1 e.toNat i s
    (if ctxldBad v then .illegal 0x0108 gc
     else if bitsOf v 1 0 = 1 then s.result 1 e.toNat i 1 [.g d (dw (s.counter 4 s.cur (bitsOf v 19 16)))]
     else match s.me.region, s.me.region.bind s.region with
       | some id, some r =>
         let (n, t) := s.reload s.cur r id (bitsOf v 15 8) (s.me.ctxList.length + r.spillSize / 128) 0
         t.result 1 e.toNat i 1 [.g d (dw (t.me.ctxList.length * 2 ^ 32 + n))]
       | _, _ => s.result 1 e.toNat i 1 [.g d 0])

/-! ### Arrival (R345) -/

/-- A context that is dropped for its region, spilled, placed, or refused; `idx` is its place in the net. -/
def State.arriveContext (s : State) (idx : Nat) (m : Msg) : State :=
  let t := { s with net := listDel s.net idx }
  let core := tagCore m.dst.toNat
  let k := s.core core
  let refused (s : State) : State :=
    let s := ((s.refuse idx core).bump 4 core 3).answer m 3
    { s with net := listMod s.net idx fun m => { m with answer := none } }
  if s.unreachableTag m.dst.toNat then t.dropMsg m
  else
    match k.region, k.region.bind s.region with
    | some id, some r =>
      if bitsOf m.hdr.toNat 47 32 ≠ id % 0x1_0000 then
        ((match m.ctx with
          | some c => (t.settle m).uncharge c .ctx 1
          | none => t.settle m).bump 4 core 4).answer m 4
      else
        let spill : State :=
          match t.spillContext core r m.hdr m.pay with
          | some u => ((u.settle m).bump 4 core 1).answer m 2
          | none => refused (s.spillFull r)
        if !k.ctxList.isEmpty || k.contextsFull then spill
        else match t.place core 3 m.hdr m.pay 0 (m.rel.map fun x => (x, m.src.getD core)) m.region m.ctx with
          | some u => ((u.settle m).bump 4 core 0).answer m 1
          | none => spill
    | _, _ =>
      ((match m.ctx with
        | some c => (t.settle m).uncharge c .ctx 1
        | none => t.settle m).bump 4 core 4).answer m 4

/-- The context of sequence number `seq` is still on its way after the NI's decision: it was refused. -/
def State.stillRefused (s : State) (idx seq : Nat) : Bool := s.net[idx]?.any fun m => m.seq = seq && m.refused

/-- A travelling context reaches its target NI (R345). Behind refused ones of its sender it reaches the NI where it is refused
too: a context is received in the order of sending (R320), and every one that reaches the NI is answered (R351) (DESIGN
CHOICE, log 105). -/
def execContextArrival (idx : Nat) (s : State) : Next :=
  event
    (match s.net[idx]? with
     | none => none
     | some m =>
       if hdrType m.hdr = 6 && !m.refused && m.due ≤ s.cycle + 1 && (s.ahead idx m).all (·.refused) then
         let t := s.arriveContext idx m
         if !s.behind idx m || t.stillRefused idx m.seq then some t else none
       else none)

end Sys2Proof.Machine
end

