-- ==== Sys2Proof/Machine/Gauss.lean ====
section
/-! DEFINITION. Gaussian message passing (R356–R373): nodes and pairs, the Schur unit's GJOIN, GELIM, GDAMP, GSEND and
GBEL, and the arrival of a pair. A command has its effect at its issue, which is the unit's order. -/

namespace Sys2Proof.Machine

/-! ### Nodes and pairs (R356–R358) -/

/-- Words of a pair of dimension `d`. -/
def pairWords (d : Nat) : Nat := d + d * (d + 1) / 2
/-- Place of Λ[r][c] among the packed words of dimension `d`. -/
def lamIndex (d r c : Nat) : Nat :=
  let lo := Nat.min r c
  let hi := Nat.max r c
  d + (lo * d - lo * (lo - 1) / 2) + (hi - lo)

/-- Offsets of the regions of a node by KIND: prior or η, edge table, slot 0, out record 0. -/
def ownOff (kind : Nat) : Nat := if kind = 1 then 0x040 else 0x080
def edgeOff (kind : Nat) : Nat := if kind = 1 then 0x080 else 0x040
def slotOff (kind e : Nat) : Nat := (if kind = 1 then 0x180 else 0x300) + 64 * e
def outOff (kind e : Nat) : Nat := (if kind = 1 then 0x580 else 0x400) + 64 * e

/-- A node's header: dw0 to dw7. -/
structure NodeHdr where
  dws : List Nat
  deriving DecidableEq, Repr

def NodeHdr.dw (h : NodeHdr) (i : Nat) : Nat := h.dws.getD i 0
def NodeHdr.kind (h : NodeHdr) : Nat := bitsOf (h.dw 0) 63 62
def NodeHdr.skip (h : NodeHdr) : Bool := bitOf (h.dw 0) 60
def NodeHdr.owner (h : NodeHdr) : Nat := bitsOf (h.dw 0) 59 57
def NodeHdr.dch (h : NodeHdr) : Nat := bitsOf (h.dw 0) 56 51
def NodeHdr.ne (h : NodeHdr) : Nat := bitsOf (h.dw 0) 45 41
def NodeHdr.alpha (h : NodeHdr) : Nat := bitsOf (h.dw 1) 15 8
def NodeHdr.eps (h : NodeHdr) : Nat := bitsOf (h.dw 2) 63 32
def NodeHdr.delta (h : NodeHdr) : Nat := bitsOf (h.dw 2) 31 0
/-- The dimension of the pair in slot `e`. -/
def NodeHdr.slotDim (h : NodeHdr) (e : Nat) : Nat :=
  if h.kind = 1 then bitsOf (h.dw 0) 1 0 + 1 else bitsOf (h.dw 1 % 256) (2 * e + 1) (2 * e) + 1
def NodeHdr.dims (h : NodeHdr) : List Nat := (List.range h.ne).map h.slotDim
/-- D: of a variable its d, of a factor the sum of its variables' dimensions. -/
def NodeHdr.joint (h : NodeHdr) : Nat := if h.kind = 1 then h.slotDim 0 else h.dims.foldl (· + ·) 0

/-- The header keeps R357: kinds, counts, the ranges of ε and δ, and zeros in every field that is to be 0. -/
def NodeHdr.ok (h : NodeHdr) : Bool :=
  let eps := f32 h.eps
  let delta := f32 h.delta
  (h.kind = 1 || h.kind = 2) && 5 ≤ h.dch && bitsOf (h.dw 0) 50 46 = 0 && bitsOf (h.dw 0) 40 2 = 0
    && h.dw 1 / 2 ^ 16 = 0 && (List.range 4).all (fun i => h.dw (4 + i) = 0)
    && (if h.kind = 1 then 1 ≤ h.ne && h.ne ≤ 16 && h.dw 1 % 256 = 0
        else 1 ≤ h.ne && h.ne ≤ 4 && bitsOf (h.dw 0) 1 0 = 0 && h.dw 1 % 256 / 4 ^ h.ne = 0)
    && eps.isFin && delta.isFin && le32 0 h.eps && lt32 h.eps 0x3F80_0000 && le32 0 h.delta && h.joint ≤ 16

/-- The home address of a byte of a node, its offset wrapped within the slice. -/
def nodeKey (cell off i : Nat) : Nat := sramKey cell ((off + i) % 2 ^ 21)
/-- Words of a node as the home holds them. -/
def nodeWords (read : Nat → Byte) (cell off i n : Nat) : List Nat :=
  (List.range n).map fun j => leNat ((List.range 4).map fun b => read (nodeKey cell off (i + 4 * j + b)))
def nodeHdr (read : Nat → Byte) (cell off : Nat) : NodeHdr :=
  let w := nodeWords read cell off 0 16
  ⟨(List.range 8).map fun i => w.getD (2 * i) 0 + 2 ^ 32 * w.getD (2 * i + 1) 0⟩

/-- Words read by the issuing core's unit (R372), errors of the reads noted (R424). -/
def State.schurWords (s : State) (off i n : Nat) : List Nat := nodeWords (s.coreByte s.cur) (cellOf s.cur) off i n
def State.schurNote (s : State) (off : Nat) (l : List (Nat × Nat)) : State :=
  s.readDone s.cur (l.flatMap fun (i, n) => dwordsOf (nodeKey (cellOf s.cur) off i) (4 * n))
/-- A write of the unit: a write of the issuing core, in its order (R372). -/
def State.schurWrite (s : State) (off i : Nat) (words : List Nat) : State :=
  let key := nodeKey (cellOf s.cur) off i
  (s.noteOver s.cur key (List.replicate (4 * words.length) (some 0))).ownWrites s.cur false [] [(key, 4 * words.length)]
    (words.flatMap (leBytes 4))
/-- A change of a doubleword of the node's header, in one step at its home, behind the core's own earlier writes of it. -/
def State.schurUpdate (s : State) (off i : Nat) (f : Nat → Nat) : State :=
  let key := nodeKey (cellOf s.cur) off i
  ((s.flushAt s.cur key 8).atomic s.cur key 8 false fun v => some (f v)).2

/-! ### Dirty entries (R361) -/

/-- A dirty entry at the door of its core: whether it is placed; one that is not is to be tried again (R320). -/
def State.placeDirty (s : State) (core ch : Nat) (hdr : Dword) : Bool × State :=
  let region := (s.core core).region.getD 0
  let s := s.modRegion region fun r => { r with qRose := true }
  match s.place core ch hdr [] 0 none region none with
  | some t => (true, t)
  | none =>
    let m := { Msg.from core region hdr [] (s.tag core ch) with
      src := none, back := 64, due := s.cycle + 64, refused := true, seq := s.seq }
    (false, { s.bump 3 core 2 with net := s.net ++ [m], seq := s.seq + 1 })

/-- Step 2 of R361: DIRTY set and an entry posted, unless DIRTY is 1 already. Whether one was placed (R370). -/
def State.postDirty (s : State) (cell off slot cls : Nat) : Bool × State :=
  let key := nodeKey cell off 0
  let d := s.homeNat key 8
  if bitOf d 61 then (false, s)
  else
    let s := (s.noteReads [key]).writeHome key (leBytes 8 (d + 2 ^ 61))
    let hdr := dw (4 * 2 ^ 60 + cls % 4 * 2 ^ 58 + 2 ^ 57 + slot % 16 * 2 ^ 48 + off / 64 % 2 ^ 15 * 2 ^ 33)
    s.placeDirty (8 * cell + bitsOf d 59 57) (bitsOf d 56 51) hdr

/-! ### Arrival of a pair (R361) -/

/-- Words of a payload. -/
def payWords (pay : List Dword) : List Nat := pay.flatMap fun d => [bitsOf d.toNat 31 0, bitsOf d.toNat 63 32]

/-- The pair breaks R361 for its node. -/
def pairBad (n : NodeHdr) (hdr : Dword) (pay : List Dword) : Bool :=
  let h := hdr.toNat
  let slot := bitsOf h 51 48
  n.kind = 0 || n.kind = 3 || n.dch < 5 || n.ne ≤ slot || bitsOf h 53 52 + 1 ≠ n.slotDim slot
    || h % 256 ≠ (pairWords (n.slotDim slot) + 1) / 2 || pay.length ≠ h % 256 || bitsOf h 56 54 ≠ 0 || bitsOf h 32 8 ≠ 0
    || bitOf h 57

/-- A pair at the NI of its node's cell: dropped as malformed, or written into its slot, with a dirty entry. -/
def State.arrivePair (s : State) (idx : Nat) (m : Msg) : State :=
  let t := { s with net := listDel s.net idx }
  let core := tagCore m.dst.toNat
  let cell := cellOf core
  let h := m.hdr.toNat
  let off := bitsOf h 47 33 * 64
  let n := nodeHdr t.homeByte cell off
  let slot := bitsOf h 51 48
  if s.unreachableTag m.dst.toNat then t.dropMsg m
  else if tagDev m.dst.toNat ≠ s.device then t.settle m
  else if (s.core core).region.isNone && (s.cell cell).freed then t.dropMsg m
  else
    let t := (t.settle m).noteReads ((List.range 8).map fun i => dwOf (nodeKey cell off (8 * i)))
    if pairBad n m.hdr m.pay then t.bump 5 cell 6
    else
      let d := n.slotDim slot
      let key := nodeKey cell off (slotOff n.kind slot)
      let dw7 := t.homeNat (key + 56) 8
      let dw7 := setBits (setBits dw7 32 32 1) 31 0 ((bitsOf dw7 31 0 + 1) % 2 ^ 32)
      let words := (payWords m.pay).take (pairWords d)
      let bytes := (words ++ List.replicate (14 - pairWords d) 0).flatMap (leBytes 4) ++ leBytes 8 dw7
      let t := t.noteReads [dwOf (key + 56)]
      ((((t.writeHome key bytes).bump 5 cell 1).postDirty cell off slot (bitsOf h 59 58))).2

/-- GAUSSIAN_PAIR_ARRIVAL (R361): An information pair is checked and written into a node's mailbox slot. -/
def execGaussianPairArrival (idx : Nat) (s : State) : Next :=
  event
    (match s.net[idx]? with
     | none => none
     | some m =>
       if hdrType m.hdr = 4 && !m.isDirty && !m.refused && m.due ≤ s.cycle + 1 && !s.behind idx m then
         some (s.arrivePair idx m)
       else none)

/-! ### The unit's arithmetic -/

/-- A joint block: η and the packed Λ of dimension `d` (R358, R363). -/
abbrev Joint := List Nat

/-- Words of a slot's pair added into the block of the rows from `o` (R366). -/
def joinSlot (d o n : Nat) (j pair : Joint) : Joint :=
  let at' (j : Joint) (i x : Nat) : Joint := listSet j i (add32 (j.getD i 0) x)
  let j := (List.range n).foldl (fun j r => at' j (o + r) (pair.getD r 0)) j
  (List.range n).foldl
    (fun j r => (List.range (n - r)).foldl
      (fun j c => at' j (lamIndex d (o + r) (o + r + c)) (pair.getD (lamIndex n r (r + c)) 0)) j)
    j

/-- A matrix in elimination: rows of n columns and the η column. -/
abbrev ElimRows := List (List Nat)
def ElimRows.at (a : ElimRows) (i c : Nat) : Nat := (a.getD i []).getD c 0

/-- The greatest diagonal element that is no NaN, +0 where there is none (R367). -/
def largest (l : List Nat) : Nat :=
  (l.foldl
    (fun m x => if (f32 x).isNan then m else match m with
      | none => some x
      | some y => if lt32 y x then some x else m)
    (none : Option Nat)).getD 0

/-- One pivot's row operation on the rows below it. -/
def eliminateRow (a : ElimRows) (j i n : Nat) : ElimRows :=
  let nf := neg32 (div32 (a.at j i) (a.at j j))
  let row := (List.range (n + 1)).map fun c => if i ≤ c then fma32 nf (a.at j c) (a.at i c) else a.at i c
  listSet a i row

/-- Square-root-free Cholesky of the first `nb` pivots, from pivot `j` (R367): the rows, or the failing pivot. -/
def eliminate (thr n : Nat) : Nat → Nat → ElimRows → Except Nat ElimRows
  | 0, _, a => .ok a
  | left + 1, j, a =>
    let p := a.at j j
    if (f32 p).isNan || le32 p 0 || le32 p thr then .error j
    else eliminate thr n left (j + 1) ((List.range (n - (j + 1))).foldl (fun a i => eliminateRow a j (j + 1 + i) n) a)

/-- J reordered by `order`, with η as the last column, and eliminated. -/
def eliminateJoint (j : Joint) (d : Nat) (order : List Nat) (nb eps : Nat) : Except Nat ElimRows :=
  let a : ElimRows := order.map fun r => (order.map fun c => j.getD (lamIndex d r c) 0) ++ [j.getD r 0]
  let thr := mul32 eps (largest ((List.range d).map fun i => a.at i i))
  eliminate thr d nb 0 a

/-- ElimRows nb to n−1 as a pair: η and the upper triangle. -/
def lowerPair (a : ElimRows) (nb n : Nat) : Joint :=
  ((List.range (n - nb)).map fun i => a.at (nb + i) n)
    ++ (List.range (n - nb)).flatMap fun i => (List.range (n - nb - i)).map fun c => a.at (nb + i) (nb + i + c)

/-- The backward solution of R371 for rows j−1 down to 0. -/
def backSolve (a : ElimRows) (d : Nat) : Nat → List Nat → List Nat
  | 0, mu => mu
  | j + 1, mu =>
    let s := (List.range (d - (j + 1))).foldl
      (fun s c => fma32 (neg32 (a.at j (j + 1 + c))) (mu.getD c 0) s) (a.at j d)
    backSolve a d j (div32 s (a.at j j) :: mu)

/-- |a − b|, exactly; a NaN where one is, or where both are the same infinity. -/
def absDiff (a b : Nat) : FV :=
  match ((f32 a).add .rne (f32 b).flip).1 with
  | .fin _ m e => .fin false m e
  | .inf _ => .inf false
  | .nan s => .nan s
/-- |a − b| > δ, and |a − b| ≤ δ; both false for a NaN. -/
def movedBeyond (a b delta : Nat) : Bool := !(absDiff a b).isNan && !(f32 delta).isNan && (absDiff a b).cmp (f32 delta) > 0
def within (a b delta : Nat) : Bool := !(absDiff a b).isNan && !(f32 delta).isNan && (absDiff a b).cmp (f32 delta) ≤ 0

/-- rne32(((256 − a)·T + a·old) ÷ 256) (R369). -/
def damped (alpha t old : Nat) : Nat :=
  let x := ((FV.ofInt (256 - alpha : Nat)).mul (f32 t)).1
  let y := ((FV.ofInt (alpha : Nat)).mul (f32 old)).1
  rne32 (match (x.add .rne y).1 with
    | .fin n m e => .fin n m (e - 8)
    | v => v)

/-! ### The instructions -/

/-- The unit of a cell is busy with earlier commands until this cycle (R363). -/
def State.schurFree (s : State) (cell : Nat) : Nat :=
  (List.range 8).foldl
    (fun m i => (s.core (8 * cell + i)).pend.foldl
      (fun m p => match p.who.instr with
        | .gjoin .. | .gelim .. | .gdamp .. | .gsend .. | .gbel .. => Nat.max m p.due
        | _ => m) m)
    s.cycle

/-- A command's end: gd is written after the commands ahead of it and its own cycles (R363, R364) (DEDUCED, log 38). -/
def State.schurResult (s : State) (i : Instr) (la : Nat) (d : Reg) (cycles v : Nat) : Res :=
  s.result 1 la i (s.schurFree (cellOf s.cur) - s.cycle + cycles) [.g d (dw v)]

/-- The checks of R365 on a node at `ga`, for `r` with its slice offset and header. Inside a speculation SPEC_STORE, which is met
at issue, stands for every fault (R135). -/
def State.nodeChecked (s : State) (ga : Dword) (r : Nat → NodeHdr → Res) : Res :=
  if ga.toNat % 64 ≠ 0 then s.unlessSpec (.trap .afterIssue causeMisalign ga)
  else match s.xlate (s.rootOf s.cur) (cellOf s.cur) ga.toNat .read with
    | .error c => s.unlessSpec (.trapIn (s.walked s.cur ga) .afterIssue c ga)
    | .ok key =>
      if spaceOf key ≠ 1 || sramCell key ≠ cellOf s.cur then .illegal 0x0108 ga
      else
        let h := nodeHdr (s.coreByte s.cur) (cellOf s.cur) (sramOff key)
        if h.ok then r (sramOff key) h else .illegal 0x0108 ga

/-- Prior or own information joined with every slot but `skip`, and the WRITTEN bits (R366, R371). -/
def State.joinNode (s : State) (off : Nat) (h : NodeHdr) (skip : Option Nat) : Joint × Nat :=
  let d := h.joint
  let own := if h.kind = 1 then s.schurWords off 0x040 (pairWords d)
    else s.schurWords off 0x080 d ++ s.schurWords off 0x0C0 (d * (d + 1) / 2)
  let at' (e : Nat) : Nat := if h.kind = 1 then 0 else ((List.range e).map h.slotDim).foldl (· + ·) 0
  let j := (List.range h.ne).foldl
    (fun j e =>
      if some e = skip then j
      else joinSlot d (at' e) (h.slotDim e) j (s.schurWords off (slotOff h.kind e) (pairWords (h.slotDim e))))
    own
  let written := (List.range h.ne).foldl (fun w e => w + (s.schurWords off (slotOff h.kind e + 60) 1).headD 0 % 2 * 2 ^ e) 0
  (j, written)

/-- What a join reads. -/
def NodeHdr.reads (h : NodeHdr) : List (Nat × Nat) := [(0, 16), (ownOff h.kind, pairWords h.joint)]
  ++ (List.range h.ne).map fun e => (slotOff h.kind e, 16)

/-- GJOIN (R365, R366). -/
def execGjoin (lit : Option Word) (d a : Reg) (e : BitVec 4) (c : Reg) (s : State) : Next :=
  let i := Instr.gjoin lit d a e c
  let gc := rcValue s.me lit c
  deliver 1 e.toNat i s
    (if gc.toNat / 16 ≠ 0 then .illegal 0x0108 gc
     else s.nodeChecked (s.me.g a) fun off h =>
      if h.ne ≤ gc.toNat then .illegal 0x0108 gc
      else s.unlessSpec
        (let t := (s.noteWalk (s.rootOf s.cur) (cellOf s.cur) (s.me.g a).toNat).schurUpdate off 0 fun v => setBits v 61 61 0
         let (j, written) := t.joinNode off h (some gc.toNat)
         let t := (t.schurNote off h.reads).modMe fun k => { k with schur :=
           { bound := some (off, gc.toNat), kind := h.kind, dims := h.dims, j := j.map (BitVec.ofNat 32), m := [],
             valid := false, settled := false } }
         t.schurResult i e.toNat d (8 + 4 * (h.ne - 1)) (h.kind * 2 ^ 30 + h.joint * 2 ^ 20 + written)))

/-- A context is bound (R365): `r` gets its node's offset and target, and the header as it stands. -/
def State.boundContext (s : State) (r : Nat → Nat → NodeHdr → Res) : Res :=
  match s.me.schur.bound with
  | none => .illegal 0x0107 0
  | some (off, t) => s.unlessSpec (r off t (nodeHdr (s.coreByte s.cur) (cellOf s.cur) off))

def Schur.joint (x : Schur) : Nat := if x.kind = 1 then x.dims.headD 0 else x.dims.foldl (· + ·) 0
def Schur.dimOf (x : Schur) (t : Nat) : Nat := x.dims.getD t 0
/-- The rows of b in increasing order, then those of v (R367). -/
def Schur.order (x : Schur) (t : Nat) : List Nat :=
  let o := (x.dims.take t).foldl (· + ·) 0
  let v (r : Nat) : Bool := o ≤ r && r < o + x.dimOf t
  (List.range x.joint).filter (fun r => !v r) ++ (List.range x.joint).filter v

/-- TVAL of SINGULAR (R368). -/
def singularVal (off t j kind : Nat) : Dword := dw (off + t * 2 ^ 24 + j * 2 ^ 32 + kind * 2 ^ 36)
/-- SKIPS of a node, and SKIPPED, rise by 1 (R368). -/
def State.skipped (s : State) (off : Nat) : State :=
  (s.schurUpdate off 24 fun v => setBits v 31 0 (Nat.min (bitsOf v 31 0 + 1) (2 ^ 32 - 1))).bump 5 (cellOf s.cur) 5

/-- GELIM (R367, R368). -/
def execGelim (lit : Option Word) (d : Reg) (e : BitVec 4) (s : State) : Next :=
  let i := Instr.gelim lit d e
  let x := s.me.schur
  let n := x.joint
  deliver 1 e.toNat i s
    (s.boundContext fun off t h =>
      let nb := if x.kind = 1 then 0 else n - x.dimOf t
      let order := if x.kind = 1 then List.range n else x.order t
      let u := s.schurNote off [(0, 16)]
      match eliminateJoint (x.j.map (·.toNat)) n order nb h.eps with
      | .error j =>
        if h.skip then
          ((u.skipped off).modMe fun k => { k with schur := { x with valid := false } }).schurResult i e.toNat d (8 + 2 * nb * n)
            (j * 2 ^ 16 + 1)
        else .trapIn u .afterIssue 0x0318 (singularVal off t j 1)
      | .ok a =>
        let m := lowerPair a nb n
        let zprec := (m.drop (n - nb)).all fun w => abs32 w = 0
        (u.modMe fun k => { k with schur := { x with m := m.map (BitVec.ofNat 32), valid := true, settled := true } }).schurResult
          i e.toNat d (8 + 2 * nb * n) (b2n zprec * 2 ^ 8))

/-- GDAMP (R369). -/
def execGdamp (lit : Option Word) (d : Reg) (e : BitVec 4) (s : State) : Next :=
  let i := Instr.gdamp lit d e
  let x := s.me.schur
  deliver 1 e.toNat i s
    (s.boundContext fun off t h =>
      if !x.valid then s.schurResult i e.toNat d 4 2
      else
        let out := s.schurWords off (outOff x.kind t) 16
        let target := x.m.map (·.toNat)
        let mixed := (target.zip out).map fun (w, o) => damped h.alpha w o
        let m :=
          if !bitOf (out.getD 15 0) 31 then target
          else if (mixed.zip target).all fun (a, b) => within a b h.delta then target
          else mixed
        let settled : Bool := m = target
        ((s.schurNote off [(0, 16), (outOff x.kind t, 16)]).modMe fun k =>
          { k with schur := { x with m := m.map (BitVec.ofNat 32), settled := settled } }).schurResult i e.toNat d 4
          (b2n settled * 2 ^ 8))

/-- The message of GSEND: the pair M to the edge-table entry `ent` (R358, R360). -/
def State.pairMsg (s : State) (dim ent : Nat) (m : List Nat) : Msg :=
  let w := m ++ List.replicate (m.length % 2) 0
  let pay := (List.range (w.length / 2)).map fun i => dw (w.getD (2 * i) 0 + w.getD (2 * i + 1) 0 * 2 ^ 32)
  let hdr := dw (4 * 2 ^ 60 + s.classOf s.cur % 4 * 2 ^ 58 + (dim - 1) % 4 * 2 ^ 52 + bitsOf ent 61 58 * 2 ^ 48
    + bitsOf ent 55 41 * 2 ^ 33 + pay.length)
  { Msg.from s.cur (s.me.region.getD 0) hdr pay (bitsOf ent 25 0 * 64) with slot := true, charged := true }

/-- M goes out (R370): the pair, the out record, and the node again where M is not settled. -/
def State.sendPair (s : State) (i : Instr) (la : Nat) (d : Reg) (off t : Nat) (out : List Nat) : Res :=
  let x := s.me.schur
  let ent := leNat ((s.schurWords off (edgeOff x.kind + 8 * t) 2).flatMap (leBytes 4))
  let s := s.schurNote off [(edgeOff x.kind + 8 * t, 2)]
  match s.takeSlot s.cur with
  | none => .trapIn s .atIssue 0x0316 (dw (bitsOf ent 25 0 * 64))
  | some u =>
    let m := x.m.map (·.toNat)
    let dw7 := [(out.getD 14 0 + 1) % 2 ^ 32, setBits (out.getD 15 0) 31 30 (2 + b2n x.settled)]
    let u := (u.post (u.pairMsg (x.dimOf t) ent m)).bump 5 (cellOf s.cur) 0
    let u := (u.schurWrite off (outOff x.kind t) m).schurWrite off (outOff x.kind t + 56) dw7
    let (posted, u) := if x.settled then (false, u)
      else (u.flushAt s.cur (nodeKey (cellOf s.cur) off 0) 8).postDirty (cellOf s.cur) off t (s.classOf s.cur)
    let u := if posted then u.bump 5 (cellOf s.cur) 3 else u
    (u.modMe fun k => { k with schur := { k.schur with valid := false } }).schurResult i la d 4 (b2n posted * 2 ^ 8)

/-- GSEND (R370). -/
def execGsend (lit : Option Word) (d : Reg) (e : BitVec 4) (s : State) : Next :=
  let i := Instr.gsend lit d e
  let x := s.me.schur
  deliver 1 e.toNat i s
    (s.boundContext fun off t h =>
      if !x.valid then s.schurResult i e.toNat d 4 2
      else
        let out := s.schurWords off (outOff x.kind t) 16
        let m := x.m.map (·.toNat)
        let moved : Bool := (m.zip out).any fun (a, b) => movedBeyond a b h.delta
        let flags := out.getD 15 0
        let send : Bool := !bitOf flags 31 || moved || m.any (fun w => (f32 w).isNan)
          || (x.settled && !bitOf flags 30 && m ≠ out.take m.length)
        let u := s.schurNote off [(0, 16), (outOff x.kind t, 16)]
        if send then u.sendPair i e.toNat d off t out
        else
          let u := (u.schurUpdate off 24 fun v => setBits v 63 32 (Nat.min (bitsOf v 63 32 + 1) (2 ^ 32 - 1))).bump 5 (cellOf s.cur) 2
          (u.modMe fun k => { k with schur := { k.schur with valid := false } }).schurResult i e.toNat d 4 1)

/-- GBEL (R371). -/
def execGbel (lit : Option Word) (d a : Reg) (e : BitVec 4) (s : State) : Next :=
  let i := Instr.gbel lit d a e
  let ga := s.me.g a
  deliver 1 e.toNat i s
    (s.nodeChecked ga fun off h =>
      if h.kind ≠ 1 then .illegal 0x0108 ga
      else s.unlessSpec
        (let n := h.joint
         let (j, _) := s.joinNode off h none
         let u := (s.noteWalk (s.rootOf s.cur) (cellOf s.cur) ga.toNat).schurNote off h.reads
         match eliminateJoint j n (List.range n) n h.eps with
         | .error f =>
           if h.skip then (u.skipped off).schurResult i e.toNat d (8 + n ^ 3) 1
           else .trapIn u .afterIssue 0x0318 (singularVal off 0 f 2)
         | .ok rows =>
           ((u.schurWrite off 0x100 j).schurWrite off 0x140 (backSolve rows n n [])).schurResult i e.toNat d (8 + n ^ 3) 0))

end Sys2Proof.Machine
end

