-- ==== Sys2Proof/Machine/Matrix.lean ====
section
/-! DEFINITION. The matrix units (R242–R265): the seven commands as the sequencer runs them, their checks and errors,
streamed operands, the neighbour links, and MQWAIT. An MMA runs one k-step at a time; every other command takes effect
in one step and completes later. -/

namespace Sys2Proof.Machine

/-! ### Command records (R247, R248) -/

/-- A command at HEAD: its eight doublewords and the owner that its slot recorded. -/
structure Cmd where
  dws : List Nat
  owner : SlotOwner
  deriving DecidableEq, Repr

def Cmd.dw (c : Cmd) (i : Nat) : Nat := c.dws.getD i 0
def Cmd.ctl (c : Cmd) : Nat := c.dw 7
def Cmd.aux (c : Cmd) : Nat := c.dw 6
def Cmd.opc (c : Cmd) : Nat := bitsOf c.ctl 7 0
def Cmd.acc (c : Cmd) : Nat := bitsOf c.ctl 9 8
def Cmd.mode (c : Cmd) : Nat := bitsOf c.ctl 11 10
def Cmd.cnt (c : Cmd) : Nat := bitsOf c.ctl 19 12
def Cmd.links (c : Cmd) : Nat := bitsOf c.ctl 23 20
def Cmd.ain (c : Cmd) : Bool := bitOf c.ctl 20
def Cmd.aout (c : Cmd) : Bool := bitOf c.ctl 21
def Cmd.bin (c : Cmd) : Bool := bitOf c.ctl 22
def Cmd.bout (c : Cmd) : Bool := bitOf c.ctl 23
/-- Operand X, Y or Z (0 to 2): its two doublewords. -/
def Cmd.op (c : Cmd) (i : Nat) : Nat × Nat := (c.dw (2 * i), c.dw (2 * i + 1))
def opZero (o : Nat × Nat) : Bool := o.1 = 0 && o.2 = 0
def opStrm (o : Nat × Nat) : Bool := bitOf o.2 52

/-- Check 1 (R258, R247, R255, R257, R263): a reserved OPC, a nonzero field that the command does not use, or an AUX
of MSIG that breaks R257. -/
def Cmd.bad1 (c : Cmd) : Bool :=
  let use (acc mode cnt links x y z aux : Bool) : Bool :=
    (c.acc ≠ 0 && !acc) || (c.mode ≠ 0 && !mode) || (c.cnt ≠ 0 && !cnt) || (c.links ≠ 0 && !links)
      || (!opZero (c.op 0) && !x) || (!opZero (c.op 1) && !y) || (!opZero (c.op 2) && !z) || (c.aux ≠ 0 && !aux)
  c.ctl / 2 ^ 24 ≠ 0 || (c.opc ≠ 7 && (List.range 3).any fun i => (c.op i).2 / 2 ^ 53 ≠ 0) ||
  match c.opc with
  | 1 => use true true false false false false false false
  | 2 => use true false false false true false false false
  | 3 => use true true true true (!c.ain) (!c.bin) false false
  | 4 => use true false false false true true true true || (c.op 1).2 ≠ 0 || (c.op 2).2 ≠ 0
  | 5 => use false true true false true true true true || c.mode % 2 = 1 || bitsOf c.aux 63 20 ≠ 0 || bitsOf c.aux 15 11 ≠ 0
  | 6 => use false false false false false false false false
  | 7 => use false false false false true false false true || (c.op 0).2 / 2 ^ 32 ≠ 0 || bitsOf c.aux 47 40 ≠ 0
      || bitsOf c.aux 33 0 ≠ 0 || bitsOf c.aux 39 36 > 8 || (bitsOf c.aux 39 36 ≠ 0 && bitsOf c.aux 35 34 ≠ 3)
  | _ => true

/-- A build may be made: no resolution of the cell names its slot, but those that still await it; of the builds of one slot, the
one of the older version comes first (R301) (DEDUCED, log 90). -/
def State.buildReady (s : State) (core : Nat) (b : Build) : Bool :=
  (List.range 8).all fun i =>
    let k := s.core (core / 8 * 8 + i)
    k.resq.all (fun r => r.pairs.all (·.1 ≠ b.slotPa) || r.await.any (·.1 = b.slotPa))
      && k.builds.all fun x => x.slotPa ≠ b.slotPa || b.since ≤ x.since

/-- The next image build of a core's matrix unit; it goes ahead of queued commands. -/
def State.nextBuild (s : State) (core : Nat) : Option Build := (s.core core).builds.find? (s.buildReady core)

/-- The command that the sequencer of a core would start: HEAD is valid, nothing runs, and it is not stopped (R244–R246,
R265). -/
def State.command (s : State) (core : Nat) : Option Cmd :=
  let k := s.core core
  if k.mq.stopped || k.mq.ran || (k.mq.step.isNone && (k.frozen || (k.switching && k.status ≠ .running) || (s.nextBuild core).isSome)) then none
  else
    (k.mq.valid.find? (·.1 = k.mq.head)).map fun (_, o) =>
      let base := sramKey (cellOf core) (0x1F_C000 + 0x800 * (core % 8) + 64 * k.mq.head)
      ⟨(List.range 8).map fun i => s.homeNat (base + 8 * i) 8, o⟩

/-! ### Stopping and finishing -/

def State.modMq (s : State) (core : Nat) (f : Matrix → Matrix) : State := s.modCore core fun k => { k with mq := f k.mq }

/-- A write of a command, what stood there kept until the next MFENCE (R256). -/
def State.mqWrite (s : State) (core key : Nat) (bytes : List Byte) : State :=
  (s.writeHome key bytes).modMq core fun m => { m with past := (key, s.homeBytes key bytes.length) :: m.past }

/-- The byte that a command's read finds at an address: the present one, or, as a free value says, one that a command since the
last MFENCE has overwritten (R256) (DESIGN CHOICE, log 77). -/
def Matrix.seen (m : Matrix) (draw : Nat) (key : Nat) (now : Byte) : Byte :=
  let old := m.past.filterMap fun (a, l) => if a ≤ key then l[key - a]? else none
  ((now :: old)[draw % (old.length + 1)]?).getD now

/-- Memory as the operand reads of a core's commands find it (R256). -/
def State.operandView (s : State) (core : Nat) : State :=
  let m := (s.core core).mq
  let keys := (m.past.flatMap fun (a, l) => (List.range l.length).map (a + ·)).eraseDups
  keys.foldl
    (fun t k => { t with mem := memSetBytes t.mem k [m.seen (Config.openWord s.free k).toNat k (s.homeByte k)] }) s

/-- What the operand reads of a command leave behind. -/
def State.operandsRead (s : State) (core : Nat) (ds : List Nat) : State :=
  (if (s.core core).mq.past.isEmpty then s else { s with free := s.free + 1 }).readDone core ds

/-- The subscription of a running command ends (R251). -/
def State.endSub (s : State) (core : Nat) : State :=
  match (s.core core).mq.stream with
  | some id => (s.unsubscribe id core none).modMq core fun m => { m with stream := none }
  | none => s

/-- A command fails (R259): MQSTAT takes the error, the slot stays valid, and the accumulators stand as before it. No slot stays
valid once the region of the core has ended (R265). -/
def State.cmdFail (s : State) (core : Nat) (c : Cmd) (err : Nat) : State :=
  let m := (s.core core).mq
  let (acc, marks) := match m.step with
    | some _ => (vset m.acc c.acc m.saved.1, vset m.marks c.acc m.saved.2)
    | none => (m.acc, m.marks)
  let t := (s.endSub core).modMq core fun m =>
    { m with acc := acc, marks := marks, step := none, err := err, errSlot := m.head, stopped := true, linkSince := none }
  t.modCore core Core.drainMq

/-- A command has had its effect; it completes `cycles` later (R262). -/
def State.cmdRan (s : State) (core cycles : Nat) : State :=
  (s.endSub core).modMq core fun m => { m with ran := true, step := none, linkSince := none, due := s.cycle + cycles }

/-- Whether a command event of kind `opc` is due on a core, and what it does. A reserved OPC is found by any of them (DESIGN
CHOICE, log 77). -/
def State.runCmd (s : State) (core opc : Nat) (run : Cmd → Option State) : Option State :=
  match s.command core with
  | none => none
  | some c =>
    if c.opc ≠ opc && 1 ≤ c.opc && c.opc ≤ 7 then none
    else if c.bad1 then some (s.cmdFail core c 1)
    else run c

/-- The least code among those that checks gave (R259). -/
def minErr : List Nat → Option Nat
  | [] => none
  | a :: t => some (t.foldl Nat.min a)

/-- The effect `f` where no check fails. -/
def State.checked (s : State) (core : Nat) (c : Cmd) (errs : List Nat) (f : Unit → Option State) : Option State :=
  match minErr errs with
  | some e => some (s.cmdFail core c e)
  | none => f ()

/-! ### Operand rows (R249, R250) -/

/-- The address of row `i` of tile `t` (R249). -/
def rowVa (o : Nat × Nat) (t i : Nat) : Nat :=
  let a := (o.1 + t * bitsOf o.2 47 16 + i * bitsOf o.2 15 0) % 2 ^ 64
  let rot := bitsOf o.2 51 48
  if rot = 0 then a else setBits a 20 16 ((bitsOf a 20 16 + i * rot) % 32)

/-- ERR of a translation's cause (R258). -/
def errOf (cause : Nat) : Nat := if cause = causeXlate then 3 else if cause = causeProtect then 4 else 5

/-- The home address of an operand byte: SRAM of the own device only. Its translation leaves nothing in the cell's cache (DESIGN
CHOICE, log 10). -/
def State.opKey (s : State) (c : Cmd) (core va : Nat) (acc : Acc) : Except Nat Nat :=
  match s.xlate c.owner.root (cellOf core) va acc with
  | .error e => .error (errOf e)
  | .ok k => if spaceOf k = 1 then .ok k else .error 5

/-- BASE, ROWP and TILEP are multiples of `unit`. -/
def opAligned (o : Nat × Nat) (unit : Nat) : Bool :=
  unit = 0 || (o.1 % unit = 0 && bitsOf o.2 47 16 % unit = 0 && bitsOf o.2 15 0 % unit = 0)

/-- The errors of one row of `n` elements: `types` are the bank types allowed; the unit of alignment is the row, or for
IMGB (`byElem`) the element. -/
def State.rowErrs (s : State) (c : Cmd) (core : Nat) (o : Nat × Nat) (t i n : Nat) (types : List Nat) (byElem : Bool)
    (acc : Acc) : List Nat :=
  let unit (typ : Nat) : Nat := Nat.max 1 ((if byElem then 1 else n) * typeBits typ / 8)
  let least := types.foldl (fun m ty => Nat.min m (unit ty)) 64
  (if opAligned o least then [] else [2]) ++
  match s.opKey c core (rowVa o t i) acc with
  | .error e => [e]
  | .ok k =>
    let f := s.bankFmt (cellOf core) k
    if types.contains f.typ && opAligned o (unit f.typ) && f.fits (k % bankSize) n then [] else [2]

/-- The home address and format of a row that has passed its checks. -/
def State.row (s : State) (c : Cmd) (core : Nat) (o : Nat × Nat) (t i : Nat) (acc : Acc) : Option (Nat × BankFmt) :=
  match s.opKey c core (rowVa o t i) acc with
  | .ok k => some (k, s.bankFmt (cellOf core) k)
  | .error _ => none

/-- The elements of a row as their decoded values. -/
def State.rowVals (s : State) (c : Cmd) (core : Nat) (o : Nat × Nat) (t i n : Nat) : List FV :=
  match s.row c core o t i .read with
  | some (k, f) => (s.operandView core).elemVals f (bankBase k) (k % bankSize) n
  | none => List.replicate n (FV.ofInt 0)

/-- The doublewords that a row's elements are read from. -/
def State.rowDwords (s : State) (c : Cmd) (core : Nat) (o : Nat × Nat) (t i n : Nat) : List Nat :=
  match s.row c core o t i .read with
  | some (k, f) => f.elemDwords (bankBase k) (k % bankSize) n
  | none => []

/-! ### Accumulators -/

/-- The 256 elements of an accumulator as 32-bit patterns. -/
def accWords (a : AccBits) : List Nat := (List.range 256).map fun i => a.toNat / 2 ^ (32 * i) % 2 ^ 32
def accOf (l : List Nat) : AccBits := BitVec.ofNat 8192 (ofElems 4 l)
def Matrix.setAcc (m : Matrix) (a : Nat) (fp : Bool) (acc : AccBits) (marks : BitVec 256) : Matrix :=
  { m with acc := vset m.acc a acc, marks := vset m.marks a marks, isFp := vset m.isFp a fp }

/-! ### MZERO, MLDA, MFENCE, MSIG -/

/-- MZERO (R252). -/
def execMzero (core : Nat) (s : State) : Next :=
  event (s.runCmd core 1 fun c => some ((s.modMq core fun m => m.setAcc c.acc (c.mode ≥ 2) 0 0).cmdRan core 1))

/-- Operands whose STRM bit stands where no stream is allowed are error 11 (R251) (DEDUCED, log 30). -/
def Cmd.strmErrs (c : Cmd) : List Nat :=
  if opStrm (c.op 0) || opStrm (c.op 2) || (opStrm (c.op 1) && c.opc ≠ 3) then [11] else []

/-- MLDA (R252). -/
def execMlda (core : Nat) (s : State) : Next :=
  event (s.runCmd core 2 fun c =>
    let o := c.op 0
    let rows := List.range 16
    let typs := rows.filterMap fun i => (s.row c core o 0 i .read).map fun (_, f) => f.typ
    let mixed := if typs.any (· ≠ typs.headD 0) then [2] else []
    s.checked core c (rows.flatMap (fun i => s.rowErrs c core o 0 i 16 [4, 7] false .read) ++ mixed ++ c.strmErrs) fun _ =>
      let words := rows.flatMap fun i =>
        match s.row c core o 0 i .read with
        | some (k, _) => (List.range 16).map fun j => (s.operandView core).homeNat (k + 4 * j) 4
        | none => []
      let t := s.operandsRead core (rows.flatMap fun i => s.rowDwords c core o 0 i 16)
      some ((t.modMq core fun m => m.setAcc c.acc (typs.headD 7 = 4) (accOf words) 0).cmdRan core 16))

/-- MFENCE (R256): a command's writes are performed when it takes effect (DEDUCED, log 73); no later read of the queue runs ahead
of them any more. -/
def execMfence (core : Nat) (s : State) : Next :=
  event (s.runCmd core 6 fun _ => some ((s.modMq core fun m => { m with past := [] }).cmdRan core 1))

/-- MSIG (R257). -/
def execMsig (core : Nat) (s : State) : Next :=
  event (s.runCmd core 7 fun c =>
    match s.complete core c.owner.region (bitsOf c.aux 35 34) (dw (c.op 0).1) (BitVec.ofNat 32 (c.op 0).2)
        (bitsOf c.aux 63 48) c.owner.cls 0 with
    | some t => some (t.cmdRan core 1)
    | none => some (s.cmdFail core c 12))

/-! ### MMA (R253, R263) -/

/-- Bank types of an MMA's operands, by MODE (R250). -/
def mmaTypes : Nat → List Nat
  | 0 => [2, 0]
  | 1 => [1]
  | 2 => [3]
  | _ => [5]
/-- Bytes of a streamed row, by MODE. -/
def mmaRowBytes : Nat → Nat
  | 0 => 16
  | 1 => 8
  | _ => 32
/-- Cycles of one k-step (R262). -/
def mmaCycles : Nat → Nat
  | 0 => 16
  | 1 => 8
  | _ => 32

/-- The neighbour of a cell on its die's grid (R85): east (`true`) or south. -/
def neighbour (cell : Nat) (east : Bool) : Option Nat :=
  let sp := cell / 16 % 16
  let row := 4 * (sp / 4) + 2 * (cell / 8 % 2) + cell / 2 % 2
  let col := 4 * (sp % 4) + 2 * (cell / 4 % 2) + cell % 2
  let at' (r c : Nat) : Nat :=
    cell / 256 * 256 + (4 * (r / 4) + c / 4) * 16 + (2 * (r / 2 % 2) + c / 2 % 2) * 4 + (2 * (r % 2) + c % 2)
  if east then (if col = 15 then none else some (at' row (col + 1)))
  else if row = 15 then none else some (at' (row + 1) col)
/-- A cell has a link to the west, or to the north. -/
def hasWest (cell : Nat) : Bool := 4 * (cell / 16 % 4) + 2 * (cell / 4 % 2) + cell % 2 ≠ 0
def hasNorth (cell : Nat) : Bool := 4 * (cell / 64 % 4) + 2 * (cell / 8 % 2) + cell / 2 % 2 ≠ 0

/-- Check 8 (R258). -/
def Cmd.linkErrs (c : Cmd) (cell : Nat) : List Nat :=
  if (c.ain && !hasWest cell) || (c.bin && !hasNorth cell) || (c.aout && (neighbour cell true).isNone)
      || (c.bout && (neighbour cell false).isNone) then [8] else []

/-- The shared stream of a streamed B, subscribed now (R225, R251), or the error. -/
def State.mmaStream (s : State) (c : Cmd) (core : Nat) : Except Nat (State × Nat) :=
  let o := c.op 1
  if o.2 % 2 ^ 52 ≠ 0 || c.bin || o.1 % 8 ≠ 0 then .error 11
  else
    match s.xlateRange c.owner.root (cellOf core) o.1 48 .read with
    | .error (e, _) => .error (errOf e)
    | .ok l =>
      let pa := (l.head?.map (·.1)).getD 0
      let (d, res) := match s.sharedAt core pa with
        | some x => (x.desc, false)
        | none => StreamDesc.ofBytes (l.flatMap fun (k, m) => s.homeBytes k m)
      let fit : Bool := match c.mode with
        | 0 => d.typ = 0
        | 1 => d.typ = 1 && d.decomp
        | 2 => d.typ = 3
        | _ => d.typ = 5
      if res || d.bad true || !fit then .error 11
      else match (s.readDone core (piecesDwords l)).subscribe core none pa d with
        | some (t, x) => .ok (t, x.id)
        | none => .error 11

/-- MMA starts: its checks over every row, and its stream's subscription. -/
def State.mmaStart (s : State) (c : Cmd) (core : Nat) : Option State :=
  let m := (s.core core).mq
  let rows := (List.range (c.cnt + 1)).flatMap fun t => (List.range 16).map fun i => (t, i)
  let opErrs (o : Nat × Nat) : List Nat := rows.flatMap fun (t, i) => s.rowErrs c core o t i 16 (mmaTypes c.mode) false .read
  let strm := opStrm (c.op 1)
  let errs := (if c.ain || opStrm (c.op 0) then [] else opErrs (c.op 0)) ++ (if c.bin || strm then [] else opErrs (c.op 1))
    ++ (if vget false m.isFp c.acc != decide (c.mode ≥ 2) then [7] else []) ++ c.linkErrs (cellOf core) ++ c.strmErrs
  s.checked core c errs fun _ =>
    let begin (t : State) (id : Option Nat) : State :=
      t.modMq core fun m =>
        { m with step := some 0, saved := (vget 0 m.acc c.acc, vget 0 m.marks c.acc), stream := id, linkSince := some s.cycle }
    if strm then
      match s.mmaStream c core with
      | .error e => some (s.cmdFail core c e)
      | .ok (t, id) => some (begin t (some id))
    else some (begin s none)

/-- Where the rows of one k-step come from: rows ready, an error with the state it leaves, or rows still to come. -/
inductive Rows where
  | ready (s : State) (rows : List (List Word))
  | fail (s : State) (err : Nat)
  | wait

/-- Rows read from an operand in memory: q − z for the integer modes, the element's bits for the others. -/
def State.memRows (s : State) (c : Cmd) (core : Nat) (o : Nat × Nat) (t : Nat) : Rows :=
  let v := s.operandView core
  let one (i : Nat) : Except Nat (List Word × List Nat) :=
    match s.opKey c core (rowVa o t i) .read with
    | .error e => .error e
    | .ok k =>
      let f := s.bankFmt (cellOf core) k
      let off := k % bankSize
      .ok ((List.range 16).map fun j =>
          if f.isQ then let (q, _, z) := v.qElem f (bankBase k) (f.firstElem off + j); BitVec.ofInt 32 ((q : Int) - z)
          else if f.typ = 0 then BitVec.ofInt 32 (BitVec.ofNat 8 (v.homeNat (k + j) 1)).toInt
          else BitVec.ofNat 32 (v.homeNat (k + 2 * j) 2),
        f.elemDwords (bankBase k) off 16)
  let r := (List.range 16).foldl (fun (acc : Except Nat (List (List Word) × List Nat)) i =>
    match acc, one i with
    | .error e, _ | _, .error e => .error e
    | .ok (l, ds), .ok (w, d) => .ok (l ++ [w], ds ++ d)) (.ok ([], []))
  match r with
  | .error e => .fail s e
  | .ok (l, ds) => .ready (s.operandsRead core ds.eraseDups) l

/-- Sixteen rows from a link FIFO (R263, R264): a row of another mode or region is consumed and is error 10. -/
def State.linkRows (s : State) (c : Cmd) (core : Nat) (west : Bool) : Rows :=
  let m := (s.core core).mq
  let q := if west then m.west else m.north
  let set (t : State) (l : List LinkRow) : State :=
    t.modMq core fun m => if west then { m with west := l } else { m with north := l }
  match (q.take 16).findIdx? fun r => r.mode ≠ c.mode || r.region ≠ c.owner.region with
  | some i => .fail (set s (q.drop (i + 1))) 10
  | none => if q.length < 16 then .wait else .ready (set s (q.drop 16)) ((q.take 16).map (·.elems))

/-- One streamed row at place `p` of the sequence: its elements and the next place, none while it is not fetched; or an
error 11 where the sequence ends or a block's payload does not divide into rows. -/
def streamRow (d : StreamDesc) (f : Feed) (mode p : Nat) : Except Nat (Option (List Word × Nat)) :=
  let n := mmaRowBytes mode
  let byte (i : Nat) : Nat := ((f.buf.getD (i - f.start) 0)).toNat
  if mode = 1 then
    match f.blocks.find? fun (b, u, g, _) => b ≤ p && p < b + u + 4 * (u / (g / 2)) with
    | none => if f.hdrErr || f.block ≥ d.items then .error 11 else .ok none
    | some (b, u, g, _) =>
      if u % 8 ≠ 0 then .error 11
      else
        let elem (j : Nat) : Word :=
          let e := 2 * (p - b) + j
          let q := byte (p + j / 2) / 16 ^ (j % 2) % 16
          let z := byte (b + u + 4 * (e / g) + 2) % 16
          BitVec.ofInt 32 ((q : Int) - z)
        .ok (some ((List.range 16).map elem, if p + 8 = b + u then b + u + 4 * (u / (g / 2)) else p + 8))
  else if p + n > d.total then .error 11
  else if p + n > f.next then .ok none
  else
    .ok (some ((List.range 16).map (fun j =>
      if mode = 0 then BitVec.ofInt 32 (BitVec.ofNat 8 (byte (p + j))).toInt
      else BitVec.ofNat 32 (byte (p + 2 * j) + 256 * byte (p + 2 * j + 1))), p + n))

/-- The end of the bytes that a streamed row at place `p` takes: its payload, and in MODE 1 its groups' records (R251). -/
def rowNeed (f : Feed) (mode p : Nat) : Nat :=
  if mode = 1 then
    match f.blocks.find? fun (b, u, g, _) => b ≤ p && p < b + u + 4 * (u / (g / 2)) with
    | none => p + 8
    | some (b, u, g, _) => Nat.max (p + 8) (b + u + 4 * ((2 * (p - b) + 15) / g) + 4)
  else p + mmaRowBytes mode

/-- Sixteen streamed rows from place `p` on: the rows, the next place and the end of what they take; none while one is not
fetched; or an error 11. -/
def rowsAt (d : StreamDesc) (f : Feed) (mode p : Nat) : Except Nat (Option (List (List Word) × Nat × Nat)) :=
  (List.range 16).foldl (fun (acc : Except Nat (Option (List (List Word) × Nat × Nat))) _ =>
      match acc with
      | .ok (some (l, p, need)) =>
        (match streamRow d f mode p with
         | .ok (some (w, q)) => .ok (some (l ++ [w], q, Nat.max need (rowNeed f mode p)))
         | .ok none => .ok none
         | .error e => .error e)
      | r => r) (.ok (some ([], p, p)))

/-- Sixteen rows from the shared stream that the command reads (R251) (DEDUCED, log 31). They wait while a unit that they take lies
WIN or more units beyond the slowest subscriber: it counts as not fetched (R226). -/
def State.streamRows (s : State) (c : Cmd) (core id : Nat) : Rows :=
  match (s.sharedOf id).bind fun x => (x.place core none).map fun p => (x, p) with
  | none => .fail s 11
  | some (x, p) =>
    match rowsAt x.desc x.feed c.mode p with
    | .error e => .fail s e
    | .ok none =>
      (match x.feed.fault with
       | some (cause, _) => .fail (s.modShared id fun x => { x with feed := { x.feed with fault := none } }) (errOf cause)
       | none => .wait)
    | .ok (some (l, p', need)) =>
      if x.slowest / 64 + x.desc.win < (need + 63) / 64 then .wait
      else
      let z := (x.feed.bad.filter fun (_, _, lo, _) => p ≤ lo && lo < p').length
      .ready ((s.moveShared id core none p').modMq core fun m => { m with zblk := Nat.min 127 (m.zblk + z) }) l

/-- The rows of a started MMA wait for a decompressor's output, and nothing else of a shared stream keeps them (R428). -/
def State.mqLate (s : State) (core : Nat) : Bool :=
  match s.command core, (s.core core).mq.step, ((s.core core).mq.stream).bind s.sharedOf with
  | some c, some _, some x =>
    x.desc.decomp && x.feed.fault.isNone && (match x.place core none with
      | some p => (match rowsAt x.desc x.feed c.mode p with
        | .ok none => true
        | _ => false)
      | none => false)
  | _, _, _ => false

/-- OUTSTALL of a cycle in which matrix units wait for coded blocks (R428) (DEDUCED, log 108). -/
def State.mqStalls (s : State) : State :=
  (s.cores.map (·.1)).foldl
    (fun t c => match s.mqLate c, ((s.core c).mq.stream).bind s.sharedOf with
      | true, some x => t.outStall c (((s.region x.region).map (·.root)).getD 0) x.desc x.feed
      | _, _ => t) s

/-- One element of a k-step (R253): the new value, and whether it clamps (R70). -/
def mmaElem (fp : Bool) (mode : Nat) (a b : List Word) (acc : Nat) : Nat × Bool :=
  if fp then
    let f := if mode = 2 then fp16 else bf16
    (rne32 (exactDot ((a.zip b).map fun (x, y) => (f.decode x.toNat, f.decode y.toNat)) (f32 acc)), false)
  else
    let sum := (a.zip b).foldl (fun (m : Int) (x, y) => m + x.toInt * y.toInt) (BitVec.ofNat 32 acc).toInt
    let v := clampInt (-2 ^ 31) (2 ^ 31 - 1) sum
    ((BitVec.ofInt 32 v).toNat, v ≠ sum)

/-- A k-step on an accumulator and its marks. -/
def mmaStep (mode : Nat) (rowsA rowsB : List (List Word)) (acc : AccBits) (marks : BitVec 256) : AccBits × BitVec 256 :=
  let ws := accWords acc
  let r := (List.range 256).map fun i =>
    mmaElem (mode ≥ 2) mode (rowsA.getD (i / 16) []) (rowsB.map fun b => b.getD (i % 16) 0) (ws.getD i 0)
  (accOf (r.map (·.1)), marks ||| BitVec.ofNat 256 (ofFlags 1 (r.map (·.2))))

/-- Rows forwarded to a neighbour's FIFO; one whose core holds no region keeps none (R264). -/
def State.forward (s : State) (c : Cmd) (core : Nat) (east : Bool) (rows : List (List Word)) : State :=
  match neighbour (cellOf core) east with
  | none => s
  | some n =>
    if (s.core (8 * n + core % 8)).region.isNone then s else
    let l := rows.map fun r => (⟨c.mode, c.owner.region, r⟩ : LinkRow)
    s.modMq (8 * n + core % 8) fun m => if east then { m with west := m.west ++ l } else { m with north := m.north ++ l }

/-- A neighbour's FIFO has room for sixteen rows. -/
def State.linkRoom (s : State) (core : Nat) (east : Bool) : Bool :=
  match neighbour (cellOf core) east with
  | none => true
  | some n =>
    let m := (s.core (8 * n + core % 8)).mq
    (if east then m.west else m.north).length + 16 ≤ 64

/-- A k-step of a started MMA, where its rows have come and its forwarded rows have room. -/
def State.mmaRun (s : State) (c : Cmd) (core t : Nat) : Option State :=
  if (c.aout && !s.linkRoom core true) || (c.bout && !s.linkRoom core false) then none
  else
    match (if c.ain then s.linkRows c core true else s.memRows c core (c.op 0) t) with
    | .wait => none
    | .fail u e => some (u.cmdFail core c e)
    | .ready u ra =>
      match (if c.bin then u.linkRows c core false
             else match (s.core core).mq.stream with
               | some id => u.streamRows c core id
               | none => u.memRows c core (c.op 1) t) with
      | .wait => none
      | .fail v e => some (v.cmdFail core c e)
      | .ready v rb =>
        let v := if c.aout then v.forward c core true ra else v
        let v := if c.bout then v.forward c core false rb else v
        let m := (v.core core).mq
        let (acc, marks) := mmaStep c.mode ra rb (vget 0 m.acc c.acc) (vget 0 m.marks c.acc)
        let v := v.modMq core fun m =>
          { m with acc := vset m.acc c.acc acc, marks := vset m.marks c.acc marks, step := some (t + 1), linkSince := some s.cycle }
        some (if t = c.cnt then v.cmdRan core ((c.cnt + 1) * mmaCycles c.mode) else v)

/-- MMA: its start, or its next k-step. -/
def execMma (core : Nat) (s : State) : Next :=
  event (s.runCmd core 3 fun c =>
    match (s.core core).mq.step with
    | none => s.mmaStart c core
    | some t => s.mmaRun c core t)

/-- A link or a stream has kept a command waiting for more than 65,536 cycles (R258). -/
def execMatrixLinkTimeout (core : Nat) (s : State) : Next :=
  event
    (match s.command core, (s.core core).mq.step, (s.core core).mq.linkSince with
     | some c, some t, some since =>
       if since + 65536 < s.cycle + 1 && (s.mmaRun c core t).isNone then some (s.cmdFail core c 9) else none
     | _, _, _ => none)

/-! ### MSTA (R254) -/

/-- One element: its bits, whether it is marked now, and what it adds to SAT_COUNT. -/
def mstaElem (fp : Bool) (acc : Nat) (rs cs : Option Nat) (typ : Nat) (clamp : Bool) : Nat × Bool × Nat :=
  let scaled : Bool := rs.isSome || cs.isSome
  let target : Bool := typ = 3 || typ = 4 || typ = 5
  let int : Int := (BitVec.ofNat 32 acc).toInt
  let v : FV :=
    if scaled || target then
      let x := if fp then acc else rne32 (FV.ofInt int)
      let x := match rs with
        | some r => mul32 x r
        | none => x
      let x := match cs with
        | some r => mul32 x r
        | none => x
      f32 x
    else if fp then f32 acc else FV.ofInt int
  if target then
    let f := if typ = 3 then fp16 else if typ = 4 then fp32 else bf16
    let (r, fl) := f.round .rne v
    let big : Bool := fl &&& flagOF ≠ 0
    (if big && clamp then f.maxBits + f.signBit v.neg else r, big, b2n (big && clamp))
  else
    let (r, n) := encodeVal typ false v
    (r, n ≠ 0, n)

/-- A vector of scales: sixteen FP32 words, read raw, or none (R254). -/
def State.scaleErrs (s : State) (c : Cmd) (core base n : Nat) (acc : Acc) : List Nat :=
  if base = 0 then []
  else match s.xlateRange c.owner.root (cellOf core) base n acc with
    | .error (e, _) => [errOf e]
    | .ok l => if l.all fun (k, _) => spaceOf k = 1 then [] else [5]
def State.scales (s : State) (c : Cmd) (core base : Nat) : Option (List Nat × List Nat) :=
  if base = 0 then none
  else match s.xlateRange c.owner.root (cellOf core) base 64 .read with
    | .ok l =>
      let b := l.flatMap fun (k, m) => (s.operandView core).homeBytes k m
      some ((List.range 16).map fun i => leNat ((b.drop (4 * i)).take 4), piecesDwords l)
    | .error _ => none

/-- MSTA (R254): Matrix command that converts and stores an accumulator with its overflow trailer. -/
def execMsta (core : Nat) (s : State) : Next :=
  event (s.runCmd core 4 fun c =>
    let o := c.op 0
    let rows := List.range 16
    let errs := rows.flatMap (fun i => s.rowErrs c core o 0 i 16 [0, 3, 4, 5, 7] false .write)
      ++ s.scaleErrs c core (c.op 1).1 64 .read ++ s.scaleErrs c core (c.op 2).1 64 .read
      ++ (if c.aux % 4 ≠ 0 then [2] else []) ++ s.scaleErrs c core c.aux 4 .write ++ c.strmErrs
    s.checked core c errs fun _ =>
      let m := (s.core core).mq
      let ws := accWords (vget 0 m.acc c.acc)
      let marks := vget 0 m.marks c.acc
      let fp := vget false m.isFp c.acc
      let rs := s.scales c core (c.op 1).1
      let cs := s.scales c core (c.op 2).1
      let t := s.operandsRead core (((rs.map (·.2)).getD []) ++ ((cs.map (·.2)).getD []))
      let (t, cnt) := rows.foldl
        (fun (t, cnt) i =>
          match s.row c core o 0 i .write with
          | none => (t, cnt)
          | some (k, f) =>
            let es := (List.range 16).map fun j =>
              mstaElem fp (ws.getD (16 * i + j) 0) (rs.map fun r => r.1.getD i 0) (cs.map fun r => r.1.getD j 0) f.typ f.clamp
            let n := (es.zipIdx.filter fun ((_, mk, _), j) => mk || marks.getLsbD (16 * i + j)).length
            ((t.mqWrite core k (es.flatMap fun (x, _, _) => leBytes (f.bits / 8) x)).addSat k (es.foldl (fun n (_, _, a) => n + a) 0),
              cnt + n))
        (t, 0)
      let t := if c.aux = 0 then t
        else match s.xlateRange c.owner.root (cellOf core) c.aux 4 .write with
          | .ok l => (l.headD (0, 0)).1 |> fun k => t.mqWrite core k (leBytes 4 cnt)
          | .error _ => t
      some ((t.modMq core fun m => { m with marks := vset m.marks c.acc 0 }).cmdRan core 16))

/-! ### IMGB (R255) -/

/-- One image element: the exact product rounded to the bank's type, an overflow to ±Inf. -/
def imageBits (typ : Nat) (w a : List FV) : Nat := (encodeVal typ false (exactDot (w.zip a) (FV.ofInt 0))).1

/-- IMGB (R255): Matrix command that builds atom images from weight rows and atoms. -/
def execImgb (core : Nat) (s : State) : Next :=
  event (s.runCmd core 5 fun c =>
    let len := 4 * (c.cnt + 1)
    let a0 := bitsOf c.aux 10 0
    let na := bitsOf c.aux 19 16 + 1
    let rows := List.range 16
    let atoms := List.range na
    let errs := rows.flatMap (fun i => s.rowErrs c core (c.op 0) 0 i len [1, 2, 3, 4, 5] true .read)
      ++ atoms.flatMap (fun n => s.rowErrs c core (c.op 1) 0 (a0 + n) len [3, 2] true .read)
      ++ atoms.flatMap (fun n => s.rowErrs c core (c.op 2) 0 n 16 [3, 4, 5] true .write) ++ c.strmErrs
    s.checked core c errs fun _ =>
      let w := rows.map fun i => s.rowVals c core (c.op 0) 0 i len
      let ds := rows.flatMap (fun i => s.rowDwords c core (c.op 0) 0 i len)
        ++ atoms.flatMap fun n => s.rowDwords c core (c.op 1) 0 (a0 + n) len
      let t := atoms.foldl
        (fun t n =>
          match s.row c core (c.op 2) 0 n .write with
          | none => t
          | some (k, f) =>
            let a := s.rowVals c core (c.op 1) 0 (a0 + n) len
            t.mqWrite core k (w.flatMap fun r => leBytes (f.bits / 8) (imageBits f.typ r a)))
        (s.operandsRead core ds.eraseDups)
      some (t.cmdRan core (Nat.max 1 (len * na / 8))))

/-! ### Completion, MQCTL, MQWAIT -/

/-- The running command completes (R244): its slot is no longer valid and HEAD advances. -/
def execMatrixCommandComplete (core : Nat) (s : State) : Next :=
  let m := (s.core core).mq
  event (if m.ran && m.due ≤ s.cycle + 1 then
      let t := s.modMq core fun m =>
        { m with ran := false, shown := m.acc, done := m.done + 1, head := (m.head + 1) % 16, valid := m.valid.filter fun (i, _) => i ≠ m.head }
      some (t.modCore core Core.drainMq)
    else none)

/-- A write of MQCTL by the owning core (R246). -/
def execMqctlWrite (core : Nat) (val : Dword) (s : State) : Next :=
  .next (s.modMq core fun m => m.writeCtl val.toNat)

/-- MQWAIT (R260, R261). The core has observed every write of a queue that has run empty, and so have its later commands. -/
def execMqwait (lit : Option Word) (a b : Reg) (s : State) : Next :=
  let m := s.me.mq
  let v := dw (mqStat m)
  deliver 1 0 (.mqwait lit a b) s
    (if (s.me.g a).toNat > 16 then .illegal 0x0108 (s.me.g a)
     else if m.stopped then .trap .atIssue 0x0314 v
     else if m.valid.length ≤ (s.me.g a).toNat then
       .ok (if m.valid.isEmpty then s.modMe fun k => { k with mq := { k.mq with past := [] } } else s)
     else if s.me.g b = 0 then .trap .atIssue 0x0304 v
     else .hold (s.modMe fun k => k.hold .mqwait s.cycle (k.g b).toNat v))

/-- MQWAIT's limit passes (R261): TVAL holds MQSTAT as it stands at the trap. -/
def execMqwaitLimit (core : Nat) (s : State) : Next :=
  event
    (match s.expired core with
     | some w => if w.kind = .mqwait then some (s.waitTrap core 1 0x0304 (dw (mqStat (s.core core).mq))) else none
     | none => none)

end Sys2Proof.Machine
end

