-- ==== Sys2Proof/Machine/Images.lean ====
section
/-! DEFINITION. Atom images, shades and replacement (R286–R309): bindings and tags, notices, the hold store, IMRES and its
builds, IMACC, DREPL, DSYNC, HOLDR, and the replication of hot images (R90, R304). -/

namespace Sys2Proof.Machine

/-! ### Bindings and tags (R287, R288) -/

/-- A binding's fields. -/
structure BindRec where
  key : Nat
  va : Dword
  d0 : Nat
  wBase : Nat
  wRowp : Nat
  imgBase : Nat
  tagBase : Nat
  hotTh : Nat
  hot : Nat
  wstart : Nat
  resv : Bool
  deriving DecidableEq, Repr

def BindRec.dict (b : BindRec) : Nat := bitsOf b.d0 11 0
def BindRec.seg (b : BindRec) : Nat := bitsOf b.d0 47 32
def BindRec.nb (b : BindRec) : Nat := bitsOf b.d0 15 12 + 1
def BindRec.retCh (b : BindRec) : Nat := bitsOf b.d0 21 16
def BindRec.holdLog (b : BindRec) : Nat := bitsOf b.d0 27 24

/-- A binding from its 64 bytes. -/
def bindRec (key : Nat) (va : Dword) (b : List Byte) : BindRec :=
  let d (i : Nat) : Nat := bytesAt b (8 * i) 8
  { key := key, va := va, d0 := d 0, wBase := d 1, wRowp := d 2 % 0x1_0000, imgBase := d 3, tagBase := d 4,
    hotTh := d 5 / 2 ^ 32, hot := d 5 % 2 ^ 32, wstart := d 6,
    resv := bitsOf (d 0) 63 48 ≠ 0 || bitsOf (d 0) 31 28 ≠ 0 || bitsOf (d 0) 23 22 ≠ 0 || d 2 / 0x1_0000 ≠ 0 || d 7 ≠ 0 }

/-- A tag: SINCE, UNTIL, HITS, and the low word with STATE, whose other bits stay as they stand. -/
structure Tag where
  since : Nat
  upto : Nat
  hits : Nat
  low : Nat
  deriving DecidableEq, Repr

/-- STATE says that the image is valid. -/
def Tag.valid (t : Tag) : Bool := t.low % 4 = 1
/-- STATE becomes 1. -/
def Tag.made (t : Tag) : Tag := { t with low := setBits t.low 1 0 1 }

def tagOpen : Nat := 0xFFFF_FFFF
def Tag.covers (t : Tag) (m : Int) : Bool := t.since ≠ 0 && (t.since : Int) ≤ m && m ≤ (t.upto : Int)

def State.getTag (s : State) (key : Nat) : Tag :=
  let a := s.homeNat key 8
  let b := s.homeNat (key + 8) 8
  ⟨a / 2 ^ 32, a % 2 ^ 32, b / 2 ^ 32, b % 2 ^ 32⟩
def State.putTag (s : State) (key : Nat) (t : Tag) : State :=
  s.writeHome key (leBytes 8 (t.since * 2 ^ 32 + t.upto) ++ leBytes 8 (t.hits * 2 ^ 32 + t.low))

/-- The home address of tag `i` among the pieces of a tag array. -/
def tagKey : List (Nat × Nat) → Nat → Option Nat
  | [], _ => none
  | (a, n) :: t, i => if 16 * i < n then some (a + 16 * i) else tagKey t (i - n / 16)

/-- An address of a binding's data: in the slice of `cell`, through space 0 or space 1 (R289). -/
def State.sliceKey (s : State) (root cell va : Nat) (acc : Acc) : Option Nat :=
  match s.xlate root cell va acc with
  | .ok k => if s.physSpace root cell va ≤ 1 && spaceOf k = 1 && sramCell k = cell then some k else none
  | .error _ => none

/-- A row of `n` elements in the slice of `cell`, of one of the bank types, under the bank rules of R250. -/
def State.sliceRow (s : State) (root cell va n : Nat) (types : List Nat) (acc : Acc) : Option (Nat × BankFmt) :=
  match s.sliceKey root cell va acc with
  | none => none
  | some k =>
    let f := s.bankFmt cell k
    if types.contains f.typ && va % Nat.max 1 (f.bits / 8) = 0 && f.fits (k % bankSize) n then some (k, f) else none

/-- Slot (k, v) of a binding's image area (R288). -/
def BindRec.slotVa (b : BindRec) (k v : Nat) : Nat := (b.imgBase + (2 * k + v) * 64 * b.nb) % 2 ^ 64
def State.slotKey (s : State) (root cell : Nat) (b : BindRec) (k v : Nat) : Nat :=
  ((s.sliceKey root cell (b.slotVa k v) .write)).getD 0
def BindRec.rowVa (b : BindRec) (i : Nat) : Nat := (b.wBase + i * b.wRowp) % 2 ^ 64
def wTypes : List Nat := [1, 2, 3, 4, 5]
def imgTypes : List Nat := [3, 4, 5]

/-- The binding breaks R289 on a core: fields, set, alignment, rows, slots and tags. Without its dictionary, whose L and K bound
them, the rows are checked where they begin and there is neither slot nor tag (DEDUCED, log 33). -/
def State.bindBad (s : State) (core : Nat) (b : BindRec) : Bool :=
  let root := s.rootOf core
  let cell := cellOf core
  b.resv || b.retCh < 5 || !s.inSet core b.dict || b.imgBase % 64 ≠ 0 || b.tagBase % 16 ≠ 0
    || (let len := ((s.dict b.dict).map (·.len)).getD 0
        let n := ((s.dict b.dict).map (·.k)).getD 0
        !(List.range (16 * b.nb)).all (fun i => (s.sliceRow root cell (b.rowVa i) len wTypes .read).isSome && (i = 0 ||
            b.wRowp % Nat.max 1 (typeBits ((s.sliceRow root cell (b.rowVa i) len wTypes .read).map (·.2.typ) |>.getD 0) / 8) = 0))
          || !(List.range (2 * n)).all (fun i =>
            (s.sliceRow root cell (b.slotVa (i / 2) (i % 2)) (16 * b.nb) imgTypes .write).isSome)
          || !(pieces (n / 2048 + 2) b.tagBase (32 * n)).all (fun (a, _) => s.physSpace root cell a ≤ 1)
          || (match s.xlateRange root cell b.tagBase (32 * n) .write with
            | .ok l => !l.all fun (k, n) => spaceOf k = 1 && sramCell k = cell && (k + n - 1) / bankSize = (l.headD (0, 0)).1 / bankSize
            | .error _ => true))

/-- The tags of an atom at registration (R290). -/
def initTags (a : AtomVer) (view : Nat) : Tag × Tag :=
  if a.c ≤ view then
    (⟨a.c, tagOpen, 0, 0⟩, if a.p ≠ 0 then ⟨a.p, a.c - 1, 0, 0⟩ else ⟨0, 0, 0, 0⟩)
  else (⟨a.p, tagOpen, 0, 0⟩, ⟨0, 0, 0, 0⟩)

/-- Every tag of a binding written from the dictionary table (R290). -/
def State.writeTags (s : State) (b : Binding) (d : Dict) (view : Nat) : State :=
  (d.atoms.zipIdx).foldl
    (fun t (a, k) =>
      let (x, y) := initTags a view
      match tagKey b.tags (2 * k), tagKey b.tags (2 * k + 1) with
      | some i, some j => (t.putTag i x).putTag j y
      | _, _ => t)
    s

/-- A cell becomes a subscriber with the table's shade as its view (R291); none where the list is full. -/
def State.subscribeCell (s : State) (cell id : Nat) : Option State :=
  match s.dict id with
  | none => none
  | some d =>
    let tag := s.cellTag cell
    if d.hasSub tag then some s
    else if (d.subscribe tag).hasSub tag then
      some ((s.modDict id fun d => d.subscribe tag).modCell cell fun c => { c with views := tabSet c.views id d.shade })
    else none

/-- A binding registered in a cell (R290); the list is that of its tag array's pieces. Where the cell refuses it, which ends
IMRES with status 8, the state is unchanged, but for SUBFULL where the dictionary refuses the append (R266) (DEDUCED, log
33). -/
def State.register (s : State) (cell region : Nat) (b : BindRec) (tags : List (Nat × Nat)) (d : Dict) : Except State State :=
  if (s.cell cell).bindings.length ≥ 32 then .error s
  else match s.subscribeCell cell b.dict with
    | none => .error (s.modDict b.dict fun d => { d with subFull := true })
    | some t =>
      let x : Binding := ⟨b.key, b.dict, region, tags⟩
      let t := t.modCell cell fun c => { c with bindings := c.bindings ++ [x] }
      .ok (t.writeTags x d (tabGet d.shade (t.cell cell).views b.dict))

/-! ### Notices (R293, R294) and the hold store (R296, R297) -/

/-- A held message placed again on its channel (R297), or none where the area has no room for it. -/
def State.redeliver (s : State) (cell idx : Nat) (h : Held) (mark : Nat) : Option State :=
  match s.place h.core h.retCh h.hdr h.pay mark none ((s.core h.core).region.getD 0) none with
  | none => none
  | some t =>
    let t := t.modCell cell fun c => { c with holds := listDel c.holds idx }
    some (if mark = 1 then t.bump 2 cell 4 else t)

/-- An earlier held message of the same core still waits for room: they go in the order in which they were held (R297). -/
def Cell.waitsBefore (c : Cell) (idx core : Nat) : Bool := (c.holds.take idx).any fun h => h.mark ≠ 0 && h.core = core

/-- Held messages that are to be re-delivered go in the order in which they were held; those that find no room wait, and those of
the same core behind them. `fuel` bounds the store. -/
def State.redeliverAll (s : State) (cell : Nat) : Nat → Nat → State
  | 0, _ => s
  | fuel + 1, idx =>
    match (s.cell cell).holds[idx]? with
    | none => s
    | some h =>
      if h.mark = 0 || (s.cell cell).waitsBefore idx h.core then s.redeliverAll cell fuel (idx + 1)
      else match s.redeliver cell idx h h.mark with
        | some t => t.redeliverAll cell fuel idx
        | none => s.redeliverAll cell fuel (idx + 1)

/-- Held messages that `f` chooses are re-delivered with a mark. -/
def State.release (s : State) (cell mark : Nat) (f : Held → Bool) : State :=
  let s := s.modCell cell fun c => { c with holds := c.holds.map fun (h : Held) => if h.mark = 0 && f h then { h with mark := mark } else h }
  s.redeliverAll cell (s.cell cell).holds.length 0

/-- The tags of atom `k` in one binding when shade `sh` is applied (R294). -/
def State.retag (s : State) (b : Binding) (k sh : Nat) : State :=
  match tagKey b.tags (2 * k), tagKey b.tags (2 * k + 1) with
  | some i, some j =>
    let x := s.getTag i
    let y := s.getTag j
    let fresh : Tag := ⟨sh, tagOpen, 0, 0⟩
    if x.upto = tagOpen then (s.putTag i { x with upto := sh - 1 }).putTag j fresh
    else if y.upto = tagOpen then (s.putTag j { y with upto := sh - 1 }).putTag i fresh
    else
      let second : Bool := (x.since = 0 && y.since = 0) || (x.since ≠ 0 && (y.since = 0 || y.since < x.since))
      if second then s.putTag j fresh else s.putTag i fresh
  | _, _ => s

/-- A notice applied (R294): view, tags, acknowledgement, and the messages that it frees. -/
def State.applyNotice (s : State) (cell id k sh : Nat) : State :=
  let s := s.modCell cell fun c => { c with views := tabSet c.views id sh }
  let s := ((s.cell cell).bindings.filter (·.dict = id)).foldl (fun t b => t.retag b k sh) s
  let s := (s.bump 2 cell 10).release cell 1 fun h => h.dict = id && h.shade ≤ sh
  { s with acks := s.acks ++ [⟨id, k, sh, s.cellTag cell⟩] }

/-- Buffered notices that are next in shade order are applied; those at or below the view go. `fuel` bounds them. -/
def State.drainNotices (s : State) (cell id : Nat) : Nat → State
  | 0 => s
  | fuel + 1 =>
    let v := tabGet 0 (s.cell cell).views id
    match (s.cell cell).notices.find? fun (d, _, sh) => d = id && sh = v + 1 with
    | none => s.modCell cell fun c => { c with notices := c.notices.filter fun (d, _, sh) => !(d = id && sh ≤ v) }
    | some n =>
      let s := s.modCell cell fun c => { c with notices := c.notices.filter (· ≠ n) }
      (s.applyNotice cell id n.2.1 n.2.2).drainNotices cell id fuel

/-- The cell is free, and the last region to hold it is switched out: it neither applies nor acknowledges notices (R414). -/
def State.switchedOut (s : State) (cell : Nat) : Bool :=
  (s.cell cell).freed && s.saves.any fun (id, l) =>
    (s.region id).any (·.switched) && l.head?.any fun (x : RegionSave) => x.placed.contains cell

/-- A subscriber's acknowledgement is waited for: its die is not fenced, and it is not switched out (R293, R414). -/
def State.acknowledges (s : State) (tag : Nat) : Bool :=
  !s.unreachableTag tag && !(tagDev tag = s.device && s.switchedOut (tagCore tag / 8))

/-- A notice reaches its cell, a cell of this device or another's (DEDUCED, log 35). -/
def State.noticeAt (s : State) (idx : Nat) (n : Notice) : State :=
  let t := { s with noticeNet := listDel s.noticeNet idx }
  let ack (t : State) : State := { t with acks := t.acks ++ [⟨n.dict, n.atom, n.shade, n.tag⟩] }
  let cell := tagCore n.tag / 8
  if tagDev n.tag ≠ s.device then ack t
  else if !s.isLive (dieOfCell cell) || s.switchedOut cell then t
  else match s.dict n.dict with
    | none => t
    | some d =>
      if !d.hasSub n.tag then ack t
      else
        let v := tabGet 0 (s.cell cell).views n.dict
        if n.shade ≤ v then t
        else if n.shade = v + 1 then (t.applyNotice cell n.dict n.atom n.shade).drainNotices cell n.dict 64
        else if (s.cell cell).notices.length < 64 then
          t.modCell cell fun c => { c with notices := c.notices ++ [(n.dict, n.atom, n.shade)] }
        else
          let b := if n.back = 0 then 64 else Nat.min (2 * n.back) 4096
          { s with noticeNet := listSet s.noticeNet idx { n with refused := true, back := b, due := s.cycle + b } }

/-- ATOM_REPLACED_NOTICE (R294): A cell applies an atom-replaced notice, advancing its view and updating binding tags.
-/
def execAtomReplacedNotice (idx : Nat) (s : State) : Next :=
  event
    (match s.noticeNet[idx]? with
     | none => none
     | some n => if !n.refused && n.due ≤ s.cycle + 1 then some (s.noticeAt idx n) else none)

/-- A refused notice is sent again (R293). -/
def execNoticeResend (idx : Nat) (s : State) : Next :=
  event
    (match s.noticeNet[idx]? with
     | none => none
     | some n =>
       if n.refused && n.due ≤ s.cycle + 1 then
         some { s with noticeNet := listSet s.noticeNet idx { n with refused := false, due := s.cycle } }
       else none)

/-- An acknowledgement reaches the owner (R293). -/
def execNoticeAck (idx : Nat) (s : State) : Next :=
  event
    (match s.acks[idx]? with
     | none => none
     | some a =>
       some ({ s with acks := listDel s.acks idx }.modDict a.dict fun d =>
         { d with owed := d.owed.filter (· ≠ (a.atom, a.shade, a.tag)) }))

/-- A held message's limit expires, or one that waits for room finds it (R297). -/
def execHoldExpiry (cell idx : Nat) (s : State) : Next :=
  event
    (match (s.cell cell).holds[idx]? with
     | none => none
     | some h =>
       let behind := (s.cell cell).waitsBefore idx h.core
       if h.mark ≠ 0 then (if behind then none else s.redeliver cell idx h h.mark)
       else if h.since + 2 ^ (h.limit + 10) ≤ s.cycle + 1 then
         some ((if behind then none else s.redeliver cell idx h 2).getD
           (s.modCell cell fun c => { c with holds := listSet c.holds idx { h with mark := 2 } }))
       else none)

/-! ### IMRES (R299–R302, R304) -/

/-- The 32-bit shade nearest a view (R291). -/
def nearShade (view sh : Nat) : Int := (view : Int) + ((sh + 65536 - view % 65536 + 32768) % 65536 : Nat) - 32768

/-- What IMRES reports: the state, status, SHADE, COUNT and BUILT. -/
structure ImOut where
  s : State
  status : Nat
  shade : Dword
  count : Nat := 0
  built : Nat := 0
  deriving DecidableEq, Repr

def ImOut.gd (x : ImOut) : Dword :=
  dw (x.shade.toNat % 2 ^ 32 * 2 ^ 32 + x.built % 256 * 2 ^ 16 + x.count % 256 * 2 ^ 8 + x.status)

/-- One entry counted toward HOT (R304). -/
def State.countHot (s : State) (core : Nat) (b : BindRec) : State :=
  let s := s.flushAt core (b.key + 0x28) 16
  let d5 := s.homeNat (b.key + 0x28) 8
  let w := s.homeNat (b.key + 0x30) 8
  let (hot, s) := if s.time > w + 2 ^ 20 then (0, s.writeHome (b.key + 0x30) (leBytes 8 s.time)) else (d5 % 2 ^ 32, s)
  let hot := (hot + 1) % 2 ^ 32
  let th := d5 / 2 ^ 32
  let s := s.writeHome (b.key + 0x28) (leBytes 8 (th * 2 ^ 32 + hot))
  if th ≠ 0 && hot = th then
    { s.bump 2 (cellOf core) 9 with
      repl := s.repl ++ [⟨dieOfCore core, b.dict, b.seg, (s.core core).region.getD 0, some (cellOf core), b.key⟩] }
  else s

/-- The slot of atom `k` that covers a shade: its version number and tag. -/
def State.coveringSlot (s : State) (tags : List (Nat × Nat)) (k : Nat) (m : Int) : Option (Nat × Nat × Tag) :=
  [0, 1].findSome? fun v =>
    match tagKey tags (2 * k + v) with
    | none => none
    | some key => if (s.getTag key).covers m then some (v, key, s.getTag key) else none

/-- A build of the slot is queued in the cell for the version that begins at `since`. -/
def State.beingBuilt (s : State) (cell slot since : Nat) : Bool :=
  (List.range 8).any fun i => (s.core (8 * cell + i)).builds.any fun b => b.slotPa = slot && b.since = since

/-- The values of an atom's version that began at a shade (R301), where the table holds it. -/
def AtomVer.since? (a : AtomVer) (sh : Nat) : Option (List Word) :=
  if sh = a.c then some a.cur else if sh = a.p && a.p ≠ 0 then some a.prior else none

/-- One entry of a coded message resolved: its slot, a build where the image is missing, HITS and HOT. -/
def State.resolveEntry (s : State) (core : Nat) (b : BindRec) (d : Dict) (rows : List Nat) (tags : List (Nat × Nat)) (m : Int)
    (r : Resolution × Nat) (k coef : Nat) : State × Resolution × Nat :=
  let (res, built) := r
  match s.coveringSlot tags k m with
  | none => (s, res, built)
  | some (v, key, t) =>
    let slot := s.slotKey (s.rootOf core) (cellOf core) b k v
    let res := { res with pairs := res.pairs ++ [(slot, BitVec.ofNat 16 coef)] }
    let s1 := (s.putTag key { t with hits := Nat.min (t.hits + 1) (2 ^ 32 - 1) }).countHot core b
    if t.valid then (s1, res, built)
    else
      let res := { res with await := if res.await.contains (slot, t.since) then res.await else res.await ++ [(slot, t.since)] }
      if s.beingBuilt (cellOf core) slot t.since then (s1, res, built)
      else
        let atom := ((d.atoms[k]?).bind (·.since? t.since)).getD []
        (s1.modCore core fun x => { x with builds := x.builds ++ [⟨slot, key, t.since, atom, rows, b.nb, d.len⟩] }, res, built + 1)

/-- Entries of a coded message: atom and coefficient (R275). -/
def codedEntries (hdr : Dword) (pay : List Dword) : List (Nat × Nat) :=
  (List.range (bitsOf hdr.toNat 55 52)).map fun i =>
    let w := bitsOf (pay.getD (i / 2) 0).toNat (32 * (i % 2) + 31) (32 * (i % 2))
    (w % 2048, w / 2 ^ 16)

/-- The decoded segment of an escape message (R298). -/
def escapeSeg (pay : List Dword) (len : Nat) : List Word :=
  let d0 := (pay.headD 0).toNat
  (List.range len).map fun i =>
    BitVec.ofNat 32 (dequant (bitsOf (pay.getD (1 + i / 8) 0).toNat (8 * (i % 8) + 7) (8 * (i % 8))) (d0 % 2 ^ 16) (bitsOf d0 23 16))

/-- The decision of R300 on a message whose dictionary is installed. `mark` is the message's. -/
def State.resolve (s : State) (core ord mark : Nat) (b : BindRec) (tags : List (Nat × Nat)) (d : Dict) (hdr : Dword)
    (pay : List Dword) : ImOut :=
  let cell := cellOf core
  let h := hdr.toNat
  let k := s.core core
  let view := s.view cell b.dict d
  let m := nearShade view (bitsOf h 39 24)
  let shade := BitVec.ofInt 64 m
  let count := if hdrType hdr = 2 then bitsOf h 55 52 else 0
  let out (s : State) (status : Nat) (built : Nat := 0) : ImOut := ⟨s, status, shade, count, built⟩
  let entries := codedEntries hdr pay
  let rows := (List.range (16 * b.nb)).map fun i => ((s.sliceKey (s.rootOf core) cell (b.rowVa i) .read)).getD 0
  let res : Resolution := ⟨hdrType hdr = 2, b.nb, [], rows, d.len, [], ord, []⟩
  if codedMalformed hdr pay (some d.len) || (hdrType hdr = 2 && entries.any fun (a, _) => a ≥ d.k) then out (s.bump 2 cell 7) 5
  else if k.resq.length ≥ 4 then out s 9
  else if hdrType hdr = 3 then
    out ((s.modCore core fun k => { k with resq := k.resq ++ [{ res with xh := escapeSeg pay d.len }] }).bump 2 cell 1) 1
  else if (view : Int) < m then
    if mark = 2 then out (s.bump 2 cell 5) 3
    else if (s.cell cell).holds.length ≥ 32 then out s 7
    else
      let held : Held := ⟨hdr, pay, core, b.dict, b.retCh, b.holdLog, s.cycle, m.toNat, 0⟩
      out ((s.modCell cell fun c => { c with holds := c.holds ++ [held] }).bump 2 cell 3) 2
  else
    let gone (a : Nat) : Bool := match s.coveringSlot tags a m with
      | none => true
      | some (_, _, t) => !t.valid && ((d.atoms[a]?).bind (·.since? t.since)).isNone
    if entries.any fun (a, _) => gone a then out (s.bump 2 cell 6) 4
    else
      let (s, res, built) := entries.foldl (fun (t, r, n) (a, c) => t.resolveEntry core b d rows tags m (r, n) a c) (s, res, 0)
      let s := s.modCore core fun k => { k with resq := k.resq ++ [res] }
      out (if res.await.isEmpty then s.bump 2 cell 0 else s) 0 built

/-- A binding registered now if the cell's table does not hold it, and the pieces of its tag array, by TAG_BASE as its bytes
stand (R290); else IMRES ends with status 8. -/
def State.bound (s : State) (core : Nat) (b : BindRec) (d : Dict) : Except State (State × List (Nat × Nat)) :=
  match s.xlateRange (s.rootOf core) (cellOf core) b.tagBase (32 * d.k) .write with
  | .error _ => .error s
  | .ok tags =>
    if (s.cell (cellOf core)).bindings.any (·.key = b.key) then .ok (s, tags)
    else match s.register (cellOf core) ((s.core core).region.getD 0) b tags d with
      | .ok t => .ok (t, tags)
      | .error t => .error t

/-- The mark of the message at a home address: that of its record, queued or held (R297). -/
def State.markAt (s : State) (core key : Nat) : Nat :=
  let base := sramKey (cellOf core) (areaBase core)
  (((s.core core).recs.find? fun r => (r.st = .held || r.st = .queued) && base + r.off = key).map (·.mark)).getD 0

/-- IMRES after its checks (R290, R300) (DEDUCED, log 33). -/
def State.imres (s : State) (core ord mark : Nat) (b : BindRec) (hdr : Dword) (pay : List Dword) : ImOut :=
  let h := hdr.toNat
  let count := if hdrType hdr = 2 then bitsOf h 55 52 else 0
  let mismatch : Bool := (hdrType hdr ≠ 2 && hdrType hdr ≠ 3) || bitsOf h 51 40 ≠ b.dict || bitsOf h 23 8 ≠ b.seg
  match s.dict b.dict with
  | none =>
    let open' : Dword := Config.openWord s.free 10
    let s := { s with free := s.free + 1 }
    if mismatch then ⟨s, 6, open', count, 0⟩ else ⟨s.bump 2 (cellOf core) 6, 4, open', count, 0⟩
  | some d =>
    let view := s.view (cellOf core) b.dict d
    match s.bound core b d with
    | .error t => ⟨t, 8, BitVec.ofInt 64 (nearShade view (bitsOf h 39 24)), count, 0⟩
    | .ok (s, tags) =>
      let d := (s.dict b.dict).getD d
      if mismatch then ⟨s, 6, dw (s.view (cellOf core) b.dict d), count, 0⟩ else s.resolve core ord mark b tags d hdr pay

/-- IMRES: the effect at issue; gd is written when its builds are made. -/
def execImres (lit : Option Word) (d m : Reg) (e : BitVec 4) (b : Reg) (s : State) : Next :=
  let i := Instr.imres lit d m e b
  let gm := s.me.g m
  let gb := rcValue s.me lit b
  let who := s.me.issued 1 e.toNat i
  deliver 1 e.toNat i s
    (s.unlessSpec
      (if gm.toNat % 8 ≠ 0 then .trap .afterIssue causeMisalign gm
       else if gb.toNat % 64 ≠ 0 then .trap .afterIssue causeMisalign gb
       else match s.readVa s.cur gm.toNat 8, s.xlateRange (s.rootOf s.cur) (cellOf s.cur) gm.toNat 8 .read,
           s.readVa s.cur gb.toNat 64, s.xlateRange (s.rootOf s.cur) (cellOf s.cur) gb.toNat 64 .read with
         | .error (c, a), _, _, _ | _, .error (c, a), _, _ | _, _, .error (c, a), _ | _, _, _, .error (c, a) =>
           .trapIn ((s.walked s.cur gm 8).walked s.cur gb 64) .afterIssue c (dw a)
         | .ok (_, hb), .ok hl, .ok (_, bb), .ok bl =>
           let hdr := dw (leNat hb)
           let typ := hdrType hdr
           let n := if typ = 2 || typ = 3 then 8 * (hdr.toNat % 256) else 0
           match s.readVa s.cur gm.toNat (8 + n) with
           | .error (c, a) => .trapIn ((s.walked s.cur gm (8 + n)).walked s.cur gb 64) .afterIssue c (dw a)
           | .ok (t, mb) =>
             let br := bindRec ((bl.headD (0, 0)).1) gb bb
             if s.bindBad s.cur br then .illegal 0x0108 gb
             else
               let t := (t.walked s.cur gb 64).readDone s.cur (piecesDwords bl)
               let x := t.imres s.cur who.ord (s.markAt s.cur ((hl.headD (0, 0)).1)) br hdr (dwordList (n / 8) (mb.drop 8))
               let waits : Bool := (x.s.me.resq.find? (·.ord = who.ord)).any fun r => !r.await.isEmpty
               if waits then .core x.s fun k => k.addPend
                 { who := who, kind := .reply, writes := [.g d x.gd], flags := 0, fp := false, acq := false, issued := s.cycle,
                   due := s.cycle, va := gm, dwords := [], fault := none, ready := false, lost := false }
               else x.s.result 1 e.toNat i 1 [.g d x.gd]))

/-! ### Builds (R301) -/

/-- The image's elements, for the bank type at the slot (DEDUCED, log 90). -/
def State.imageElems (s : State) (cell : Nat) (b : Build) (typ : Nat) : List Nat :=
  b.rows.map fun k =>
    let f := s.bankFmt cell k
    imageBits typ (s.elemVals f (bankBase k) (k % bankSize) b.len) (b.atom.map fun w => f32 w.toNat)

/-- A build that resolutions of a core await is made: those that await no other join the queue, and their IMRES completes. -/
def State.awaited (s : State) (core : Nat) (slot since : Nat) : State :=
  let k := s.core core
  let (now, rest) := (k.resq.map fun (r : Resolution) =>
      (r.await.contains (slot, since), { r with await := r.await.filter (· ≠ (slot, since)) })).partition
    fun (hit, r) => hit && r.await.isEmpty
  let s := s.modCore core fun k => { k with resq := rest.map (·.2) ++ now.map (·.2) }
  now.foldl (fun t (_, r) => (t.bump 2 (cellOf core) 0).modCore core fun k =>
    { k with pend := k.pend.map fun p => if p.who.ord = r.ord && p.kind = .reply && !p.ready then { p with ready := true, due := s.cycle } else p }) s

/-- A build made on a core's matrix unit. -/
def State.build (s : State) (core : Nat) (b : Build) : State :=
  let cell := cellOf core
  let typ := (s.bankFmt cell b.slotPa).typ
  let reads := b.rows.flatMap fun k => (s.bankFmt cell k).elemDwords (bankBase k) (k % bankSize) b.len
  let bytes := (s.imageElems cell b typ).flatMap (leBytes (typeBits typ / 8))
  let s := ((s.readDone core reads.eraseDups).writeHome b.slotPa bytes).bump 2 cell 2
  let t := s.getTag b.tagPa
  let s := if t.since = b.since then s.putTag b.tagPa t.made else s
  let s := s.modCore core fun k => { k with builds := k.builds.filter (· ≠ b) }
  (List.range 8).foldl (fun u i => u.awaited (8 * cell + i) b.slotPa b.since) s

/-- IMAGE_BUILD (R301): An image slot is built on the matrix unit between commands. -/
def execImageBuild (core : Nat) (s : State) : Next :=
  let k := s.core core
  event
    (if k.mq.ran || k.mq.step.isSome || k.frozen || (k.switching && k.status ≠ .running) then none
     else (s.nextBuild core).map fun b => s.build core b)

/-! ### IMACC (R303) -/

/-- The new value of lane `i` of vd. -/
def State.imaccLane (s : State) (cell : Nat) (r : Resolution) (i old : Nat) : Nat :=
  if r.coded then
    r.pairs.foldl
      (fun v (slot, c) =>
        let f := s.bankFmt cell slot
        let x := (s.elemVals f (bankBase slot) (slot % bankSize + i * (f.bits / 8)) 1).headD (FV.ofInt 0)
        fma32 (rne32 (f16 c.toNat)) (rne32 x) v)
      old
  else
    let k := r.rows.getD i 0
    let f := s.bankFmt cell k
    rne32 (exactDot ((s.elemVals f (bankBase k) (k % bankSize) r.len).zip (r.xh.map fun w => f32 w.toNat)) (f32 old))

/-- IMACC (R303): Consumes the oldest resolution and accumulates its images or dense product into vd. -/
def execImacc (d : Reg) (p : BitVec 3) (c : BitVec 4) (s : State) : Next :=
  let i := Instr.imacc d p c
  let k := s.me
  deliver 2 c.toNat i s
    (if k.vl = 0 then .illegal 0x0107 0
     else match k.resq.find? (·.await.isEmpty) with
       | none => .illegal 0x0107 0
       | some r =>
         let n := 16 * r.nb
         if k.vl < n then .illegal 0x0108 (dw k.vl)
         else
           let cell := cellOf s.cur
           let pr := k.p p
           let old := k.v d
           let lanes := (List.range n).map fun l => if active pr 4 l then s.imaccLane cell r l (elem old 4 l) else 0
           let ds := if r.coded then r.pairs.flatMap fun (slot, _) =>
               let f := s.bankFmt cell slot
               f.elemDwords (bankBase slot) (slot % bankSize) n
             else r.rows.flatMap fun k => (s.bankFmt cell k).elemDwords (bankBase k) (k % bankSize) r.len
           let t := (s.readDone s.cur ds.eraseDups).modMe fun k => { k with resq := k.resq.erase r }
           t.result 2 c.toNat i (if r.coded then 4 + r.pairs.length else 4 + (r.len + 3) / 4)
             [.v d (vOfElems 4 lanes) (activeMask pr 4 n)])

/-! ### DREPL (R305) -/

/-- The new atom written into the storage as it was read: FP16 halves, or codes and a record whose bits 31:24 are 0 (R50). -/
def State.storeAtom (s : State) (d : Dict) (k : Nat) (b : List Byte) : State :=
  match d.q8 with
  | none => s.writeHome (d.atomPa + 2 * k * d.len) b
  | some g =>
    let f : BankFmt := ⟨2, Nat.log2 (g / 32), true, 0, false⟩
    let perBank := 8 * (65536 / (32 + 8 * g))
    let base := d.atomPa + k / perBank * bankSize
    let (p, m) := f.loc (k % perBank * g)
    (s.writeHome (base + p) (b.drop 4)).writeHome (base + m) (b.take 3 ++ [0])

/-- The decoded values of a new atom. -/
def newAtom (d : Dict) (b : List Byte) : List Word :=
  match d.q8 with
  | none => (List.range d.len).map fun i => BitVec.ofNat 32 (rne32 (f16 (bytesAt b (2 * i) 2)))
  | some _ => (List.range d.len).map fun i => BitVec.ofNat 32 (dequant (bytesAt b (4 + i) 1) (bytesAt b 0 2) (bytesAt b 2 1))

/-- Gd of DREPL: SHADE, ZERO, STATUS. -/
def dreplValue (shade zeros status : Nat) : Dword := dw (shade * 2 ^ 32 + zeros * 2 ^ 8 + status)

/-- DREPL at the owner: the state and gd. Its notices arrive once it has completed (R305). -/
def State.drepl (s : State) (id k : Nat) (b : List Byte) : State × Dword :=
  match s.dict id with
  | none => (s, dreplValue 0 0 5)
  | some d =>
    if d.shade = 0xFFFF_FFFF then (s, dreplValue d.shade 0 4)
    else if d.owed.any fun (a, _, _) => a = k then (s, dreplValue d.shade 0 1)
    else
      let sh := d.shade + 1
      let cur := newAtom d b
      let nu := atomNorm cur
      let old := d.atoms.getD k ⟨[], 0, 1, [], 0, 0⟩
      let s := s.storeAtom d k b
      let s := match normKey d.norms k with
        | some key => s.writeHome key (leBytes 4 nu.toNat)
        | none => s
      let s := s.modDict id fun d =>
        { d with shade := sh, atoms := listSet d.atoms k ⟨cur, nu, sh, old.cur, old.nu, old.c⟩,
                 owed := d.owed ++ (d.subs.filter s.acknowledges).map fun t => (k, sh, t) }
      let tags := (d.subs ++ [s.cellTag (sramCell d.atomPa), s.cellTag (cellOf s.cur)]).eraseDups
      let due := s.cycle + 17 + (d.len + 15) / 16
      ({ s with noticeNet := s.noticeNet ++ tags.map fun t => ⟨id, k, sh, t, 0, due, false⟩ }, dreplValue sh (b2n (nu = 0)) 0)

/-- DREPL (R305): Replaces one atom of a dictionary at its owner, advancing the shade and sending notices. -/
def execDrepl (lit : Option Word) (d a : Reg) (e : BitVec 4) (c : Reg) (s : State) : Next :=
  let i := Instr.drepl lit d a e c
  let gc := rcValue s.me lit c
  let n := gc.toNat
  let id := bitsOf n 11 0
  let k := bitsOf n 22 12
  let ga := s.me.g a
  deliver 1 e.toNat i s
    (if n / 2 ^ 23 ≠ 0 || !s.inSet s.cur id || (s.dict id).any (fun d => d.k ≤ k) then .illegal 0x0108 gc
     else s.unlessSpec
       (match s.dict id with
        | none => s.result 1 e.toNat i 16 [.g d (dreplValue 0 0 5)]
        | some x =>
          let (size, align) := if x.q8.isSome then (4 + x.len, 4) else (2 * x.len, 2)
          if ga.toNat % align ≠ 0 then .trap .afterIssue causeMisalign ga
          else match s.readVa s.cur ga.toNat size with
            | .error (c, a) => .trapIn (s.walked s.cur ga size) .afterIssue c (dw a)
            | .ok (t, b) =>
              let (t, v) := t.drepl id k b
              t.result 1 e.toNat i (16 + (x.len + 15) / 16) [.g d v]))

/-! ### DSYNC and HOLDR (R306, R307) -/

/-- Every notice from the cell's view to the table's shade applied in order: the state and their number. The atom of
shade S is the one of whose two versions one began at S. -/
def State.catchUp (s : State) (cell id : Nat) (d : Dict) : State × Nat :=
  let v := tabGet d.shade (s.cell cell).views id
  let t := (List.range (d.shade - v)).foldl
    (fun t j =>
      match d.atoms.findIdx? fun a => a.c = v + 1 + j || a.p = v + 1 + j with
      | some k => t.applyNotice cell id k (v + 1 + j)
      | none => t.modCell cell fun c => { c with views := tabSet c.views id (v + 1 + j) })
    s
  (t.drainNotices cell id 64, d.shade - v)

/-- DSYNC OP 0: the state and gd. -/
def State.fetchDelta (s : State) (cell id : Nat) : State × Dword :=
  match s.dict id with
  | none => (s, 5)
  | some d =>
    if d.hasSub (s.cellTag cell) then
      let (t, n) := s.catchUp cell id d
      (t, dw (tabGet 0 (t.cell cell).views id * 2 ^ 32 + n % 256 * 2 ^ 8))
    else match s.subscribeCell cell id with
      | some t => (t, dw (d.shade * 2 ^ 32))
      | none => (s.modDict id fun d => { d with subFull := true }, dw (s.view cell id d * 2 ^ 32 + 7))

/-- DSYNC (R306): Fetches the notice delta of a dictionary or unregisters a binding. -/
def execDsync (lit : Option Word) (d b : Reg) (e : BitVec 4) (c : Reg) (s : State) : Next :=
  let i := Instr.dsync lit d b e c
  let gc := rcValue s.me lit c
  let n := gc.toNat
  let id := bitsOf n 11 0
  let cell := cellOf s.cur
  let gb := s.me.g b
  deliver 1 e.toNat i s
    (if n / 2 ^ 17 ≠ 0 || bitsOf n 15 12 ≠ 0 || !s.inSet s.cur id then .illegal 0x0108 gc
     else if !bitOf n 16 && b ≠ 0 then .illegal 0x0103 0
     else s.unlessSpec
       (if !bitOf n 16 then
          let (t, v) := s.fetchDelta cell id
          t.result 1 e.toNat i 1 [.g d v]
        else if (s.dict id).isNone then s.result 1 e.toNat i 1 [.g d 5]
        else match s.xlate (s.rootOf s.cur) cell gb.toNat .read with
          | .error c => .trapIn (s.walked s.cur gb) .afterIssue c gb
          | .ok key =>
            let s := s.walked s.cur gb
            if (s.cell cell).bindings.any fun x => x.key = key && x.dict = id then
              (s.modCell cell fun c => { c with bindings := c.bindings.filter (·.key ≠ key) }).result 1 e.toNat i 1 [.g d 0]
            else s.result 1 e.toNat i 1 [.g d 6]))

/-- The parameter of HOLDR breaks its layout (R307). -/
def holdrBad (n : Nat) : Bool :=
  let op := n % 16
  let idx := bitsOf n 7 4
  let dict := bitsOf n 27 16
  bitsOf n 15 8 ≠ 0 || n / 2 ^ 28 ≠ 0 || op > 3 || idx > 10 || (op ≠ 3 && idx ≠ 0) || (op ≠ 1 && op ≠ 2 && dict ≠ 0)

/-- HOLDR (R307): Reads the hold store, re-delivers or drops held messages, or reads an image counter. -/
def execHoldr (lit : Option Word) (d : Reg) (e : BitVec 4) (c : Reg) (s : State) : Next :=
  let i := Instr.holdr lit d e c
  let gc := rcValue s.me lit c
  let n := gc.toNat
  let cell := cellOf s.cur
  let dict := bitsOf n 27 16
  let holds := (s.cell cell).holds
  let mine := holds.filter (·.dict = dict)
  deliver 1 e.toNat i s
    (if holdrBad n then .illegal 0x0108 gc
     else match n % 16 with
       | 0 =>
         let age := (holds.head?.map fun h => Nat.min (s.cycle - h.since) (2 ^ 32 - 1)).getD 0
         s.result 1 e.toNat i 3 [.g d (dw (age * 2 ^ 32 + holds.length % 256))]
       | 1 => s.unlessSpec ((s.release cell 2 (·.dict = dict)).result 1 e.toNat i (3 + mine.length) [.g d (dw mine.length)])
       | 2 => s.unlessSpec
           (((s.modCell cell fun c => { c with holds := c.holds.filter (·.dict ≠ dict) }).bump 2 cell 8 mine.length).result
             1 e.toNat i (3 + mine.length) [.g d (dw mine.length)])
       | _ => s.result 1 e.toNat i 3 [.g d (dw (s.counter 2 cell (bitsOf n 7 4)))])

/-! ### Replication (R90, R304) -/

/-- A request that changes nothing is counted (R90). -/
def State.refuseRepl (s : State) (q : ReplReq) : State := s.modDie q.die fun d => { d with refused := d.refused + 1 }

/-- One binding copied to the same offset of another cell and registered there, unless the cell holds it already (R290), with
the images whose range is the same in both (R304). None where that cell cannot register it. -/
def State.copyBinding (s : State) (region dst : Nat) (x : Binding) : Option State :=
  let root := ((s.region region).map (·.root)).getD 0
  let src := sramCell x.key
  let key := sramKey dst (sramOff x.key)
  let bytes := s.homeBytes x.key 64
  let b := bindRec key 0 bytes
  match s.dict x.dict with
  | none => none
  | some d =>
    match s.xlateRange root dst b.tagBase (32 * d.k) .write with
    | .error _ => none
    | .ok tags =>
      let u := s.writeHome key bytes
      let has : Bool := (u.cell dst).bindings.any fun y => y.key = key && y.dict = x.dict
      let u := if has then u else u.modCell dst fun c => { c with bindings := c.bindings.filter (·.key ≠ key) }
      match (if has then .ok u else u.register dst region b tags d : Except State State) with
      | .error _ => none
      | .ok t =>
        some ((List.range (2 * d.k)).foldl
          (fun t i =>
            match tagKey x.tags i, tagKey tags i with
            | some a, some c =>
              let old := s.getTag a
              let new := t.getTag c
              if old.valid && old.since = new.since && old.upto = new.upto then
                let from' := s.slotKey root src b (i / 2) (i % 2)
                let to' := t.slotKey root dst b (i / 2) (i % 2)
                (t.writeHome to' (s.homeBytes from' (64 * b.nb))).putTag c new.made
              else t
            | _, _ => t)
          t)

/-- A request handled by its distributor. The new tag takes the first alternate's core and channel; a first alternate of a peer,
and a chosen cell that cannot register the binding or translate its tags, count as no such cell (DESIGN CHOICE, log 34). -/
def State.replicate (s : State) (q : ReplReq) : State :=
  match s.dict q.dict with
  | none => s.refuseRepl q
  | some d =>
    match (if d.route = 0 then none else s.canon 0 (d.route + 32 * q.seg)) with
    | none => s.refuseRepl q
    | some key =>
      let d0 := s.homeNat key 8
      let cnt := bitsOf d0 10 8
      let alts := (List.range cnt).map fun i => s.homeNat (key + 8 + 4 * i) 4
      let first := alts.headD 0
      let src := q.cell.getD (tagCore first / 8)
      let mine := (s.cell src).bindings.filter fun b =>
        if q.cell.isSome then b.key = q.key else b.dict = q.dict && bitsOf (s.homeNat b.key 8) 47 32 = q.seg
      let cells := (((s.region q.region).map (·.placed)).getD []).mergeSort (· ≤ ·)
      let used := src :: (alts.filter fun t => tagDev t = s.device).map fun t => tagCore t / 8
      let t := { s with free := s.free + 1 }
      if !bitOf d0 63 || cnt = 0 || cnt ≥ 4 || mine.isEmpty || (q.cell.isNone && tagDev first ≠ s.device) then t.refuseRepl q
      else match cells.find? fun c => !used.contains c && Config.holdsRows s.free q.dict q.seg c with
        | none => t.refuseRepl q
        | some dst =>
          match mine.foldl (fun (o : Option State) b => o.bind fun t => t.copyBinding q.region dst b) (some t) with
          | none => t.refuseRepl q
          | some t =>
            let tag := tagOf s.device (8 * dst + bitsOf first 8 6) (tagCh first)
            (t.writeHome (key + 8 + 4 * cnt) (leBytes 4 tag)).writeHome key (leBytes 8 (setBits d0 10 8 (cnt + 1)))

/-- A distributor handles the oldest replication request. -/
def execReplicationRequest (s : State) : Next :=
  event
    (match s.repl with
     | [] => none
     | q :: rest => some ({ s with repl := rest }.replicate q))

/-- The word at an address is HOT of a routing entry. -/
def State.isHot (s : State) (a : Nat) : Bool :=
  s.dicts.any fun (_, d) => match d with
    | some d => d.route ≠ 0 && (match s.canon 0 d.route with
      | some r => r ≤ a && a < r + 32 * 65536 && (a - r) % 32 = 24
      | none => false)
    | none => false

/-- The words on which a write of zeros to HOT leaves something: those that hold something else, stand in an uncorrectable
doubleword, or are watched, awaited, or shadowed. -/
def State.hotWords (s : State) : List Nat :=
  let waits := s.cores.flatMap fun (_, k) => k.pend.filterMap fun p => p.waits.map (·.2.2)
  let lines := s.cells.flatMap fun (n, c) => c.shadow.map fun (l, _) => sramKey n (32 * l) + 24
  let l := s.mem.map (·.1) ++ s.bad ++ (s.cells.flatMap fun (_, c) => c.watches.map (·.pa)) ++ waits ++ lines
  ((l.map fun a => a / 4 * 4).filter s.isHot).eraseDups

/-- Every 2^20 cycles the master clears HOT in every routing entry (R90), each a write at its home (R423). -/
def State.clearHot (s : State) : State :=
  s.hotWords.foldl (fun t a => t.writeHome a (leBytes 4 0)) { s with hotAt := s.cycle + 1 }

/-- ROUTE_HOT_CLEAR (R90): Every 2^20 cycles the master clears HOT in every routing entry. -/
def execRouteHotClear (s : State) : Next := event (if s.hotAt + 2 ^ 20 ≤ s.cycle + 1 then some s.clearHot else none)

end Sys2Proof.Machine
end

