-- ==== Sys2Proof/Machine/Distributor.lean ====
section
/-! DEFINITION. The distributors and the master: fencing a die and heartbeats (R81, R82), dealing and retiring tiles (R84,
R418), the count Q and quiescence (R374, R375), the retirement of a region (R419, R420), and the report port (R79). -/

namespace Sys2Proof.Machine

/-! ### Fencing a die (R82) -/

/-- A core of a fenced die: what it held of its region's budgets and spill areas is released (R355). -/
def State.loseCore (s : State) (c : Nat) : State :=
  let k := s.core c
  let s := if k.status = .idle then s else s.uncharge k.fir.region .msgs k.fir.prodLeft
  let lost := (match k.status, k.fir.ctx with
      | .idle, _ => []
      | _, r => r.toList)
    ++ (k.recs.filter (·.st = .queued)).filterMap (·.ctx) ++ k.ctxList.filterMap fun _ => k.region
  let s := lost.foldl (fun t r => t.uncharge r .ctx 1) s
  let s := (List.range 8).foldl (fun t i => t.unbind c i) (s.dropSpills c)
  { s with cores := tabDel s.cores c }

/-- A cell of a fenced die. -/
def State.loseCell (s : State) (n : Nat) : State :=
  let s := (s.cell n).enc.foldl (fun t j => if j.charged then t.uncharge j.region .msgs 1 else t) s
  { s with cells := tabDel s.cells n }

/-- A record, or its area's header, became unreachable between two states. -/
def State.recordGone (before s : State) (r : Region) (off : Nat) : Bool :=
  (0 :: recordOffs off).any fun o => (before.spillDw r o).isSome && (s.spillDw r o).isNone
/-- A core without the records that have become unreachable. -/
def Core.keepRecords (k : Core) (gone : Nat → Bool) : Core :=
  { k with ctxList := k.ctxList.filter fun o => !gone o, armList := k.armList.filter fun o => !gone o }
/-- The lists of a core that has lost records linked anew, and the charges of the contexts lost released (R355). -/
def State.relink (s : State) (id : Nat) (r : Region) (gone : Nat → Bool) (k : Core) : State :=
  let link (t : State) (l : List Nat) : State := (l.zip (l.drop 1 ++ [0])).foldl (fun t (a, b) => t.linkRecord r a b) t
  if !k.ctxList.any gone && !k.armList.any gone then s
  else
    let t := (k.ctxList.filter gone).foldl (fun t _ => t.uncharge id .ctx 1) s
    link (link t (k.keepRecords gone).ctxList) (k.keepRecords gone).armList

/-- Contexts and arms of a live core whose records, or whose area's header, a fence has made unreachable: they are lost, and the
records left are linked anew (R355). -/
def State.loseRecords (before s : State) (c : Nat) : State :=
  match (s.core c).region, (s.core c).region.bind s.region with
  | some id, some r =>
    let gone := before.recordGone s r
    (s.relink id r gone (s.core c)).modCore c fun k => k.keepRecords gone
  | _, _ => s
/-- The same for a region that is switched out, whose cores stand in its save. -/
def State.loseSaved (before s : State) (id : Nat) : State :=
  match s.region id with
  | none => s
  | some r =>
    match r.switched, tabGet [] s.saves id with
    | true, x :: rest =>
      let gone := before.recordGone s r
      let t := x.cores.foldl (fun t (_, k) => t.relink id r gone k) s
      { t with saves := tabSet t.saves id ({ x with cores := x.cores.map fun (c, k) => (c, k.keepRecords gone) } :: rest) }
    | _, _ => s

/-- Contexts in flight to a die are dropped when it is fenced (R355): whether the SPAWN is still answered is open (R351) (DESIGN
CHOICE, log 105). -/
def State.dropContexts (s : State) (d : Nat) : State :=
  let hit (m : Msg) : Bool := hdrType m.hdr = 6 && tagDev m.dst.toNat = s.device && dieOfCore (tagCore m.dst.toNat) = d
  (s.net.filter hit).foldl
    (fun t m => { t with free := t.free + 1 }.dropMsg (if Config.freeBit t.free then m else { m with answer := none }))
    { s with net := s.net.filter fun m => !hit m }

/-- Tiles dealt to a core of die `d` and not retired: to be dealt again, their descriptors QUEUED where the owner had
taken them (R82, R387). -/
def Region.reissue (r : Region) (d dev : Nat) : Region :=
  let back := (r.dealt.filter fun (_, c) => dieOfCore c = d).map (·.1)
  let fix (x : TileDesc) : TileDesc := if back.contains x.tile && x.st = 2 && x.taker = dev then ⟨x.tile, 0, dev⟩ else x
  { r with dealt := r.dealt.filter fun (_, c) => dieOfCore c ≠ d, redo := r.redo ++ back, descs := r.descs.map fix,
           dealing := r.dealing.filter fun c => dieOfCore c ≠ d }

/-- Step 3 for one region: its cells on the die are freed, and its tiles reissued or its fault domain killed. The answer
adds the functions and fault domains lost. -/
def State.fenceRegion (d : Nat) (x : State × List (Nat × Nat × Nat)) (id : Nat) : State × List (Nat × Nat × Nat) :=
  let (s, lost) := x
  match s.region id with
  | none => (s, lost)
  | some r =>
    let gone := r.placed.filter fun n => dieOfCell n = d
    if gone.isEmpty || r.state ≠ 1 then (s, lost)
    else
      let s := (s.uncharge id .cells gone.length).modRegion id fun r => { r with placed := r.placed.filter fun n => dieOfCell n ≠ d }
      if r.restartable then (s.modRegion id fun r => r.reissue d s.device, lost)
      else
        let (s, ids) := State.killDomain s r.domain
        let mine := ids.filterMap fun i => (s.region i).map fun q => (q.fn, q.domain, i)
        (s, mine.foldl (fun l x => if l.any (fun y => y.1 = x.1 && y.2.1 = x.2.1) then l else l ++ [x]) lost)

/-- An entry of KIND 3. Whether it names the region, and the cause in DETAIL, are open (DESIGN CHOICE, log 43). -/
def State.domainLost (s : State) (tag : Nat) (x : Nat × Nat × Nat) : State :=
  State.hmq { s with free := s.free + 1 } x.1 tag (if Config.freeBit s.free then x.2.2 else 0) x.2.1 3 [(Config.openWord s.free 0).toNat]

/-- The fence point of die `d` (R82). `tag` is the command's, 0 where no command caused it (DEDUCED, log 42). -/
def State.fence (s : State) (d tag : Nat) : State :=
  if !s.isLive d then s
  else
    let before := s
    let s := { s with live := s.live &&& ~~~(BitVec.ofNat 4 (2 ^ d)) }
    let s := s.modDie d fun x => { x with beating := false }
    let s := ((s.cores.map (·.1)).filter fun c => dieOfCore c = d).foldl State.loseCore s
    let s := ((s.cells.map (·.1)).filter fun n => dieOfCell n = d).foldl State.loseCell s
    let onDie (pa : Nat) : Bool :=
      (spaceOf pa = 1 && dieOfCell (sramCell pa) = d) || (spaceOf pa = 2 && !isWindow pa && stackOf pa / 4 = d)
    let cellTag (t : Nat) : Bool := tagDev t = s.device && dieOfCore (tagCore t) = d
    let s := { s with
      writes := s.writes.filter fun w => !onDie w.pa,
      hist := s.hist.filter fun w => !onDie w.pa,
      shared := s.shared.filter fun x => x.die ≠ d,
      reports := s.reports.filter fun r => r.die ≠ d,
      repl := s.repl.filter fun q => q.die ≠ d,
      barriers := s.barriers.filter fun (n, _) => n / 256 ≠ d,
      dicts := s.dicts.map fun (n, (x : Option Dict)) =>
        (n, x.map fun (x : Dict) => { x with owed := x.owed.filter fun o => !cellTag o.2.2 }) }
    let s := (s.cores.map (·.1)).foldl (State.loseRecords before) (s.dropContexts d)
    let s := (s.saves.map (·.1)).foldl (State.loseSaved before) s
    let (s, lost) := (s.regions.map (·.1)).foldl (State.fenceRegion d) (s, [])
    lost.foldl (fun t x => t.domainLost tag x) (s.hmqAll tag 2 [d])

/-! ### Heartbeats (R81) -/

/-- A distributor of a live die runs. -/
def State.dieRuns (s : State) (d : Nat) : Bool := s.isLive d && (s.die d).beating && !(s.die d).stopped

/-- HEARTBEAT (R81): A distributor advances its heartbeat counter every 2^13 cycles. -/
def execHeartbeat (die : Nat) (s : State) : Next :=
  event
    (if s.dieRuns die && (s.die die).beatAt + 2 ^ 13 ≤ s.cycle + 1 then
       some (s.modDie die fun x => { x with beats := x.beats + 1, beatAt := x.beatAt + 2 ^ 13 })
     else none)

/-- What a distributor makes of its samples: the master fences the silent dies; another takes the master role where it is now the
lowest die that is not silent (DEDUCED, log 89). The entry of KIND 6 names the new master alone (DESIGN CHOICE, log 113). -/
def State.sampled (s : State) (die : Nat) : State :=
  let seen := (s.die die).sampled
  let silent := (List.range 4).filter fun d => d ≠ die && s.isLive d && (s.die d).beats = seen.getD d 0
  let s := s.modDie die fun x =>
    { x with sampled := (List.range 4).map fun d => (s.die d).beats, sampleAt := x.sampleAt + 2 ^ 14 }
  let lowest := (List.range 4).find? fun d => s.isLive d && !silent.contains d
  if s.master = die then silent.foldl (fun t d => t.fence d 0) s
  else if lowest = some die then
    let s := { s with master := die }
    ((silent.filter (· < die)).foldl (fun t d => t.fence d 0) s).hmqAll 0 6 [die]
  else s

/-- HEARTBEAT_SAMPLE (R81): Every 2^14 cycles a distributor samples other dies' heartbeats and fences silent ones. -/
def execHeartbeatSample (die : Nat) (s : State) : Next :=
  event
    (if s.dieRuns die && (s.die die).sampleAt + 2 ^ 14 ≤ s.cycle + 1 then some (s.sampled die) else none)

/-! ### Dealing and retiring tiles (R84, R418) -/

/-- The least tile not below `t`, of those `n` apart, that has not been dealt ahead. -/
def nextFresh (ahead : List Nat) (n : Nat) : Nat → Nat → Nat
  | 0, t => t
  | fuel + 1, t => if ahead.contains t then nextFresh ahead n fuel (t + n) else t

/-- The next tile for the core at place `i` of the dealing list. -/
def Region.tileFor (r : Region) (i : Nat) : Option Nat :=
  let n := r.dealing.length
  let first := r.fresh + (i + n - r.fresh % n) % n
  let fresh := nextFresh r.ahead n (r.ahead.length + 1) first
  let again := (r.redo.filter fun t => t % n = i).foldl (fun m t => match m with
    | none => some t
    | some x => some (Nat.min x t)) none
  match again with
  | some t => some (if fresh < r.total then Nat.min t fresh else t)
  | none => if fresh < r.total then some fresh else none

/-- Dealt tiles below which every tile has been dealt. -/
def advanceFresh : Nat → Nat → List Nat → Nat × List Nat
  | 0, f, l => (f, l)
  | n + 1, f, l => if l.contains f then advanceFresh n (f + 1) (l.filter (· ≠ f)) else (f, l)

/-- Tile `t` is dealt to core `c`. -/
def Region.deal (r : Region) (t c : Nat) : Region :=
  let again : Bool := r.redo.contains t
  let (fresh, ahead) := if again then (r.fresh, r.ahead) else advanceFresh (r.ahead.length + 1) r.fresh (t :: r.ahead)
  { r with fresh := fresh, ahead := ahead, redo := r.redo.filter (· ≠ t), dealt := r.dealt ++ [(t, c)] }

/-- A message of a distributor: its CLASS, TAG and SOURCE are open where its rule gives none. -/
def State.tileMsg (s : State) (id : Nat) (r : Region) (t c : Nat) : Msg :=
  let pay := (r.tilePayload t ++ [r.tdesc t]).map dw
  let hdr := header 5 (Config.openClass 5 s.seq).toNat 4 (Config.openTag 5 s.seq).toNat (Config.openSource 5 s.seq).toNat
  { Msg.from 0 id hdr pay (s.tag c 4) with src := none }

/-- A tile is dealt to a core of the dealing list that holds fewer than two (R84). -/
def execTileDeal (region core : Nat) (s : State) : Next :=
  event
    (match s.region region with
     | none => none
     | some r =>
       match r.dealing.findIdx? (· = core) with
       | none => none
       | some i =>
         if r.state ≠ 1 || r.switched || (s.core core).switching || !s.dieRuns (dieOfCore core)
             || (r.dealt.filter (·.2 = core)).length ≥ 2 then none
         else (r.tileFor i).map fun t => (s.modRegion region fun r => r.deal t core).post (s.tileMsg region r t core))

/-- The first retirement on its way reaches the master. -/
def execTileRetire (s : State) : Next :=
  event
    (match s.retires with
     | [] => none
     | (id, t, die) :: rest =>
       let s := { s with retires := rest }
       match s.region id with
       | none => some s
       | some r =>
         if !s.isLive die || r.state ≠ 1 || r.done.contains t then some s
         else
           some ((s.modRegion id fun r =>
             { r with done := t :: r.done, tilesDone := r.tilesDone + 1, dealt := r.dealt.filter (·.1 ≠ t),
                      redo := r.redo.filter (· ≠ t) }).writeStatus id))

/-! ### The count Q (R374) -/

/-- The lowest-numbered valid slot of the entry that a firing started from names channel 0. -/
def Core.onChannelZero (k : Core) : Bool :=
  match (k.entry k.fir.entry).slots.find? fun (_, v, _) => v with
  | some (_, _, ch) => ch = 0
  | none => false

/-- Commands given to the Schur unit and not complete. -/
def Core.schurCommands (k : Core) : Nat :=
  (k.pend.filter fun p => match p.who.instr with
    | .gjoin .. | .gelim .. | .gdamp .. | .gsend .. | .gbel .. => true
    | _ => false).length

/-- What one core of the region adds to Q. -/
def Core.busyCount (k : Core) (id : Nat) : Nat :=
  b2n (k.status ≠ .idle && !k.onChannelZero)
    + (k.recs.filter fun r => r.st = .queued && r.ch ≠ 0).length + k.arms.length + k.ctxList.length + k.armList.length
    + (k.copies.filter (·.region = id)).length + (k.mq.valid.filter fun (_, o) => o.region = id).length + k.schurCommands

/-- Q of a region (DEDUCED, log 48). -/
def State.qCount (s : State) (id : Nat) (r : Region) : Nat :=
  (s.cores.foldl (fun n (_, k) => if k.region = some id then n + k.busyCount id else n) 0)
    + (s.net.filter fun m => m.region = id && !m.quiet).length
    + (s.cells.foldl (fun n (_, c) => n + (c.enc.filter fun j => j.region = id && j.encx.isNone).length) 0)
    + (r.total - r.done.length)

/-- A quiescence event is posted (R375), in any cycle up to 8,192 after Q reached 0. What the region's agents have written is
performed by then, and a codelet that it makes ready counts: the firing that consumes the event gains the writes. -/
def execQuiescenceEvent (region : Nat) (s : State) : Next :=
  event
    (match s.region region with
     | none => none
     | some r =>
       if r.state ≠ 1 || r.switched || !r.qRose || s.qCount region r ≠ 0 then none
       else
         let s := r.cores.foldl State.flush s
         if s.qCount region r ≠ 0 then some s
         else
           let n := r.qevents + 1
           let s := s.modRegion region fun r => { r with qevents := n, qRose := false, qZero := none }
           let pay := [dw (n % 2 ^ 32 * 2 ^ 32 + region % 2 ^ 16), dw s.time]
           let hdr := header 11 (Config.openClass 11 s.seq).toNat 2 1 (Config.openSource 11 s.seq).toNat
           let m := { Msg.from 0 region hdr pay (s.tag r.supervisor 0) with src := none, quiet := true }
           some ((s.post m).bump 5 (cellOf r.supervisor) 7))

/-- The event of a region is due (R375). -/
def State.quiescenceDue (s : State) (region : Nat) : Bool :=
  match (s.region region).bind (·.qZero) with
  | some c => c + 8192 ≤ s.cycle + 1
  | none => false

/-! ### The retirement of a region (R419, R420) -/

/-- The conditions of R419, with the quiescence event of this fall of Q posted, and the reports of the region's firings
already in their queue (R420). -/
def State.finished (s : State) (id : Nat) (r : Region) : Bool :=
  r.state = 1 && !r.switched && !r.qRose && r.done.length = r.total && s.qCount id r = 0
    && s.cores.all (fun (_, k) => k.region ≠ some id || k.status = .idle)
    && (s.core r.supervisor).recs.all (fun x => !(x.st = .queued && x.ch = 0 && x.region = id && !x.quiet))
    && r.kids.all (fun c => match s.region c with
      | some x => x.state ≥ 2
      | none => true)
    && s.reports.all (·.region ≠ id)

/-- A region whose Q is above 0 has an event to come; one whose Q has fallen to 0 has had it since this cycle; and one that
meets the conditions of retirement has met them since this cycle. -/
def State.watchRegion (s : State) (id : Nat) (r : Region) : Region :=
  let r := if s.qCount id r > 0 then { r with qRose := true, qZero := none }
    else if r.qRose && r.qZero.isNone then { r with qZero := some s.cycle } else r
  { r with doneSince := if s.finished id r then some (r.doneSince.getD s.cycle) else none }

/-- Every running region watched at the end of a cycle. -/
def State.watchQ (s : State) : State :=
  s.regions.foldl
    (fun t (id, r) =>
      match r with
      | some r => if r.state ≠ 1 || r.switched then t else t.modRegion id (s.watchRegion id)
      | none => t)
    s

/-- Quiescence events of a region that wait at its supervisor are discarded. -/
def State.dropQuiet (s : State) (id core : Nat) : State :=
  let mine (x : AreaRec) : Bool := x.st = .queued && x.ch = 0 && x.region = id && x.quiet
  let n := ((s.core core).recs.filter mine).length
  if n = 0 then s
  else s.modCore core fun k =>
    let k := { k with recs := k.recs.map fun x => if mine x then { x with st := .freed } else x }
    ((k.setCount 0 (k.count 0 - n)).repend 0 s.cycle).advanceHead

/-- REGION_RETIRE (R419): A probe wave confirms a region is finished and the master retires it (DEDUCED, log 63). -/
def execRegionRetire (region : Nat) (s : State) : Next :=
  event
    (match s.region region with
     | none => none
     | some r =>
       if !s.finished region r || !r.doneSince.any (· < s.cycle) then none
       else
         let s := ((s.setState region 2).dropQuiet region r.supervisor).releaseRegion region
         some (s.hmq r.fn 0 region r.domain 5 [r.tilesDone, r.launchNs]))

/-! ### The report port (R79) -/

/-- The first report at the port: its record goes into an entry of KIND 4, and is marked with 1. Whether the entry names
region and fault domain is open. -/
def execProgramReport (s : State) : Next :=
  event
    (match s.reports with
     | [] => none
     | q :: rest =>
       let s := { s with reports := rest }
       let key := if spaceOf q.pa = 1 || spaceOf q.pa = 2 then s.canon 0 q.pa else none
       match key with
       | none => some (s.windowLost q.fn)
       | some k =>
         if isWindow k then some (s.windowLost q.fn)
         else
           let detail := (List.range 6).map fun i => s.homeNat (k + 16 + 8 * i) 8
           let s := s.noteReads (dwordsOf k 64)
           let fd := ((s.region q.region).map (·.domain)).getD 0
           let s' := { s with free := s.free + 1 }
           let s' := if Config.freeBit s.free then s'.hmq q.fn 0 q.region fd 4 detail else s'.hmq q.fn 0 0 0 4 detail
           some (s'.writeHome k (leBytes 8 1)))

end Sys2Proof.Machine
end

