-- ==== Sys2Proof/Machine/Sha.lean ====
section
/-! DEFINITION. SHA-384, by which the spec measures the ROM and the loaded images (R80). The spec names the function and
does not write it out: the model takes the published standard (PRESUMED, log 60), and computes its constants, which are the
first fractional bits of roots of prime numbers. -/

namespace Sys2Proof.Machine

/-! ### The constants -/

/-- The prime numbers below `n`, the lowest first. -/
def primesBelow (n : Nat) : List Nat :=
  ((List.range n).filter fun p => 2 ≤ p && (List.range p).all fun q => q < 2 || p % q ≠ 0)

/-- The greatest number below 2^72 whose power `e` is at most `x`. -/
def wholeRoot (e x : Nat) : Nat :=
  (List.range 72).foldr (fun i r => if (r + 2 ^ i) ^ e ≤ x then r + 2 ^ i else r) 0

/-- The first 64 fractional bits of the root `e` of a number. -/
def rootFraction (e p : Nat) : Dword := dw (wholeRoot e (p * 2 ^ (64 * e)))

/-- One constant a round: of the cube roots of the first 80 primes. -/
def roundConstants : List Dword := (primesBelow 410).map (rootFraction 3)

/-- The chaining value at the start: of the square roots of the ninth to sixteenth primes. -/
def chainStart : List Dword := ((primesBelow 54).drop 8).map (rootFraction 2)

/-! ### The compression of a block -/

/-- The sum of a word with itself turned right by each of three counts, without carries. -/
def turned (x : Dword) (i j k : Nat) : Dword := [i, j, k].foldl (fun r n => r ^^^ x.rotateRight n) 0

/-- The word of the schedule that follows sixteen others. -/
def scheduleNext (w : List Dword) : Dword :=
  let at' (i : Nat) : Dword := w.getD i 0
  let mix (x : Dword) (i j k : Nat) : Dword := x.rotateRight i ^^^ x.rotateRight j ^^^ (x >>> k)
  mix (at' 14) 19 61 6 + at' 9 + mix (at' 1) 1 8 7 + at' 0

/-- One round on the eight working words, the first first, with a constant and a word of the schedule. -/
def roundOf (v : List Dword) (k w : Dword) : List Dword :=
  match v with
  | [a, b, c, d, e, f, g, h] =>
    let feed := (g ^^^ (e &&& (f ^^^ g))) + turned e 14 18 41 + h + (k + w)
    let major := (a &&& b) ||| (c &&& (a ||| b))
    [feed + major + turned a 28 34 39, a, b, c, feed + d, e, f, g]
  | _ => v

/-- The working words after a round for every constant; `w` is the next sixteen words of the schedule. -/
def compress (v w : List Dword) : List Dword :=
  (roundConstants.foldl
    (fun (x : List Dword × List Dword) k => (roundOf x.1 k (x.2.headD 0), x.2.tail ++ [scheduleNext x.2]))
    (v, w)).1

/-! ### Messages -/

/-- A big-endian doubleword of eight bytes. -/
def beDword (l : List Byte) : Dword := dw (leNat l.reverse)
/-- The bytes of a number, the most significant first. -/
def beBytes (n v : Nat) : List Byte := (leBytes n v).reverse

/-- The chaining value after block `i` of a padded message. -/
def takeBlock (m : List Byte) (h : List Dword) (i : Nat) : List Dword :=
  let words := (List.range 16).map fun j => beDword ((m.drop (128 * i + 8 * j)).take 8)
  (h.zip (compress h words)).map fun (x, y) => x + y

/-- A message padded to whole blocks: a one bit, zeros, and its length in bits as 16 bytes. -/
def padded (m : List Byte) : List Byte :=
  let tail := beBytes 16 (8 * m.length)
  let zeros := 127 - (m.length + tail.length) % 128
  m ++ 0x80 :: List.replicate zeros 0 ++ tail

/-- SHA-384 of bytes: 48 bytes (PRESUMED, log 60). -/
def sha384 (m : List Byte) : List Byte :=
  let p := padded m
  (((List.range (p.length / 128)).foldl (takeBlock p) chainStart).take 6).flatMap fun x => beBytes 8 x.toNat

end Sys2Proof.Machine
end

