-- ==== Sys2Proof/Machine/Commands.lean ====
section
/-! DEFINITION. The command page (R72–R76, R455): host writes, which function the firmware serves next, how a command
completes, and the commands that need no region tree: IDENTIFY, ATTEST, LOAD_IMAGE, SIGNAL, QUERY, KILL, FENCE_DIE,
SET_DICTIONARY, READ_COUNTERS, READ_LIFETIME, RESET_FUNCTION, and an unknown opcode. -/

namespace Sys2Proof.Machine

/-! ### The command page -/

/-- A host write of a doubleword of a function's page (R72, R73). Before readiness it is discarded (R455). -/
def State.pageWrite (s : State) (fn off : Nat) (val : Dword) : State :=
  if s.power ≠ .ready then s
  else if off = 0x000 then
    let t := val.toNat % 32
    if (t + 32 - (s.fn fn).head) % 32 > 16 then
      State.hmq { s with free := s.free + 1 } fn 0 0 0 7 [(Config.openWord s.free 0).toNat]
    else s.modFn fn fun f => { f with tail := t }
  else if off = 0x010 then s.modFn fn fun f => { f with hmqBase := val.toNat }
  else if off = 0x018 then s.modFn fn fun f => { f with hmqSize := val.toNat % 2 ^ 16 }
  else if off = 0x020 then s.modFn fn fun f => { f with hmqHead := val.toNat % 2 ^ 16 }
  else if 0x800 ≤ off then s.modFn fn fun f => { f with slots := tabSet f.slots ((off - 0x800) / 8) val }
  else s

/-- COMMAND_PAGE_WRITE (R72): A host write to a command-page register with no row of its own. -/
def execCommandPageWrite (fn off : Nat) (val : Dword) (s : State) : Next :=
  event (if fn ≤ 384 && off < 0x1000 && off % 8 = 0 then some (s.pageWrite fn off val) else none)

/-- What the host reads of a command page (R72, R455). -/
def State.pageRead (s : State) (fn off : Nat) : Dword :=
  let f := s.fn fn
  if s.power ≠ .ready then 0
  else if off = 0x000 then dw f.tail
  else if off = 0x008 then dw f.head
  else if off = 0x010 then dw f.hmqBase
  else if off = 0x018 then dw f.hmqSize
  else if off = 0x020 then dw f.hmqHead
  else if off = 0x028 then dw f.hmqTail
  else if off = 0x030 then dw f.hmqLost
  else if off = 0x038 then f.status
  else if 0x800 ≤ off then tabGet 0 f.slots ((off - 0x800) / 8)
  else 0

/-! ### Serving a command (R73) -/

/-- The function served next: the one whose command is under way, else round-robin by number; those are left out whose
SWITCH_CONTEXT waits. -/
def State.nextFn (s : State) : Option Nat :=
  let l := s.fns.filter fun (_, f) => f.head ≠ f.tail && f.switching.isEmpty
  match l.find? fun (_, f) => !f.taken.isEmpty with
  | some (n, _) => some n
  | none =>
    match (l.map (·.1)).find? (s.lastFn < ·) with
    | some f => some f
    | none => (l.map (·.1)).head?

/-- The doublewords of the slot at CMD_HEAD, read once and all at one moment (R73, R74) (DESIGN CHOICE, log 101). -/
def State.slot (s : State) (fn : Nat) : List Nat :=
  let f := s.fn fn
  (List.range 16).map fun i => (tabGet 0 f.slots (16 * (f.head % 16) + i)).toNat
def opcodeOf (d : List Nat) : Nat := d.getD 0 0 % 256
def tagOfCmd (d : List Nat) : Nat := bitsOf (d.getD 0 0) 31 16

/-- The command of a function that is served now: as it was read, where it is under way. -/
def State.serves (s : State) (fn : Nat) : Option (List Nat) :=
  if s.power = .ready && s.nextFn = some fn then
    some (if (s.fn fn).taken.isEmpty then s.slot fn else (s.fn fn).taken)
  else none

/-- A command completes: results from doubleword 13 on, then DONE and STATUS, MSI-X vector 0, CMD_HEAD. -/
def State.finishCmd (s : State) (fn status : Nat) (res : List Nat := []) : State :=
  let s := s.modFn fn fun f =>
    let base := 16 * (f.head % 16)
    let slots := (res.zipIdx).foldl (fun t (v, i) => tabSet t (base + 13 + i) (dw v)) f.slots
    { f with slots := tabSet slots (base + 12) (dw (2 ^ 63 + status)), msix0 := f.msix0 + 1, head := (f.head + 1) % 32,
             taken := [], counted := [] }
  { s with lastFn := fn }

/-- Reserved fields and unnamed arguments are zero (R74). -/
def argsOk (d : List Nat) (named : List Nat) : Bool :=
  d.getD 0 0 / 2 ^ 32 = 0 && bitsOf (d.getD 0 0) 15 8 = 0
    && (List.range 11).all fun i => named.contains (i + 1) || d.getD (i + 1) 0 = 0

/-- A command with its common checks: reserved fields, then who may issue it; `run` carries it out (DEDUCED, log 46). -/
def State.hostCmd (s : State) (fn op : Nat) (named : List Nat) (pfOnly : Bool) (run : List Nat → State) : Next :=
  event
    (match s.serves fn with
     | none => none
     | some d =>
       if opcodeOf d ≠ op then none
       else if !argsOk d named then some (s.finishCmd fn 0x02)
       else if pfOnly && fn ≠ 0 then some (s.finishCmd fn 0x03)
       else some (run d))

/-- The home address of a host buffer: a bus address of 56 bits, or none (R86) (DEDUCED, log 45). -/
def hostKey (a n : Nat) : Option Nat := if a + n ≤ 2 ^ 56 then some (4 * 2 ^ 60 + a) else none

/-- A region of the function (R71). -/
def State.ownRegion (s : State) (fn id : Nat) : Option Region :=
  match s.region id with
  | some r => if r.fn = fn then some r else none
  | none => none

/-! ### IDENTIFY, ATTEST -/

/-- IDENTIFY (R75): the certificate chain behind its length, within 4 KiB. -/
def execIdentify (fn : Nat) (s : State) : Next :=
  s.hostCmd fn 0x01 [1] false fun d =>
    match hostKey (d.getD 1 0) 4096 with
    | none => s.finishCmd fn 0x05
    | some k =>
      let chain := Config.certChain
      let t := s.writeHome k ((leBytes 8 chain.length ++ chain).take 4096)
      t.finishCmd fn 0 [s.device % 2 ^ 13 + s.live.toNat * 2 ^ 16 + b2n s.conflict * 2 ^ 20]

/-- The first 160 bytes of an attestation report (R80). -/
def State.reportBody (s : State) (fn : Nat) (nonce : List Byte) : List Byte :=
  nonce ++ beBytes 48 Config.romHash.toNat ++ beBytes 48 (s.fn fn).measure.toNat ++ leBytes 2 fn ++ leBytes 2 s.device
    ++ leBytes 4 Config.firmwareVersion.toNat ++ leBytes 8 s.life.boots

/-- ATTEST (R80). -/
def execAttest (fn : Nat) (s : State) : Next :=
  s.hostCmd fn 0x02 [1, 2, 3, 4, 5, 6, 7] false fun d =>
    match hostKey (d.getD 7 0) 256 with
    | none => s.finishCmd fn 0x05
    | some k =>
      let body := s.reportBody fn ((List.range 6).flatMap fun i => leBytes 8 (d.getD (i + 1) 0))
      let (r, q) := Config.signature body
      (s.writeHome k (body ++ beBytes 48 r.toNat ++ beBytes 48 q.toNat)).finishCmd fn 0

/-! ### LOAD_IMAGE -/

/-- Bytes that the firmware reaches: at a physical address, or under a translation root; a root of 0 translates nothing
(R44). The cell window names no core's slice here. -/
def State.fwPieces (s : State) (root : Option Nat) (va n : Nat) (acc : Acc) : Option (List (Nat × Nat)) :=
  match root with
  | none => (reachPhysical.keys s va n acc).toOption
  | some r => if r = 0 || va < 0x20_0000 then none else (s.xlateRange r noCell va n acc).toOption

/-- The doublewords, as pieces, that the firmware's walks of a range read. -/
def State.fwWalks (s : State) (root : Option Nat) (va n : Nat) : List (Nat × Nat) :=
  match root with
  | none => []
  | some r => (pieces (n / 0x1_0000 + 2) va n).flatMap fun (a, _) => (s.walkReads a 4 1 r).map fun k => (k, 8)

/-- The root under which LOAD_IMAGE's destination stands: ARG3, where 0 makes the address a physical one (DEDUCED, log 61). -/
def loadRoot (arg : Nat) : Option Nat := if arg = 0 then none else some arg

/-- LOAD_IMAGE (R75), with the measurement of R80. -/
def execLoadImage (fn : Nat) (s : State) : Next :=
  s.hostCmd fn 0x03 [1, 2, 3, 4] false fun d =>
    let n := d.getD 4 0
    if n % 8 ≠ 0 then s.finishCmd fn 0x02
    else match hostKey (d.getD 1 0) n, s.fwPieces (loadRoot (d.getD 3 0)) (d.getD 2 0) n .write with
      | some k, some l =>
        let bytes := s.homeBytes k n
        let m := sha384 (beBytes 48 (s.fn fn).measure.toNat ++ sha384 bytes)
        let s := s.noteReads (piecesDwords (s.fwWalks (loadRoot (d.getD 3 0)) (d.getD 2 0) n))
        let t := ((s.windowLostN fn (windowHits l)).writePieces l bytes).modFn fn fun f => { f with measure := BitVec.ofNat 384 (leNat m.reverse) }
        t.finishCmd fn 0 [crc32c bytes]
      | _, _ => s.finishCmd fn 0x05

/-! ### SIGNAL, QUERY, KILL -/

/-- SIGNAL (R75): a message of TYPE 11 to a core of the region. -/
def execSignal (fn : Nat) (s : State) : Next :=
  s.hostCmd fn 0x06 [1, 2, 3, 4] false fun d =>
    let id := d.getD 1 0
    match s.ownRegion fn id with
    | none => s.finishCmd fn 0x04
    | some r =>
      let tag := d.getD 2 0
      if r.state ≠ 1 then s.finishCmd fn 0x07
      else if tag / 2 ^ 32 ≠ 0 || tagDev tag ≠ s.device || !r.placed.contains (tagCore tag / 8) then s.finishCmd fn 0x02
      else
        let hdr := header 11 (Config.openClass 11 s.seq).toNat 2 (Config.openTag 11 s.seq).toNat (Config.openSource 11 s.seq).toNat
        (s.post { Msg.from 0 id hdr [dw (d.getD 3 0), dw (d.getD 4 0)] tag with src := none }).finishCmd fn 0

/-- QUERY (R75). -/
def execQuery (fn : Nat) (s : State) : Next :=
  s.hostCmd fn 0x07 [1] false fun d =>
    match s.ownRegion fn (d.getD 1 0) with
    | none => s.finishCmd fn 0x04
    | some r => s.finishCmd fn 0 [r.statusDw, r.placed.length]

/-- A core goes on after a switch, or one that did not happen: a firing that was pre-empted holds 0 in every register outside
its live mask (R140). -/
def Core.resume (k : Core) : Core :=
  let k := { k with switching := false }
  match k.safeMask with
  | some (g, v, p) =>
    if !k.frozen then k
    else
      let keep {w n : Nat} (live : Nat → Bool) (i : Fin n) (x : BitVec w) : BitVec w := if live i.val then x else 0
      { k with
        frozen := false, safeMask := none,
        regs :=
          { g := Vector.ofFn fun i => keep (fun j => 16 ≤ j || (1 ≤ j && g.getLsbD (j - 1))) i k.regs.g[i]
            v := Vector.ofFn fun i => keep (fun j => v.getLsbD j) i k.regs.v[i]
            p := Vector.ofFn fun i => keep (fun j => p.getLsbD j) i k.regs.p[i] } }
  | none => { k with frozen := false }

/-- The cores of regions whose switch does not happen go on. -/
def State.resumeRegions (s : State) (ids : List Nat) : State :=
  ids.foldl
    (fun t i => match t.region i with
      | some r => r.cores.foldl (fun t c => t.modCore c Core.resume) t
      | none => t)
    s

/-- A region and its descendants killed; a switch of one of them that is pending ends with 0x07 (R75, R414). -/
def State.killTree (s : State) (id : Nat) : State :=
  let ids := s.subtree 32 id
  let waiting := (s.fns.filter fun (_, f) => f.switching.any ids.contains).map (·.1)
  let s := ids.foldl (fun t i => t.killRegion i) s
  waiting.foldl
    (fun t f =>
      let t := t.resumeRegions (t.fn f).switching
      (t.modFn f fun x => { x with switching := [] }).finishCmd f 0x07)
    s

/-- KILL (R75). A region that has ended is in the wrong state (R76). -/
def execKill (fn : Nat) (s : State) : Next :=
  s.hostCmd fn 0x08 [1] false fun d =>
    match s.ownRegion fn (d.getD 1 0) with
    | none => s.finishCmd fn 0x04
    | some r => if r.state ≥ 2 then s.finishCmd fn 0x07 else (s.killTree (d.getD 1 0)).finishCmd fn 0

/-! ### FENCE_DIE, SET_DICTIONARY -/

/-- FENCE_DIE (R81): the last live die is not fenced. -/
def execFenceDie (fn : Nat) (s : State) : Next :=
  s.hostCmd fn 0x09 [1] true fun d =>
    let die := d.getD 1 0
    if die > 3 then s.finishCmd fn 0x02
    else if s.isLive die && s.live.toNat = 2 ^ die then s.finishCmd fn 0x07
    else
      let t := s.fence die (tagOfCmd d)
      t.finishCmd fn 0 [t.live.toNat]

/-- SET_DICTIONARY (R283). -/
def execSetDictionary (fn : Nat) (s : State) : Next :=
  s.hostCmd fn 0x0A [1] false fun d =>
    match s.install reachPhysical (d.getD 1 0) with
    | (t, 0, _) =>
      let id := match reachPhysical.keys s (d.getD 1 0) 8 .read with
        | .ok l => leNat (l.flatMap fun (k, n) => s.homeBytes k n) % 4096
        | .error _ => 0
      t.finishCmd fn 0 [t.shadeOf id]
    | (t, 3, _) => t.finishCmd fn 0x05
    | (t, _, _) => t.finishCmd fn 0x02

/-! ### READ_COUNTERS, READ_LIFETIME (R427–R430) -/

/-- The kinds of counters: how many units, and how many counters each has (R428). -/
def counterKinds : List (Nat × Nat × Nat) :=
  [(1, 1024, 10), (2, 1024, 11), (3, 8192, 8), (4, 8192, 7), (5, 1024, 8), (6, 1, 6), (7, 16, 3), (8, 32768, 2), (9, 16, 2),
    (10, 32, 2), (11, 4, 16), (12, 1, 16)]

/-- The records of one kind from the first doubleword `low` on, as far as `limit` of them, for the units that `may`
admits. -/
def kindRecords (value : Nat → Nat → Nat → Nat) (may : Nat → Nat → Bool) (low kind idxs : Nat) :
    Nat → Nat → Nat → List (Nat × Nat)
  | 0, _, _ => []
  | n + 1, unit, limit =>
    if limit = 0 then []
    else
      let here := if may kind unit then
          (((List.range idxs).map fun i => (kind * 2 ^ 48 + unit * 2 ^ 32 + i, value kind unit i)).filter
            fun r => low ≤ r.1).take limit
        else []
      here ++ kindRecords value may low kind idxs n (unit + 1) (limit - here.length)

/-- Records in increasing kind, unit and index, from the first doubleword `low` on. -/
def recordsOf (value : Nat → Nat → Nat → Nat) (may : Nat → Nat → Bool) (low : Nat) :
    List (Nat × Nat × Nat) → Nat → List (Nat × Nat)
  | [], _ => []
  | (kind, units, idxs) :: t, limit =>
    let l := kindRecords value may low kind idxs units 0 limit
    l ++ recordsOf value may low t (limit - l.length)

def recordBytes (l : List (Nat × Nat)) : List Byte := l.flatMap fun (a, b) => leBytes 8 a ++ leBytes 8 b

/-- What a function may read: the PF everything, a virtual function the units of its own cells (R427). -/
def State.mayRead (s : State) (fn kind unit : Nat) : Bool :=
  fn = 0 || (kind ≤ 5
    && s.regions.any fun (_, r) => match r with
      | some r => r.fn = fn && r.state = 1 && r.placed.contains (if kind = 3 || kind = 4 then unit / 8 else unit)
      | none => false)

/-- The records that one step of READ_COUNTERS reads: the next ones, as many as a free number says and as have room. -/
def State.countNext (s : State) (fn room : Nat) : List (Nat × Nat) :=
  recordsOf s.counter (s.mayRead fn) (((s.fn fn).counted.getLast?.map (·.1 + 1)).getD 0) counterKinds
    (Nat.min room (1 + (Config.openWord s.free 0).toNat))

/-- READ_COUNTERS (R427): its records are read at different instants, a free number of them in each step of the command; the
last step writes them to the buffer. -/
def execReadCounters (fn : Nat) (s : State) : Next :=
  s.hostCmd fn 0x0B [1, 2] false fun d =>
    let room := d.getD 2 0 / 16 - (s.fn fn).counted.length
    let more := s.countNext fn room
    if more.isEmpty then
      let bytes := recordBytes (s.fn fn).counted
      match hostKey (d.getD 1 0) bytes.length with
      | none => s.finishCmd fn 0x05
      | some k => (s.writeHome k bytes).finishCmd fn 0 [bytes.length]
    else { s with free := s.free + 1 }.modFn fn fun (f : Fn) => { f with taken := d, counted := f.counted ++ more }

/-- READ_LIFETIME (R429): the preamble, then the lifetime totals. -/
def execReadLifetime (fn : Nat) (s : State) : Next :=
  s.hostCmd fn 0x0C [1, 2] true fun d =>
    let total (kind unit idx : Nat) : Nat := tabGet 0 s.life.totals (ckey kind unit idx)
    let recs := recordsOf total (fun _ _ => true) 0 counterKinds (d.getD 2 0 / 16 - 1)
    let bytes := if d.getD 2 0 < 16 then []
      else leBytes 8 s.life.boots ++ leBytes 8 (s.life.seconds / 3600) ++ recordBytes recs
    match hostKey (d.getD 1 0) bytes.length with
    | none => s.finishCmd fn 0x05
    | some k => (s.writeHome k bytes).finishCmd fn 0 [bytes.length]

/-! ### RESET_FUNCTION and unknown opcodes -/

/-- A function reset (R77, R80): its regions are killed, its queues emptied, M is 0. The function root of a virtual function
survives a reset by the PF (DEDUCED, log 47). -/
def State.resetFn (s : State) (fn : Nat) (keep : Option Nat) : State :=
  let mine := (s.regions.filter fun (id, r) => match r with
    | some r => r.fn = fn && r.state < 2 && some id ≠ keep
    | none => false).map (·.1)
  let s := mine.foldl (fun t i => t.killRegion i) s
  let s := { s with reports := s.reports.filter fun q => q.fn ≠ fn }
  s.modFn fn fun (f : Fn) =>
    { f with tail := 0, head := 0, hmqTail := f.hmqHead, measure := 0, switching := [], root := keep, taken := [], counted := [] }

/-- RESET_FUNCTION (R77). A function that resets itself has no command left to complete. -/
def execResetFunction (fn : Nat) (s : State) : Next :=
  s.hostCmd fn 0x0E [1] false fun d =>
    let f := d.getD 1 0
    if f > 384 then s.finishCmd fn 0x02
    else if fn ≠ 0 && f ≠ fn then s.finishCmd fn 0x03
    else
      let t := s.resetFn f (if fn = 0 && f ≠ 0 then (s.fn f).root else none)
      if f = fn then
        (s.finishCmd fn 0).resetFn f none
      else t.finishCmd fn 0

/-- An opcode that names no command (R76). -/
def execUnknownOpcode (fn : Nat) (s : State) : Next :=
  event
    (match s.serves fn with
     | none => none
     | some d => if opcodeOf d = 0 || opcodeOf d > 0x0E then some (s.finishCmd fn 0x01) else none)

end Sys2Proof.Machine
end

