-- ==== Sys2Proof/Machine/SysReg.lean ====
section
/-! DEFINITION. The system registers (R158–R161): their values, the writes that each field takes, MFS and MTS. -/

namespace Sys2Proof.Machine

/-- SCHED with the fields that the hardware keeps (R118, R120). -/
def State.schedValue (s : State) (core : Nat) : Dword :=
  let k := s.core core
  let v := setBits k.sched.toNat 39 31 0
  let inh := match s.inh core with
    | some c => 2 ^ 33 + c % 4 * 2 ^ 31
    | none => 0
  dw (v + k.lastch % 64 * 2 ^ 34 + inh)

/-- REPC (R168). -/
def Core.repc (k : Core) : Dword := dw (k.vl * 2 ^ 32 + k.floor / 16 * 2 ^ 16 + k.iter.toNat)

/-- SPECWIN (R133). -/
def Cell.specWin (c : Cell) : Dword :=
  dw (c.specOwner % 8 * 2 ^ 11 + b2n c.specConflict * 2 ^ 10 + b2n c.specActive * 2 ^ 9 + b2n c.specEn * 2 ^ 8 + c.specBank % 32)

/-- One register of a trap bank: 0 TCAUSE, 1 TEPC, 2 TVAL, 3 TSTATUS, 4 TSAVE. -/
def TrapBank.get (b : TrapBank) : Nat → Dword
  | 0 => b.cause
  | 1 => b.epc
  | 2 => b.val
  | 3 => b.status
  | _ => b.save

/-- A write of one register of a trap bank, under each field's access (R395). -/
def TrapBank.put (b : TrapBank) (i : Nat) (v : Dword) : TrapBank :=
  match i with
  | 0 => { b with cause := v &&& 0xFFFF }
  | 1 => { b with epc := v &&& 0x00FF_FFFF_FFFF_FFF8 }
  | 2 => { b with val := v }
  | 3 =>
    let resume := if bitsOf v.toNat 57 56 = 3 then b.status &&& 0x0300_0000_0000_0000 else v &&& 0x0300_0000_0000_0000
    { b with status := (b.status &&& 0xFC00_0000_0000_0000) ||| resume ||| (v &&& 0x00FF_FFFF_FFFF_FFF9) }
  | _ => { b with save := v &&& 0x00FF_FFFF_FFFF_FE00 }

/-- The level and register that a trap register number names at a core: none at level 0 (R159). -/
def Core.trapReg (k : Core) (n : Nat) : Option (Nat × Nat) :=
  if 0x11 ≤ n && n ≤ 0x15 then (if k.tlevel = 0 then none else some (k.tlevel, n - 0x11))
  else if 0x18 ≤ n && n ≤ 0x1C then some (1, n - 0x18)
  else if 0x20 ≤ n && n ≤ 0x24 then some (2, n - 0x20)
  else none

/-- A cell register, as it stands (R51, R133). -/
def Cell.sysRead (c : Cell) (n : Nat) : Dword :=
  if n = 0x40 then c.specWin else if 0x80 ≤ n && n < 0xA0 then tabGet 0 c.bfmt (n - 0x80) else 0
/-- The number names a cell register. -/
def isCellReg (n : Nat) : Bool := n = 0x40 || (0x80 ≤ n && n < 0xA0)

/-- COREID (R160). -/
def State.coreId (s : State) (core : Nat) : Dword := dw (s.device % 0x2000 * 2 ^ 16 + core % 0x2000)

/-- A system register as MFS of core `c` reads it (R159). -/
def State.sysRead (s : State) (c n : Nat) : Dword :=
  let k := s.core c
  match n with
  | 0x00 => k.fenv
  | 0x01 => k.lacnt
  | 0x02 => s.schedValue c
  | 0x03 => k.repc
  | 0x04 => k.idempc
  | 0x05 => dw s.time
  | 0x06 => dw s.cycle
  | 0x07 => s.coreId c
  | 0x10 => dw k.tlevel
  | _ =>
    if isCellReg n then (s.cell (cellOf c)).sysRead n
    else match k.trapReg n with
      | some (l, i) => (k.bank l).get i
      | none => 0

/-- A write of a core register (R11, R159). -/
def Core.sysWrite (k : Core) (n : Nat) (v : Dword) : Core :=
  match n with
  | 0x00 => { k with fenv := fenvMts k.fenv v }
  | 0x01 => { k with lacnt := v }
  | 0x02 => { k with sched := v &&& 0xFFFF_FF00_00FF_FFFF }
  | 0x03 => { k with iter := v.extractLsb' 0 16 }
  | _ =>
    match k.trapReg n with
    | some (l, i) => k.setBank l ((k.bank l).put i v)
    | none => k

/-- A write of a cell register when it takes effect: SPECWIN ignores it while ACTIVE is 1 (R133), BFMTn where it names a
reserved TYPE (R51). -/
def Cell.sysWrite (c : Cell) (n : Nat) (v : Dword) : Cell :=
  if n = 0x40 then
    (if c.specActive then c else { c with specEn := bitOf v.toNat 8, specBank := bitsOf v.toNat 4 0 })
  else if bitsOf v.toNat 3 0 ≥ 8 then c
  else
    let w := v &&& 0xFFFF_FFFF_FF00_01BF
    { c with bfmt := if w = 0 then tabDel c.bfmt (n - 0x80) else tabSet c.bfmt (n - 0x80) w }

/-- An earlier floating-point instruction of the core has not completed (R59, R161). -/
def Core.fpPending (k : Core) : Bool := k.pend.any fun p => p.fp && p.who.ord < k.words

/-- MFS (R158, R161). A cell register is read when the read reaches it, 2 cycles after issue. -/
def execMfs (lit : Option Word) (d : Reg) (c : BitVec 4) (n : BitVec 11) (s : State) : Next :=
  let i := Instr.mfs lit d c n
  deliver 1 c.toNat i s
    (if n = 0 && s.me.fpPending then .hold s
     else if isCellReg n.toNat then s.result 1 c.toNat i 3 [.g d 0]
     else s.result 1 c.toNat i 1 [.g d (s.sysRead s.cur n.toNat)])

/-- MTS (R158, R161). A write of a cell register takes effect 2 cycles after issue. -/
def execMts (lit : Option Word) (a : Reg) (n : BitVec 11) (s : State) : Next :=
  let v := s.me.g a
  deliver 1 0 (.mts lit a n) s
    (if n = 0 && s.me.fpPending then .hold s
     else if isCellReg n.toNat then
       .ok (s.modCell (cellOf s.cur) fun c => { c with sysWrites := c.sysWrites ++ [⟨n.toNat, v, s.cycle + 2, s.cur⟩] })
     else .core s fun k => k.sysWrite n.toNat v)

/-- Reads of cell registers that reach them now, in every core's pending results (R161). -/
def State.sampleReads (s : State) : State :=
  let sample (c : Nat) (p : Pend) : Pend :=
    match p.who.instr with
    | .mfs _ _ _ n =>
      if isCellReg n.toNat && p.issued + 2 = s.cycle then
        { p with writes := p.writes.map (RegWrite.fill ((s.cell (cellOf c)).sysRead n.toNat)) }
      else p
    | _ => p
  { s with cores := s.cores.map fun (c, (k : Core)) => (c, { k with pend := k.pend.map (sample c) }) }

/-- Writes of SPECWIN that reach it now (R161). -/
def State.specWrites (s : State) : State :=
  { s with cells := s.cells.map fun (n, (c : Cell)) =>
      (n, { c.sysWrites.foldl (fun (c : Cell) w => if w.num = 0x40 && w.due ≤ s.cycle then c.sysWrite w.num w.val else c) c
            with sysWrites := c.sysWrites.filter fun w => !(w.num = 0x40 && w.due ≤ s.cycle) }) }

end Sys2Proof.Machine
end

