-- ==== Sys2Proof/Machine/CoreEvents.lean ====
section
/-! DEFINITION. What happens to a core between its words: pending results and replies (R103, R199), traps and halts taken
once earlier results are complete (R107, R112, R396), the watchdog (R411), the bound on a reply (R122), and writes that
reach their home or their bank's format register (R52, R311). -/

namespace Sys2Proof.Machine

/-! ### Results and replies -/

/-- The pending result of issue number `seq`, of the given kind. -/
def Core.pendOf (k : Core) (kind : PendKind) (seq : Nat) : Option Pend :=
  k.pend.find? fun p => p.who.ord = seq && p.kind = kind

/-- A unit writes its result when it is due (R103). -/
def execPendingResultWrite (core seq : Nat) (s : State) : Next :=
  event
    (match (s.core core).pend.find? fun p => p.who.ord = seq && p.kind = .unit && p.ready && p.due ≤ s.cycle + 1 with
     | none => none
     | some p => some (s.modCore core fun k => k.complete p))

/-- A reply that has come: its result is written, or the fault that it brings is a trap of its word (R195, R397). -/
def State.replyDone (s : State) (core : Nat) (p : Pend) : State :=
  match p.fault with
  | some (c, v) => s.modCore core fun k =>
      { k with pend := k.pend.filter (· ≠ p), faults := insertTrap ⟨.afterIssue, c, v, p.who⟩ k.faults }
  | none => s.modCore core fun k => k.complete p

/-- The scope of a WAITW's acquire (R330). -/
def Pend.waitScope (p : Pend) : Nat :=
  match p.who.instr with
  | .waitw _ _ _ _ sc _ => sc.toNat
  | _ => 0

/-- A reply of memory or of another unit, or a WAITW whose condition holds (R199, R330). -/
def State.replyOf (s : State) (core : Nat) (p : Pend) : Option State :=
  if p.ready then (if p.due ≤ s.cycle + 1 then some (s.replyDone core p) else none)
  else match p.waits with
    | some (_, _, key) =>
      let q := s.reread core p
      if q.ready then
        let t := ((s.acquire core p.waitScope (·.overlapsAt key 8)).readDone core [key]).modCore core fun k => { k with pend := k.pend.map fun x => if x = p then q else x }
        some (t.modCore core fun k => k.complete q)
      else none
    | none => none

/-- A reply reaches its core and is written (R199). -/
def execMemoryReply (core seq : Nat) (s : State) : Next :=
  event
    (match (s.core core).pendOf .reply seq with
     | none => none
     | some p => s.replyOf core p)

/-- The wait for a reply that WLIM bounds (R122). WAITW has a limit of its own; ENCX waits for the segments ahead of it
(R281), and IMRES for builds (R301) (DEDUCED, log 49). -/
def Pend.bounded (p : Pend) : Bool :=
  match p.who.instr with
  | .waitw .. | .encx .. | .imres .. => false
  | _ => true

/-- A request with no reply for WLIM cycles traps (R122). -/
def execMemReplyLimit (core seq : Nat) (s : State) : Next :=
  event
    (match (s.core core).pendOf .reply seq with
     | none => none
     | some p =>
       if p.bounded && p.issued + (s.core core).wlim ≤ s.cycle + 1 then
         some (s.modCore core fun k =>
           { k with pend := k.pend.filter (· ≠ p), faults := insertTrap ⟨.afterIssue, 0x0306, p.va, p.who⟩ k.faults })
       else none)

/-! ### Traps, halts and the watchdog -/

/-- A trap that was met is taken once every result is complete (R396). -/
def execTrapTake (core : Nat) (s : State) : Next :=
  let k := s.core core
  event (if k.status = .running && k.pend.isEmpty && !k.faults.isEmpty then some (s.takeFirst core) else none)

/-- A halt takes effect once every earlier result is complete (R112). -/
def execFiringHalt (core : Nat) (s : State) : Next :=
  let k := s.core core
  event
    (match k.halt with
     | some h =>
       if k.status = .running && k.settled then
         some ((s.setCore core { k with pc := h.pc }).haltNow core h.cause h.word h.detail h.bits)
       else none
     | none => none)

/-- Cycles that a running firing has spent, halts left out (R411). -/
def Core.elapsed (k : Core) (now : Nat) : Nat := k.fir.wdAcc + (now - k.fir.wdFrom)
/-- The watchdog period (R411). -/
def Core.wdPeriod (k : Core) : Nat := 2 ^ (bitsOf k.sched.toNat 43 40 + 16)

/-- A firing completes another watchdog period (R411) (DEDUCED, log 12). -/
def execWatchdog (core : Nat) (s : State) : Next :=
  let k := s.core core
  let n := k.elapsed (s.cycle + 1)
  event
    (if k.status = .running && (k.fir.wdDone + 1) * k.wdPeriod ≤ n then
       let s := s.modCore core fun k => { k with fir := { k.fir with wdDone := k.fir.wdDone + 1 } }
       some (s.sendReport core (k.region.getD k.fir.region) 0x0204 0 k.pc 0 (dw n))
     else none)

/-! ### Writes -/

/-- A write waits for the core's earlier writes to its bytes (R312), and a release for those that it carries (R314); the core's
operation on a codelet counter is such a write, and older (DEDUCED, log 72). -/
def State.mayPerform (s : State) (idx : Nat) (w : Write) : Bool :=
  let bound := carriedTo w.rel
  !((s.writes.take idx).any fun p => p.core = w.core && (p.id < bound || p.overlaps w))
    && !(s.depOps.any fun o => o.core = some w.core && (o.id < bound || o.pa < w.pa + w.bytes.length && w.pa < o.pa + 8))

/-- A completed write is applied at its home (R311). -/
def execWritePerform (idx : Nat) (s : State) : Next :=
  event
    (match s.writes[idx]? with
     | none => none
     | some w => if s.mayPerform idx w then some ({ s with writes := listDel s.writes idx }.perform w) else none)

/-- A write of BFMTn takes effect, in the order in which the bank's writes reached it (R52, R161). An access of the model is complete
within its step, so that none stands in its way; a copy that converts in the bank has made some of its accesses. -/
def execBfmtUpdate (cell idx : Nat) (s : State) : Next :=
  let c := s.cell cell
  event
    (match c.sysWrites[idx]? with
     | none => none
     | some w =>
       if w.num ≠ 0x40 && w.due ≤ s.cycle && !(c.sysWrites.take idx).any fun p => p.num = w.num then
         some ((s.cutCopies (sramKey cell (0x1_0000 * (w.num - 0x80)))).modCell cell fun x =>
           { x.sysWrite w.num w.val with sysWrites := listDel c.sysWrites idx })
       else none)

end Sys2Proof.Machine
end

