-- ==== Sys2Proof/Machine/Fp.lean ====
section
/-! DEFINITION. Scalar floating point, opcode 0x03 (R151–R156). -/

namespace Sys2Proof.Machine

/-- The format that W names (R101). -/
def fmtOf (w : BitVec 2) : Fmt :=
  match w with
  | 0 => fp64
  | 1 => fp32
  | 2 => fp16
  | _ => bf16
def Core.mode (k : Core) : Mode := Mode.ofFrm k.frm
/-- Cycles of FDIV and FSQRT (R157). -/
def fdivLat (w : BitVec 2) : Nat :=
  match w with
  | 0 => 24
  | 1 => 14
  | _ => 8

/-- A floating-point result with its flags, after `lat` cycles. The bits above the format are 0 (R151). -/
def fpResult (i : Instr) (c : BitVec 4) (lat : Nat) (d : Reg) (s : State) (r : Nat × FpFlags) : Next :=
  deliver 2 c.toNat i s (s.result 2 c.toNat i lat [.g d (dw r.1)] r.2 true)

/-- FCVT of R155: SB selects the kind. -/
def fcvtResult (f : Fmt) (mode : Mode) (kind : Nat) (x : Dword) : Nat × FpFlags :=
  let fromInt (v : Int) := f.round mode (FV.ofInt v)
  let toInt (m : Mode) (lo hi : Int) :=
    let (v, fl) := (f.decode x.toNat).toInt m lo hi
    ((BitVec.ofInt 64 v).toNat, fl)
  match kind with
  | 0 => fp64.convert f mode x.toNat
  | 1 => fp32.convert f mode x.toNat
  | 2 => fp16.convert f mode x.toNat
  | 3 => bf16.convert f mode x.toNat
  | 4 => fromInt x.toInt
  | 5 => fromInt x.toNat
  | 6 => fromInt (sval 32 x)
  | 7 => fromInt (uval 32 x)
  | 8 => toInt mode (-2 ^ 63) (2 ^ 63 - 1)
  | 9 => toInt mode 0 (2 ^ 64 - 1)
  | 10 => toInt mode (-2 ^ 31) (2 ^ 31 - 1)
  | 11 => toInt mode 0 (2 ^ 32 - 1)
  | 12 => toInt .rtz (-2 ^ 63) (2 ^ 63 - 1)
  | 13 => toInt .rtz 0 (2 ^ 64 - 1)
  | 14 => toInt .rtz (-2 ^ 31) (2 ^ 31 - 1)
  | _ => toInt .rtz 0 (2 ^ 32 - 1)

/-- FADD (R152): Floating-point add rounded under FRM. -/
def execFadd (d a b : Reg) (c : BitVec 4) (w : BitVec 2) (s : State) : Next :=
  fpResult (.fadd d a b c w) c 4 d s ((fmtOf w).add s.me.mode (s.me.g a).toNat (s.me.g b).toNat)
/-- FSUB (R152): Floating-point subtract. -/
def execFsub (d a b : Reg) (c : BitVec 4) (w : BitVec 2) (s : State) : Next :=
  fpResult (.fsub d a b c w) c 4 d s ((fmtOf w).sub s.me.mode (s.me.g a).toNat (s.me.g b).toNat)
/-- FMUL (R152): Floating-point multiply. -/
def execFmul (d a b : Reg) (c : BitVec 4) (w : BitVec 2) (s : State) : Next :=
  fpResult (.fmul d a b c w) c 4 d s ((fmtOf w).mul s.me.mode (s.me.g a).toNat (s.me.g b).toNat)
/-- The addend is the old `gd`. -/
def execFfma (d a b : Reg) (c : BitVec 4) (w : BitVec 2) (s : State) : Next :=
  fpResult (.ffma d a b c w) c 4 d s ((fmtOf w).fma s.me.mode (s.me.g a).toNat (s.me.g b).toNat (s.me.g d).toNat)
/-- FDIV (R152): Floating-point divide. -/
def execFdiv (d a b : Reg) (c : BitVec 4) (w : BitVec 2) (s : State) : Next :=
  fpResult (.fdiv d a b c w) c (fdivLat w) d s ((fmtOf w).div s.me.mode (s.me.g a).toNat (s.me.g b).toNat)
/-- FSQRT (R152): Floating-point square root. -/
def execFsqrt (d a : Reg) (c : BitVec 4) (w : BitVec 2) (s : State) : Next :=
  fpResult (.fsqrt d a c w) c (fdivLat w) d s ((fmtOf w).sqrt s.me.mode (s.me.g a).toNat)
/-- FMIN (R153): minimumNumber of two floating-point values. -/
def execFmin (d a b : Reg) (c : BitVec 4) (w : BitVec 2) (s : State) : Next :=
  fpResult (.fmin d a b c w) c 2 d s ((fmtOf w).minmax false (s.me.g a).toNat (s.me.g b).toNat)
/-- FMAX (R153): maximumNumber of two floating-point values. -/
def execFmax (d a b : Reg) (c : BitVec 4) (w : BitVec 2) (s : State) : Next :=
  fpResult (.fmax d a b c w) c 2 d s ((fmtOf w).minmax true (s.me.g a).toNat (s.me.g b).toNat)
/-- FCMP_EQ (R154): Writes 1 if the operands are equal. -/
def execFcmpEq (d a b : Reg) (c : BitVec 4) (w : BitVec 2) (s : State) : Next :=
  let r := (fmtOf w).cmpEq (s.me.g a).toNat (s.me.g b).toNat
  fpResult (.fcmpEq d a b c w) c 2 d s (b2n r.1, r.2)
/-- FCMP_LT (R154): Writes 1 if a is less than b. -/
def execFcmpLt (d a b : Reg) (c : BitVec 4) (w : BitVec 2) (s : State) : Next :=
  let r := (fmtOf w).cmpLt (s.me.g a).toNat (s.me.g b).toNat
  fpResult (.fcmpLt d a b c w) c 2 d s (b2n r.1, r.2)
/-- FCMP_LE (R154): Writes 1 if a is at most b. -/
def execFcmpLe (d a b : Reg) (c : BitVec 4) (w : BitVec 2) (s : State) : Next :=
  let r := (fmtOf w).cmpLe (s.me.g a).toNat (s.me.g b).toNat
  fpResult (.fcmpLe d a b c w) c 2 d s (b2n r.1, r.2)
/-- SB above 15 names no conversion (R155). -/
def execFcvt (d a b : Reg) (c : BitVec 4) (w : BitVec 2) (s : State) : Next :=
  if b.toNat ≥ 16 then deliver 2 c.toNat (.fcvt d a b c w) s (.illegal 0x0108 (b.setWidth 64))
  else fpResult (.fcvt d a b c w) c 3 d s (fcvtResult (fmtOf w) s.me.mode b.toNat (s.me.g a))
/-- FCLASS (R156): Writes a one-hot class mask of a floating-point value. -/
def execFclass (d a : Reg) (c : BitVec 4) (w : BitVec 2) (s : State) : Next :=
  fpResult (.fclass d a c w) c 2 d s ((fmtOf w).classify (s.me.g a).toNat, 0)

end Sys2Proof.Machine
end

