-- ==== Sys2Proof/Machine/Regions.lean ====
section
/-! DEFINITION. Regions: CREATE_REGION reads a tree of RCBs, checks it and makes its regions (R23–R29, R35, R77, R91); LAUNCH
gives them cells, loads their tables, formats their spill areas and starts them (R34, R44, R83, R252, R343, R386). -/

namespace Sys2Proof.Machine

/-! ### The effective values of a node (R23–R27) -/

/-- A node of a tree: where its RCB lies, its sixteen doublewords, its parent (a place in the tree's list, and the
parent's values), and its own effective values. -/
structure RcbNode where
  key : Nat
  d : List Nat
  up : Option Nat
  parent : Option Region
  reg : Region
  deriving DecidableEq, Repr

def RcbNode.ctl (n : RcbNode) : Nat := n.d.getD 3 0
def overrideOf (d : List Nat) : Nat := bitsOf (d.getD 3 0) 47 32

/-- The effective values of a node (R27, R91). The area of a defining node stands under its own translation root (R343), but for
that of a root whose SPILL_BASE is no virtual address: it is physical, as a root's pointers are (R23) (DEDUCED, log 55).
`table`, `image` and `dicts` are its own, where it has its own; `table` is the physical address of its translation root. EXT_X is
rounded up at class 2 and 3, and the programmed EXT_X is kept beside it (DEDUCED, log 54). -/
def rcbRegion (d : List Nat) (p : Option Region) (fn key level table : Nat) (image : List Dword) (dicts : BitVec 4096) :
    Region :=
  let w (i : Nat) : Nat := d.getD i 0
  let pick {α : Type} (b : Nat) (mine : α) (theirs : Region → α) : α :=
    match p with
    | some r => if bitOf (overrideOf d) b then mine else theirs r
    | none => mine
  let cls := pick 0 (bitsOf (w 3) 4 3) (·.cls)
  let root := pick 12 table (·.root)
  let tile := pick 13 [bitsOf (w 11) 47 32, bitsOf (w 11) 63 48, bitsOf (w 12) 15 0] (·.tile)
  let ext := pick 13 [bitsOf (w 10) 31 0, bitsOf (w 10) 63 32, bitsOf (w 11) 31 0] (·.ext)
  let tx := tile.getD 0 0
  let ex := if 2 ≤ cls && tx ≠ 0 then (ext.getD 0 0 + tx - 1) / tx * tx else ext.getD 0 0
  { fn := fn, parent := none, kids := [], level := level, rcb := key, cls := cls,
    restartable := pick 1 (bitOf (w 3) 5) (·.restartable), stealable := pick 1 (bitOf (w 3) 6) (·.stealable),
    cells := pick 2 (bitsOf (w 4) 10 0) (·.cells), lanes := pick 3 (bitsOf (w 4) 19 11) (·.lanes),
    matrix := pick 4 (bitsOf (w 4) 33 20) (·.matrix), sramKib := pick 5 (bitsOf (w 5) 23 0) (·.sramKib),
    msgs := pick 6 (bitsOf (w 5) 63 32) (·.msgs), domain := pick 7 (bitsOf (w 6) 15 0) (·.domain),
    supervisor := pick 8 (bitsOf (w 6) 28 16) (·.supervisor), spawn := pick 9 (bitsOf (w 6) 47 32) (·.spawn),
    image := pick 10 image (·.image), dicts := pick 11 dicts (·.dicts), root := root, ext := listSet ext 0 ex,
    extX := pick 13 (ext.getD 0 0) (·.extX), tile := tile,
    spillBase := pick 14 (w 13) (·.spillBase), spillSize := pick 14 (w 14) (·.spillSize),
    spillRoot := pick 14 root (·.spillRoot), spillPhys := pick 14 (p.isNone && 2 ^ 56 ≤ w 13) (·.spillPhys),
    state := 0, done := [], tilesDone := 0, placed := [], dealing := [], dealt := [], fresh := 0, ahead := [], redo := [], peerOpen := false,
    descBase := 0, descs := [], offered := false, launchNs := 0, usedCells := 0, usedSram := 0, usedMatrix := 0, usedMsgs := 0,
    usedCtx := 0, qevents := 0, qRose := true, qZero := none, doneSince := none, switched := false,
    pastFrom := 0 }

/-! ### Reading the tree (R23, R28) -/

/-- Bytes at a pointer field: physical where the node is the root of its tree, else under the translation root of the
node's parent. -/
def State.rcbBytes (s : State) (under : Option Region) (p n : Nat) : Option (List (Nat × Nat)) :=
  s.fwPieces (under.map (·.root)) p n .read

/-- An image or bitmap that a node names with its own pointer: its bytes and their pieces, zeros where the pointer is 0
(DEDUCED, log 53). -/
def State.rcbData (s : State) (under : Option Region) (p n : Nat) : Option (List Byte × List (Nat × Nat)) :=
  if p = 0 then some (List.replicate n 0, [])
  else (s.rcbBytes under p n).map fun l => (l.flatMap fun (k, m) => s.homeBytes k m, l)

/-- The physical address of a node's own translation root (R23), taken once; 0 where it has none (DEDUCED, log 11). -/
def State.rcbTable (s : State) (under : Option Region) (p : Nat) : Option Nat :=
  if p = 0 || under.isNone then some p else (s.rcbBytes under p 8).map fun l => (l.headD (0, 0)).1

/-- A node still to be visited: its address, its parent's place and values, its level, and the values under whose
translation root its address stands. -/
structure RcbVisit where
  ptr : Nat
  under : Option Region
  up : Option Nat
  parent : Option Region
  level : Nat
  deriving DecidableEq, Repr

/-- Own pointers of a node: a group that it does not override names nothing of its own. -/
def ownPtr (d : List Nat) (p : Option Region) (b i : Nat) : Nat :=
  if p.isNone || bitOf (overrideOf d) b then d.getD i 0 else 0

/-- One node read: the node and the pieces of memory read, or the status (DEDUCED, log 52). -/
def State.readNode (s : State) (fn : Nat) (seen : List RcbNode) (v : RcbVisit) : Except Nat (RcbNode × List (Nat × Nat)) :=
  if 7 < v.level then .error 0x10
  else if v.ptr % 128 ≠ 0 then .error 0x05
  else match s.rcbBytes v.under v.ptr 128 with
    | none => .error 0x05
    | some l =>
      let key := (l.headD (0, 0)).1
      if seen.any (·.key = key) then .error 0x10
      else
        let bytes := s.homeBytes key 128
        let d := (List.range 16).map fun i => leNat ((bytes.drop (8 * i)).take 8)
        match s.rcbData v.parent (ownPtr d v.parent 10 7) 2048, s.rcbData v.parent (ownPtr d v.parent 11 8) 512,
          s.rcbTable v.parent (ownPtr d v.parent 12 9) with
        | some (img, a), some (bm, b), some table =>
          let image := (List.range 256).map fun i => dw (leNat ((img.drop (8 * i)).take 8))
          let reg := rcbRegion d v.parent fn key v.level table image (BitVec.ofNat 4096 (leNat bm))
          let walks := s.fwWalks (v.under.map (·.root)) v.ptr 128
          .ok (⟨key, d, v.up, v.parent, reg⟩, walks ++ l ++ a ++ b)
        | _, _, _ => .error 0x05

/-- The tree in the order of R29: depth first, a parent before its children, children in sibling order; all of it read at one
moment (R28) (DESIGN CHOICE, log 99). -/
def State.readTree (s : State) (fn : Nat) :
    Nat → List RcbVisit → List RcbNode → List (Nat × Nat) → Except Nat (List RcbNode × List (Nat × Nat))
  | 0, _, _, _ => .error 0x06
  | _ + 1, [], nodes, read => .ok (nodes, read)
  | fuel + 1, v :: rest, nodes, read =>
    match s.readNode fn nodes v with
    | .error e => .error e
    | .ok (n, l) =>
      let down : List RcbVisit :=
        if n.d.getD 1 0 = 0 then [] else [⟨n.d.getD 1 0, v.parent, some nodes.length, some n.reg, v.level + 1⟩]
      let next : List RcbVisit :=
        if v.up.isNone || n.d.getD 2 0 = 0 then [] else [⟨n.d.getD 2 0, v.parent, v.up, v.parent, v.level⟩]
      s.readTree fn fuel (down ++ next ++ rest) (nodes ++ [n]) (read ++ l)

/-! ### Handler images (R35) -/

/-- Doubleword `j` of entry `e`. -/
def imageDw (img : List Dword) (e j : Nat) : Nat := (img.getD (4 * e + j) 0).toNat
/-- Input slot `i` of an entry: CNT, V, CH; entries 61, 62 and 63 have slot 0 filled by the loader. -/
def imageSlot (img : List Dword) (e i : Nat) : Nat × Bool × Nat :=
  let d := imageDw img e 2
  if 61 ≤ e && i = 0 then (1, true, e - 60)
  else (bitsOf d (16 * i + 15) (16 * i + 8), bitOf d (16 * i + 6), bitsOf d (16 * i + 5) (16 * i))
/-- Core `k` of a cell loads entry `e`. -/
def imageLoads (img : List Dword) (k e : Nat) : Bool :=
  bitsOf (imageDw img e 1) 31 24 = 0 || bitOf (imageDw img e 1) (24 + k)

/-- Entry `e` as core `k` of a cell loads it. -/
def imageEntry (img : List Dword) (k e : Nat) : Entry :=
  if !imageLoads img k e then Entry.zero
  else
    let d1 := imageDw img e 1
    { code := if 61 ≤ e then 0 else dw (imageDw img e 0), cores := BitVec.ofNat 8 (bitsOf d1 31 24), depth := bitsOf d1 23 16,
      prod := bitsOf d1 13 8, cls := bitsOf d1 3 2, pend := false, en := bitOf d1 0,
      slots := (List.range 4).map (imageSlot img e), fires := 0, since := 0, lift := false }
/-- The table of core `k` of a cell. -/
def imageTable (img : List Dword) (k : Nat) : List Entry := (List.range 64).map (imageEntry img k)

/-- Reserved and device-written fields are 0, and the ranges hold. Bits 2:0 of CODE take no check and stay as they are
(DESIGN CHOICE, log 100). -/
def entryOk (img : List Dword) (e : Nat) : Bool :=
  let d0 := imageDw img e 0
  let d1 := imageDw img e 1
  let d2 := imageDw img e 2
  d0 / 2 ^ 56 = 0 && d1 / 2 ^ 32 = 0 && bitsOf d1 15 14 = 0 && bitsOf d1 7 4 = 0 && !bitOf d1 1 && imageDw img e 3 = 0
    && bitsOf d1 13 8 ≤ 32
    && (List.range 4).all (fun i => !bitOf d2 (16 * i + 7)
      && (match imageSlot img e i with
        | (n, v, _) => !v || 1 ≤ n))
    && (e < 61 || (d0 = 0 && d2 % 2 ^ 16 = 0))

/-- The channels of the valid slots that core `k` loads. -/
def imageChannels (img : List Dword) (k : Nat) : List Nat :=
  (imageTable img k).flatMap fun e => e.slots.filterMap fun (_, v, ch) => if v then some ch else none

/-- The image checks of R35. -/
def imageOk (img : List Dword) : Bool :=
  (List.range 64).all (entryOk img)
    && (List.range 8).all fun k => (imageChannels img k).eraseDups.length = (imageChannels img k).length

/-! ### The checks of R29 -/

/-- A node fails the check whose status is `code`. -/
def State.nodeFails (s : State) (n : RcbNode) (code : Nat) : Bool :=
  let w (i : Nat) : Nat := n.d.getD i 0
  let r := n.reg
  match code with
  | 0x11 => bitOf (overrideOf n.d) 15 || (n.parent.isNone && overrideOf n.d ≠ 0x7FFF)
  | 0x12 =>
    bitsOf (w 3) 31 7 ≠ 0 || bitsOf (w 4) 63 34 ≠ 0 || bitsOf (w 5) 31 24 ≠ 0 || bitsOf (w 6) 63 48 ≠ 0
      || bitsOf (w 6) 31 29 ≠ 0 || bitsOf (w 12) 63 16 ≠ 0 || bitsOf (w 15) 31 2 ≠ 0
  | 0x13 =>
    8192 < r.matrix || 256 < r.lanes || r.lanes % 16 ≠ 0 || r.cells < 1 || 1024 < r.cells || 2097152 < r.sramKib
      || (match n.parent with
        | none => false
        | some p => p.matrix < r.matrix || p.lanes < r.lanes || p.cells < r.cells || p.sramKib < r.sramKib || p.msgs < r.msgs)
  | 0x14 => r.domain = 0
  | 0x15 => !s.isLive (dieOfCore r.supervisor)
  | 0x16 => r.ext.any (· = 0) || r.tile.any (· = 0)
  | 0x17 => !imageOk r.image
  | 0x18 => r.spillBase % 64 ≠ 0 || r.spillSize % 64 ≠ 0
  | _ => r.stealable && !r.restartable

/-- The status of the first failing check in table order; 0 where every check passes. -/
def State.treeStatus (s : State) (nodes : List RcbNode) : Nat :=
  (([0x11, 0x12, 0x13, 0x14, 0x15, 0x16, 0x17, 0x18, 0x19] : List Nat).find? fun c => nodes.any fun n => s.nodeFails n c).getD 0

/-! ### CREATE_REGION -/

/-- The function root that a virtual function holds (R77): one that has not ended (DEDUCED, log 57). -/
def State.rootOfFn (s : State) (fn : Nat) : Option (Nat × Region) :=
  match (s.fn fn).root with
  | none => none
  | some id =>
    match s.region id with
    | some r => if r.state < 2 then some (id, r) else none
    | none => none

/-- The function holds a region that has not ended. -/
def State.hasRegions (s : State) (fn : Nat) : Bool :=
  s.regions.any fun (_, r) => match r with
    | some r => r.fn = fn && r.state < 2
    | none => false

/-- The regions of a checked tree made, REGION_ID, LEVEL and STATUS written back (R24, R28) (DEDUCED, log 59). -/
def State.makeRegions (s : State) (nodes : List RcbNode) (top : Option Nat) : State :=
  let base := s.nextRegion
  let kids (i : Nat) : List Nat := (nodes.zipIdx.filter fun (n, _) => n.up = some i).map fun (_, j) => base + j
  let put (t : State) (x : RcbNode × Nat) : State :=
    let (n, i) := x
    let parent := match n.up with
      | some u => some (base + u)
      | none => top
    let r := { n.reg with parent := parent, kids := kids i }
    let ctl := setBits (setBits n.ctl 63 48 (base + i)) 2 0 n.reg.level
    { t with regions := tabSet t.regions (base + i) (some r) }.writeHome (n.key + 0x18) (leBytes 8 ctl) |>.writeStatus (base + i)
  let s := (nodes.zipIdx).foldl put { s with nextRegion := base + nodes.length }
  match top with
  | some id => s.modRegion id fun r => { r with kids := r.kids ++ [base] }
  | none => s

/-- CREATE_REGION for function `owner`, under the function root `top` where there is one. -/
def State.createTree (s : State) (fn owner ptr : Nat) (top : Option (Nat × Region)) (root : Bool) : State :=
  let v : RcbVisit := ⟨ptr, none, none, top.map (·.2), match top with
    | some (_, r) => r.level + 1
    | none => 0⟩
  match s.readTree owner 65536 [v] [] [] with
  | .error e => s.finishCmd fn e
  | .ok (nodes, read) =>
    match s.treeStatus nodes with
    | 0 =>
      let id := s.nextRegion
      if 65536 < id + nodes.length then s.finishCmd fn 0x06
      else
        let s := (s.noteReads (piecesDwords read)).makeRegions nodes (top.map (·.1))
        let s := if root then s.modFn owner fun f => { f with root := some id } else s
        s.finishCmd fn 0 [id]
    | e => s.finishCmd fn e

/-- CREATE_REGION (R29, R75, R77). -/
def execCreateRegion (fn : Nat) (s : State) : Next :=
  s.hostCmd fn 0x04 [1, 2] false fun d =>
    let ptr := d.getD 1 0
    let f := d.getD 2 0
    if fn = 0 then
      if f = 0 then s.createTree 0 0 ptr none false
      else if 384 < f then s.finishCmd fn 0x02
      else if (s.rootOfFn f).isSome || s.hasRegions f then s.finishCmd fn 0x07
      else s.createTree 0 f ptr none true
    else if f ≠ 0 then s.finishCmd fn 0x02
    else match s.rootOfFn fn with
      | none => s.finishCmd fn 0x20
      | some top => s.createTree fn fn ptr (some top) false

/-! ### LAUNCH (R83) -/

/-- The regions of a subtree, children before their parent, siblings in order; `fuel` bounds the depth. -/
def State.postorder (s : State) : Nat → Nat → List Nat
  | 0, _ => []
  | fuel + 1, id =>
    match s.region id with
    | none => []
    | some r => (r.kids.flatMap fun c => s.postorder fuel c) ++ [id]

/-- The cells of no region on which a matrix unit still drains (R265): they are not free yet. -/
def State.drainingCells (s : State) : List Nat :=
  (s.cores.filter fun (_, k) => k.region.isNone && k.mq.busy).map fun (c, _) => cellOf c

/-- The free cells in the order in which the master takes them: the supervisor's die first (DEDUCED, log 19). -/
def State.freeList (s : State) (supervisor : Nat) : List Nat :=
  let used := (s.regions.flatMap fun (_, r) => (r.map (·.placed)).getD []) ++ s.drainingCells
  let first := dieOfCore supervisor
  ((first :: (List.range 4).filter (· ≠ first)).filter s.isLive).flatMap fun d =>
    ((List.range 256).map (256 * d + ·)).filter fun c => !used.contains c

/-- Cells held by a region's descendants. -/
def State.heldBelow (s : State) (id : Nat) : Nat :=
  (((s.subtree 32 id).drop 1).map fun c => ((s.region c).map (·.placed.length)).getD 0).foldl (· + ·) 0

/-- One region takes its share, or none. -/
def State.takeShare (s : State) (id : Nat) : Option State :=
  match s.region id with
  | none => none
  | some r =>
    let share := r.cells - s.heldBelow id
    let got := (s.freeList r.supervisor).take share
    if share < 1 || got.length < share || !s.fits id .cells share then none
    else some ((s.charge id .cells share).modRegion id fun r => { r with placed := got })

/-- The dealing list of a region (R83, step 3). -/
def Region.dealers (r : Region) : List Nat :=
  let on (k : Nat) : Bool := (imageTable r.image k).any fun e => e.en && e.names 4
  r.placed.flatMap fun c => ((List.range 8).filter on).map (8 * c + ·)

/-! ### Spill areas at LAUNCH (R343) -/

/-- The region's spill area holds records (DEDUCED, log 56). -/
def Region.spills (r : Region) : Bool := r.spillBase ≠ 0 && 256 ≤ r.spillSize
/-- Every page of the area translates to space 1 or 2 of this device. -/
def State.spillReachable (s : State) (r : Region) : Bool :=
  (List.range (r.spillSize / 64)).all fun i => (s.spillDw r (64 * i)).isSome
def Region.sameArea (a b : Region) : Bool :=
  a.spillBase = b.spillBase && a.spillSize = b.spillSize && a.spillRoot = b.spillRoot && a.spillPhys = b.spillPhys

/-- An area formatted: every record on the free list, in increasing offset. -/
def State.formatSpill (s : State) (r : Region) : State :=
  let n := (r.spillSize - 128) / 128
  let zeros (t : State) (off : Nat) : State := (List.range 16).foldl (fun t i => t.spillPut r (off + 8 * i) 0) t
  (List.range n).foldl
    (fun t i => (zeros t (128 * (i + 1))).spillPut r (128 * (i + 1)) (if i + 1 < n then 128 * (i + 2) else 0))
    ((zeros s 0).spillPut r 0 128)

/-- The distinct areas of a list of regions. -/
def areasOf (rs : List Region) : List Region :=
  rs.foldl (fun l r => if r.spills && !l.any r.sameArea then l ++ [r] else l) []

/-! ### Placing a region on its cells -/

/-- What placement does to a core: waiting messages are discarded (R34), the table is loaded (R35), trap banks are cleared
(R395) and accumulators are INT32 zeros (R252). -/
def State.placeCore (s : State) (id c : Nat) (img : List Dword) : State :=
  let s := s.bump 3 c 5 (((s.core c).recs.filter (·.st = .queued)).length)
  s.modCore c fun k =>
    { k with region := some id, entries := imageTable img (c % 8), counts := [], recs := [], head := 0, tail := 0, arms := [],
             ctxList := [], armList := [], stealing := false, tlevel := 0, banks := Vector.replicate 2 TrapBank.reset,
             replays := Vector.replicate 2 none, switching := false, frozen := false, stop := false, safeMask := none,
             regs := { k.regs with v := Vector.replicate 16 0, p := Vector.replicate 8 0 },
             mq := { k.mq with acc := Vector.replicate 4 0, marks := Vector.replicate 4 0, isFp := Vector.replicate 4 false,
                               shown := Vector.replicate 4 0, past := [], west := [], north := [] } }

/-- A placed cell subscribes to every installed dictionary of the region's set and takes its shade as the view (R44); it has
no earlier notice left to apply or to acknowledge (DEDUCED, log 69). -/
def State.subscribeSet (s : State) (r : Region) (cell : Nat) : State :=
  (s.dicts.map (·.1)).foldl
    (fun t d =>
      if !r.dicts.getLsbD d then t
      else match t.subscribeCell cell d with
        | none => t.modDict d fun x => { x with subFull := true }
        | some t =>
          let sh := t.shadeOf d
          let tag := t.cellTag cell
          (t.modCell cell fun c =>
            { c with views := tabSet c.views d sh, notices := c.notices.filter fun x => x.1 ≠ d }).modDict d fun x =>
              { x with owed := x.owed.filter fun o => o.2.2 ≠ tag })
    s

/-- A region that has its cells starts (R83, steps 2 to 4); a stealable one has descriptors (R386). -/
def State.startRegion (s : State) (id : Nat) : State :=
  match s.region id with
  | none => s
  | some r =>
    let s := r.cores.foldl (fun t c => t.placeCore id c r.image) s
    let s := r.placed.foldl (fun t c => (t.modCell c fun x => { x with freed := false, tlb := [] }).subscribeSet r c) s
    let s := s.modRegion id fun r =>
      { r with dealing := r.dealers, launchNs := s.time, pastFrom := s.past.length, qRose := true, descBase := s.nextDesc, offered := false }
    let s := if r.stealable then { s with nextDesc := s.nextDesc + r.total } else s
    s.setState id 1

/-- LAUNCH of a subtree: the new state, or the status. An empty P of one region undoes the whole tree, and a descendant that runs
already stays as it is and counts among the cells placed (DESIGN CHOICE, log 111). -/
def State.launch (s : State) (id : Nat) : Except Nat State :=
  let ids := (s.postorder 32 id).filter fun i => ((s.region i).map (·.state)).getD 1 = 0
  match ids.foldl (fun (t : Option State) i => t.bind fun t => t.takeShare i) (some s) with
  | none => .error 0x06
  | some t =>
    let rs := ids.filterMap t.region
    if rs.any fun r => r.dealers.isEmpty then .error 0x21
    else
      let areas := areasOf rs
      if areas.any fun r => !t.spillReachable r then .error 0x05
      else .ok (ids.foldl (fun t i => t.startRegion i) (areas.foldl (fun t r => t.formatSpill r) t))

/-- LAUNCH (R75, R83). RES1 counts the cells of the whole tree. -/
def execLaunch (fn : Nat) (s : State) : Next :=
  s.hostCmd fn 0x05 [1] false fun d =>
    let id := d.getD 1 0
    match s.ownRegion fn id with
    | none => s.finishCmd fn 0x04
    | some r =>
      if r.state ≠ 0 then s.finishCmd fn 0x07
      else match s.launch id with
        | .error e => s.finishCmd fn e
        | .ok t => t.finishCmd fn 0 [((t.subtree 32 id).map fun i => ((t.region i).map (·.placed.length)).getD 0).foldl (· + ·) 0]

end Sys2Proof.Machine
end

