-- ==== Sys2Proof/Machine/Switch.lean ====
section
/-! DEFINITION. SWITCH_CONTEXT (R412–R417): the switch-out, which waits for the cores to stop and then writes the save area,
and the switch-in. -/

namespace Sys2Proof.Machine

/-! ### What a switch names (R414) -/

/-- ARG1: its reserved bits, the direction (true for in), and the regions, or a status. -/
def State.switchTargets (s : State) (arg : Nat) (out : Bool) : Except Nat (List Nat) :=
  let id := arg % 2 ^ 16
  let fits (r : Region) : Bool := r.state = 1 && r.switched != out
  if bitOf arg 16 then
    if 384 < id then .error 0x02
    else
      match s.regions.filterMap (fun (i, r) => match r with
        | some r => if r.fn = id && fits r then some i else none
        | none => none) with
      | [] => .error 0x07
      | l => .ok l
  else match s.ownRegion 0 id with
    | none => .error 0x04
    | some r => if fits r then .ok [id] else .error 0x07

/-- The home address of a save area of `n` bytes (R414). -/
def State.areaKey (s : State) (a n : Nat) : Option Nat :=
  if a % 4096 ≠ 0 || !(spaceOf a = 2 || spaceOf a = 4) || isWindow a then none
  else match reachPhysical.keys s a n .write with
    | .ok ((k, _) :: _) => some k
    | _ => none

def cellRecordSize : Nat := 2162688
def sliceSize : Nat := 0x20_0000
/-- Bytes of a region record with `k` cells, and of the area that holds such records (R415). -/
def recordSize (k : Nat) : Nat := 4096 + k * cellRecordSize
def switchAreaSize (ks : List Nat) : Nat := ks.foldl (fun n k => n + recordSize k) 4096

/-! ### Switching out -/

/-- Step 1: a core stops at once if it runs no firing; a running firing stops at a SAFE point or its end. -/
def Core.mark (k : Core) : Core := { k with switching := true, frozen := k.status ≠ .running }

/-- A GATHER is under way. -/
def Pend.isGather (p : Pend) : Bool :=
  match p.who.instr with
  | .gather .. => true
  | _ => false

/-- The NI's gathers rolled back (R211, R413): the firing will go on at IDEMPC. -/
def Core.rollback (k : Core) : Core :=
  if k.idempc ≠ 0 && k.pend.any Pend.isGather then
    { k with pend := k.pend.filter (!·.isGather), pc := k.idempc, npc := k.idempc }
  else k

/-- The core has stopped and its engines stand at a command boundary (R265, R413). -/
def Core.stopped (k : Core) : Bool :=
  (k.status ≠ .running || k.frozen) && k.rollback.pend.isEmpty && !k.mq.ran && k.mq.step.isNone

/-- Everything of a region stands still: its cores, their encoders, register writes on their way, and counter operations. -/
def State.regionStill (s : State) (id : Nat) (r : Region) : Bool :=
  r.cores.all (fun c => (s.core c).stopped) && r.placed.all (fun n => (s.cell n).enc.isEmpty && (s.cell n).sysWrites.isEmpty)
    && s.depOps.all (·.region ≠ id)

/-- Step 2 for the copy at the head of a FIFO (R416): it stops at a free place, and LAST_ERR takes 0x08. -/
def State.cancelCopy (s : State) (c : Nat) : State :=
  if (s.core c).copies.head?.all (·.done.isSome) then s
  else (s.cutCopy c).modCore c fun k => { k with copyErr := 8 }

/-- A core as it is saved: its streams without the data fetched ahead, shared subscriptions ended (R416). -/
def Core.toSave (k : Core) (now : Nat) : Core :=
  let k := k.rollback
  let stream (o : Option Stream) : Option Stream := o.map fun st => { st with shared := none, feed := st.feed.restart st.desc st.pos }
  { k with streams := k.streams.map stream, mq := { k.mq with past := [] }, fir := { k.fir with wdAcc := if k.status = .running then k.elapsed now else k.fir.wdAcc } }

/-- A core whose region has been switched out: nothing of the region stays, and its lanes have taken their contents along (R162). -/
def Core.vacate (k : Core) : Core :=
  { k with status := .idle, fir := Firing.none, pend := [], faults := [], halt := none, wait := none, replay := none, rep := none,
           region := none, entries := List.replicate 64 Entry.zero, counts := [], head := 0, tail := 0, recs := [], arms := [],
           stealing := false, streams := Vector.replicate 8 none, copies := [], copyDue := 0, mq := k.mq.clear,
           schur := Schur.reset, resq := [], builds := [], ctxList := [], armList := [], switching := false, frozen := false,
           stop := false, safeMask := none, tlevel := 0, vl := 0, floor := 0, fence := none,
           regs := { k.regs with v := Vector.replicate 16 0, p := Vector.replicate 8 0 } }

/-- A freed cell after a switch-out; its cell registers stay as they stand (DEDUCED, log 17). R416 keeps no cached translation,
and none is saved or left (DESIGN CHOICE, log 10). -/
def Cell.vacate (c : Cell) : Cell :=
  { c with demands := [], aside := [], enc := [], views := [], notices := [], bindings := [], holds := [], watches := [], freed := true, tlb := [] }

/-- A stream register that subscribes has the shared stream's position and feed, to go on alone. -/
def State.detach (s : State) (c : Nat) : State :=
  (List.range 8).foldl
    (fun t i =>
      match vget none (t.core c).streams i with
      | some st =>
        (match st.shared.bind t.sharedOf with
         | some x =>
           let pos := (x.place c (some i)).getD x.feed.next
           (t.unsubscribe x.id c (some i)).modStream c i fun y => { y with pos := pos, feed := x.feed }
         | none => t)
      | none => t)
    s

/-- A region's record in the save area: its header, and each cell's slice and private bytes. -/
def State.regionRecord (s : State) (id : Nat) (r : Region) : List Byte :=
  let head := leBytes 8 id ++ leBytes 8 r.placed.length ++ r.placed.flatMap (leBytes 2)
  head ++ List.replicate (4096 - head.length) 0
    ++ (r.placed.zipIdx).flatMap fun (n, j) => s.homeBytes (sramKey n 0) sliceSize
      ++ (List.range 0x1_0000).map fun i => Config.privateByte (s.free + j) i

/-- The whole area (R415). -/
def State.saveArea (s : State) (arg : Nat) (rs : List (Nat × Region)) : List Byte :=
  let body := rs.flatMap fun (id, r) => s.regionRecord id r
  let size := switchAreaSize (rs.map fun (_, r) => r.placed.length)
  let head := [Config.firmwareVersion.toNat, arg, rs.length, size, crc32c body, s.time].flatMap (leBytes 8)
  head ++ List.replicate (4096 - head.length) 0 ++ body

/-- A message that waits in the NIs of a region's cores: one of their own, a ready message, or a dirty entry (R416). -/
def Region.sends (r : Region) (m : Msg) : Bool :=
  ((m.slot || m.refused) && m.src.any r.cores.contains)
    || (m.refused && (hdrType m.hdr = 8 || m.isDirty) && m.src.isNone && r.cores.contains (tagCore m.dst.toNat))

/-- One region leaves its cells: what R416 names is saved beside the check value of its area, the cells and their charge are
free, and nothing waits for their acknowledgements. -/
def State.vacateRegion (s : State) (crc id : Nat) : State :=
  match s.region id with
  | none => s
  | some r =>
    let save : RegionSave :=
      { crc := crc, cycle := s.cycle, placed := r.placed, cores := r.cores.map fun c => (c, (s.core c).toSave s.cycle),
        cells := r.placed.map fun n => (n, { s.cell n with tlb := [] }), net := s.net.filter r.sends }
    let tags := r.placed.map s.cellTag
    let s := { s with
      saves := tabSet s.saves id (save :: tabGet [] s.saves id), net := s.net.filter fun m => !r.sends m,
      dicts := s.dicts.map fun (n, (x : Option Dict)) =>
        (n, x.map fun (x : Dict) => { x with owed := x.owed.filter fun o => !tags.contains o.2.2 }) }
    let s := r.cores.foldl (fun t c => t.modCore c Core.vacate) s
    let s := r.placed.foldl (fun t n => t.modCell n Cell.vacate) s
    (s.uncharge id .cells r.placed.length).modRegion id fun r => { r with placed := [], switched := true }

/-- Steps 2 and 3, once everything stands still. -/
def State.switchedAway (s : State) (fn arg area : Nat) (ids : List Nat) : State :=
  let rs := ids.filterMap fun i => (s.region i).map fun r => (i, r)
  let cores := rs.flatMap fun (_, r) => r.cores
  let s := cores.foldl (fun t c => ((t.cancelCopy c).flush c).detach c) s
  let done (t : State) : State := t.modFn fn fun f => { f with switching := [] }
  let bytes := s.saveArea arg rs
  match s.areaKey area bytes.length with
  | none => (done (s.resumeRegions ids)).finishCmd fn 0x05
  | some k =>
    let s := { s.writeHome k bytes with free := s.free + (rs.map fun (_, r) => r.placed.length).foldl (· + ·) 0 }
    (done (ids.foldl (fun t i => t.vacateRegion (crc32c (bytes.drop 4096)) i) s)).finishCmd fn 0

/-- SWITCH_CONTEXT with DIR 0: it begins where the command waits in its slot, and ends in a later step, once every core of
its regions has stopped (R414) (DEDUCED, log 62). -/
def execSwitchContextOut (fn : Nat) (s : State) : Next :=
  match (s.fn fn).switching with
  | [] =>
    (match s.serves fn with
     | some d =>
       if opcodeOf d = 0x0D && bitOf (d.getD 1 0) 17 then .fault .notEnabled
       else s.hostCmd fn 0x0D [1, 2] true fun d =>
         if d.getD 1 0 / 2 ^ 18 ≠ 0 then s.finishCmd fn 0x02
         else match s.switchTargets (d.getD 1 0) true with
           | .error e => s.finishCmd fn e
           | .ok ids =>
             let size := switchAreaSize (ids.map fun i => ((s.region i).map (·.placed.length)).getD 0)
             if (s.areaKey (d.getD 2 0) size).isNone then s.finishCmd fn 0x05
             else
               let s := ids.foldl
                 (fun t i => match t.region i with
                   | some r => r.cores.foldl (fun t c => t.modCore c Core.mark) t
                   | none => t)
                 s
               s.modFn fn fun f => { f with switching := ids, taken := d }
     | none => .fault .notEnabled)
  | ids =>
    let d := (s.fn fn).taken
    event
      (if ids.any fun i => ((s.region i).map (·.state)).getD 3 ≠ 1 then
         some (((s.resumeRegions ids).modFn fn fun f => { f with switching := [] }).finishCmd fn 0x07)
       else if ids.all (fun i => match s.region i with
           | some r => s.regionStill i r
           | none => true) then some (s.switchedAway fn (d.getD 1 0) (d.getD 2 0) ids)
       else none)

/-! ### Switching in (R416, R417) -/

/-- Bytes of a cell's slice restored, the command slots of the queue area among them. -/
def State.putSlice (s : State) (n : Nat) (bytes : List Byte) : State :=
  let s := (s.putBytes (sramKey n 0) (bytes.take 0x1F_C000)).rereadAt (sramKey n 0) sliceSize
  (List.range 8).foldl
    (fun t k => t.putQueue (sramKey n (0x1F_C000 + 0x800 * k)) ((bytes.drop (0x1F_C000 + 0x800 * k)).take 0x400)) s

/-- A core restored: its firing is no longer pre-empted, and its times run on. -/
def Core.restore (k : Core) (saved now : Nat) : Core :=
  let k := k.resume
  { k with
    tried := 0, violated := none, wait := none, fir := { k.fir with wdFrom := now },
    entries := k.entries.map fun (e : Entry) => if e.en && e.pend then { e with since := e.since + (now - saved) } else e,
    copyDue := match k.copies with
      | q :: _ => now + q.rest.cycles
      | [] => 0 }

/-- A cell restored. -/
def Cell.restore (c : Cell) (saved now : Nat) : Cell :=
  { c with freed := false, holds := c.holds.map fun (h : Held) => { h with since := h.since + (now - saved) } }

/-- One region back on its cells, as a save and the slices of an area have it. -/
def State.restoreRegion (s : State) (id : Nat) (x : RegionSave) (slices : List (List Byte)) : State :=
  let s := (s.charge id .cells x.placed.length).modRegion id fun r => { r with placed := x.placed, switched := false }
  let s := x.cores.foldl (fun t (c, k) => t.setCore c (k.restore x.cycle s.cycle)) s
  let s := x.cells.foldl (fun t (n, c) => t.modCell n fun _ => c.restore x.cycle s.cycle) s
  let s := (x.placed.zip slices).foldl (fun t (n, b) => t.putSlice n b) s
  let s := { s with net := s.net ++ x.net.map fun (m : Msg) => { m with refused := false, due := s.cycle } }
  x.placed.foldl
    (fun t n => (((t.cell n).bindings.map (·.dict)).eraseDups).foldl
      (fun t d => match t.dict d with
        | some e => (t.catchUp n d e).1
        | none => t) t)
    s

/-- The regions of an area whose records begin at a place: the place of each record, its region, and its cells (R415). -/
def areaRecords (bytes : List Byte) : Nat → Nat → List (Nat × Nat × List Nat)
  | 0, _ => []
  | n + 1, o =>
    let k := Nat.min (bytesAt bytes (o + 8) 8) 1024
    (o, bytesAt bytes o 8, (List.range k).map fun i => bytesAt bytes (o + 16 + 2 * i) 2) :: areaRecords bytes n (o + recordSize k)

/-- The save that stands for the private bytes of a record: the one that the area with this check value was written with
(R415) (DEDUCED, log 62). -/
def State.saveOf (s : State) (crc id : Nat) (cells : List Nat) : Option RegionSave :=
  (tabGet [] s.saves id).find? fun x => x.crc = crc && x.placed = cells

/-- A save for an area that no switch of this power cycle has written: the cells of the record, with the free state that their private
bytes stand for (R417) (DEDUCED, log 62). -/
def State.foreignSave (s : State) (crc id : Nat) (cells : List Nat) : RegionSave :=
  let x := (Config.privateSave s.free id).getD ⟨crc, s.cycle, cells, [], [], []⟩
  { x with
    crc := crc, cycle := s.cycle, placed := cells,
    cores := (cells.flatMap fun n => (List.range 8).map (8 * n + ·)).map fun c => (c, { tabGet Core.reset x.cores c with region := some id }),
    cells := cells.map fun n => (n, tabGet Cell.reset x.cells n) }

/-- Each region's charge fits, one after the other (R30, R417). -/
def State.chargesFit (s : State) : List (Nat × Nat) → Bool
  | [] => true
  | (id, n) :: t => s.fits id .cells n && (s.charge id .cells n).chargesFit t

/-- The checks of R417 and the restoring. `ids` are the regions that ARG1 names. -/
def State.switchIn (s : State) (fn area : Nat) (ids : List Nat) : State :=
  match s.areaKey area 4096 with
  | none => s.finishCmd fn 0x05
  | some k =>
    let head := s.homeBytes k 4096
    let size := bytesAt head 24 8
    if bytesAt head 0 8 ≠ Config.firmwareVersion.toNat then s.finishCmd fn 0x07
    else if size < 4096 || (s.areaKey area size).isNone then s.finishCmd fn 0x05
    else
      let bytes := s.homeBytes k size
      let crc := crc32c (bytes.drop 4096)
      let recs := areaRecords bytes (Nat.min (bytesAt head 16 8) ids.length) 4096
      if bytesAt head 32 8 % 2 ^ 32 ≠ crc || recs.map (fun x => x.2.1) != ids || bytesAt head 16 8 ≠ ids.length then
        s.finishCmd fn 0x05
      else
        let used := (s.regions.flatMap fun (_, r) => (r.map (·.placed)).getD []) ++ s.drainingCells
        let free (n : Nat) : Bool := s.isLive (dieOfCell n) && !used.contains n
        if !recs.all (fun (_, _, c) => c.all free) || !s.chargesFit (recs.map fun (_, i, c) => (i, c.length)) then
          s.finishCmd fn 0x06
        else
          let l := recs.map fun (o, i, c) => (o, i, (s.saveOf crc i c).getD (s.foreignSave crc i c))
          let slice (o j : Nat) : List Byte := (bytes.drop (o + 4096 + j * cellRecordSize)).take sliceSize
          let s := { s with free := s.free + 1 }.noteReads (dwordsOf k size)
          (l.foldl (fun t (o, i, x) => t.restoreRegion i x ((List.range x.placed.length).map (slice o))) s).finishCmd fn 0

/-- SWITCH_CONTEXT with DIR 1 (R417). -/
def execSwitchContextIn (fn : Nat) (s : State) : Next :=
  match s.serves fn with
  | none => .fault .notEnabled
  | some d =>
    if opcodeOf d = 0x0D && !bitOf (d.getD 1 0) 17 then .fault .notEnabled
    else s.hostCmd fn 0x0D [1, 2] true fun d =>
      let arg := d.getD 1 0
      if arg / 2 ^ 18 ≠ 0 then s.finishCmd fn 0x02
      else match s.switchTargets arg false with
        | .error e => s.finishCmd fn e
        | .ok ids => s.switchIn fn (d.getD 2 0) ids

end Sys2Proof.Machine
end

