-- ==== Sys2Proof/Machine/Package.lean ====
section
/-! DEFINITION. The package (R448–R458) and what the outside does to it: power, bring-up and the management controller's store
(R429, R430, R451, R454), errors that strike memory (R421, R422), and the Keagus ports with their flits (R425, R453). -/

namespace Sys2Proof.Machine

/-! ### The lifetime store (R429, R430) -/

/-- Cycles in a second of the arithmetic clock (R8). -/
def secondCycles : Nat := 1_900_000_000

/-- The increase of every counter since the last update, added to the store; a step's cycle counts as passed. -/
def State.storeLife (s : State) : State :=
  let add (t : Tab Nat) (x : Nat × Nat) : Tab Nat :=
    let more := x.2 - tabGet 0 s.life.last x.1
    if more = 0 then t else tabSet t x.1 (Nat.min (tabGet 0 t x.1 + more) (2 ^ 64 - 1))
  { s with life := { s.life with
      totals := s.counters.foldl add s.life.totals, last := s.counters, updated := s.cycle + 1,
      seconds := s.life.seconds + (s.cycle + 1 - s.life.updated) / secondCycles } }

/-- The controller's update every 60 s. -/
def execLifetimeUpdate (s : State) : Next :=
  event (if s.power ≠ .off && s.life.updated + 60 * secondCycles ≤ s.cycle + 1 then some s.storeLife else none)

/-- A counter of one kind and index, summed over the cells. -/
def State.sumCells (s : State) (kind idx : Nat) : Nat :=
  s.counters.foldl (fun n (k, v) => if k / 2 ^ 32 = kind && k % 2 ^ 16 = idx then n + v else n) 0

/-- A die's second in the temperature histogram. -/
def State.countTemp (s : State) (d : Nat) : State := s.bump 11 d (Nat.min 15 ((s.die d).temp / 8))

/-- One second of both histograms (R430). -/
def State.countSecond (s : State) : State :=
  let segs := s.sumCells 1 0
  let escs := s.sumCells 1 3
  let n := segs - s.life.segs
  let s := (List.range 4).foldl State.countTemp s
  let s := if n = 0 then s else s.bump 12 0 (Nat.min 15 (16 * (escs - s.life.escs) / n))
  { s with life := { s.life with second := s.cycle + 1, segs := segs, escs := escs } }

/-- HISTOGRAM_SAMPLE (R430): Once a second the temperature and escape-rate histograms count a second. -/
def execHistogramSample (s : State) : Next :=
  event (if s.power ≠ .off && s.life.second + secondCycles ≤ s.cycle + 1 then some s.countSecond else none)

/-! ### Power (R451, R454) -/

/-- Memory that outlives this device's power: the host's and its peers'. -/
def outsideMem (m : List Host.Cell) : List Host.Cell := m.filter fun (a, _) => 3 ≤ spaceOf a

/-- The device without power (DEDUCED, log 65). -/
def State.unpowered (s : State) : State :=
  { State.reset with
    cycle := s.cycle, mem := outsideMem s.mem, life := { s.life with last := [] }, inputs := s.inputs, free := s.free,
    oracle := s.oracle }

/-- An orderly power-down (R429). -/
def execPowerDown (s : State) : Next := event (if s.power = .off then none else some s.storeLife.unpowered)

/-- Power is lost: what the store has not taken over is forfeited (R429). -/
def execLossOfPower (s : State) : Next := event (if s.power = .off then none else some s.unpowered)

/-- A command page once the firmware answers (R72, R454, step 6). -/
def Fn.ready : Fn := { Fn.reset with status := dw (1 + Config.firmwareVersion.toNat * 256) }

/-- Steps 1 to 4 of bring-up (R454): `liveDies` passed step 2, and the straps give the device number. Heartbeats have begun. The
domain time base that the device joins is open (DESIGN CHOICE, log 64). -/
def State.bringUp (s : State) (liveDies straps : Nat) : State :=
  let live := BitVec.ofNat 4 liveDies
  let start := (Config.openWord s.free 0).toNat
  let u := { s.unpowered with
    cycle := 0, startNs := start, free := s.free + 1, live := live, device := straps % 2 ^ 13,
    life := { s.life with boots := s.life.boots + 1, last := [], updated := 0, second := 0, segs := 0, escs := 0 } }
  if liveDies % 16 = 0 then { u with power := .dead }
  else
    { u with
      power := .starting,
      master := ((List.range 4).find? live.getLsbD).getD 0,
      dies := Vector.ofFn fun (d : Fin 4) => { Die.reset with beating := live.getLsbD d.val } }

/-- Cycles from power-good within which the firmware is ready (R454). -/
def readyBound : Nat := 2_090_000_000

/-- Step 6 of bring-up: the firmware answers from now on (R454) (DESIGN CHOICE, log 64). -/
def State.becomeReady (s : State) : Next :=
  event
    (if s.power = .starting then
       some { s with
         power := .ready, fns := (List.range 385).map fun f => (f, { s.fn f with status := Fn.ready.status }) }
     else none)
/-- The bound of step 6 has come. -/
def State.readyDue (s : State) : Bool := s.power = .starting && readyBound ≤ s.cycle + 1

/-- POWER_ON (R454): Power-good starts bring-up: ROM hash, die tests, memory clearing, master election and readiness. -/
def execPowerOn (liveDies straps : Nat) (s : State) : Next :=
  event (if s.power = .off then some (s.bringUp liveDies straps) else none)

/-- Cycles between two readings of a die's temperature (R451). -/
def thermalCycles : Nat := 1_900_000

/-- A die's temperature is read; at 110 °C a live die is fenced, and with the last one the module powers down, its second
counted (R451). -/
def execThermalSample (die temp : Nat) (s : State) : Next :=
  event
    (if s.power = .off || 3 < die then none
     else
       let s := s.modDie die fun x => { x with temp := temp, readAt := s.cycle + 1 }
       if temp < 110 || !s.isLive die || s.power = .dead then some s
       else if s.live.toNat = 2 ^ die then some s.countSecond.storeLife.unpowered
       else some (s.fence die 0))

/-- The reading that is due each millisecond, of a temperature that is a free value where the outside has given none (R451)
(DESIGN CHOICE, log 107). -/
def State.thermalDue (die : Nat) (s : State) : Next :=
  if (s.die die).readAt + thermalCycles ≤ s.cycle + 1 then
    execThermalSample die (Config.openWord s.free die).toNat { s with free := s.free + 1 }
  else .fault .notEnabled

/-- A die stops of itself (R81): its distributor beats no more (DEDUCED, log 66). -/
def execDieStop (die : Nat) (s : State) : Next :=
  event (if s.dieRuns die then some (s.modDie die fun x => { x with stopped := true }) else none)

/-! ### Errors of memory (R421, R422) -/

/-- An error strikes the aligned doubleword of a physical address in SRAM or a stack. -/
def execMemoryError (addr : Nat) (uncorrectable : Bool) (s : State) : Next :=
  event
    (match s.canon 0 addr with
     | none => none
     | some k =>
       let d := dwOf k
       if !(spaceOf addr = 1 || spaceOf addr = 2) || isWindow k then none
       else if s.bad.contains d then some s
       else if uncorrectable then some { s with bad := s.bad ++ [d], soft := s.soft.filter (· ≠ d) }
       else some (if s.soft.contains d then s else { s with soft := s.soft ++ [d] }))

/-! ### Keagus ports (R425, R453, R456, R458) -/

/-- The devices that the trained ports lead to. -/
def State.reached (s : State) : List Nat := (s.ports.flatMap fun (_, p) => if p.trained then p.reach else []).eraseDups

/-- The peer set of R200: the devices that a trained port joins to this one directly (R453). -/
def State.partners (s : State) : List Nat := s.ports.filterMap fun (_, p) => if p.trained then p.reach.head? else none

/-- The devices of the domain as the trained ports now give them; one that is no longer among them has left (R391). -/
def State.setPeers (s : State) (l : List Nat) : State :=
  { s with peers := l, left := ((s.left ++ s.peers).filter fun d => !l.contains d).eraseDups }.calm
/-- Cycles from power-good by which the ports are trained (R454). -/
def trainBound : Nat := 1_900_000_000

/-- A port trains with a partner, in bring-up only (R453, R454), or a trained port's partner passes on a further device that it
reaches (R458). A partner of this device's own number is a conflict: no port stays up, and the device joins no domain (R456)
(DESIGN CHOICE, log 68). -/
def execKeagusPortTrain (port device : Nat) (s : State) : Next :=
  event
    (if !(s.power = .starting || s.power = .ready) || s.conflict || 32 ≤ port || 2 ^ 13 ≤ device then none
     else
       let p := s.port port
       if !p.trained then
         if s.power = .ready || trainBound < s.cycle then none
         else if device = s.device then some ({ s with conflict := true, ports := [] }.setPeers [])
         else
           let t := s.modPort port fun p => { p with trained := true, reach := [device], packet := none, tries := 0 }
           some (t.setPeers t.reached)
       else if device = s.device || p.reach.contains device then none
       else
         let t := s.modPort port fun p => { p with reach := p.reach ++ [device] }
         some (t.setPeers t.reached))

/-- A trained port goes down: a device that no other port leads to leaves the domain. -/
def execKeagusPortDown (port : Nat) (s : State) : Next :=
  event
    (if (s.port port).trained then
       let t := s.modPort port fun _ => Port.reset
       some (t.setPeers t.reached)
     else none)

/-- A device learns that a trained path to a further one is left no more: it leaves the set, unless a port joins the two (R458)
(DESIGN CHOICE, log 68). -/
def State.peerLeaves (dev : Nat) (s : State) : Next :=
  event
    (if s.peers.contains dev && !s.partners.contains dev then
       let t := { s with ports := s.ports.map fun (n, (p : Port)) => (n, { p with reach := p.reach.filter (· ≠ dev) }) }
       some (t.setPeers t.reached)
     else none)

/-- The packets between this device and another, and those of the contexts on their way to a core (R351). -/
def State.packets (s : State) : List Packet :=
  let msgs := (s.net.filter fun m => (tagDev m.dst.toNat ≠ s.device || hdrType m.hdr = 6) && !m.refused).map fun m => .msg m.seq
  let writes := (s.writes.filter fun w => spaceOf w.pa = 3).map .write
  let deps := (s.depOps.filter fun d => spaceOf d.pa = 3).map .dep
  let replies := s.cores.flatMap fun (c, k) =>
    (k.pend.filter fun p => p.kind = .reply && !p.lost && p.waits.isNone && (p.dwords.isEmpty || p.dwords.any (spaceOf · = 3))).map
      fun p => .reply c p.who.ord
  msgs ++ writes ++ deps ++ replies

/-- A packet dropped after its last try (R425). -/
def State.dropPacket (s : State) : Packet → State
  | .msg q =>
    match s.net.find? (·.seq = q) with
    | none => s
    | some m => { s with net := s.net.erase m }.dropMsg { m with answer := none }
  | .write w => { s with writes := s.writes.erase w }
  | .dep o => { s with depOps := s.depOps.erase o }
  | .reply c o => s.modCore c fun k =>
    { k with pend := k.pend.map fun p => if p.kind = .reply && p.who.ord = o then { p with ready := false, lost := true } else p }

/-- A port receives a bad flit of a packet: it asks again, and after the eighth time the packet is dropped (R425) (DEDUCED,
log 67). -/
def execFlitRetry (port idx : Nat) (s : State) : Next :=
  event
    (if !(s.port port).trained then none
     else match s.packets[idx]? with
       | none => none
       | some q =>
         let p := s.port port
         let tries := if p.packet = some q then p.tries else 0
         if tries < 8 then some ((s.modPort port fun p => { p with packet := some q, tries := tries + 1 }).bump 10 port 0)
         else some (((s.modPort port fun p => { p with packet := none, tries := 0 }).bump 10 port 1).dropPacket q))

end Sys2Proof.Machine
end

