-- ==== Sys2Proof/Machine/Scalar.lean ====
section
/-! DEFINITION. The scalar integer instructions: opcode 0x01 (R143–R147), multiply and divide (R148, R149), and the
immediate forms (R150). -/

namespace Sys2Proof.Machine

/-! ### The functions, on the low `n` bits of the sources -/

def addW (n : Nat) (a b : Dword) : Dword := sres n (sval n a + sval n b)
def subW (n : Nat) (a b : Dword) : Dword := sres n (sval n a - sval n b)
def andW (n : Nat) (a b : Dword) : Dword := sres n (sval n (a &&& b))
def orW (n : Nat) (a b : Dword) : Dword := sres n (sval n (a ||| b))
def xorW (n : Nat) (a b : Dword) : Dword := sres n (sval n (a ^^^ b))
def andnW (n : Nat) (a b : Dword) : Dword := sres n (sval n (a &&& ~~~b))
def shlW (n : Nat) (a b : Dword) : Dword := sres n (uval n a * 2 ^ (uval n b % n) : Nat)
def shrW (n : Nat) (a b : Dword) : Dword := sres n (uval n a / 2 ^ (uval n b % n) : Nat)
def sarW (n : Nat) (a b : Dword) : Dword := sres n (sval n a / 2 ^ (uval n b % n))
def rolW (n : Nat) (a b : Dword) : Dword :=
  let r := uval n b % n
  sres n (uval n a * 2 ^ r + uval n a / 2 ^ (n - r) : Nat)
def minW (n : Nat) (a b : Dword) : Dword := sres n (if sval n a ≤ sval n b then sval n a else sval n b)
def maxW (n : Nat) (a b : Dword) : Dword := sres n (if sval n a ≥ sval n b then sval n a else sval n b)
def minuW (n : Nat) (a b : Dword) : Dword := sres n (if uval n a ≤ uval n b then sval n a else sval n b)
def maxuW (n : Nat) (a b : Dword) : Dword := sres n (if uval n a ≥ uval n b then sval n a else sval n b)
def sltW (n : Nat) (a b : Dword) : Dword := if sval n a < sval n b then 1 else 0
def sltuW (n : Nat) (a b : Dword) : Dword := if uval n a < uval n b then 1 else 0
/-- Bits of a number: 0 for 0. -/
def bitLen (x : Nat) : Nat := if x = 0 then 0 else Nat.log2 x + 1
def clzW (n : Nat) (a : Dword) : Dword := dw (n - bitLen (uval n a))
/-- The number of the lowest one bit among `n`, counted from `i`. -/
def ctzFrom (x : Nat) : Nat → Nat → Nat
  | 0, i => i
  | n + 1, i => if bitOf x i then i else ctzFrom x n (i + 1)
def ctzW (n : Nat) (a : Dword) : Dword := dw (ctzFrom (uval n a) n 0)
/-- One bits among the low `n`. -/
def popCount (x : Nat) : Nat → Nat
  | 0 => 0
  | n + 1 => b2n (bitOf x n) + popCount x n
def popcW (n : Nat) (a : Dword) : Dword := dw (popCount (uval n a) n)
def bswapW (n : Nat) (a : Dword) : Dword := sres n (leNat (leBytes (n / 8) (uval n a)).reverse : Nat)
/-- Position and length of a bit field (R146). -/
def fieldPos (b : Dword) : Nat := bitsOf b.toNat 5 0
def fieldLen (b : Dword) : Nat := Nat.min (bitsOf b.toNat 14 8) 64
def extrD (a b : Dword) : Dword := dw (a.toNat / 2 ^ fieldPos b % 2 ^ fieldLen b)
def insbD (d a b : Dword) : Dword :=
  let m := dw ((2 ^ fieldLen b - 1) * 2 ^ fieldPos b)
  (d &&& ~~~m) ||| dw (a.toNat % 2 ^ fieldLen b * 2 ^ fieldPos b)
/-- The scale of LEA: 8, 4, 2, 1 as W is 0, 1, 2, 3. -/
def leaScale (w : BitVec 2) : Nat := 2 ^ (3 - w.toNat)
def leaD (w : BitVec 2) (a b : Dword) : Dword := a + b * dw (leaScale w)

def mulW (n : Nat) (a b : Dword) : Dword := sres n (sval n a * sval n b)
def mulhW (n : Nat) (a b : Dword) : Dword := sres n (sval n a * sval n b / 2 ^ n)
def mulhuW (n : Nat) (a b : Dword) : Dword := sres n (uval n a * uval n b / 2 ^ n : Nat)
def divW (n : Nat) (a b : Dword) : Dword := sres n ((sval n a).tdiv (sval n b))
def divuW (n : Nat) (a b : Dword) : Dword := sres n (uval n a / uval n b : Nat)
def remW (n : Nat) (a b : Dword) : Dword := sres n ((sval n a).tmod (sval n b))
def remuW (n : Nat) (a b : Dword) : Dword := sres n (uval n a % uval n b : Nat)

/-- Cycles of MUL and of DIV at a width (R157). -/
def divLat (w : BitVec 2) : Nat :=
  match w with
  | 0 => 34
  | 1 => 18
  | 2 => 10
  | _ => 6

/-! ### How these instructions end -/

/-- A result for the next pair. -/
def alu (i : Instr) (c : BitVec 4) (d : Reg) (s : State) (v : Dword) : Next :=
  deliver 2 c.toNat i s (s.result 2 c.toNat i 1 [.g d v])
/-- A result for the next pair, of an instruction that takes only the widths `ok` (R145, R111). -/
def aluIf (ok : Bool) (i : Instr) (c : BitVec 4) (d : Reg) (s : State) (v : Dword) : Next :=
  if ok then alu i c d s v else deliver 2 c.toNat i s (.illegal 0x0108 0)
/-- A result after `lat` cycles. -/
def longAlu (i : Instr) (c : BitVec 4) (lat : Nat) (d : Reg) (s : State) (v : Dword) : Next :=
  deliver 2 c.toNat i s (s.result 2 c.toNat i lat [.g d v])
/-- A division: a divisor whose low bits are 0 traps at issue with DIVZERO and the dividend (R149). -/
def divide (i : Instr) (c : BitVec 4) (w : BitVec 2) (d : Reg) (s : State) (a b v : Dword) : Next :=
  if uval (wBits w) b = 0 then deliver 2 c.toNat i s (.trap .atIssue 0x030A (dw (uval (wBits w) a)))
  else longAlu i c (divLat w) d s v

/-! ### Opcode 0x01 -/

/-- ADD (R145): Integer add at width w. -/
def execAdd (d a b : Reg) (c : BitVec 4) (w : BitVec 2) (s : State) : Next :=
  alu (.add d a b c w) c d s (addW (wBits w) (s.me.g a) (s.me.g b))
/-- SUB (R145): Integer subtract at width w. -/
def execSub (d a b : Reg) (c : BitVec 4) (w : BitVec 2) (s : State) : Next :=
  alu (.sub d a b c w) c d s (subW (wBits w) (s.me.g a) (s.me.g b))
/-- AND (R145): Bitwise AND. -/
def execAnd (d a b : Reg) (c : BitVec 4) (w : BitVec 2) (s : State) : Next :=
  alu (.and d a b c w) c d s (andW (wBits w) (s.me.g a) (s.me.g b))
/-- OR (R145): Bitwise OR. -/
def execOr (d a b : Reg) (c : BitVec 4) (w : BitVec 2) (s : State) : Next :=
  alu (.or d a b c w) c d s (orW (wBits w) (s.me.g a) (s.me.g b))
/-- XOR (R145): Bitwise XOR. -/
def execXor (d a b : Reg) (c : BitVec 4) (w : BitVec 2) (s : State) : Next :=
  alu (.xor d a b c w) c d s (xorW (wBits w) (s.me.g a) (s.me.g b))
/-- ANDN (R145): Bitwise AND with the complement of b. -/
def execAndn (d a b : Reg) (c : BitVec 4) (w : BitVec 2) (s : State) : Next :=
  alu (.andn d a b c w) c d s (andnW (wBits w) (s.me.g a) (s.me.g b))
/-- SHL (R145): Shift left by b mod w. -/
def execShl (d a b : Reg) (c : BitVec 4) (w : BitVec 2) (s : State) : Next :=
  alu (.shl d a b c w) c d s (shlW (wBits w) (s.me.g a) (s.me.g b))
/-- SHR (R145): Logical shift right. -/
def execShr (d a b : Reg) (c : BitVec 4) (w : BitVec 2) (s : State) : Next :=
  alu (.shr d a b c w) c d s (shrW (wBits w) (s.me.g a) (s.me.g b))
/-- SAR (R145): Arithmetic shift right. -/
def execSar (d a b : Reg) (c : BitVec 4) (w : BitVec 2) (s : State) : Next :=
  alu (.sar d a b c w) c d s (sarW (wBits w) (s.me.g a) (s.me.g b))
/-- ROL (R145): Rotate left. -/
def execRol (d a b : Reg) (c : BitVec 4) (w : BitVec 2) (s : State) : Next :=
  alu (.rol d a b c w) c d s (rolW (wBits w) (s.me.g a) (s.me.g b))
/-- MIN (R145): Signed minimum. -/
def execMin (d a b : Reg) (c : BitVec 4) (w : BitVec 2) (s : State) : Next :=
  alu (.min d a b c w) c d s (minW (wBits w) (s.me.g a) (s.me.g b))
/-- MAX (R145): Signed maximum. -/
def execMax (d a b : Reg) (c : BitVec 4) (w : BitVec 2) (s : State) : Next :=
  alu (.max d a b c w) c d s (maxW (wBits w) (s.me.g a) (s.me.g b))
/-- MINU (R145): Unsigned minimum. -/
def execMinu (d a b : Reg) (c : BitVec 4) (w : BitVec 2) (s : State) : Next :=
  alu (.minu d a b c w) c d s (minuW (wBits w) (s.me.g a) (s.me.g b))
/-- MAXU (R145): Unsigned maximum. -/
def execMaxu (d a b : Reg) (c : BitVec 4) (w : BitVec 2) (s : State) : Next :=
  alu (.maxu d a b c w) c d s (maxuW (wBits w) (s.me.g a) (s.me.g b))
/-- SLT (R145): Sets 1 if a is less than b, signed. -/
def execSlt (d a b : Reg) (c : BitVec 4) (w : BitVec 2) (s : State) : Next :=
  alu (.slt d a b c w) c d s (sltW (wBits w) (s.me.g a) (s.me.g b))
/-- SLTU (R145): Sets 1 if a is less than b, unsigned. -/
def execSltu (d a b : Reg) (c : BitVec 4) (w : BitVec 2) (s : State) : Next :=
  alu (.sltu d a b c w) c d s (sltuW (wBits w) (s.me.g a) (s.me.g b))
/-- SEL takes the old `gd` as its condition. -/
def execSel (d a b : Reg) (c : BitVec 4) (w : BitVec 2) (s : State) : Next :=
  aluIf (w = 0) (.sel d a b c w) c d s (if s.me.g d ≠ 0 then s.me.g a else s.me.g b)
/-- CLZ (R145): Counts leading zeros. -/
def execClz (d a : Reg) (c : BitVec 4) (w : BitVec 2) (s : State) : Next :=
  alu (.clz d a c w) c d s (clzW (wBits w) (s.me.g a))
/-- CTZ (R145): Counts trailing zeros. -/
def execCtz (d a : Reg) (c : BitVec 4) (w : BitVec 2) (s : State) : Next :=
  alu (.ctz d a c w) c d s (ctzW (wBits w) (s.me.g a))
/-- POPC (R145): Counts one bits. -/
def execPopc (d a : Reg) (c : BitVec 4) (w : BitVec 2) (s : State) : Next :=
  alu (.popc d a c w) c d s (popcW (wBits w) (s.me.g a))
/-- BSWAP (R145): Reverses the bytes of a. -/
def execBswap (d a : Reg) (c : BitVec 4) (w : BitVec 2) (s : State) : Next :=
  aluIf (w ≠ 3) (.bswap d a c w) c d s (bswapW (wBits w) (s.me.g a))
/-- EXTR (R146): Extracts an unsigned bit field. -/
def execExtr (d a b : Reg) (c : BitVec 4) (w : BitVec 2) (s : State) : Next :=
  aluIf (w = 0) (.extr d a b c w) c d s (extrD (s.me.g a) (s.me.g b))
/-- INSB (R146): Inserts a bit field into gd. -/
def execInsb (d a b : Reg) (c : BitVec 4) (w : BitVec 2) (s : State) : Next :=
  aluIf (w = 0) (.insb d a b c w) c d s (insbD (s.me.g d) (s.me.g a) (s.me.g b))
/-- LEA (R145): Computes ga plus scaled gb. -/
def execLea (d a b : Reg) (c : BitVec 4) (w : BitVec 2) (s : State) : Next :=
  alu (.lea d a b c w) c d s (leaD w (s.me.g a) (s.me.g b))

/-! ### Opcode 0x02 -/

/-- MUL (R148): Low product at width w. -/
def execMul (d a b : Reg) (c : BitVec 4) (w : BitVec 2) (s : State) : Next :=
  longAlu (.mul d a b c w) c 3 d s (mulW (wBits w) (s.me.g a) (s.me.g b))
/-- MULH (R148): High half of the signed product. -/
def execMulh (d a b : Reg) (c : BitVec 4) (w : BitVec 2) (s : State) : Next :=
  longAlu (.mulh d a b c w) c 3 d s (mulhW (wBits w) (s.me.g a) (s.me.g b))
/-- MULHU (R148): High half of the unsigned product. -/
def execMulhu (d a b : Reg) (c : BitVec 4) (w : BitVec 2) (s : State) : Next :=
  longAlu (.mulhu d a b c w) c 3 d s (mulhuW (wBits w) (s.me.g a) (s.me.g b))
/-- DIV (R148): Signed division, trapping DIVZERO on a zero divisor. -/
def execDiv (d a b : Reg) (c : BitVec 4) (w : BitVec 2) (s : State) : Next :=
  divide (.div d a b c w) c w d s (s.me.g a) (s.me.g b) (divW (wBits w) (s.me.g a) (s.me.g b))
/-- DIVU (R148): Unsigned division, trapping DIVZERO on a zero divisor. -/
def execDivu (d a b : Reg) (c : BitVec 4) (w : BitVec 2) (s : State) : Next :=
  divide (.divu d a b c w) c w d s (s.me.g a) (s.me.g b) (divuW (wBits w) (s.me.g a) (s.me.g b))
/-- REM (R148): Signed remainder, trapping DIVZERO on a zero divisor. -/
def execRem (d a b : Reg) (c : BitVec 4) (w : BitVec 2) (s : State) : Next :=
  divide (.rem d a b c w) c w d s (s.me.g a) (s.me.g b) (remW (wBits w) (s.me.g a) (s.me.g b))
/-- REMU (R148): Unsigned remainder, trapping DIVZERO on a zero divisor. -/
def execRemu (d a b : Reg) (c : BitVec 4) (w : BitVec 2) (s : State) : Next :=
  divide (.remu d a b c w) c w d s (s.me.g a) (s.me.g b) (remuW (wBits w) (s.me.g a) (s.me.g b))

/-! ### Immediates -/

/-- An immediate form: 64 bits, and a result for the next pair. -/
def immAlu (i : Instr) (d : Reg) (s : State) (v : Dword) : Next := alu i 0 d s v

/-- ADDI (R150): Adds a sign-extended 16-bit immediate. -/
def execAddi (d a : Reg) (i : BitVec 16) (s : State) : Next :=
  immAlu (.addi d a i) d s (s.me.g a + i.signExtend 64)
/-- ANDI (R150): ANDs a zero-extended immediate. -/
def execAndi (d a : Reg) (i : BitVec 16) (s : State) : Next :=
  immAlu (.andi d a i) d s (s.me.g a &&& i.setWidth 64)
/-- ORI (R150): ORs a zero-extended immediate. -/
def execOri (d a : Reg) (i : BitVec 16) (s : State) : Next :=
  immAlu (.ori d a i) d s (s.me.g a ||| i.setWidth 64)
/-- XORI (R150): XORs a zero-extended immediate. -/
def execXori (d a : Reg) (i : BitVec 16) (s : State) : Next :=
  immAlu (.xori d a i) d s (s.me.g a ^^^ i.setWidth 64)
/-- SHLI (R150): Shifts left by an immediate. -/
def execShli (d a : Reg) (n : BitVec 6) (s : State) : Next :=
  immAlu (.shli d a n) d s (s.me.g a <<< n.toNat)
/-- SHRI (R150): Shifts right logically by an immediate. -/
def execShri (d a : Reg) (n : BitVec 6) (s : State) : Next :=
  immAlu (.shri d a n) d s (s.me.g a >>> n.toNat)
/-- SARI (R150): Shifts right arithmetically by an immediate. -/
def execSari (d a : Reg) (n : BitVec 6) (s : State) : Next :=
  immAlu (.sari d a n) d s ((s.me.g a).sshiftRight n.toNat)
/-- LUI (R150): Loads a 16-bit immediate into bits 31:16. -/
def execLui (d : Reg) (i : BitVec 16) (s : State) : Next :=
  immAlu (.lui d i) d s (i.setWidth 64 <<< 16)

end Sys2Proof.Machine
end

