-- ==== Sys2Proof/Machine/Selector.lean ====
section
/-! DEFINITION. The start of a firing: candidates (R116), the selector (R117, R119), consumption (R37), the starting state
(R121, R336, R346), stealing (R131), and spilled arms that return (R130). -/

namespace Sys2Proof.Machine

/-! ### Consumption (R37) -/

/-- What a start takes: the core after it, the messages taken from each slot, the records taken, and the arm. -/
structure Taken where
  core : Core
  counts : List Nat
  recs : List AreaRec
  arm : Option Arm
  /-- The first valid slot consumed this record. -/
  head : Option AreaRec
  deriving DecidableEq, Repr

/-- Consumption of one input slot. On channel 2 the newest arm comes first (R130) (DEDUCED, log 16). -/
def Taken.slot (x : Taken) (slot : Nat × Bool × Nat) (first : Bool) : Taken :=
  let (cnt, v, ch) := slot
  if !v then { x with counts := x.counts ++ [0] }
  else
    let n := Nat.min (x.core.count ch) cnt
    let arm := if ch = 2 && n > 0 then x.core.arms.head? else none
    let k := { x.core.setCount ch (x.core.count ch - n) with arms := if arm.isSome then x.core.arms.tail else x.core.arms }
    let recs := (k.queued ch).take (n - b2n arm.isSome)
    { core := recs.foldl Core.holdRec k, counts := x.counts ++ [n], recs := x.recs ++ recs,
      arm := if arm.isSome then arm else x.arm, head := if first then recs.head? else x.head }

/-- The number of an entry's first valid slot. -/
def Entry.firstSlot (e : Entry) : Nat := (e.slots.findIdx? fun (_, v, _) => v).getD 4

def Core.consume (k : Core) (e : Entry) : Taken :=
  (e.slots.zipIdx).foldl (fun x (slot, i) => x.slot slot (i = e.firstSlot)) ⟨k, [], [], none, none⟩

/-! ### The starting state (R121) -/

/-- Payload doubleword `i` of a record, open where the message is too short to carry it. -/
def State.recDw (s : State) (core : Nat) (r : AreaRec) (i : Nat) : Dword :=
  if 16 + 8 * i ≤ r.size then dw (s.homeNat (sramKey (cellOf core) (areaBase core + r.off + 8 + 8 * i)) 8)
  else Config.openWord s.free i

/-- The nine doublewords that a firing of entry 62 or 63 starts from: those of its arm or of its record. -/
def State.startDws (s : State) (core : Nat) (x : Taken) : List Dword :=
  match x.arm, x.head with
  | some a, _ => (List.range 9).map fun i => a.pay.getD i 0
  | none, some r => (List.range 9).map (s.recDw core r)
  | none, none => (List.range 9).map (Config.openWord s.free)

/-- A doubleword of a codelet descriptor in the core's slice (R333, R336) (DEDUCED, log 36). -/
def State.descDw (s : State) (core : Nat) (desc : Dword) (i : Nat) : Dword :=
  dw (s.homeNat (sramKey (cellOf core) ((desc.toNat + 8 * i) % 2 ^ 21)) 8)

/-- The program counter, `g1`, and `g8` to `g15` of a firing of entry `e`. -/
def State.startRegs (s : State) (core e : Nat) (ent : Entry) (x : Taken) : Dword × Dword × List Dword :=
  let g1 := match x.arm, x.head with
    | some _, _ => Config.openWord s.free 9
    | none, some r => recAddr core r.off
    | none, none => 0
  if e = 61 then
    let desc := match x.head with
      | some r => s.recDw core r 0
      | none => Config.openWord s.free 0
    (dw (bitsOf (s.descDw core desc 1).toNat 55 0), desc, (List.range 6).map (fun i => s.descDw core desc (2 + i)) ++ [0, 0])
  else if e = 62 || e = 63 then
    let l := s.startDws core x
    (l.headD 0, g1, l.tail)
  else (ent.code, g1, List.replicate 8 0)

/-- The doublewords of memory that the start of a firing reads (R336, R421): of the message that carries its code address, and of
its codelet descriptor. -/
def State.startReads (s : State) (core e : Nat) (x : Taken) : List Nat :=
  match x.arm, x.head with
  | none, some r =>
    let rec' (n : Nat) : List Nat :=
      ((List.range n).filter fun i => 16 + 8 * i ≤ r.size).map fun i => dwOf (sramKey (cellOf core) (areaBase core + r.off + 8 + 8 * i))
    if e = 61 then
      rec' 1 ++ (List.range 7).flatMap fun i =>
        dwordsOf (sramKey (cellOf core) (((s.recDw core r 0).toNat + 8 * (i + 1)) % 2 ^ 21)) 8
    else if e = 62 || e = 63 then rec' 9
    else []
  | _, _ => []

/-- The firing's class at its start: the entry's, and no more urgent than the region's (R33, R117). -/
def State.baseClass (s : State) (core : Nat) (e : Entry) : Nat :=
  Nat.max e.cls ((((s.core core).region.bind s.region).map (·.cls)).getD 0)

/-- PROD outgoing slots of an entry can be reserved (R32). -/
def State.prodFits (s : State) (core : Nat) (e : Entry) : Bool :=
  s.outUsed core + e.prod ≤ 32 && s.fits ((s.core core).region.getD 0) .msgs e.prod

/-- A firing of entry `e` starts with what it has taken (R37, R121); its first pair issues in the cycle after `at` (DEDUCED,
log 91). -/
def State.startFiring (s : State) (core e at' : Nat) (x : Taken) : State :=
  let ent := (s.core core).entry e
  let region := (s.core core).region.getD 0
  let fires := ent.fires + 1
  let cls := s.baseClass core ent
  let time := { s with cycle := at' }.time
  let (pc, g1, args) := s.startRegs core e ent x
  let reads := s.startReads core e x
  let counts := ((x.counts.zipIdx).foldl (fun n (c, i) => n + c % 256 * 256 ^ i) 0)
  let g : List Dword :=
    [g1, dw counts, dw (e * 256 + ent.key), dw (cls * 2 ^ 16 + region % 0x1_0000), dw (s.tag core ent.key), dw time,
      dw (ent.prod * 2 ^ 32 + fires.toNat)] ++ args
  let k := x.core.setEntry e { ent with pend := x.core.met ent, fires := fires, since := at', lift := false }
  let k := (g.zipIdx).foldl (fun (k : Core) (v, i) => k.setG (BitVec.ofNat 5 (i + 1)) v) k
  let fir : Firing :=
    { entry := e, key := ent.key, region := region, base := cls, cls := cls, held := x.recs.map fun r => (r.off, r.ch),
      arm := x.arm, prodLeft := ent.prod, ctx := x.recs.findSome? (·.ctx), tiles := [], spec := false, wdAcc := 0,
      wdFrom := at', wdDone := 0 }
  let s := (s.charge region .msgs ent.prod).setCore core
    { k with status := .running, pc := pc, npc := pc, fir := fir, lastch := ent.key, idempc := 0, vl := 0, floor := 0,
             iter := 0, fence := none, stealing := false, tried := at' + 1 }
  { s with free := s.free + 1 }.readDone core reads

/-! ### The selector -/

/-- Entries 61 to 63 need a message that a start would consume (R116): one of the channel that their valid slot names. -/
def Core.hasMessage (k : Core) (e : Nat) : Bool :=
  if e = 61 then (k.entry 61).names 1 && !(k.queued 1).isEmpty
  else if e = 62 then (k.entry 62).names 2 && (!k.arms.isEmpty || !(k.queued 2).isEmpty)
  else if e = 63 then (k.entry 63).names 3 && !(k.queued 3).isEmpty
  else true

/-- Candidate entries of a core (R116). -/
def State.candidates (s : State) (core : Nat) : List Nat :=
  let k := s.core core
  (List.range 64).filter fun e =>
    let ent := k.entry e
    ent.en && ent.pend && k.hasMessage e && s.prodFits core ent

/-- The class by which an entry is chosen (R117, R119, R120). -/
def State.selClass (s : State) (core : Nat) (e : Entry) : Nat :=
  let c := s.baseClass core e - b2n e.lift
  match s.inh core with
  | some i => Nat.min c i
  | none => c

/-- How far a key channel stands after LASTCH in the cyclic order (R117). -/
def Core.turn (k : Core) (e : Entry) : Nat := (e.key + 127 - k.lastch % 64) % 64

/-- The entry chosen of the candidates: the least class, then the cyclic order, then the lower entry (R116, R117). -/
def State.choose (s : State) (core : Nat) (cand : List Nat) : Option Nat :=
  let k := s.core core
  let rank (e : Nat) : Nat := s.selClass core (k.entry e) * 64 + k.turn (k.entry e)
  cand.foldl
    (fun b e =>
      match b with
      | none => some e
      | some x => if rank e < rank x then some e else some x)
    none

/-- The core looks for a firing to start: it runs none, and has not looked in this cycle. -/
def State.selects (s : State) (core : Nat) : Bool :=
  let k := s.core core
  k.status = .idle && k.region.isSome && !k.switching && !k.frozen && k.tried ≤ s.cycle

/-- SELECTOR (R117): A core without a running firing chooses a candidate entry and starts a firing. -/
def execSelector (core : Nat) (s : State) : Next :=
  event
    (if !s.selects core then none
     else
       match s.choose core (s.candidates core) with
       | some e => some (s.startFiring core e s.cycle ((s.core core).consume ((s.core core).entry e)))
       | none => some (s.modCore core fun k =>
           { k with tried := s.cycle + 1, stealing := k.stealing || (k.entry 62).en }))

/-! ### Stealing (R131) -/

/-- `n` cores from `base`, in the order that starts after `core` and wraps round. -/
def ringFrom (base n core : Nat) : List Nat := (List.range (n - 1)).map fun i => base + (core - base + 1 + i) % n

/-- The cores at which a thief looks, in order: its quad, then the rest of its span. -/
def victims (core : Nat) : List Nat :=
  ringFrom (core / 32 * 32) 32 core ++ (ringFrom (core / 128 * 128) 128 core).filter fun v => v / 32 ≠ core / 32

/-- The oldest arm in a deque is of the thief's region. -/
def Core.stealableArm (k : Core) (region : Option Nat) : Option Arm :=
  match k.arms.getLast? with
  | some a => if region = some a.region then some a else none
  | none => none

/-- A steal attempt ends: the oldest arm of the first core that has one is taken and its firing starts in the next cycle, or
nothing is found. The slots of PROD must be free, as for any start (R32) (DEDUCED, log 37). -/
def execStealAttempt (core : Nat) (s : State) : Next :=
  let k := s.core core
  event
    (if !k.stealing || k.status ≠ .idle then none
     else
       let t := s.modCore core fun k => { k with stealing := false }
       if k.switching || k.frozen then some t
       else match (victims core).find? fun v => ((s.core v).stealableArm k.region).isSome with
       | none => some t
       | some v =>
         match (s.core v).stealableArm k.region with
         | none => some t
         | some arm =>
           if !s.prodFits core (k.entry 62) then some t
           else
             let t := t.modCore v fun x => ({ x.setCount 2 (x.count 2 - 1) with arms := x.arms.dropLast }).repend 2 s.cycle
             some (t.startFiring core 62 (s.cycle + 1) ⟨t.core core, [1, 0, 0, 0], [], some arm, none⟩))

/-! ### Aging and spilled arms -/

/-- AGE (R118). -/
def Core.age (k : Core) : Nat := bitsOf k.sched.toNat 23 0

/-- LIFT is set when the wait timer stands at AGE (R119). -/
def execAgingLift (core entry : Nat) (s : State) : Next :=
  let k := s.core core
  let e := k.entry entry
  event
    (if e.en && e.pend && !e.lift && k.age ≠ 0 && e.since + k.age ≤ s.cycle + 1 then
       some (s.modCore core fun k => k.setEntry entry { e with lift := true })
     else none)

/-- The most recently spilled arm returns to the bottom of a deque that has room (R130). -/
def execArmUnspill (core : Nat) (s : State) : Next :=
  let k := s.core core
  event
    (match k.armList, k.region.bind s.region with
     | off :: rest, some r =>
       if k.arms.length < (k.entry 62).depthOf then
         let (hdr, pay) := s.readRecord r off
         let arm : Arm := ⟨hdr, pay, k.region.getD 0⟩
         let t := s.modCore core fun k => { k with arms := k.arms ++ [arm], armList := s.afterHead r off rest }
         let t := (t.noteReads (s.spillKeys r (recordOffs off ++ s.afterReads r off rest))).releaseRecord r off
         some (t.spillReport core r s (recordOffs off ++ [0, 8] ++ s.afterReads r off rest))
       else none
     | _, _ => none)

end Sys2Proof.Machine
end

