-- ==== Sys2Proof/Machine/TrapInstr.lean ====
section
/-! DEFINITION. The trap instructions (R400–R410): TRAP, TRET, BRK, HALT, the supervisor's window and CKILL. -/

namespace Sys2Proof.Machine

/-- TRAP (R401). -/
def execTrap (lit : Option Word) (a : Reg) (n : BitVec 6) (s : State) : Next :=
  deliver 1 0 (.trap lit a n) s (s.drained (.trap .trapInstr (0x0400 + n.toNat) (s.me.g a)))

/-- TRET (R402). -/
def execTret (lit : Option Word) (s : State) : Next :=
  deliver 1 0 (.tret lit) s
    (if s.me.tlevel = 0 then .illegal 0x0107 0 else s.drained (.core s Core.tret))

/-- BRK (R403). -/
def execBrk (lit : Option Word) (n : BitVec 6) (s : State) : Next :=
  deliver 1 0 (.brk lit n) s (s.drained (.ok (s.haltNow s.cur 0x0201 1 (n.setWidth 64) s.me.fetched)))
/-- HALT (R403). -/
def execHalt (lit : Option Word) (a : Reg) (s : State) : Next :=
  deliver 1 0 (.halt lit a) s (s.drained (.ok (s.haltNow s.cur 0x0202 1 (s.me.g a) s.me.fetched)))

/-! ### The window (R405–R408) -/

/-- Core and index that gb names (R405). -/
def winCore (gb : Dword) : Nat := bitsOf gb.toNat 12 0
def winIndex (gb : Dword) : Nat := bitsOf gb.toNat 31 16

/-- gb breaks its layout, or names a core of a region that core `s.cur` does not supervise. -/
def State.winBad (s : State) (gb : Dword) (indexed : Bool) : Bool :=
  gb.toNat / 2 ^ 32 ≠ 0 || bitsOf gb.toNat 15 13 ≠ 0 || (!indexed && winIndex gb ≠ 0)
    || (match (s.core (winCore gb)).region.bind s.region with
      | some r => r.supervisor ≠ s.cur
      | none => false)

def Core.isHalted (k : Core) : Bool := match k.status with
  | .halted _ => true
  | _ => false

/-- Pending marks of the `g` registers, and of the `v` and `p` registers (R406). -/
def Core.pendMarks (k : Core) : Nat × Nat :=
  let has (d : Dest) : Bool := k.pend.any (·.hasDest [d])
  let mask (n : Nat) (f : Nat → Bool) : Nat := (List.range n).foldl (fun m i => m + b2n (f i) * 2 ^ i) 0
  (mask 32 fun i => has (.g (BitVec.ofNat 5 i)),
    mask 16 (fun i => has (.v (BitVec.ofNat 5 i))) + 2 ^ 16 * mask 8 fun i => has (.p (BitVec.ofNat 3 i)))

/-- HSTAT (R406). -/
def Core.hstat (k : Core) : Nat :=
  (match k.status with
   | .halted c => c % 0x1_0000
   | _ => 0) * 2 ^ 48 + k.region.getD 0 % 0x1_0000 * 2 ^ 32 + k.tlevel

/-- Doubleword `j` of a number. -/
def dwAt (n j : Nat) : Dword := dw (n / 2 ^ (64 * j) % 2 ^ 64)

/-- The value at an index of the window of core `t` (R406). -/
def State.winRead (s : State) (t x : Nat) : Dword :=
  let k := s.core t
  if x < 0x20 then k.g (BitVec.ofNat 5 x)
  else if x = 0x20 then k.pc
  else if x = 0x21 then dw k.hstat
  else if x = 0x22 then dw k.pendMarks.1
  else if x = 0x23 then dw k.pendMarks.2
  else if 0x100 ≤ x && x < 0x1A0 then s.sysRead t (x - 0x100)
  else if 0x1000 ≤ x && x < 0x1800 then
    (if x % 128 < k.vl / 2 then dwAt (k.v (BitVec.ofNat 5 ((x - 0x1000) / 128))).toNat (x % 128) else 0)
  else if 0x1800 ≤ x && x < 0x1880 then
    (if x % 16 < (k.vl + 15) / 16 then dwAt (k.p (BitVec.ofNat 3 ((x - 0x1800) / 16))).toNat (x % 16) else 0)
  else if 0x2000 ≤ x && x < 0x2400 then
    dw ((vget 0 k.mq.shown ((x - 0x2000) / 256)).toNat / 2 ^ (32 * (x % 256)) % 2 ^ 32)
  else if 0x2400 ≤ x && x < 0x2408 then s.streamStat t (x - 0x2400)
  else if x = 0x2410 then k.copyStat
  else if 0x2500 ≤ x && x < 0x2540 then
    (match k.copies[(x - 0x2500) / 4]? with
     | some q => match x % 4 with
       | 0 => q.src
       | 1 => q.dst
       | 2 => q.ctl
       | _ => q.target
     | none => 0)
  else 0

/-- The pending result of a register is cancelled (R406). -/
def Core.cancelPend (k : Core) (d : Dest) : Core :=
  { k with pend := k.pend.map fun (p : Pend) => { p with writes := p.writes.filter fun w => !w.isDest d } }

/-- A register with doubleword `j` replaced. -/
def setDwAt {w : Nat} (x : BitVec w) (j : Nat) (v : Dword) : BitVec w :=
  BitVec.ofNat w (setBits x.toNat (64 * j + 63) (64 * j) v.toNat)

/-- A write at an index of the window of core `t` (R406). -/
def State.winWrite (s : State) (t x : Nat) (v : Dword) : State :=
  let k := s.core t
  if x < 0x20 then s.modCore t fun k => (k.cancelPend (.g (BitVec.ofNat 5 x))).setG (BitVec.ofNat 5 x) v
  else if 0x100 ≤ x && x < 0x1A0 then
    (if isCellReg (x - 0x100) then s.modCell (cellOf t) fun c => c.sysWrite (x - 0x100) v
     else s.modCore t fun k => k.sysWrite (x - 0x100) v)
  else if 0x1000 ≤ x && x < 0x1800 then
    let r := BitVec.ofNat 5 ((x - 0x1000) / 128)
    (if x % 128 < k.vl / 2 then s.modCore t fun k => (k.cancelPend (.v r)).setV r (setDwAt (k.v r) (x % 128) v) else s)
  else if 0x1800 ≤ x && x < 0x1880 then
    let r := BitVec.ofNat 3 ((x - 0x1800) / 16)
    (if x % 16 < (k.vl + 15) / 16 then
       s.modCore t fun k => (k.cancelPend (.p r)).setP r (setDwAt (k.p r) (x % 16) v &&& predMask k.vl)
     else s)
  else s

/-- STOP (R408): at once, or after the words that TRET is replaying (DEDUCED, log 80). -/
def State.stopFiring (s : State) (t : Nat) : State :=
  let k := s.core t
  if k.status ≠ .running then s
  else if k.replay.isSome then s.modCore t fun k => { k with stop := true }
  else s.stopNow t

/-- The checks that the four instructions share (R405, R407): `f` acts on the target core. The reply carries `writes`
(DEDUCED, log 32). -/
def State.window (s : State) (i : Instr) (la : Nat) (gb : Dword) (indexed any : Bool) (writes : List RegWrite)
    (f : State → Nat → State) : Res :=
  let t := winCore gb
  if s.winBad gb indexed then .illegal 0x0108 gb
  else if !s.isLive (dieOfCore t) then .trap .afterIssue causeUnreach 0
  else if !any && !(s.core t).isHalted then .trap .afterIssue 0x0319 gb
  else (f s t).readPend 1 la i 0 false 1 [] none writes

/-- HWINR (R407): Reads one register of a halted firing's window. -/
def execHwinr (lit : Option Word) (d b : Reg) (c : BitVec 4) (s : State) : Next :=
  let i := Instr.hwinr lit d b c
  let gb := s.me.g b
  deliver 1 c.toNat i s (s.window i c.toNat gb true false [.g d (s.winRead (winCore gb) (winIndex gb))] fun s _ => s)

/-- HWINW (R407): Writes one register of a halted firing's window, or stops a running firing via STOP. -/
def execHwinw (lit : Option Word) (a b : Reg) (s : State) : Next :=
  let gb := s.me.g b
  let x := winIndex gb
  deliver 1 0 (.hwinw lit a b) s
    (s.window (.hwinw lit a b) 0 gb true (x = 0x24) [] fun s t => if x = 0x24 then s.stopFiring t else s.winWrite t x (s.me.g a))

/-- HRESUME (R409). -/
def execHresume (lit : Option Word) (a b : Reg) (s : State) : Next :=
  let ga := s.me.g a
  let gb := s.me.g b
  deliver 1 0 (.hresume lit a b) s
    (if !s.winBad gb false && s.isLive (dieOfCore (winCore gb)) && ga.toNat % 8 ≠ 0 then .trap .afterIssue 0x0307 ga
     else s.window (.hresume lit a b) 0 gb false false [] fun s t => s.modCore t fun k =>
       { k with status := .running, pc := ga, npc := ga, tried := s.cycle + 1, fir := { k.fir with wdFrom := s.cycle } })

/-- CKILL (R410). -/
def execCkill (lit : Option Word) (b : Reg) (r : BitVec 1) (s : State) : Next :=
  let gb := s.me.g b
  deliver 1 0 (.ckill lit b r) s
    (s.window (.ckill lit b r) 0 gb false false [] fun s t => s.endFiring t (if r = 1 then .back else .done))

end Sys2Proof.Machine
end

