-- ==== Sys2Proof/Machine/Vector.lean ====
section
/-! DEFINITION. The vector and predicate instructions (R169–R187). An operand may be a stream register, popped once by
the word (R102, R170); elements that are not active keep their old values and raise no flag (R172). -/

namespace Sys2Proof.Machine

/-! ### Element types and shared forms -/

/-- Bytes of an element type VT (R171). -/
def vtBytes (t : BitVec 4) : Nat :=
  if t.toNat < 8 then 2 ^ (t.toNat % 4) else if t.toNat < 10 then 2 else if t.toNat = 10 then 4 else 8
/-- The type is a signed integer. -/
def vtSigned (t : BitVec 4) : Bool := t.toNat < 4
/-- The floating-point format of VT 8 to 11. -/
def vtFmt (t : BitVec 4) : Fmt :=
  match t.toNat with
  | 8 => fp16
  | 9 => bf16
  | 10 => fp32
  | _ => fp64
/-- The elements of a register, unsigned, for `vl` lanes. -/
def elemsOf (x : VReg) (b vl : Nat) : List Nat := (List.range (elems vl b)).map (elem x b)
/-- An element as a number of its type. -/
def vtVal (t : BitVec 4) (x : Nat) : Int := if vtSigned t then (BitVec.ofNat (8 * vtBytes t) x).toInt else x
/-- An integer as an element of `b` bytes. -/
def wrapTo (b : Nat) (x : Int) : Nat := (BitVec.ofInt (8 * b) x).toNat

/-- A vector word: illegal without lanes (R169), or its vector operands read and its effect. -/
def vecOp (i : Instr) (c : BitVec 4) (codes : List Reg) (s : State) (f : State → List VReg → Res) : Next :=
  if s.me.vl = 0 then deliver 2 c.toNat i s (.illegal 0x0107 0)
  else
    match s.vread codes with
    | .error (t, r) => deliver 2 c.toNat i t r
    | .ok (t, l) => deliver 2 c.toNat i s (f t l)

/-- Elementwise effect on the active elements of `vd`: `f` takes the old element and the two operands'. -/
def elementwise (i : Instr) (d a b : Reg) (p : BitVec 3) (c : BitVec 4) (bytes lat : Nat) (fp : Bool)
    (f : Nat → Nat → Nat → Nat × FpFlags) (s : State) : Next :=
  let k := s.me
  vecOp i c [a, b, d] s fun t l =>
    let n := elems k.vl bytes
    let pr := k.p p
    let x := l.getD 0 0
    let y := l.getD 1 0
    let old := l.getD 2 0
    let r := (List.range n).map fun e => if active pr bytes e then f (elem old bytes e) (elem x bytes e) (elem y bytes e) else (0, 0)
    t.result 2 c.toNat i lat [.v d (vOfElems bytes (r.map (·.1))) (activeMask pr bytes n)]
      (r.foldl (fun fl q => fl ||| q.2) 0) fp

/-- An integer elementwise instruction: `f` on the elements as numbers of the type, modulo 2^w. -/
def intWise (i : Instr) (d a b : Reg) (p : BitVec 3) (c t : BitVec 4) (lat : Nat) (f : Int → Int → Int → Int) (s : State) : Next :=
  elementwise i d a b p c (vtBytes t) lat false
    (fun o x y => (wrapTo (vtBytes t) (f (vtVal t o) (vtVal t x) (vtVal t y)), 0)) s
/-- A floating-point elementwise instruction under FRM (R172). -/
def fpWise (i : Instr) (d a b : Reg) (p : BitVec 3) (c t : BitVec 4) (lat : Nat)
    (f : Fmt → Mode → Nat → Nat → Nat → Nat × FpFlags) (s : State) : Next :=
  elementwise i d a b p c (vtBytes t) lat true (fun o x y => f (vtFmt t) s.me.mode o x y) s
/-- Cycles of the vector floating-point instructions (R187). -/
def vfLat (t : BitVec 4) : Nat := if t = 11 then 8 else 4
def vdivLat (t : BitVec 4) : Nat := if t = 11 then 32 else 16

/-! ### Integer elementwise -/

/-- VADD (R172): Elementwise integer add. -/
def execVadd (d a b : Reg) (p : BitVec 3) (c t : BitVec 4) (s : State) : Next :=
  intWise (.vadd d a b p c t) d a b p c t 2 (fun _ x y => x + y) s
/-- VSUB (R172): Elementwise integer subtract. -/
def execVsub (d a b : Reg) (p : BitVec 3) (c t : BitVec 4) (s : State) : Next :=
  intWise (.vsub d a b p c t) d a b p c t 2 (fun _ x y => x - y) s
/-- VMUL (R172): Elementwise integer multiply. -/
def execVmul (d a b : Reg) (p : BitVec 3) (c t : BitVec 4) (s : State) : Next :=
  intWise (.vmul d a b p c t) d a b p c t 4 (fun _ x y => x * y) s
/-- VMADD (R172): Elementwise integer multiply-add into vd. -/
def execVmadd (d a b : Reg) (p : BitVec 3) (c t : BitVec 4) (s : State) : Next :=
  intWise (.vmadd d a b p c t) d a b p c t 4 (fun o x y => o + x * y) s
/-- VMIN (R172): Elementwise integer minimum. -/
def execVmin (d a b : Reg) (p : BitVec 3) (c t : BitVec 4) (s : State) : Next :=
  intWise (.vmin d a b p c t) d a b p c t 2 (fun _ x y => if x ≤ y then x else y) s
/-- VMAX (R172): Elementwise integer maximum. -/
def execVmax (d a b : Reg) (p : BitVec 3) (c t : BitVec 4) (s : State) : Next :=
  intWise (.vmax d a b p c t) d a b p c t 2 (fun _ x y => if x ≤ y then y else x) s
/-- VAND, VOR and VXOR work per byte. -/
def execVand (d a b : Reg) (p : BitVec 3) (c : BitVec 4) (s : State) : Next :=
  elementwise (.vand d a b p c) d a b p c 1 2 false (fun _ x y => (Nat.land x y, 0)) s
/-- VOR (R172): Bytewise OR. -/
def execVor (d a b : Reg) (p : BitVec 3) (c : BitVec 4) (s : State) : Next :=
  elementwise (.vor d a b p c) d a b p c 1 2 false (fun _ x y => (Nat.lor x y, 0)) s
/-- VXOR (R172): Bytewise XOR. -/
def execVxor (d a b : Reg) (p : BitVec 3) (c : BitVec 4) (s : State) : Next :=
  elementwise (.vxor d a b p c) d a b p c 1 2 false (fun _ x y => (Nat.xor x y, 0)) s
/-- The count is read unsigned, modulo w. -/
def shiftCount (b y : Nat) : Nat := y % (8 * b)
/-- VSHL (R172): Elementwise shift left. -/
def execVshl (d a b : Reg) (p : BitVec 3) (c t : BitVec 4) (s : State) : Next :=
  elementwise (.vshl d a b p c t) d a b p c (vtBytes t) 2 false
    (fun _ x y => (x * 2 ^ shiftCount (vtBytes t) y % 2 ^ (8 * vtBytes t), 0)) s
/-- VSHR (R172): Elementwise logical shift right. -/
def execVshr (d a b : Reg) (p : BitVec 3) (c t : BitVec 4) (s : State) : Next :=
  elementwise (.vshr d a b p c t) d a b p c (vtBytes t) 2 false (fun _ x y => (x / 2 ^ shiftCount (vtBytes t) y, 0)) s
/-- VSAR (R172): Elementwise arithmetic shift right. -/
def execVsar (d a b : Reg) (p : BitVec 3) (c t : BitVec 4) (s : State) : Next :=
  elementwise (.vsar d a b p c t) d a b p c (vtBytes t) 2 false
    (fun _ x y => (((BitVec.ofNat (8 * vtBytes t) x).sshiftRight (shiftCount (vtBytes t) y)).toNat, 0)) s
/-- VABS (R172): Elementwise absolute value. -/
def execVabs (d a : Reg) (p : BitVec 3) (c t : BitVec 4) (s : State) : Next :=
  intWise (.vabs d a p c t) d a a p c t 2 (fun _ x _ => if x < 0 then -x else x) s
/-- VNEG (R172): Elementwise negation. -/
def execVneg (d a : Reg) (p : BitVec 3) (c t : BitVec 4) (s : State) : Next :=
  intWise (.vneg d a p c t) d a a p c t 2 (fun _ x _ => -x) s
/-- The sum clamped to the range of T. -/
def execVsadd (d a b : Reg) (p : BitVec 3) (c t : BitVec 4) (s : State) : Next :=
  let w := 8 * vtBytes t
  let (lo, hi) : Int × Int := if vtSigned t then (-2 ^ (w - 1), 2 ^ (w - 1) - 1) else (0, 2 ^ w - 1)
  intWise (.vsadd d a b p c t) d a b p c t 2 (fun _ x y => clampInt lo hi (x + y)) s

/-! ### Floating point -/

/-- VFADD (R172): Elementwise floating-point add. -/
def execVfadd (d a b : Reg) (p : BitVec 3) (c t : BitVec 4) (s : State) : Next :=
  fpWise (.vfadd d a b p c t) d a b p c t (vfLat t) (fun f m _ x y => f.add m x y) s
/-- VFSUB (R172): Elementwise floating-point subtract. -/
def execVfsub (d a b : Reg) (p : BitVec 3) (c t : BitVec 4) (s : State) : Next :=
  fpWise (.vfsub d a b p c t) d a b p c t (vfLat t) (fun f m _ x y => f.sub m x y) s
/-- VFMUL (R172): Elementwise floating-point multiply. -/
def execVfmul (d a b : Reg) (p : BitVec 3) (c t : BitVec 4) (s : State) : Next :=
  fpWise (.vfmul d a b p c t) d a b p c t (vfLat t) (fun f m _ x y => f.mul m x y) s
/-- The addend is the old element of `vd`. -/
def execVfma (d a b : Reg) (p : BitVec 3) (c t : BitVec 4) (s : State) : Next :=
  fpWise (.vfma d a b p c t) d a b p c t (vfLat t) (fun f m o x y => f.fma m x y o) s
/-- VFDIV (R172): Elementwise floating-point divide. -/
def execVfdiv (d a b : Reg) (p : BitVec 3) (c t : BitVec 4) (s : State) : Next :=
  fpWise (.vfdiv d a b p c t) d a b p c t (vdivLat t) (fun f m _ x y => f.div m x y) s
/-- VFSQRT (R172): Elementwise floating-point square root. -/
def execVfsqrt (d a : Reg) (p : BitVec 3) (c t : BitVec 4) (s : State) : Next :=
  fpWise (.vfsqrt d a p c t) d a a p c t (vdivLat t) (fun f m _ x _ => f.sqrt m x) s
/-- VFMIN (R172): Elementwise minimumNumber. -/
def execVfmin (d a b : Reg) (p : BitVec 3) (c t : BitVec 4) (s : State) : Next :=
  fpWise (.vfmin d a b p c t) d a b p c t (vfLat t) (fun f _ _ x y => f.minmax false x y) s
/-- VFMAX (R172): Elementwise maximumNumber. -/
def execVfmax (d a b : Reg) (p : BitVec 3) (c t : BitVec 4) (s : State) : Next :=
  fpWise (.vfmax d a b p c t) d a b p c t (vfLat t) (fun f _ _ x y => f.minmax true x y) s

/-! ### Dot products and reductions -/

/-- One lane of VDOT4's floating-point form: rounded once, with NV for a signalling operand, a product of ∞ and 0, or
opposite infinities (R64, R175). -/
def dot4 (f : Fmt) (mode : Mode) (x y : List Nat) (acc : Nat) : Nat × FpFlags :=
  let ab := (x.zip y).map fun (p, q) => (f.decode p, f.decode q)
  let o := f32 acc
  let sum := exactDot ab o
  let ops := o :: ab.flatMap fun (p, q) => [p, q]
  let invalid : Bool := ops.any FV.isSig || ab.any (fun (p, q) => (p.mul q).2) || (sum.isNan && !ops.any FV.isNan)
  let (r, fl) := fp32.round mode sum
  (r, fl ||| flagIf invalid flagNV)

/-- VDOT4 (R175) (DEDUCED, log 26). -/
def execVdot4 (d a b : Reg) (p : BitVec 3) (c t : BitVec 4) (s : State) : Next :=
  let i := Instr.vdot4 d a b p c t
  let k := s.me
  let pr := k.p p
  let fp : Bool := t = 8 || t = 9
  vecOp i c [a, b, d] s fun u l =>
    let x := l.getD 0 0
    let y := l.getD 1 0
    let old := l.getD 2 0
    let n := if fp then k.vl / 2 else k.vl
    let four (v : VReg) (e : Nat) : List Nat := (List.range 4).map fun j => elem v (vtBytes t) (4 * e + j)
    let lane (e : Nat) : Nat × FpFlags :=
      if !active pr 4 e then (0, 0)
      else if fp then dot4 (vtFmt t) k.mode (four x e) (four y e) (elem old 4 e)
      else
        let sum := ((four x e).zip (four y e)).foldl (fun (m : Int) (q, r) => m + vtVal t q * vtVal t r) (elem old 4 e : Int)
        (wrapTo 4 sum, 0)
    let r := (List.range n).map lane
    u.result 2 c.toNat i 5 [.v d (vOfElems 4 (r.map (·.1))) (activeMask pr 4 n)] (r.foldl (fun fl q => fl ||| q.2) 0) fp

/-- An FP element widened exactly to FP32: a signalling NaN stays one, so that its node raises NV (R176) (DEDUCED, log 27).
-/
def widen (f : Fmt) (x : Nat) : Nat := if (f.decode x).isSig then 0x7F80_0001 else (f.convert fp32 .rne x).1

/-- A tree of sums under FRM, with the OR of its nodes' flags (R63, R176). -/
def treeUp (f : Fmt) (mode : Mode) : List Nat → List Nat × FpFlags
  | a :: b :: t =>
    let (r, fl) := f.add mode a b
    let (l, gl) := treeUp f mode t
    (r :: l, fl ||| gl)
  | l => (l, 0)
def treeSum (f : Fmt) (mode : Mode) (l : List Nat) : Nat × FpFlags :=
  let k := ceilLog l.length
  let (r, fl) := (List.range k).foldl
    (fun (x : List Nat × FpFlags) _ => let (m, gl) := treeUp f mode x.1; (m, x.2 ||| gl))
    (l ++ List.replicate (2 ^ k - l.length) 0, 0)
  (r.headD 0, fl)

/-- VRED (R176). -/
def execVred (d a : Reg) (p : BitVec 3) (c t : BitVec 4) (s : State) : Next :=
  let i := Instr.vred d a p c t
  let k := s.me
  let pr := k.p p
  let b := vtBytes t
  let n := elems k.vl b
  let lat := 6 + ceilLog n
  vecOp i c [a] s fun u l =>
    let xs := ((elemsOf (l.getD 0 0) b k.vl).zipIdx).map fun (x, e) => if active pr b e then x else 0
    if t.toNat < 8 then
      u.result 2 c.toNat i lat [.g d (BitVec.ofInt 64 (xs.foldl (fun (m : Int) x => m + vtVal t x) 0))]
    else if t = 11 then
      let (r, fl) := treeSum fp64 k.mode xs
      u.result 2 c.toNat i lat [.g d (dw r)] fl true
    else
      let (r, fl) := treeSum fp32 k.mode (xs.map fun x => if t = 10 then x else widen (vtFmt t) x)
      u.result 2 c.toNat i lat [.g d (dw r)] fl true

/-! ### Compare, select, move -/

/-- The relation R of VCMP on two elements, with its flags (R177). -/
def vcmpRel (t : BitVec 4) (r : Nat) (x y : Nat) : Bool × FpFlags :=
  if t.toNat < 8 then
    let u := vtVal t x
    let v := vtVal t y
    (match r with
     | 0 => u == v
     | 1 => u != v
     | 2 => u < v
     | _ => u ≤ v, 0)
  else
    let f := vtFmt t
    match r with
    | 0 => f.cmpEq x y
    | 1 => let (q, fl) := f.cmpEq x y; (!q, fl)
    | 2 => f.cmpLt x y
    | _ => f.cmpLe x y

/-- VCMP (R177): VD holds the predicate in bits 2:0 and the relation in bits 4:3. -/
def execVcmp (d a b : Reg) (p : BitVec 3) (c t : BitVec 4) (s : State) : Next :=
  let i := Instr.vcmp d a b p c t
  let k := s.me
  let pr := k.p p
  let pd : BitVec 3 := d.extractLsb' 0 3
  let w := vtBytes t
  let n := elems k.vl w
  vecOp i c [a, b] s fun u l =>
    let x := l.getD 0 0
    let y := l.getD 1 0
    let r := (List.range n).map fun e =>
      if active pr w e then vcmpRel t (d.toNat / 8) (elem x w e) (elem y w e) else (false, 0)
    let bits (on : List Bool) : PReg := BitVec.ofNat 1024 (ofFlags w on * (2 ^ w - 1))
    let mask := bits ((List.range n).map (active pr w))
    u.result 2 c.toNat i 2 [.p pd ((k.p pd &&& ~~~mask) ||| bits (r.map (·.1)))]
      (r.foldl (fun fl q => fl ||| q.2) 0) (t.toNat ≥ 8)

/-- VSEL: every element is written. -/
def execVsel (d a b : Reg) (p : BitVec 3) (c t : BitVec 4) (s : State) : Next :=
  let i := Instr.vsel d a b p c t
  let k := s.me
  let m := activeMask (k.p p) (vtBytes t) (elems k.vl (vtBytes t))
  vecOp i c [a, b] s fun u l =>
    u.result 2 c.toNat i 2 [.v d ((l.getD 0 0 &&& m) ||| (l.getD 1 0 &&& ~~~m)) (laneMask k.vl)]

/-- VPERM (R178): an index at or above NE gives 0. -/
def execVperm (d a b : Reg) (p : BitVec 3) (c t : BitVec 4) (s : State) : Next :=
  let i := Instr.vperm d a b p c t
  let k := s.me
  let w := vtBytes t
  let n := elems k.vl w
  vecOp i c [a, b] s fun u l =>
    let xs := elemsOf (l.getD 0 0) w k.vl
    u.result 2 c.toNat i 4 [.v d (vOfElems w ((elemsOf (l.getD 1 0) w k.vl).map fun j => xs.getD j 0)) (activeMask (k.p p) w n)]

/-- VBCAST: element 0 to every active element. -/
def execVbcast (d a : Reg) (p : BitVec 3) (c t : BitVec 4) (s : State) : Next :=
  let i := Instr.vbcast d a p c t
  let k := s.me
  let w := vtBytes t
  let n := elems k.vl w
  vecOp i c [a] s fun u l =>
    u.result 2 c.toNat i 2 [.v d (vOfElems w (List.replicate n (elem (l.getD 0 0) w 0))) (activeMask (k.p p) w n)]

/-- VMOVS (R178). -/
def execVmovs (d a : Reg) (c t : BitVec 4) (s : State) : Next :=
  let i := Instr.vmovs d a c t
  vecOp i c [a] s fun u l =>
    let x := elem (l.getD 0 0) (vtBytes t) 0
    u.result 2 c.toNat i 4 [.g d (if t.toNat < 8 then BitVec.ofInt 64 (vtVal t x) else dw x)]

/-- VINSS (R178): element k, where k is lane 0 of `vb`. -/
def execVinss (d a b : Reg) (p : BitVec 3) (c t : BitVec 4) (s : State) : Next :=
  let i := Instr.vinss d a b p c t
  let k := s.me
  let w := vtBytes t
  vecOp i c [a, b] s fun u l =>
    let e := elem (l.getD 1 0) 4 0
    let m : VReg := if e < elems k.vl w && active (k.p p) w e then onesBelow 8192 (8 * w) <<< (8 * w * e) else 0
    u.result 2 c.toNat i 2 [.v d (BitVec.ofNat 8192 (elem (l.getD 0 0) w 0) <<< (8 * w * e)) m]

/-! ### Conversion and quantising -/

/-- Bytes of the source and the destination elements of VCVT's kind (R179). -/
def vcvtBytes : Nat → Nat × Nat
  | 0 => (2, 4)
  | 1 => (2, 4)
  | 2 => (4, 2)
  | 3 => (4, 2)
  | 4 => (4, 8)
  | 5 => (8, 4)
  | 12 => (1, 4)
  | 13 => (1, 4)
  | 14 => (4, 1)
  | 15 => (4, 1)
  | _ => (4, 4)

/-- One conversion (R179). -/
def vcvtElem (kind : Nat) (mode : Mode) (x : Nat) : Nat × FpFlags :=
  let i32 : Int := (BitVec.ofNat 32 x).toInt
  let toInt (m : Mode) (lo hi : Int) : Nat × FpFlags := let (v, fl) := (f32 x).toInt m lo hi; (wrapTo 4 v, fl)
  match kind with
  | 0 => fp16.convert fp32 mode x
  | 1 => bf16.convert fp32 mode x
  | 2 => fp32.convert fp16 mode x
  | 3 => fp32.convert bf16 mode x
  | 4 => fp32.convert fp64 mode x
  | 5 => fp64.convert fp32 mode x
  | 6 => fp32.round mode (FV.ofInt i32)
  | 7 => fp32.round mode (FV.ofInt x)
  | 8 => toInt mode (-2 ^ 31) (2 ^ 31 - 1)
  | 9 => toInt .rtz (-2 ^ 31) (2 ^ 31 - 1)
  | 10 => toInt mode 0 (2 ^ 32 - 1)
  | 12 => (wrapTo 4 (BitVec.ofNat 8 x).toInt, 0)
  | 13 => (x, 0)
  | 14 => (wrapTo 1 (clampInt (-128) 127 i32), 0)
  | _ => (wrapTo 1 (clampInt 0 255 i32), 0)

/-- VCVT (R179): activity is decided by the destination element's first byte. -/
def execVcvt (d a : Reg) (p : BitVec 3) (c t : BitVec 4) (s : State) : Next :=
  let i := Instr.vcvt d a p c t
  let k := s.me
  let pr := k.p p
  let (sb, db) := vcvtBytes t.toNat
  let n := Nat.min (elems k.vl sb) (elems k.vl db)
  vecOp i c [a] s fun u l =>
    let r := (List.range n).map fun e => if active pr db e then vcvtElem t.toNat k.mode (elem (l.getD 0 0) sb e) else (0, 0)
    u.result 2 c.toNat i 4 [.v d (vOfElems db (r.map (·.1))) (activeMask pr db n)]
      (r.foldl (fun fl q => fl ||| q.2) 0) (t.toNat ≤ 10)

/-- Group size and bits of a code that Q names (R180). -/
def qGroup (t : BitVec 4) : Nat := 32 * 2 ^ (t.toNat % 4)
def qBits (t : BitVec 4) : Nat := if t.toNat / 4 % 2 = 1 then 4 else 8
/-- The groups of a list. `fuel` bounds them. -/
def chunks {α : Type} (g : Nat) : Nat → List α → List (List α)
  | 0, _ => []
  | n + 1, l => if l.isEmpty then [] else l.take g :: chunks g n (l.drop g)

/-- A vector register's codes of `w` bits, the lowest first. -/
def codesNat (w : Nat) : List Nat → Nat
  | [] => 0
  | x :: t => x % 2 ^ w + 2 ^ w * codesNat w t

/-- VQNT's layout in `vd`: codes, records at byte 2·VL + 4j, the saturation count at byte 3·VL (R180). -/
def vqnt (vl g w : Nat) (xs : List Nat) : Nat :=
  let gs := (chunks g xs.length xs).map fun x => quantGroup x (2 ^ w - 1)
  let recs := gs.map fun (_, s, z, _) => z * 2 ^ 16 + s
  codesNat w (gs.flatMap fun (q, _, _, _) => q) + ofElems 4 recs * 2 ^ (16 * vl)
    + (gs.foldl (fun n (_, _, _, k) => n + k) 0) % 2 ^ 32 * 2 ^ (24 * vl)

/-- VQNT (R180). -/
def execVqnt (d a : Reg) (c t : BitVec 4) (s : State) : Next :=
  let i := Instr.vqnt d a c t
  let vl := s.me.vl
  if vl ≠ 0 && vl % qGroup t ≠ 0 then deliver 2 c.toNat i s (.illegal 0x0108 (dw vl))
  else vecOp i c [a] s fun u l =>
    u.result 2 c.toNat i 12 [.v d (BitVec.ofNat 8192 (vqnt vl (qGroup t) (qBits t) (elemsOf (l.getD 0 0) 4 vl))) (laneMask vl)]

/-- VDQN (R180). -/
def execVdqn (d a : Reg) (c t : BitVec 4) (s : State) : Next :=
  let i := Instr.vdqn d a c t
  let vl := s.me.vl
  let w := qBits t
  if vl ≠ 0 && vl % qGroup t ≠ 0 then deliver 2 c.toNat i s (.illegal 0x0108 (dw vl))
  else vecOp i c [a] s fun u l =>
    let x := (l.getD 0 0).toNat
    let val (e : Nat) : Nat :=
      let r := x / 2 ^ (16 * vl + 32 * (e / qGroup t)) % 2 ^ 32
      dequant (x / 2 ^ (w * e) % 2 ^ w) (r % 2 ^ 16) (r / 2 ^ 16 % 2 ^ w)
    u.result 2 c.toNat i 6 [.v d (vOfElems 4 ((List.range vl).map val)) (laneMask vl)]

/-! ### Top-k, compaction, hashing, byte compare -/

/-- The order of VTOPK: whether key x stands before key y (R181). -/
def topBefore (t : BitVec 4) (x y : Nat × Nat) : Bool :=
  if t.toNat < 8 then
    let u := vtVal t x.1
    let v := vtVal t y.1
    v < u || (u = v && x.2 < y.2)
  else
    let u := (vtFmt t).decode x.1
    let v := (vtFmt t).decode y.1
    if u.isNan || v.isNan then (!u.isNan && v.isNan) || (u.isNan && v.isNan && x.2 < y.2)
    else v.cmp u < 0 || (v.cmp u = 0 && x.2 < y.2)

/-- A key put in its place. -/
def topInsert (t : BitVec 4) (x : Nat × Nat) : List (Nat × Nat) → List (Nat × Nat)
  | [] => [x]
  | y :: l => if topBefore t y x then y :: topInsert t x l else x :: y :: l

/-- VTOPK (R181): the indices (b + e) mod 2^32 of the active elements, sorted. Ties are broken by the element (DEDUCED, log
28). -/
def execVtopk (d a b : Reg) (p : BitVec 3) (c t : BitVec 4) (s : State) : Next :=
  let i := Instr.vtopk d a b p c t
  let k := s.me
  let w := vtBytes t
  let n := elems k.vl w
  vecOp i c [a, b] s fun u l =>
    let base := elem (l.getD 1 0) 4 0
    let keys := ((elemsOf (l.getD 0 0) w k.vl).zipIdx).filterMap fun (x, e) =>
      if active (k.p p) w e then some (x, (base + e) % 2 ^ 32) else none
    let sorted := keys.foldl (fun m x => topInsert t x m) []
    u.result 2 c.toNat i (8 + n / 16)
      [.v d (vOfElems 4 ((List.range k.vl).map fun j => ((sorted[j]?).map (·.2)).getD 0xFFFF_FFFF)) (laneMask k.vl)]

/-- VCMPR's packing (R182): descriptors, entries, and whether a row was left for the escape path. -/
def vcmprPack (t : BitVec 4) (xs : List Nat) (cap : Nat) : List Nat × List Nat × Bool :=
  let nonzero (x : Nat) : Bool := if t.toNat < 8 then x ≠ 0 else !((vtFmt t).decode x).isZero
  (chunks 16 xs.length xs).foldl
    (fun (ds, es, ovf) row =>
      let hits := (row.zipIdx).filter fun (x, _) => nonzero x
      if !ovf && hits.length ≤ 15 && es.length + hits.length ≤ cap then
        (ds ++ [es.length * 256 + hits.length], es ++ hits.map fun (x, j) => x * 2 ^ 16 + j, false)
      else (ds ++ [0xFF0F], es, true))
    ([], [], false)

/-- VCMPR (R182). -/
def execVcmpr (d a : Reg) (p : BitVec 3) (c t : BitVec 4) (s : State) : Next :=
  let i := Instr.vcmpr d a p c t
  let vl := s.me.vl
  let w := vtBytes t
  let rows := elems vl w / 16
  let off := (2 * rows + 3) / 4 * 4
  vecOp i c [a] s fun u l =>
    let (ds, es, ovf) := vcmprPack t (elemsOf (l.getD 0 0) w vl) ((4 * vl - off) / 4)
    let v := ofElems 2 ds + ofElems 4 es * 2 ^ (8 * off)
    u.result 2 c.toNat i 8
      (.v d (BitVec.ofNat 8192 v) (laneMask vl) :: (if p = 0 then [] else [.p p (if ovf then predMask vl else 0)]))

/-- VHASH (R184): the lane's low bytes enter the CRC. -/
def execVhash (d a : Reg) (p : BitVec 3) (c t : BitVec 4) (s : State) : Next :=
  elementwise (.vhash d a p c t) d a a p c 4 3 false
    (fun o x _ => ((List.range (t.toNat + 1)).foldl (fun st j => crcByte st (x / 256 ^ j % 256)) o, 0)) s

/-- One lane of VBCMP (R185). -/
def bcmpLane (n st x y : Nat) : Nat :=
  if bitOf st 31 then st
  else
    let pos := bitsOf st 29 0
    match (List.range n).find? fun j => x / 256 ^ j % 256 ≠ y / 256 ^ j % 256 with
    | some j => 2 ^ 31 + b2n (y / 256 ^ j % 256 < x / 256 ^ j % 256) * 2 ^ 30 + Nat.min (pos + j) (2 ^ 30 - 1)
    | none => setBits st 29 0 (Nat.min (pos + n) (2 ^ 30 - 1))

/-- VBCMP (R185). -/
def execVbcmp (d a b : Reg) (p : BitVec 3) (c t : BitVec 4) (s : State) : Next :=
  elementwise (.vbcmp d a b p c t) d a b p c 4 2 false (fun o x y => (bcmpLane (t.toNat + 1) o x y, 0)) s

/-! ### Predicates (R186) -/

/-- A predicate instruction with a predicate result. -/
def predOp (i : Instr) (d : Reg) (c : BitVec 4) (s : State) (x : PReg) : Next :=
  vecOp i c [] s fun u _ => u.result 2 c.toNat i 1 [.p (d.extractLsb' 0 3) x]
/-- A predicate by its code. -/
def Core.pcode (k : Core) (r : Reg) : PReg := k.p (r.extractLsb' 0 3)

/-- PAND (R186): Predicate AND. -/
def execPand (d a b : Reg) (c : BitVec 4) (s : State) : Next := predOp (.pand d a b c) d c s (s.me.pcode a &&& s.me.pcode b)
/-- POR (R186): Predicate OR. -/
def execPor (d a b : Reg) (c : BitVec 4) (s : State) : Next := predOp (.por d a b c) d c s (s.me.pcode a ||| s.me.pcode b)
/-- PXOR (R186): Predicate XOR. -/
def execPxor (d a b : Reg) (c : BitVec 4) (s : State) : Next := predOp (.pxor d a b c) d c s (s.me.pcode a ^^^ s.me.pcode b)
/-- PNOT (R186): Predicate NOT. -/
def execPnot (d a : Reg) (c : BitVec 4) (s : State) : Next := predOp (.pnot d a c) d c s (~~~(s.me.pcode a))
/-- PSET (R186): Sets a predicate to all ones. -/
def execPset (d : Reg) (c : BitVec 4) (s : State) : Next := predOp (.pset d c) d c s (predMask s.me.vl)
/-- PCNT: the number of one bits. -/
def execPcnt (d a : Reg) (c : BitVec 4) (s : State) : Next :=
  let i := Instr.pcnt d a c
  vecOp i c [] s fun u _ =>
    let x := s.me.pcode a &&& predMask s.me.vl
    u.result 2 c.toNat i 2 [.g d (dw ((List.range (4 * s.me.vl)).foldl (fun n j => n + b2n (x.getLsbD j)) 0))]

end Sys2Proof.Machine
end

