-- ==== Sys2Proof/Machine/Dispatch.lean ====
section
/-! DEFINITION. One arm for each instruction: a direct call of its meaning. -/

namespace Sys2Proof.Machine

open Sys2Proof

def exec (i : Instr) (s : State) : Host.Outcome State Fault Refusal :=
  match i with
  | .nopA => Sys2Proof.Machine.execNopA s
  | .endFiring lit => Sys2Proof.Machine.execEndFiring lit s
  | .endrFiring lit => Sys2Proof.Machine.execEndrFiring lit s
  | .ret lit => Sys2Proof.Machine.execRet lit s
  | .jmpi lit a => Sys2Proof.Machine.execJmpi lit a s
  | .spec lit d => Sys2Proof.Machine.execSpec lit d s
  | .scommit lit d => Sys2Proof.Machine.execScommit lit d s
  | .sabort lit => Sys2Proof.Machine.execSabort lit s
  | .selb lit a => Sys2Proof.Machine.execSelb lit a s
  | .prio lit c => Sys2Proof.Machine.execPrio lit c s
  | .safe => Sys2Proof.Machine.execSafe s
  | .safeL a b c lit => Sys2Proof.Machine.execSafeL a b c lit s
  | .idem lit => Sys2Proof.Machine.execIdem lit s
  | .beq lit a b d => Sys2Proof.Machine.execBeq lit a b d s
  | .bne lit a b d => Sys2Proof.Machine.execBne lit a b d s
  | .blt lit a b d => Sys2Proof.Machine.execBlt lit a b d s
  | .bge lit a b d => Sys2Proof.Machine.execBge lit a b d s
  | .bltu lit a b d => Sys2Proof.Machine.execBltu lit a b d s
  | .bgeu lit a b d => Sys2Proof.Machine.execBgeu lit a b d s
  | .bz lit a d => Sys2Proof.Machine.execBz lit a d s
  | .bnz lit a d => Sys2Proof.Machine.execBnz lit a d s
  | .jmp lit d => Sys2Proof.Machine.execJmp lit d s
  | .call lit d => Sys2Proof.Machine.execCall lit d s
  | .fork lit d => Sys2Proof.Machine.execFork lit d s
  | .join lit a d => Sys2Proof.Machine.execJoin lit a d s
  | .rep a x y z st => Sys2Proof.Machine.execRep a x y z st s
  | .mfs lit d c n => Sys2Proof.Machine.execMfs lit d c n s
  | .mts lit a n => Sys2Proof.Machine.execMts lit a n s
  | .lclaim lit d a c f => Sys2Proof.Machine.execLclaim lit d a c f s
  | .lrel lit a => Sys2Proof.Machine.execLrel lit a s
  | .mqwait lit a b => Sys2Proof.Machine.execMqwait lit a b s
  | .ld lit t b c ix z o => Sys2Proof.Machine.execLd lit t b c ix z o s
  | .lds lit t b c ix z o => Sys2Proof.Machine.execLds lit t b c ix z o s
  | .st lit t b c z o => Sys2Proof.Machine.execSt lit t b c z o s
  | .vld lit t b c ix o => Sys2Proof.Machine.execVld lit t b c ix o s
  | .vst lit t b c p o => Sys2Proof.Machine.execVst lit t b c p o s
  | .lda lit d b c st z => Sys2Proof.Machine.execLda lit d b c st z s
  | .stl lit a b st z => Sys2Proof.Machine.execStl lit a b st z s
  | .fence lit st k => Sys2Proof.Machine.execFence lit st k s
  | .aadd lit a b c st o z => Sys2Proof.Machine.execAadd lit a b c st o z s
  | .aswap lit a b c st o z => Sys2Proof.Machine.execAswap lit a b c st o z s
  | .acas lit a b c st o z => Sys2Proof.Machine.execAcas lit a b c st o z s
  | .amin lit a b c st o z => Sys2Proof.Machine.execAmin lit a b c st o z s
  | .amax lit a b c st o z => Sys2Proof.Machine.execAmax lit a b c st o z s
  | .aand lit a b c st o z => Sys2Proof.Machine.execAand lit a b c st o z s
  | .aor lit a b c st o z => Sys2Proof.Machine.execAor lit a b c st o z s
  | .axor lit a b c st o z => Sys2Proof.Machine.execAxor lit a b c st o z s
  | .gather d b c z ix => Sys2Proof.Machine.execGather d b c z ix s
  | .scadd a b c z ix => Sys2Proof.Machine.execScadd a b c z ix s
  | .tinv a x => Sys2Proof.Machine.execTinv a x s
  | .pref lit b => Sys2Proof.Machine.execPref lit b s
  | .sbind lit st b u k => Sys2Proof.Machine.execSbind lit st b u k s
  | .sfree lit st => Sys2Proof.Machine.execSfree lit st s
  | .sstat lit d st => Sys2Proof.Machine.execSstat lit d st s
  | .xpush lit a c => Sys2Proof.Machine.execXpush lit a c s
  | .xtry lit a d c => Sys2Proof.Machine.execXtry lit a d c s
  | .xstat lit d => Sys2Proof.Machine.execXstat lit d s
  | .send lit t a e c => Sys2Proof.Machine.execSend lit t a e c s
  | .sendv lit t st e c => Sys2Proof.Machine.execSendv lit t st e c s
  | .recv lit d e c => Sys2Proof.Machine.execRecv lit d e c s
  | .peek lit d e c => Sys2Proof.Machine.execPeek lit d e c s
  | .chen lit d a => Sys2Proof.Machine.execChen lit d a s
  | .chdis lit d a => Sys2Proof.Machine.execChdis lit d a s
  | .chpnd lit d a m => Sys2Proof.Machine.execChpnd lit d a m s
  | .waitw lit a b c st k => Sys2Proof.Machine.execWaitw lit a b c st k s
  | .armw lit a b => Sys2Proof.Machine.execArmw lit a b s
  | .depdec lit b st => Sys2Proof.Machine.execDepdec lit b st s
  | .depset lit a b st k => Sys2Proof.Machine.execDepset lit a b st k s
  | .senda lit t st e c => Sys2Proof.Machine.execSenda lit t st e c s
  | .encx lit d st e c => Sys2Proof.Machine.execEncx lit d st e c s
  | .dinst lit d a e c => Sys2Proof.Machine.execDinst lit d a e c s
  | .dstat lit d e c => Sys2Proof.Machine.execDstat lit d e c s
  | .imres lit d m e b => Sys2Proof.Machine.execImres lit d m e b s
  | .drepl lit d a e c => Sys2Proof.Machine.execDrepl lit d a e c s
  | .dsync lit d b e c => Sys2Proof.Machine.execDsync lit d b e c s
  | .holdr lit d e c => Sys2Proof.Machine.execHoldr lit d e c s
  | .migrate lit a c => Sys2Proof.Machine.execMigrate lit a c s
  | .spawn lit d a e c => Sys2Proof.Machine.execSpawn lit d a e c s
  | .ctxld lit d e c => Sys2Proof.Machine.execCtxld lit d e c s
  | .gjoin lit d a e c => Sys2Proof.Machine.execGjoin lit d a e c s
  | .gelim lit d e => Sys2Proof.Machine.execGelim lit d e s
  | .gdamp lit d e => Sys2Proof.Machine.execGdamp lit d e s
  | .gsend lit d e => Sys2Proof.Machine.execGsend lit d e s
  | .gbel lit d a e => Sys2Proof.Machine.execGbel lit d a e s
  | .barr lit a b c => Sys2Proof.Machine.execBarr lit a b c s
  | .barrInit lit a b c => Sys2Proof.Machine.execBarrInit lit a b c s
  | .barrFree lit a b c => Sys2Proof.Machine.execBarrFree lit a b c s
  | .barrDump lit a b c => Sys2Proof.Machine.execBarrDump lit a b c s
  | .bwait lit a b => Sys2Proof.Machine.execBwait lit a b s
  | .bstat lit d b c st m => Sys2Proof.Machine.execBstat lit d b c st m s
  | .ttake lit d b c => Sys2Proof.Machine.execTtake lit d b c s
  | .tsteal lit d b c m => Sys2Proof.Machine.execTsteal lit d b c m s
  | .tdone lit d b c => Sys2Proof.Machine.execTdone lit d b c s
  | .trap lit a n => Sys2Proof.Machine.execTrap lit a n s
  | .tret lit => Sys2Proof.Machine.execTret lit s
  | .brk lit n => Sys2Proof.Machine.execBrk lit n s
  | .halt lit a => Sys2Proof.Machine.execHalt lit a s
  | .hwinr lit d b c => Sys2Proof.Machine.execHwinr lit d b c s
  | .hwinw lit a b => Sys2Proof.Machine.execHwinw lit a b s
  | .hresume lit a b => Sys2Proof.Machine.execHresume lit a b s
  | .ckill lit b r => Sys2Proof.Machine.execCkill lit b r s
  | .nopB => Sys2Proof.Machine.execNopB s
  | .add d a b c w => Sys2Proof.Machine.execAdd d a b c w s
  | .sub d a b c w => Sys2Proof.Machine.execSub d a b c w s
  | .and d a b c w => Sys2Proof.Machine.execAnd d a b c w s
  | .or d a b c w => Sys2Proof.Machine.execOr d a b c w s
  | .xor d a b c w => Sys2Proof.Machine.execXor d a b c w s
  | .andn d a b c w => Sys2Proof.Machine.execAndn d a b c w s
  | .shl d a b c w => Sys2Proof.Machine.execShl d a b c w s
  | .shr d a b c w => Sys2Proof.Machine.execShr d a b c w s
  | .sar d a b c w => Sys2Proof.Machine.execSar d a b c w s
  | .rol d a b c w => Sys2Proof.Machine.execRol d a b c w s
  | .min d a b c w => Sys2Proof.Machine.execMin d a b c w s
  | .max d a b c w => Sys2Proof.Machine.execMax d a b c w s
  | .minu d a b c w => Sys2Proof.Machine.execMinu d a b c w s
  | .maxu d a b c w => Sys2Proof.Machine.execMaxu d a b c w s
  | .slt d a b c w => Sys2Proof.Machine.execSlt d a b c w s
  | .sltu d a b c w => Sys2Proof.Machine.execSltu d a b c w s
  | .sel d a b c w => Sys2Proof.Machine.execSel d a b c w s
  | .clz d a c w => Sys2Proof.Machine.execClz d a c w s
  | .ctz d a c w => Sys2Proof.Machine.execCtz d a c w s
  | .popc d a c w => Sys2Proof.Machine.execPopc d a c w s
  | .bswap d a c w => Sys2Proof.Machine.execBswap d a c w s
  | .extr d a b c w => Sys2Proof.Machine.execExtr d a b c w s
  | .insb d a b c w => Sys2Proof.Machine.execInsb d a b c w s
  | .lea d a b c w => Sys2Proof.Machine.execLea d a b c w s
  | .mul d a b c w => Sys2Proof.Machine.execMul d a b c w s
  | .mulh d a b c w => Sys2Proof.Machine.execMulh d a b c w s
  | .mulhu d a b c w => Sys2Proof.Machine.execMulhu d a b c w s
  | .div d a b c w => Sys2Proof.Machine.execDiv d a b c w s
  | .divu d a b c w => Sys2Proof.Machine.execDivu d a b c w s
  | .rem d a b c w => Sys2Proof.Machine.execRem d a b c w s
  | .remu d a b c w => Sys2Proof.Machine.execRemu d a b c w s
  | .fadd d a b c w => Sys2Proof.Machine.execFadd d a b c w s
  | .fsub d a b c w => Sys2Proof.Machine.execFsub d a b c w s
  | .fmul d a b c w => Sys2Proof.Machine.execFmul d a b c w s
  | .ffma d a b c w => Sys2Proof.Machine.execFfma d a b c w s
  | .fdiv d a b c w => Sys2Proof.Machine.execFdiv d a b c w s
  | .fsqrt d a c w => Sys2Proof.Machine.execFsqrt d a c w s
  | .fmin d a b c w => Sys2Proof.Machine.execFmin d a b c w s
  | .fmax d a b c w => Sys2Proof.Machine.execFmax d a b c w s
  | .fcmpEq d a b c w => Sys2Proof.Machine.execFcmpEq d a b c w s
  | .fcmpLt d a b c w => Sys2Proof.Machine.execFcmpLt d a b c w s
  | .fcmpLe d a b c w => Sys2Proof.Machine.execFcmpLe d a b c w s
  | .fcvt d a b c w => Sys2Proof.Machine.execFcvt d a b c w s
  | .fclass d a c w => Sys2Proof.Machine.execFclass d a c w s
  | .addi d a ix => Sys2Proof.Machine.execAddi d a ix s
  | .andi d a ix => Sys2Proof.Machine.execAndi d a ix s
  | .ori d a ix => Sys2Proof.Machine.execOri d a ix s
  | .xori d a ix => Sys2Proof.Machine.execXori d a ix s
  | .shli d a n => Sys2Proof.Machine.execShli d a n s
  | .shri d a n => Sys2Proof.Machine.execShri d a n s
  | .sari d a n => Sys2Proof.Machine.execSari d a n s
  | .lui d ix => Sys2Proof.Machine.execLui d ix s
  | .vadd d a b p c t => Sys2Proof.Machine.execVadd d a b p c t s
  | .vsub d a b p c t => Sys2Proof.Machine.execVsub d a b p c t s
  | .vmul d a b p c t => Sys2Proof.Machine.execVmul d a b p c t s
  | .vmadd d a b p c t => Sys2Proof.Machine.execVmadd d a b p c t s
  | .vmin d a b p c t => Sys2Proof.Machine.execVmin d a b p c t s
  | .vmax d a b p c t => Sys2Proof.Machine.execVmax d a b p c t s
  | .vand d a b p c => Sys2Proof.Machine.execVand d a b p c s
  | .vor d a b p c => Sys2Proof.Machine.execVor d a b p c s
  | .vxor d a b p c => Sys2Proof.Machine.execVxor d a b p c s
  | .vshl d a b p c t => Sys2Proof.Machine.execVshl d a b p c t s
  | .vshr d a b p c t => Sys2Proof.Machine.execVshr d a b p c t s
  | .vsar d a b p c t => Sys2Proof.Machine.execVsar d a b p c t s
  | .vabs d a p c t => Sys2Proof.Machine.execVabs d a p c t s
  | .vneg d a p c t => Sys2Proof.Machine.execVneg d a p c t s
  | .vsadd d a b p c t => Sys2Proof.Machine.execVsadd d a b p c t s
  | .vfadd d a b p c t => Sys2Proof.Machine.execVfadd d a b p c t s
  | .vfsub d a b p c t => Sys2Proof.Machine.execVfsub d a b p c t s
  | .vfmul d a b p c t => Sys2Proof.Machine.execVfmul d a b p c t s
  | .vfma d a b p c t => Sys2Proof.Machine.execVfma d a b p c t s
  | .vfdiv d a b p c t => Sys2Proof.Machine.execVfdiv d a b p c t s
  | .vfsqrt d a p c t => Sys2Proof.Machine.execVfsqrt d a p c t s
  | .vfmin d a b p c t => Sys2Proof.Machine.execVfmin d a b p c t s
  | .vfmax d a b p c t => Sys2Proof.Machine.execVfmax d a b p c t s
  | .vdot4 d a b p c t => Sys2Proof.Machine.execVdot4 d a b p c t s
  | .vred d a p c t => Sys2Proof.Machine.execVred d a p c t s
  | .vcmp d a b p c t => Sys2Proof.Machine.execVcmp d a b p c t s
  | .vsel d a b p c t => Sys2Proof.Machine.execVsel d a b p c t s
  | .vcvt d a p c t => Sys2Proof.Machine.execVcvt d a p c t s
  | .vqnt d a c t => Sys2Proof.Machine.execVqnt d a c t s
  | .vdqn d a c t => Sys2Proof.Machine.execVdqn d a c t s
  | .vperm d a b p c t => Sys2Proof.Machine.execVperm d a b p c t s
  | .vbcast d a p c t => Sys2Proof.Machine.execVbcast d a p c t s
  | .vmovs d a c t => Sys2Proof.Machine.execVmovs d a c t s
  | .vinss d a b p c t => Sys2Proof.Machine.execVinss d a b p c t s
  | .vtopk d a b p c t => Sys2Proof.Machine.execVtopk d a b p c t s
  | .vcmpr d a p c t => Sys2Proof.Machine.execVcmpr d a p c t s
  | .vhash d a p c t => Sys2Proof.Machine.execVhash d a p c t s
  | .vbcmp d a b p c t => Sys2Proof.Machine.execVbcmp d a b p c t s
  | .imacc d p c => Sys2Proof.Machine.execImacc d p c s
  | .pand d a b c => Sys2Proof.Machine.execPand d a b c s
  | .por d a b c => Sys2Proof.Machine.execPor d a b c s
  | .pxor d a b c => Sys2Proof.Machine.execPxor d a b c s
  | .pnot d a c => Sys2Proof.Machine.execPnot d a c s
  | .pcnt d a c => Sys2Proof.Machine.execPcnt d a c s
  | .pset d c => Sys2Proof.Machine.execPset d c s
  | .mzero core => Sys2Proof.Machine.execMzero core s
  | .mlda core => Sys2Proof.Machine.execMlda core s
  | .mma core => Sys2Proof.Machine.execMma core s
  | .msta core => Sys2Proof.Machine.execMsta core s
  | .imgb core => Sys2Proof.Machine.execImgb core s
  | .mfence core => Sys2Proof.Machine.execMfence core s
  | .msig core => Sys2Proof.Machine.execMsig core s
  | .matrixCommandComplete core => Sys2Proof.Machine.execMatrixCommandComplete core s
  | .mqctlWrite core val => Sys2Proof.Machine.execMqctlWrite core val s
  | .matrixLinkTimeout core => Sys2Proof.Machine.execMatrixLinkTimeout core s
  | .identify fn => Sys2Proof.Machine.execIdentify fn s
  | .attest fn => Sys2Proof.Machine.execAttest fn s
  | .loadImage fn => Sys2Proof.Machine.execLoadImage fn s
  | .createRegion fn => Sys2Proof.Machine.execCreateRegion fn s
  | .launch fn => Sys2Proof.Machine.execLaunch fn s
  | .signal fn => Sys2Proof.Machine.execSignal fn s
  | .query fn => Sys2Proof.Machine.execQuery fn s
  | .kill fn => Sys2Proof.Machine.execKill fn s
  | .fenceDie fn => Sys2Proof.Machine.execFenceDie fn s
  | .setDictionary fn => Sys2Proof.Machine.execSetDictionary fn s
  | .readCounters fn => Sys2Proof.Machine.execReadCounters fn s
  | .readLifetime fn => Sys2Proof.Machine.execReadLifetime fn s
  | .switchContextOut fn => Sys2Proof.Machine.execSwitchContextOut fn s
  | .switchContextIn fn => Sys2Proof.Machine.execSwitchContextIn fn s
  | .resetFunction fn => Sys2Proof.Machine.execResetFunction fn s
  | .commandPageWrite fn off val => Sys2Proof.Machine.execCommandPageWrite fn off val s
  | .programReport => Sys2Proof.Machine.execProgramReport s
  | .heartbeat die => Sys2Proof.Machine.execHeartbeat die s
  | .heartbeatSample die => Sys2Proof.Machine.execHeartbeatSample die s
  | .tileDeal region core => Sys2Proof.Machine.execTileDeal region core s
  | .tileRetire => Sys2Proof.Machine.execTileRetire s
  | .regionRetire region => Sys2Proof.Machine.execRegionRetire region s
  | .quiescenceEvent region => Sys2Proof.Machine.execQuiescenceEvent region s
  | .routeHotClear => Sys2Proof.Machine.execRouteHotClear s
  | .replicationRequest => Sys2Proof.Machine.execReplicationRequest s
  | .messageArrival idx => Sys2Proof.Machine.execMessageArrival idx s
  | .messageRetry idx => Sys2Proof.Machine.execMessageRetry idx s
  | .selector core => Sys2Proof.Machine.execSelector core s
  | .stealAttempt core => Sys2Proof.Machine.execStealAttempt core s
  | .agingLift core entry => Sys2Proof.Machine.execAgingLift core entry s
  | .armUnspill core => Sys2Proof.Machine.execArmUnspill core s
  | .contextArrival idx => Sys2Proof.Machine.execContextArrival idx s
  | .codeletCounterUpdate idx => Sys2Proof.Machine.execCodeletCounterUpdate idx s
  | .writePerform idx => Sys2Proof.Machine.execWritePerform idx s
  | .memoryReply core seq => Sys2Proof.Machine.execMemoryReply core seq s
  | .pendingResultWrite core seq => Sys2Proof.Machine.execPendingResultWrite core seq s
  | .bfmtUpdate cell idx => Sys2Proof.Machine.execBfmtUpdate cell idx s
  | .streamPrefetch core strm => Sys2Proof.Machine.execStreamPrefetch core strm s
  | .decompBlock core strm => Sys2Proof.Machine.execDecompBlock core strm s
  | .copyCompletion core => Sys2Proof.Machine.execCopyCompletion core s
  | .encodeSegment cell => Sys2Proof.Machine.execEncodeSegment cell s
  | .imageBuild core => Sys2Proof.Machine.execImageBuild core s
  | .atomReplacedNotice idx => Sys2Proof.Machine.execAtomReplacedNotice idx s
  | .noticeResend idx => Sys2Proof.Machine.execNoticeResend idx s
  | .noticeAck idx => Sys2Proof.Machine.execNoticeAck idx s
  | .holdExpiry cell idx => Sys2Proof.Machine.execHoldExpiry cell idx s
  | .gaussianPairArrival idx => Sys2Proof.Machine.execGaussianPairArrival idx s
  | .tileSetOpen region => Sys2Proof.Machine.execTileSetOpen region s
  | .tileSetClose region => Sys2Proof.Machine.execTileSetClose region s
  | .deviceFencedFromDomain device => Sys2Proof.Machine.execDeviceFencedFromDomain device s
  | .trapTake core => Sys2Proof.Machine.execTrapTake core s
  | .firingHalt core => Sys2Proof.Machine.execFiringHalt core s
  | .watchdog core => Sys2Proof.Machine.execWatchdog core s
  | .streamWait core => Sys2Proof.Machine.execStreamWait core s
  | .copyFull core => Sys2Proof.Machine.execCopyFull core s
  | .memReplyLimit core seq => Sys2Proof.Machine.execMemReplyLimit core seq s
  | .waitwLimit core => Sys2Proof.Machine.execWaitwLimit core s
  | .mqwaitLimit core => Sys2Proof.Machine.execMqwaitLimit core s
  | .bwaitLimit core => Sys2Proof.Machine.execBwaitLimit core s
  | .flitRetry port idx => Sys2Proof.Machine.execFlitRetry port idx s
  | .keagusPortTrain port device => Sys2Proof.Machine.execKeagusPortTrain port device s
  | .keagusPortDown port => Sys2Proof.Machine.execKeagusPortDown port s
  | .powerOn liveDies straps => Sys2Proof.Machine.execPowerOn liveDies straps s
  | .powerDown => Sys2Proof.Machine.execPowerDown s
  | .thermalSample die temp => Sys2Proof.Machine.execThermalSample die temp s
  | .lifetimeUpdate => Sys2Proof.Machine.execLifetimeUpdate s
  | .histogramSample => Sys2Proof.Machine.execHistogramSample s
  | .dieStop die => Sys2Proof.Machine.execDieStop die s
  | .lossOfPower => Sys2Proof.Machine.execLossOfPower s
  | .memoryError addr uncorrectable => Sys2Proof.Machine.execMemoryError addr uncorrectable s
  | .unknownOpcode fn => Sys2Proof.Machine.execUnknownOpcode fn s

end Sys2Proof.Machine
end

