-- ==== Sys2Proof/Machine/Issue.lean ====
section
/-! DEFINITION. How a core issues its next words: fetch (R92, R195), the illegal checks in order (R111), the holds of the
lookahead window (R104) and of acquires (R313), a pair whole or not at all (R93), the iterations of REP (R174), and the
words that TRET replays (R402). -/

namespace Sys2Proof.Machine

/-- The state that an instruction leaves. -/
def State.after (s : State) (i : Instr) : State :=
  match exec i s with
  | .next t => t
  | _ => s

/-! ### Holds -/

/-- The word of issue number `ord` lies beyond the window of a pending result (R104). -/
def Pend.beyond (p : Pend) (ord : Nat) : Bool := p.who.base + p.who.la ≤ ord

/-- A word of issue number `ord` is held beyond a window. -/
def Core.heldBeyond (k : Core) (ord : Nat) : Bool := k.pend.any (·.beyond ord)
/-- A word that uses the registers `ds` is held inside a window on a pending register. -/
def Core.heldInside (k : Core) (ord : Nat) (ds : List Dest) : Bool :=
  k.pend.any fun p => !p.beyond ord && p.hasDest ds

/-- Registers that a word reads or writes. -/
def uses (k : Core) (i : Instr) : List Dest := i.dests ++ sources k i

/-- A word makes a memory access that an acquire holds (R313). -/
def isAccess : Instr → Bool
  | .ld .. | .lds .. | .st .. | .vld .. | .vst .. | .lda .. | .stl .. | .aadd .. | .aswap .. | .acas .. | .amin ..
  | .amax .. | .aand .. | .aor .. | .axor .. | .gather .. | .scadd .. | .sbind .. | .xpush .. | .xtry .. | .sendv .. | .senda ..
  | .encx .. | .waitw .. | .depdec .. | .depset .. | .dinst .. | .drepl .. | .imres .. | .imacc .. | .gjoin .. | .gelim ..
  | .gdamp .. | .gsend .. | .gbel .. | .barrInit .. | .barrDump .. | .join .. | .armw .. | .ctxld .. | .scommit .. => true
  | _ => false

/-- A word that waits for the ENCX of its core: a release, which carries what the ENCX has still to write (R314), or an access made
at a home in its own step, which finds the core's older writes to the location done (R106, R312) (DEDUCED, log 72). -/
def State.afterEncx (s : State) : Instr → Bool
  | .send lit _ _ _ c | .sendv lit _ _ _ c => bitOf (rcValue s.me lit c).toNat 29
  | .st .. | .vst .. | .scommit .. => !s.me.rels.isEmpty
  | .stl .. | .aadd .. | .aswap .. | .acas .. | .amin .. | .amax .. | .aand .. | .aor .. | .axor .. | .scadd .. | .dinst ..
  | .fork .. | .spawn .. | .barr .. | .tdone .. | .depdec .. | .depset .. | .tinv .. | .gjoin .. | .gelim .. | .gsend .. | .gbel ..
    => true
  | _ => false

/-- A word B reads a stream register (R102). -/
def readsStream (w : Word) : Bool :=
  let op := (w.extractLsb' 26 6).toNat
  let code (lo : Nat) : Bool := 16 ≤ (w.extractLsb' lo 5).toNat
  0x10 ≤ op && op < 0x37 && (code 16 || (code 11 && !(oneSource.contains op)))

/-- LACNT with more wait cycles and violations; both stop at 2^32 − 1 (R108). -/
def lacntAdd (v : Dword) (wait viol : Nat) : Dword :=
  dw (Nat.min (bitsOf v.toNat 63 32 + wait) (2 ^ 32 - 1) * 2 ^ 32 + Nat.min (bitsOf v.toNat 31 0 + viol) (2 ^ 32 - 1))

/-- The words about to issue, with their issue numbers: held under R104, and what LACNT then counts; or free to go. `regs` are the
registers that they read. -/
def Core.windowHold (k : Core) (regs : Regs) (ws : List (Nat × Instr)) : Option Core :=
  let beyond := ws.any fun (o, _) => k.heldBeyond o
  let inside := (ws.filter fun (o, i) => k.heldInside o (uses { k with regs := regs } i)).length
  let first := (ws.head?.map (·.1)).getD 0
  if beyond || inside > 0 then
    let viol := if k.violated = some first then 0 else inside
    some { k with lacnt := lacntAdd k.lacnt (b2n beyond) viol, violated := some first }
  else none

/-! ### A pair -/

/-- The core has taken its turn in this cycle (R117). -/
def State.turn (s : State) (c : Nat) : State := { s with cur := c }.modCore c fun k => { k with tried := s.cycle + 1 }

/-- An illegal pair (R112): it halts at once, or once earlier results are complete. -/
def State.illegalPair (s : State) (cause word : Nat) : State :=
  let t := s.modMe fun k => { k with out := .illegal cause, wait := none }
  if s.me.settled then t.haltNow s.cur cause word 0 s.me.fetched
  else t.modMe fun k => { k with halt := some ⟨k.pc, cause, word, 0, k.fetched⟩ }

/-- A fault in fetching the pair at `pc` (R195, R397). -/
def State.fetchTrap (s : State) (cause : Nat) : State :=
  let k := s.me
  let q : TrapReq := ⟨.fetch, cause, k.pc, { k.issued 1 0 .nopA with word := 3, bits := 0 }⟩
  let t := s.modMe fun k => { k with faults := k.faults ++ [q], wait := none }
  if k.settled then t.takeFirst s.cur else t

/-- Word B of this pair is never executed with this word A (R93, R174). -/
def skipsB : Instr → Bool
  | .rep .. | .trap .. | .brk .. | .halt .. => true
  | _ => false

/-- Word A waits for every pending result (R105). -/
def drains : Instr → Bool
  | .endFiring .. | .endrFiring .. | .join .. | .armw .. | .migrate .. | .safe | .safeL .. | .brk .. | .halt .. | .trap ..
  | .tret .. => true
  | _ => false

/-- The firing goes on at `npc`, with `n` more words issued. -/
def State.advance (s : State) (n : Nat) : State :=
  s.modMe fun k => { k with words := k.words + n, violated := none, pc := if k.status = .running then k.npc else k.pc }

/-- The core after both words of a pair: `k` before it, `kb` after word B alone, `ka` after word A too. Each register
holds what the word that wrote it left. Lanes that word A gives up take their contents along, which is no write of a
register. -/
def mergeCore (k kb ka : Core) : Core :=
  let old := k.keepLanes (Nat.min k.vl ka.vl)
  let g := Vector.ofFn fun (i : Fin 32) => if ka.regs.g[i] = k.regs.g[i] then kb.regs.g[i] else ka.regs.g[i]
  let v := Vector.ofFn fun (i : Fin 16) => if ka.regs.v[i] = old.regs.v[i] then kb.regs.v[i] &&& laneMask old.vl else ka.regs.v[i]
  let p := Vector.ofFn fun (i : Fin 8) => if ka.regs.p[i] = old.regs.p[i] then kb.regs.p[i] &&& predMask old.vl else ka.regs.p[i]
  let st := Vector.ofFn fun (i : Fin 8) => if ka.streams[i] = k.streams[i] then kb.streams[i] else ka.streams[i]
  let idle : Bool := ka.status = .idle
  { ka with regs := ⟨g, v, p⟩, fenv := ka.fenv ||| (kb.fenv &&& ~~~k.fenv), streams := if idle then ka.streams else st,
            resq := if idle then ka.resq else kb.resq ++ ka.resq.drop k.resq.length }

/-- Both words of a pair, neither of which stops (R93): each reads its sources before either writes (R18) (DEDUCED, log 82).
-/
def State.bothWords (s : State) (a b : Instr) : State :=
  let c := s.cur
  let k := s.core c
  let tb := s.after b
  let kb := if drains a then (tb.core c).pend.foldl (fun x p => x.complete p) (tb.core c) else tb.core c
  let ta := (tb.setCore c { kb with regs := k.regs, fenv := k.fenv, streams := k.streams, resq := k.resq }).after a
  ta.setCore c (mergeCore k kb (ta.core c))

/-- How word A and word B end when each is given the state alone, and which of them decides for the pair (R93, R111): an
illegal word (the lower cause, word A first), then a hold, then a trap at issue (DEDUCED, log 81). -/
def firstStop (a b : Out) : Option Bool :=
  match a, b with
  | .illegal x, .illegal y => some (x ≤ y)
  | .illegal _, _ => some true
  | _, .illegal _ => some false
  | .hold, _ => some true
  | _, .hold => some false
  | .trapped, _ => some true
  | _, .trapped => some false
  | .ok, .ok => none

/-- Both words are held: word A's hold stands, and word B's stream registers wait as well, with their own bounds and counts (R122,
R221). -/
def State.heldBoth (ta : State) (b : Instr) : State :=
  (ta.after b).modMe fun k => { k with wait := ta.me.wait, out := .hold }

/-- The pair's words given to the machine. -/
def State.runPair (s : State) (p : Pair) : State :=
  let ta := s.after p.a
  match (if skipsB p.a then none else p.b) with
  | none => if (ta.core s.cur).out = .ok then ta.advance 1 else ta
  | some b =>
    let tb := s.after b
    match firstStop (ta.core s.cur).out (tb.core s.cur).out with
    | some true => if (ta.core s.cur).out = .hold && (tb.core s.cur).out = .hold then ta.heldBoth b else ta
    | some false => tb
    | none => (s.bothWords p.a b).advance 2

/-- The words of a pair with their issue numbers. -/
def Core.pairWords (k : Core) (p : Pair) : List (Nat × Instr) :=
  match (if skipsB p.a then none else p.b) with
  | none => [(k.words, p.a)]
  | some b => [(k.words, p.a), (k.words + 1, b)]

/-- CALL beside a word B that writes `g31` (R125) (DEDUCED, log 22). -/
def callClash (p : Pair) : Bool :=
  match p.a, p.b with
  | .call .., some b => b.dests.contains (.g 31)
  | _, _ => false

/-- A pair that decodes: held, illegal, or run. -/
def State.issuePair (s : State) (wb : Word) (p : Pair) : State :=
  let k := s.me
  if callClash p then s.illegalPair 0x0107 2
  else match k.windowHold k.regs (k.pairWords p) with
    | some k' => s.setCore s.cur { k' with out := .hold }
    | none =>
      if k.accessHeld && (isAccess p.a || p.b.any isAccess || (p.b.isSome && readsStream wb)) then s.modMe fun k => { k with out := .hold }
      else if s.encxUnder s.cur && s.afterEncx p.a then s.modMe fun k => { k with out := .hold }
      else (s.modMe fun k => { k with npc := k.pc + 8 }).runPair p

/-- The next pair of the core whose turn it is: fetched, decoded and issued. The fetch sees the core's own writes on their way, and
the shadow of its speculation, as its loads do (DEDUCED, log 83). -/
def State.fetchPair (s : State) : State :=
  let c := s.cur
  let pc := s.me.pc
  if s.me.stop then s.stopNow c
  else if pc.toNat % 8 ≠ 0 then s.fetchTrap 0x0307
  else
    match s.xlate (s.rootOf c) (cellOf c) pc.toNat .exec with
    | .error e => (s.walked c pc).fetchTrap e
    | .ok key =>
      let bytes := s.firingBytes c key 8
      let s := ((s.walked c pc).windowLostN (s.fnOf c) (windowHits [(key, 8)])).readDone c (dwordsOf key 8) |>.modMe fun k => { k with fetched := dw (leNat bytes) }
      match decodeBytes bytes with
      | .ok (p, _) => s.issuePair (BitVec.ofNat 32 (leNat (bytes.drop 4))) p
      | .error (.illegal cause word) => s.illegalPair cause word
      | .error .short => s

/-! ### REP -/

/-- One iteration (R174). -/
def State.repIteration (s : State) (r : RepState) : State :=
  let s := s.modMe fun k => { k with fetched := r.bits }
  let wb := r.wordB r.k
  match decodeB wb with
  | .error cause => s.illegalPair cause 2
  | .ok b =>
    let k := s.me
    match k.windowHold k.regs [(k.words, b)] with
    | some k' => s.setCore s.cur { k' with out := .hold }
    | none =>
      if k.accessHeld && (isAccess b || readsStream wb) then s.modMe fun k => { k with out := .hold }
      else
        let t := (s.modMe fun k => { k with iter := BitVec.ofNat 16 r.k, npc := k.pc + 8 }).after b
        if (t.core s.cur).out = .ok then
          if r.k + 1 ≥ r.n then (t.modMe fun k => { k with rep := none, iter := 0 }).advance 1
          else t.modMe fun k =>
            { k with rep := some { r with k := r.k + 1 }, iter := BitVec.ofNat 16 (r.k + 1), words := k.words + 1, violated := none }
        else t

/-! ### Replay -/

/-- The registers of a core after a replayed word: the word's own results are pending; a firing that ended keeps `g`. -/
def Core.ownRegs (k now : Core) : Core :=
  { now with regs := if now.status = .idle then { now.regs with g := k.regs.g } else k.regs }

/-- The next word of a replay list (R402), with its recorded sources. -/
def State.replayWord (s : State) (r : Replay) (w : Issued) (rest : List Issued) : State :=
  let k := s.me
  match k.windowHold w.regs [(k.words, w.instr)] with
  | some k' => s.setCore s.cur { k' with out := .hold }
  | none =>
    if s.encxUnder s.cur && s.afterEncx w.instr then s.modMe fun k => { k with out := .hold }
    else
    let t := (s.modMe fun k =>
      { k with regs := w.regs, pc := w.pc, fetched := w.bits, npc := r.resume, replay := some { r with words := rest } }).after w.instr
    match (t.core s.cur).out with
    | .ok =>
      t.modMe fun x =>
        let x := Core.ownRegs k x
        let x := { x with words := x.words + 1, pc := if x.status = .running then x.npc else x.pc }
        if rest.isEmpty && x.status = .running && x.faults.isEmpty then
          { x with replay := none, rep := r.rep, iter := match r.rep with
              | some p => BitVec.ofNat 16 p.k
              | none => x.iter }
        else x
    | .hold => t.modMe fun x => { Core.ownRegs k x with pc := k.pc, npc := k.npc, replay := some r }
    | _ => t.modMe fun x => { Core.ownRegs k x with replay := if x.status = .running then some r else none }

/-- The core whose turn it is issues: a word of a replay, an iteration of REP, or a pair. -/
def State.issue (s : State) : State :=
  match s.me.replay with
  | some r =>
    (match r.words with
     | w :: rest => s.replayWord r w rest
     | [] => (s.modMe fun k => { k with replay := none, rep := r.rep, pc := r.resume }))
  | none =>
    match s.me.rep with
    | some r => s.repIteration r
    | none => s.fetchPair

end Sys2Proof.Machine
end

