-- ==== Sys2Proof/Machine/Events.lean ====
section
/-! DEFINITION. Which events the device may take next: those that a cycle brings by itself (`State.dueEvents`), and those
whose moment the spec leaves open (`State.openEvents`). Each is the meaning that `exec` gives to a row of the table; the
meaning itself decides whether the event is enabled. -/

namespace Sys2Proof.Machine

/-- An event, as the step takes it. -/
abbrev Event := State → Next

/-- The event is enabled. -/
def State.enabled (s : State) (e : Event) : Bool :=
  match e s with
  | .next _ => true
  | _ => false

/-- Cores and cells with state of their own; those of a die that has stopped of itself do nothing (R81). -/
def State.runs (s : State) (die : Nat) : Bool := !(s.die die).stopped
def State.coreIds (s : State) : List Nat := (s.cores.map (·.1)).filter fun c => s.runs (dieOfCore c)
def State.cellIds (s : State) : List Nat := (s.cells.map (·.1)).filter fun n => s.runs (dieOfCell n)
def State.regionIds (s : State) : List Nat := s.regions.map (·.1)

/-- Events of a core whose cycle is fixed. -/
def State.dueOfCore (s : State) (c : Nat) : List Event :=
  let k := s.core c
  [execTrapTake c, execFiringHalt c, execWatchdog c]
    ++ (k.pend.filter (·.kind = .unit)).map (fun p => execPendingResultWrite c p.who.ord)
    ++ ((k.entries.zipIdx).filter fun (e, _) => e.en && e.pend && !e.lift).map (fun (_, e) => execAgingLift c e)
    ++ [execStreamWait c, execCopyFull c, execMqwaitLimit c, execWaitwLimit c, execBwaitLimit c, execMatrixLinkTimeout c]
    ++ (k.pend.filter (·.kind = .reply)).map (fun p => execMemReplyLimit c p.who.ord)

/-- Events of a core whose cycle the spec leaves open. -/
def State.openOfCore (s : State) (c : Nat) : List Event :=
  let k := s.core c
  (k.pend.filter (·.kind = .reply)).map (fun p => execMemoryReply c p.who.ord)
    ++ [execStealAttempt c, execArmUnspill c, execCopyCompletion c, execMzero c, execMlda c, execMma c, execMsta c,
      execImgb c, execMfence c, execMsig c, execMatrixCommandComplete c, execImageBuild c]
    ++ (List.range (8 + s.nextShared)).flatMap fun i => [execStreamPrefetch c i, execDecompBlock c i]

/-- Everything whose cycle is fixed. -/
def State.dueEvents (s : State) : List Event :=
  s.coreIds.flatMap s.dueOfCore
    ++ s.cellIds.flatMap (fun n => (List.range (s.cell n).sysWrites.length).map (execBfmtUpdate n))
    ++ (List.range 4).flatMap (fun d => [execHeartbeat d, execHeartbeatSample d])
    ++ (s.regionIds.filter s.quiescenceDue).map execQuiescenceEvent
    ++ s.barriers.map (fun (n, _) => State.nextEpisode n)
    ++ (List.range 4).map State.thermalDue
    ++ (if s.readyDue then [State.becomeReady] else [])
    ++ [execRouteHotClear, execHistogramSample, execLifetimeUpdate]

/-- Events of a cell whose cycle is open. -/
def State.openOfCell (s : State) (n : Nat) : List Event :=
  execEncodeSegment n :: (List.range (s.cell n).holds.length).map (execHoldExpiry n)

/-- Events of a region whose cycle is open. -/
def State.openOfRegion (s : State) (id : Nat) : List Event :=
  let dealing := ((s.region id).map (·.dealing)).getD []
  [execRegionRetire id, execQuiescenceEvent id, execTileSetOpen id, execTileSetClose id] ++ dealing.map (execTileDeal id)

/-- What the firmware may do for a function: the command in its slot, whichever it is. -/
def State.openOfFn (fn : Nat) : List Event :=
  [execIdentify fn, execAttest fn, execLoadImage fn, execCreateRegion fn, execLaunch fn, execSignal fn, execQuery fn,
    execKill fn, execFenceDie fn, execSetDictionary fn, execReadCounters fn, execReadLifetime fn, execSwitchContextOut fn,
    execSwitchContextIn fn, execResetFunction fn, execUnknownOpcode fn]

/-- What the other devices of the domain may ask and tell (R120, R376, R382, R390, R391, R458). -/
def State.peerEvents (s : State) : List Event :=
  if s.peers.isEmpty then []
  else
    s.barriers.flatMap (fun (n, b) => (List.range ((b.map (·.members.length)).getD 0)).map fun i => State.peerArrive n i)
      ++ s.coreIds.flatMap (fun c => [none, some 0, some 1, some 2, some 3].map fun x => State.peerRaise c x)
      ++ s.peers.flatMap (fun d => State.peerLeaves d :: (List.range 4).map fun x => State.peerFence d x)
      ++ s.regions.flatMap fun (id, r) =>
        match r with
        | none => []
        | some r => s.peers.map (fun d => State.peerSteal id d) ++ r.descs.map fun d => State.peerDone id d.tile

/-- Everything whose cycle is open. -/
def State.openEvents (s : State) : List Event :=
  (List.range s.writes.length).map execWritePerform
    ++ (List.range s.net.length).flatMap (fun i => [execMessageArrival i, execMessageRetry i, execContextArrival i,
      execGaussianPairArrival i])
    ++ (List.range s.depOps.length).map execCodeletCounterUpdate
    ++ s.coreIds.flatMap s.openOfCore
    ++ s.cellIds.flatMap s.openOfCell
    ++ (List.range s.noticeNet.length).flatMap (fun i => [execAtomReplacedNotice i, execNoticeResend i])
    ++ (List.range s.acks.length).map execNoticeAck
    ++ [execReplicationRequest, execProgramReport, execTileRetire]
    ++ s.regionIds.flatMap s.openOfRegion
    ++ ((s.fns.filter fun (_, f) => f.head ≠ f.tail || !f.switching.isEmpty).map (·.1)).flatMap State.openOfFn
    ++ (if s.power = .starting then [State.becomeReady] else [])
    ++ s.peerEvents

end Sys2Proof.Machine
end

