-- ==== Sys2Proof/Machine/Step.lean ====
section
/-! DEFINITION. One step of the device. Within a cycle each core takes its turn to issue a pair or to look for a firing;
then come the events whose cycle is fixed; then, as `oracle` chooses, an event whose moment is open, the next input from
outside, or the end of the cycle. -/

namespace Sys2Proof.Machine

/-- Word A returns lanes to the pool (R166). -/
def releasesLanes : Instr → Bool
  | .lrel .. | .endFiring .. | .endrFiring .. | .safe | .safeL .. => true
  | _ => false
/-- Word A returns lanes to the pool where it ends a firing (R132, R331, R350, R405). -/
def mayReleaseLanes : Instr → Bool
  | .join .. | .armw .. | .migrate .. | .ckill .. => true
  | _ => false

/-- The core has words to issue and has not tried in this cycle. -/
def State.issues (s : State) (c : Nat) : Bool :=
  let k := s.core c
  k.status = .running && k.faults.isEmpty && k.halt.isNone && !k.frozen && k.tried ≤ s.cycle

/-- A core of the cell holds fewer lanes once the core `c` has issued. -/
def State.losesLanes (s : State) (c : Nat) : Bool :=
  let t := (s.turn c).issue
  (List.range 8).any fun i => (t.core (8 * cellOf c + i)).vl < (s.core (8 * cellOf c + i)).vl

/-- The word that may return lanes in what a core would issue: the word that TRET replays next (R402), or word A at its pc. -/
def State.nextWord (s : State) (c : Nat) : Option Instr :=
  match (s.core c).replay with
  | some r => r.words.head?.map (·.instr)
  | none => (decodeA (BitVec.ofNat 32 (s.pairBits c (s.core c).pc).toNat) 0).toOption

/-- What a core would issue returns lanes. -/
def State.returnsLanes (s : State) (c : Nat) : Bool :=
  s.issues c && (s.nextWord c).any fun a => releasesLanes a || (mayReleaseLanes a && s.losesLanes c)

/-- The core whose turn it is: those that return lanes first, then in increasing number (R38, R166). -/
def State.nextCore (s : State) : Option Nat :=
  let l := s.coreIds.filter fun c => s.issues c || s.selects c
  match l.find? s.returnsLanes with
  | some c => some c
  | none => l.head?

/-- The end of a cycle: matrix units that wait for a decompressor are counted (R428), then the reads of WAITW that are due (R330),
reads and writes of cell registers that reach them in the next cycle (R161), and regions whose count Q has risen or has fallen to 0
(R375) (DESIGN CHOICE, log 74). -/
def State.tick (s : State) : State :=
  ((({ s.mqStalls with cycle := s.cycle + 1 }.periodicReads).sampleReads).specWrites).watchQ

/-- The next input from outside. One that the state does not allow has no effect. -/
def takeInput (i : Instr) : Event := fun s =>
  let s := { s with inputs := s.inputs.tail }
  match exec i s with
  | .fault _ => .next s
  | r => r

/-- A cell's cache gives up one of its translations, at any time (R193). -/
def State.evictions (s : State) : List Event :=
  s.cells.flatMap fun (n, c) => (List.range c.tlb.length).map fun i s => .next (s.evict n i)

/-- What may come next when no turn is left and nothing is due: an event, an input, the end of the cycle, or the loss of a cached
translation. -/
def State.choices (s : State) : List Event :=
  s.openEvents.filter s.enabled ++ (s.inputs.head?.toList).map takeInput ++ [fun s => .next s.tick] ++ s.evictions

/-- The choice that the oracle makes; the first where it says nothing. -/
def State.pick (s : State) : Event :=
  let l := s.choices
  (l[(s.oracle.headD 0) % l.length]?).getD fun s => .next s.tick

/-- One step (DESIGN CHOICE, log 7) (DESIGN CHOICE, log 93). -/
def step (s : State) : Host.Outcome State Fault Refusal :=
  match s.nextCore with
  | some c => if s.issues c then .next (s.turn c).issue else exec (.selector c) s
  | none =>
    match s.dueEvents.find? s.enabled with
    | some e => e s
    | none => s.pick { s with oracle := s.oracle.tail }

/-! ### Placing an instruction -/

/-- Where core `c` fetches: its pc, or 0 (the cell window) where its pc cannot be fetched. -/
def State.fetchPc (s : State) (c : Nat) : Dword × Nat :=
  let pc := (s.core c).pc
  match s.xlate (s.rootOf c) (cellOf c) pc.toNat .exec with
  | .ok key =>
    if pc.toNat % 8 = 0 && (queueOf key).isNone && !isWindow key then (pc, key) else (0, sramKey (cellOf c) 0)
  | .error _ => (0, sramKey (cellOf c) 0)

/-- Core `cur` runs and fetches next the pair that holds the given instruction; every other core has had its turn (DEDUCED,
log 6). -/
def State.withFetchWord (s : State) (_nbits w : Nat) : State :=
  let c := s.cur
  let (pc, key) := s.fetchPc c
  let bytes := tablePair (BitVec.ofNat 32 w)
  let k := { s.core c with
    status := .running, pc := pc, pend := [], faults := [], halt := none, wait := none, replay := none, rep := none,
    frozen := false, stop := false, tried := 0, fence := none }
  let hit (x : Write) : Bool := x.pa < key + 8 && key < x.pa + x.bytes.length
  { s.modDie (dieOfCore c) fun d => { d with stopped := false } with
    cores := tabSet (s.cores.map fun (n, (x : Core)) => (n, { x with tried := s.cycle + 1 })) c k,
    mem := memSetBytes s.mem key bytes, bad := s.bad.filter (· ≠ dwOf key), soft := s.soft.filter (· ≠ dwOf key),
    writes := s.writes.filter fun x => !hit x,
    cells := s.cells.map fun (n, (x : Cell)) =>
      (n, { x with shadow := x.shadow.filter fun (l, _) => !(sramKey n (32 * l) ≤ key && key < sramKey n (32 * l) + 32) }) }

end Sys2Proof.Machine
end

