-- ==== Sys2Proof/Certificates/Slice0/Obligations.lean ====
section
/-! DEFINITION. The statements about this machine that the provers are asked to prove. `Claims` says once what "the word
completes", "its result is pending" and the like mean; the statements stand after it. -/

namespace Sys2Proof.Claims

open Sys2Proof.Machine

/-! ### How a word or an event ends -/

/-- Memory has its canonical form, nothing that a core has written is on its way, no doubleword is in error, and no WAITW waits:
what an access makes of memory is then its own effect alone. -/
def calm (s : State) : Prop :=
  memWf s.mem = true ∧ s.writes = [] ∧ s.depOps = [] ∧ s.bad = [] ∧ s.soft = [] ∧ ∀ x ∈ s.cores, ∀ p ∈ x.2.pend, p.waits = none

/-- No write of a core, and no operation on a codelet counter, on its way touches `n` bytes at an address. -/
def idleAt (s : State) (k n : Nat) : Prop :=
  (∀ w ∈ s.writes, w.pa + w.bytes.length ≤ k ∨ k + n ≤ w.pa) ∧ ∀ o ∈ s.depOps, o.pa + 8 ≤ k ∨ k + n ≤ o.pa

/-- No WAITW waits: a write to memory leaves every pending result as it is. -/
def noWaits (s : State) : Prop := ∀ x ∈ s.cores, ∀ p ∈ x.2.pend, p.waits = none

/-- The word completes: the issuing core is left as `k`, with its outcome noted, and nothing else changes. -/
def ends (s : State) (k : Core) : State := s.setCore s.cur { k with out := .ok, wait := none }

/-- The pending result of a word that issues now (R103): its writes are made `lat` cycles later. -/
def pending (word la lat : Nat) (i : Instr) (ws : List RegWrite) (fl : BitVec 5) (fp : Bool) (s : State) (now : Nat) : Pend :=
  { who := s.me.issued word la i, kind := .unit, writes := ws, flags := fl, fp := fp, acq := false, issued := now,
    due := now + lat, va := 0, dwords := [], fault := none, ready := true, lost := false }

/-- The word has issued and its result is pending; nothing else changes. -/
def later (word la lat : Nat) (i : Instr) (ws : List RegWrite) (fl : BitVec 5) (fp : Bool) (s : State) : State :=
  ends s { s.me with pend := s.me.pend ++ [pending word la lat i ws fl fp s s.cycle] }

/-- The word writes its registers for the next pair (R103): at once, or, for a word that TRET replays with recorded sources
(R402), as a pending result. Nothing else changes. -/
def atOnce (word la : Nat) (i : Instr) (ws : List RegWrite) (s : State) : State :=
  if s.me.replay.isNone then ends s (s.me.writeAll ws) else later word la 1 i ws 0 false s

/-- The word is illegal with this FCAUSE (R111, R112): the firing halts at once where nothing of it is pending, and else once
its earlier results are complete. The word itself changes nothing. -/
def illegal (i : Instr) (s : State) (cause : Nat) : Prop :=
  ∃ word detail, exec i s = .next
    (if s.me.settled then
       (s.setCore s.cur { s.me with out := .illegal cause, wait := none }).haltNow s.cur cause word detail s.me.fetched
     else s.setCore s.cur
       { s.me with out := .illegal cause, wait := none, halt := some ⟨s.me.pc, cause, word, detail, s.me.fetched⟩ })

/-- The word raises a trap (R396, R397), and all it has left behind is in `u`: a trap after issue is noted beside the word's
place in issue order; one at issue holds the pair, and is taken at once where nothing of the firing is pending. -/
def trapsIn (u : State) (word la : Nat) (i : Instr) (s : State) (kind : TrapKind) (cause : Nat) (val : Dword) : Prop :=
  let q : TrapReq := ⟨kind, cause, val, u.me.issued word la i⟩
  u.me.replay = none → exec i s = .next
    (if kind = .afterIssue then u.setCore u.cur { u.me with out := .ok, wait := none, faults := u.me.faults ++ [q] }
     else
       let t := u.setCore u.cur { u.me with out := .trapped, wait := none, faults := u.me.faults ++ [q] }
       if u.me.settled then t.takeFirst u.cur else t)

/-- The word raises a trap and has no effect of its own. -/
def traps (word la : Nat) (i : Instr) (s : State) (kind : TrapKind) (cause : Nat) (val : Dword) : Prop :=
  trapsIn s word la i s kind cause val

/-- The word is held at issue: its pair is tried again, and nothing of it has happened. -/
def holds (i : Instr) (s : State) : Prop := exec i s = .next (s.setCore s.cur { s.me with out := .hold })

/-- The width in bits that W names (R101). -/
def width (w : BitVec 2) : Nat := 64 / 2 ^ w.toNat

/-! ### Elements of vector registers -/

/-- Element `e` of `w` bits. -/
def el (w : Nat) (x : VReg) (e : Nat) : BitVec w := x.extractLsb' (w * e) w

/-- Element `e` of `w` bits is active under `p` (R163): its first byte's bit. -/
def on (p : PReg) (w e : Nat) : Bool := p.getLsbD (w / 8 * e)

/-- An elementwise instruction (R172) that has read its operands: its result, pending for `lat` cycles, has `f` of the old
element and of the two sources' in each active element and writes those elements alone; the flags are those of all active
elements. Nothing else changes. -/
def eachElement (i : Instr) (d : Reg) (p : BitVec 3) (c : BitVec 4) (w lat : Nat) (fp : Bool) (s t : State) (a b old : VReg)
    (f : BitVec w → BitVec w → BitVec w → BitVec w × BitVec 5) : Prop :=
  let n := 32 * s.me.vl / w
  let fl e := if on (s.me.p p) w e then (f (el w old e) (el w a e) (el w b e)).2 else 0
  ∃ v m : VReg,
    exec i s = .next (later 2 c.toNat lat i [.v d v m] (((List.range n).map fl).foldl (· ||| ·) 0) fp t) ∧
    (∀ e < n, on (s.me.p p) w e = true → el w v e = (f (el w old e) (el w a e) (el w b e)).1) ∧
    ∀ j < 8192, m.getLsbD j = (decide (j / w < n) && on (s.me.p p) w (j / w))

/-- A node `k` levels above the leaves `x` of a tree of sums (R63): the rounded sum of its two children, with the flags of all
nodes below it. -/
def treeNode (f : Fmt) (mode : Mode) (x : Nat → Nat) : Nat → Nat → Nat × BitVec 5
  | 0, i => (x i, 0)
  | k + 1, i =>
    let l := treeNode f mode x k (2 * i)
    let r := treeNode f mode x k (2 * i + 1)
    let q := f.add mode l.1 r.1
    (q.1, q.2 ||| l.2 ||| r.2)

/-- A word that writes one value after `lat` cycles, having read its vector operands into `t`. -/
def vectorGives (i : Instr) (c : BitVec 4) (lat : Nat) (t s : State) (r : RegWrite) (fl : BitVec 5) (fp : Bool) : Prop :=
  exec i s = .next (later 2 c.toNat lat i [r] fl fp t)

end Sys2Proof.Claims

open Sys2Proof Sys2Proof.Machine

/-! ### Integer instructions -/

/-- R143, R145: each integer instruction of opcode 0x01 with all widths writes its `w`-bit result, sign-extended, to `gd`
for the next pair; nothing else changes, and no flag. A destination of `g0` discards it (`writeAll`). -/
def Sys2Proof.Claims.IntegerResults : Prop :=
  ∀ (s : State) (d a b : Reg) (c : BitVec 4) (w : BitVec 2),
    let n := Claims.width w
    let x : BitVec n := (s.me.g a).setWidth n
    let y : BitVec n := (s.me.g b).setWidth n
    let m := y.toNat % n
    let writes (i : Instr) (v : Dword) : Prop := exec i s = .next (Claims.atOnce 2 c.toNat i [.g d v] s)
    let gives (i : Instr) (v : BitVec n) : Prop := writes i (v.signExtend 64)
    gives (.add d a b c w) (x + y) ∧ gives (.sub d a b c w) (x - y) ∧ gives (.and d a b c w) (x &&& y) ∧
    gives (.or d a b c w) (x ||| y) ∧ gives (.xor d a b c w) (x ^^^ y) ∧ gives (.andn d a b c w) (x &&& ~~~y) ∧
    gives (.shl d a b c w) (x <<< m) ∧ gives (.shr d a b c w) (x >>> m) ∧ gives (.sar d a b c w) (x.sshiftRight m) ∧
    gives (.rol d a b c w) (x.rotateLeft m) ∧
    gives (.min d a b c w) (if x.toInt ≤ y.toInt then x else y) ∧ gives (.max d a b c w) (if y.toInt ≤ x.toInt then x else y) ∧
    gives (.minu d a b c w) (if x.toNat ≤ y.toNat then x else y) ∧ gives (.maxu d a b c w) (if y.toNat ≤ x.toNat then x else y) ∧
    writes (.slt d a b c w) (if x.toInt < y.toInt then 1 else 0) ∧
    writes (.sltu d a b c w) (if x.toNat < y.toNat then 1 else 0) ∧
    writes (.lea d a b c w) (s.me.g a + s.me.g b * BitVec.ofNat 64 (8 / 2 ^ w.toNat))

/-- R145: CLZ, CTZ and POPC write a count from 0 to w: of the zeros above the highest one bit, of those below the lowest, and
of the one bits; BSWAP reverses the bytes at the widths `.d`, `.w` and `.h` and is illegal with 0x0108 at `.b`. -/
def Sys2Proof.Claims.IntegerCounts : Prop :=
  ∀ (s : State) (d a : Reg) (c : BitVec 4) (w : BitVec 2),
    let n := Claims.width w
    let x : BitVec n := (s.me.g a).setWidth n
    let writes (i : Instr) (v : Dword) : Prop := exec i s = .next (Claims.atOnce 2 c.toNat i [.g d v] s)
    (∃ r ≤ n, writes (.clz d a c w) (BitVec.ofNat 64 r) ∧ (∀ j < r, x.getLsbD (n - 1 - j) = false) ∧
      (r < n → x.getLsbD (n - 1 - r) = true)) ∧
    (∃ r ≤ n, writes (.ctz d a c w) (BitVec.ofNat 64 r) ∧ (∀ j < r, x.getLsbD j = false) ∧ (r < n → x.getLsbD r = true)) ∧
    writes (.popc d a c w) (BitVec.ofNat 64 ((List.range n).filter x.getLsbD).length) ∧
    (w ≠ 3 → ∃ v : BitVec n, writes (.bswap d a c w) (v.signExtend 64) ∧
      ∀ j < n / 8, v.extractLsb' (8 * j) 8 = x.extractLsb' (n - 8 - 8 * j) 8) ∧
    (w = 3 → Claims.illegal (.bswap d a c w) s 0x0108)

/-- R145, R146: SEL takes the old `gd` as its condition; EXTR and INSB take the field's position from gb bits 5:0 and its
length, at most 64, from bits 14:8. Each takes the width `.d` only; any other is illegal with 0x0108. -/
def Sys2Proof.Claims.SelectAndFields : Prop :=
  ∀ (s : State) (d a b : Reg) (c : BitVec 4) (w : BitVec 2),
    let pos := (s.me.g b).toNat % 64
    let len := Nat.min ((s.me.g b).toNat / 256 % 128) 64
    let gives (i : Instr) (v : Dword) : Prop :=
      (w = 0 → exec i s = .next (Claims.atOnce 2 c.toNat i [.g d v] s)) ∧ (w ≠ 0 → Claims.illegal i s 0x0108)
    gives (.sel d a b c w) (if s.me.g d = 0 then s.me.g b else s.me.g a) ∧
    (∃ v : Dword, gives (.extr d a b c w) v ∧ ∀ j < 64, v.getLsbD j = (decide (j < len) && (s.me.g a).getLsbD (pos + j))) ∧
    (∃ v : Dword, gives (.insb d a b c w) v ∧
      ∀ j < 64, v.getLsbD j = if pos ≤ j ∧ j < pos + len then (s.me.g a).getLsbD (j - pos) else (s.me.g d).getLsbD j)

/-- R148, R157: MUL writes the low half of the product, MULH and MULHU the high half of the signed and of the unsigned one,
three cycles later. All seven stand under opcode 0x02 with their op from 0 to 6, in the layout of R145. -/
def Sys2Proof.Claims.Products : Prop :=
  ∀ (s : State) (d a b : Reg) (c : BitVec 4) (w : BitVec 2),
    let n := Claims.width w
    let x : BitVec n := (s.me.g a).setWidth n
    let y : BitVec n := (s.me.g b).setWidth n
    let gives (i : Instr) (v : BitVec n) : Prop :=
      exec i s = .next (Claims.later 2 c.toNat 3 i [.g d (v.signExtend 64)] 0 false s)
    gives (.mul d a b c w) (x * y) ∧
    gives (.mulh d a b c w) (BitVec.ofInt n (x.toInt * y.toInt / 2 ^ n)) ∧
    gives (.mulhu d a b c w) (BitVec.ofNat n (x.toNat * y.toNat / 2 ^ n)) ∧
    ∀ p ∈ [(0, Instr.mul d a b c w), (1, .mulh d a b c w), (2, .mulhu d a b c w), (3, .div d a b c w), (4, .divu d a b c w),
        (5, .rem d a b c w), (6, .remu d a b c w)],
      encode p.2 = some (2#6 ++ d ++ a ++ b ++ c ++ BitVec.ofNat 5 p.1 ++ w)

/-- R148, R149: with a divisor whose low w bits are not 0, DIV and REM write the quotient truncated toward zero and the
remainder that takes the dividend's sign, DIVU and REMU the unsigned ones; the quotient of −2^(w−1) by −1 is −2^(w−1)
and its remainder 0. -/
def Sys2Proof.Claims.Quotients : Prop :=
  ∀ (s : State) (d a b : Reg) (c : BitVec 4) (w : BitVec 2),
    let n := Claims.width w
    let x : BitVec n := (s.me.g a).setWidth n
    let y : BitVec n := (s.me.g b).setWidth n
    let gives (i : Instr) (v : BitVec n) : Prop :=
      ∃ lat ≥ 6, exec i s = .next (Claims.later 2 c.toNat lat i [.g d (v.signExtend 64)] 0 false s)
    y ≠ 0 →
      gives (.div d a b c w) (x.sdiv y) ∧ gives (.divu d a b c w) (x / y) ∧
      gives (.rem d a b c w) (x.srem y) ∧ gives (.remu d a b c w) (x % y) ∧
      (x.toInt = -2 ^ (n - 1) → y.toInt = -1 → gives (.div d a b c w) x ∧ gives (.rem d a b c w) 0)

/-- R149: DIV, DIVU, REM and REMU with a divisor whose low w bits are 0 trap at issue with cause 0x030A DIVZERO, whatever its
higher bits are. Where the next level is enabled, TVAL holds the dividend's low w bits, zero-extended, and TEPC the address of
the pair. Neither word of the pair takes effect: beside a word A that would complete, the pair leaves what the trap leaves. -/
def Obligations.DivideByZero : Prop :=
  ∀ (s : State) (d a b : Reg) (c : BitVec 4) (w : BitVec 2),
    let val := BitVec.ofNat 64 ((s.me.g a).toNat % 2 ^ Claims.width w)
    let n := s.me.tlevel + 1
    (s.me.g b).toNat % 2 ^ Claims.width w = 0 → s.me.replay = none →
      ∀ i ∈ [Instr.div d a b c w, .divu d a b c w, .rem d a b c w, .remu d a b c w],
        Claims.traps 2 c.toNat i s .atIssue 0x030A val ∧
        ∃ t, exec i s = .next t ∧
          (s.me.settled = true → n ≤ 2 → (s.me.bank n).en = true → t.mem = s.mem ∧ t.me.regs = s.me.regs ∧ t.me.tlevel = n ∧
            (t.me.bank n).cause = 0x030A ∧ (t.me.bank n).val = val ∧
            (t.me.bank n).epc = BitVec.ofNat 64 (s.me.pc.toNat % 2 ^ 56 / 8 * 8) ∧ t.me.pc = (s.me.bank n).entry) ∧
          ∀ (e : Instr) (u : State), skipsB e = false → exec e s = .next u → (u.core s.cur).out = .ok →
            s.runPair ⟨e, some i⟩ = t

/-- R150: the immediate instructions work on 64 bits and write `gd` for the next pair. -/
def Sys2Proof.Claims.Immediates : Prop :=
  ∀ (s : State) (d a : Reg) (i : BitVec 16) (n : BitVec 6),
    let gives (j : Instr) (v : Dword) : Prop := exec j s = .next (Claims.atOnce 2 0 j [.g d v] s)
    gives (.addi d a i) (s.me.g a + i.signExtend 64) ∧ gives (.andi d a i) (s.me.g a &&& i.setWidth 64) ∧
    gives (.ori d a i) (s.me.g a ||| i.setWidth 64) ∧ gives (.xori d a i) (s.me.g a ^^^ i.setWidth 64) ∧
    gives (.shli d a n) (s.me.g a <<< n.toNat) ∧ gives (.shri d a n) (s.me.g a >>> n.toNat) ∧
    gives (.sari d a n) ((s.me.g a).sshiftRight n.toNat) ∧ gives (.lui d i) (i.setWidth 64 <<< 16)

/-! ### Scalar floating point -/

/-- R151–R156: each scalar floating-point instruction has its result and flags pending, for the latency of R157. The format is
W's and only its bits are read; the mode is FENV.FRM. FADD, FSUB, FMUL and FFMA round the exact value once; FFMA adds the
old `gd`; a comparison writes 1 or 0; FCVT with SB above 15 is illegal with 0x0108. -/
def Sys2Proof.Claims.ScalarFloat : Prop :=
  ∀ (s : State) (d a b : Reg) (c : BitVec 4) (w : BitVec 2),
    let f : Fmt := match w with
      | 0 => fp64
      | 1 => fp32
      | 2 => fp16
      | _ => bf16
    let mode := Mode.ofFrm ((s.me.fenv.toNat / 256) % 4)
    let slow := match w with
      | 0 => 24
      | 1 => 14
      | _ => 8
    let x := f.decode ((s.me.g a).toNat % 2 ^ f.width)
    let y := f.decode ((s.me.g b).toNat % 2 ^ f.width)
    let z := f.decode ((s.me.g d).toNat % 2 ^ f.width)
    let gives (lat : Nat) (i : Instr) (r : Nat × FpFlags) : Prop :=
      exec i s = .next (Claims.later 2 c.toNat lat i [.g d (BitVec.ofNat 64 r.1)] r.2 true s)
    let rounded (v : FV × Bool) (l : List FV) : Nat × FpFlags :=
      ((f.round mode v.1).1, (f.round mode v.1).2 ||| flagIf v.2 flagNV ||| flagIf (l.any FV.isSig) flagNV)
    gives 4 (.fadd d a b c w) (rounded (x.add mode y) [x, y]) ∧
    gives 4 (.fsub d a b c w) (rounded (x.add mode y.flip) [x, y]) ∧
    gives 4 (.fmul d a b c w) (rounded (x.mul y) [x, y]) ∧
    gives 4 (.ffma d a b c w) (rounded (((x.mul y).1.add mode z).1, (x.mul y).2 || ((x.mul y).1.add mode z).2) [x, y, z]) ∧
    gives slow (.fdiv d a b c w) (f.div mode (s.me.g a).toNat (s.me.g b).toNat) ∧
    gives slow (.fsqrt d a c w) (f.sqrt mode (s.me.g a).toNat) ∧
    gives 2 (.fmin d a b c w) (f.minmax false (s.me.g a).toNat (s.me.g b).toNat) ∧
    gives 2 (.fmax d a b c w) (f.minmax true (s.me.g a).toNat (s.me.g b).toNat) ∧
    gives 2 (.fcmpEq d a b c w)
      (if !x.isNan && !y.isNan && x.cmp y = 0 then 1 else 0, flagIf (x.isSig || y.isSig) flagNV) ∧
    gives 2 (.fcmpLt d a b c w)
      (if !x.isNan && !y.isNan && x.cmp y < 0 then 1 else 0, flagIf (x.isNan || y.isNan) flagNV) ∧
    gives 2 (.fcmpLe d a b c w)
      (if !x.isNan && !y.isNan && x.cmp y ≤ 0 then 1 else 0, flagIf (x.isNan || y.isNan) flagNV) ∧
    gives 2 (.fclass d a c w) (f.classify (s.me.g a).toNat, 0) ∧
    (b.toNat < 16 → gives 3 (.fcvt d a b c w) (fcvtResult f mode b.toNat (s.me.g a))) ∧
    (16 ≤ b.toNat → Claims.illegal (.fcvt d a b c w) s 0x0108)

/-- R152–R156: the cases that the rules name. Finite nonzero by zero is an infinity with DZ, 0 by 0 and ∞ by ∞ are invalid,
the root of a negative nonzero value is invalid, the least of −0 and +0 is −0, one NaN operand leaves the other, and a
value converted to its own format is itself. -/
def Sys2Proof.Claims.FloatCases : Prop :=
  ∀ f ∈ [fp16, bf16, fp32, fp64], ∀ (mode : Mode) (a b : Nat), a < 2 ^ f.width → b < 2 ^ f.width →
    let x := f.decode a
    let y := f.decode b
    (x.isFin = true → x.isZero = false → y.isZero = true → f.div mode a b = (f.signBit (x.neg != y.neg) + f.infBits, flagDZ)) ∧
    (x.isZero = true → y.isZero = true → f.div mode a b = (f.nanBits, flagNV)) ∧
    ((∃ p q, x = .inf p ∧ y = .inf q) → f.div mode a b = (f.nanBits, flagNV)) ∧
    (x.isZero = true → f.sqrt mode a = (a, 0)) ∧
    (x.isNan = false → x.neg = true → x.isZero = false → f.sqrt mode a = (f.nanBits, flagNV)) ∧
    (f.minmax false (f.signBit true) 0 = (f.signBit true, 0) ∧ f.minmax true (f.signBit true) 0 = (0, 0)) ∧
    (x.isNan = true → y.isNan = false → f.minmax false a b = (b, flagIf x.isSig flagNV) ∧
      f.minmax true a b = (b, flagIf x.isSig flagNV)) ∧
    (x.isNan = false → f.convert f mode a = (a, 0))

/-- R60: every NaN result is the canonical quiet NaN of its format: of every rounding of an exact value (which is how sums,
dot products and conversions end), of every conversion, and of every scalar or vector operation. -/
def Obligations.CanonicalNaN : Prop :=
  fp16.nanBits = 0x7E00 ∧ bf16.nanBits = 0x7FC0 ∧ fp32.nanBits = 0x7FC0_0000 ∧ fp64.nanBits = 0x7FF8_0000_0000_0000 ∧
  ∀ f ∈ [fp16, bf16, fp32, fp64], ∀ (mode : Mode) (a b d : Nat),
    (∀ v : FV, (f.decode (f.round mode v).1).isNan = true → (f.round mode v).1 = f.nanBits) ∧
    (∀ g ∈ [fp16, bf16, fp32, fp64], (f.decode (g.convert f mode a).1).isNan = true → (g.convert f mode a).1 = f.nanBits) ∧
    ∀ r ∈ [(f.add mode a b).1, (f.sub mode a b).1, (f.mul mode a b).1, (f.fma mode a b d).1, (f.div mode a b).1,
      (f.sqrt mode a).1, (f.minmax false a b).1, (f.minmax true a b).1],
      (f.decode r).isNan = true → r = f.nanBits

/-! ### Vector instructions -/

/-- R102, R170: a vector word reads each `v` register that it names as it stands, and nothing changes; a stream register that
is unbound, or whose queue bank is not kept, makes the word illegal with 0x0107. -/
def Sys2Proof.Claims.VectorOperands : Prop :=
  (∀ (s : State) (codes : List Reg), (∀ r ∈ codes, r.toNat < 16) → s.vread codes = .ok (s, codes.map s.me.v)) ∧
  (∀ (s : State) (codes : List Reg) (r : Reg) (b : Nat), r ∈ codes → 16 ≤ r.toNat → r.toNat < 24 →
    (s.me.streams.toList.getD (r.toNat - 16) none).map (·.bank) = (if b = 0 then none else some b) →
    (∀ q ∈ codes, 16 ≤ q.toNat → q = r) → s.vread codes = .error (s, .illegal 0x0107 (r.setWidth 64)))

/-- R162, R172: the integer elementwise instructions of VT 0 to 7, for a word whose operands are read. Each works modulo 2^w on
the elements; VMIN and VMAX compare as VT says; a shift count is read unsigned modulo w; VSADD clamps the sum to the type's
range. Inactive elements keep their values. -/
def Sys2Proof.Claims.VectorInteger : Prop :=
  ∀ (s t : State) (d a b : Reg) (p : BitVec 3) (c ty : BitVec 4) (x y o : VReg), ty.toNat < 8 → s.me.vl ≠ 0 →
    let w := 8 * 2 ^ (ty.toNat % 4)
    let signed := decide (ty.toNat < 4)
    let le (u v : BitVec w) : Bool := if signed then u.toInt ≤ v.toInt else u.toNat ≤ v.toNat
    let clamp (z lo hi : Int) : BitVec w := BitVec.ofInt w (if z < lo then lo else if hi < z then hi else z)
    let sat (u v : BitVec w) : BitVec w :=
      if signed then clamp (u.toInt + v.toInt) (-2 ^ (w - 1)) (2 ^ (w - 1) - 1) else clamp (u.toNat + v.toNat) 0 (2 ^ w - 1)
    let gives (i : Instr) (lat : Nat) (f : BitVec w → BitVec w → BitVec w → BitVec w) : Prop :=
      Claims.eachElement i d p c w lat false s t x y o fun u v z => (f u v z, 0)
    (s.vread [a, b, d] = .ok (t, [x, y, o]) →
      gives (.vadd d a b p c ty) 2 (fun _ u v => u + v) ∧ gives (.vsub d a b p c ty) 2 (fun _ u v => u - v) ∧
      gives (.vmul d a b p c ty) 4 (fun _ u v => u * v) ∧ gives (.vmadd d a b p c ty) 4 (fun z u v => z + u * v) ∧
      gives (.vmin d a b p c ty) 2 (fun _ u v => if le u v then u else v) ∧
      gives (.vmax d a b p c ty) 2 (fun _ u v => if le u v then v else u) ∧
      gives (.vshl d a b p c ty) 2 (fun _ u v => u <<< (v.toNat % w)) ∧
      gives (.vshr d a b p c ty) 2 (fun _ u v => u >>> (v.toNat % w)) ∧
      gives (.vsar d a b p c ty) 2 (fun _ u v => u.sshiftRight (v.toNat % w)) ∧
      gives (.vsadd d a b p c ty) 2 (fun _ u v => sat u v)) ∧
    (s.vread [a, a, d] = .ok (t, [x, y, o]) →
      gives (.vneg d a p c ty) 2 (fun _ u _ => -u) ∧
      gives (.vabs d a p c ty) 2 (fun _ u _ => if signed && u.msb then -u else u))

/-- R172, R184, R185: VAND, VOR and VXOR work per byte; VHASH runs the lane's low T + 1 bytes through CRC-32C; VBCMP compares
the low T + 1 bytes of a lane from the position that its state holds, until a difference is found. -/
def Sys2Proof.Claims.VectorBytes : Prop :=
  ∀ (s t : State) (d a b : Reg) (p : BitVec 3) (c ty : BitVec 4) (x y o : VReg), s.me.vl ≠ 0 →
    let byte (u : BitVec 32) (j : Nat) : BitVec 8 := u.extractLsb' (8 * j) 8
    let crcBit (r : BitVec 32) : BitVec 32 := if r.getLsbD 0 then (r >>> 1) ^^^ 0x82F6_3B78 else r >>> 1
    let crc (r : BitVec 32) (z : BitVec 8) : BitVec 32 := (List.range 8).foldl (fun q _ => crcBit q) (r ^^^ z.setWidth 32)
    let n := ty.toNat + 1
    (s.vread [a, b, d] = .ok (t, [x, y, o]) →
      Claims.eachElement (.vand d a b p c) d p c 8 2 false s t x y o (fun _ u v => (u &&& v, 0)) ∧
      Claims.eachElement (.vor d a b p c) d p c 8 2 false s t x y o (fun _ u v => (u ||| v, 0)) ∧
      Claims.eachElement (.vxor d a b p c) d p c 8 2 false s t x y o (fun _ u v => (u ^^^ v, 0)) ∧
      (n ≤ 4 → Claims.eachElement (.vbcmp d a b p c ty) d p c 32 2 false s t x y o fun z u v =>
        let pos := z.toNat % 2 ^ 30
        (if z.msb then z
         else match (List.range n).find? fun j => byte u j != byte v j with
           | some j => BitVec.ofNat 32 (2 ^ 31 + (if byte v j < byte u j then 2 ^ 30 else 0) + Nat.min (pos + j) (2 ^ 30 - 1))
           | none => BitVec.ofNat 32 (z.toNat / 2 ^ 30 * 2 ^ 30 + Nat.min (pos + n) (2 ^ 30 - 1)), 0))) ∧
    (s.vread [a, a, d] = .ok (t, [x, y, o]) → n ≤ 4 →
      Claims.eachElement (.vhash d a p c ty) d p c 32 3 false s t x y o fun z u _ =>
        ((List.range n).foldl (fun q j => crc q (byte u j)) z, 0))

/-- R172, R187: the floating-point elementwise instructions take FRM's mode and give each active element the scalar
operation's result; every active element raises its flags. -/
def Sys2Proof.Claims.VectorFloat : Prop :=
  ∀ (s t : State) (d a b : Reg) (p : BitVec 3) (c ty : BitVec 4) (x y o : VReg), s.me.vl ≠ 0 →
    ∀ f : Fmt, (ty, f) ∈ [(8, fp16), (9, bf16), (10, fp32), (11, fp64)] →
    let mode := Mode.ofFrm ((s.me.fenv.toNat / 256) % 4)
    let gives (i : Instr) (lat : Nat) (r : Nat → Nat → Nat → Nat × FpFlags) : Prop :=
      Claims.eachElement i d p c f.width lat true s t x y o fun z u v =>
        (BitVec.ofNat f.width (r z.toNat u.toNat v.toNat).1, (r z.toNat u.toNat v.toNat).2)
    let quick := if ty = 11 then 8 else 4
    let slow := if ty = 11 then 32 else 16
    (s.vread [a, b, d] = .ok (t, [x, y, o]) →
      gives (.vfadd d a b p c ty) quick (fun _ u v => f.add mode u v) ∧
      gives (.vfsub d a b p c ty) quick (fun _ u v => f.sub mode u v) ∧
      gives (.vfmul d a b p c ty) quick (fun _ u v => f.mul mode u v) ∧
      gives (.vfma d a b p c ty) quick (fun z u v => f.fma mode u v z) ∧
      gives (.vfdiv d a b p c ty) slow (fun _ u v => f.div mode u v) ∧
      gives (.vfmin d a b p c ty) quick (fun _ u v => f.minmax false u v) ∧
      gives (.vfmax d a b p c ty) quick (fun _ u v => f.minmax true u v)) ∧
    (s.vread [a, a, d] = .ok (t, [x, y, o]) → gives (.vfsqrt d a p c ty) slow (fun _ u _ => f.sqrt mode u))

/-- R172, R178: VSEL, VPERM, VBCAST, VMOVS and VINSS move elements without changing them. -/
def Sys2Proof.Claims.VectorMoves : Prop :=
  ∀ (s t : State) (d a b : Reg) (p : BitVec 3) (c ty : BitVec 4) (x y : VReg), ty.toNat < 12 → s.me.vl ≠ 0 →
    let w := if ty.toNat < 8 then 8 * 2 ^ (ty.toNat % 4) else if ty = 11 then 64 else if ty = 10 then 32 else 16
    let n := 32 * s.me.vl / w
    let on := Claims.on (s.me.p p) w
    let x0 := Claims.el w x 0
    (s.vread [a, b] = .ok (t, [x, y]) →
      (∃ v m, Claims.vectorGives (.vsel d a b p c ty) c 2 t s (.v d v m) 0 false ∧
        (∀ j < 8192, m.getLsbD j = decide (j < 32 * s.me.vl)) ∧
        ∀ e < n, e * w < 8192 → Claims.el w v e = if on e then Claims.el w x e else Claims.el w y e) ∧
      (∃ v m, Claims.vectorGives (.vperm d a b p c ty) c 4 t s (.v d v m) 0 false ∧
        (∀ j < 8192, m.getLsbD j = (decide (j / w < n) && on (j / w))) ∧
        ∀ e < n, on e = true → Claims.el w v e =
          if (Claims.el w y e).toNat < n then Claims.el w x (Claims.el w y e).toNat else 0) ∧
      (let e := (Claims.el 32 y 0).toNat
       ∃ v m, Claims.vectorGives (.vinss d a b p c ty) c 2 t s (.v d v m) 0 false ∧
        (∀ j < 8192, m.getLsbD j = (decide (j / w = e) && decide (e < n) && on e)) ∧
        (e < n → on e = true → Claims.el w v e = x0))) ∧
    (s.vread [a] = .ok (t, [x]) →
      (∃ v m, Claims.vectorGives (.vbcast d a p c ty) c 2 t s (.v d v m) 0 false ∧
        (∀ j < 8192, m.getLsbD j = (decide (j / w < n) && on (j / w))) ∧ ∀ e < n, on e = true → Claims.el w v e = x0) ∧
      Claims.vectorGives (.vmovs d a c ty) c 4 t s
        (.g d (if ty.toNat < 4 then x0.signExtend 64 else x0.setWidth 64)) 0 false)

/-- R177: VCMP writes predicate VD mod 8: each active element's bits are all 1 where the relation VD / 8 (equal, unequal, less,
at most) holds of the element of `va` and that of `vb`, else 0; the bits of other elements stay. An active NaN raises NV: any
for less and at most, a signalling one for equal and unequal. -/
def Sys2Proof.Claims.VectorCompare : Prop :=
  ∀ (s t : State) (d a b : Reg) (p : BitVec 3) (c ty : BitVec 4) (x y : VReg), s.me.vl ≠ 0 → s.vread [a, b] = .ok (t, [x, y]) →
    let q : BitVec 3 := d.setWidth 3
    let on := Claims.on (s.me.p p)
    (ty.toNat < 8 →
      let w := 8 * 2 ^ (ty.toNat % 4)
      let num (u : BitVec w) : Int := if ty.toNat < 4 then u.toInt else u.toNat
      let rel (e : Nat) : Bool :=
        let u := num (Claims.el w x e)
        let v := num (Claims.el w y e)
        match d.toNat / 8 with
        | 0 => u = v
        | 1 => u ≠ v
        | 2 => u < v
        | _ => u ≤ v
      ∃ r : PReg, Claims.vectorGives (.vcmp d a b p c ty) c 2 t s (.p q r) 0 false ∧
        ∀ j < 1024, r.getLsbD j =
          let e := j / (w / 8)
          if e < 32 * s.me.vl / w && on w e then rel e else (s.me.p q).getLsbD j) ∧
    (∀ f : Fmt, (ty, f) ∈ [(8, fp16), (9, bf16), (10, fp32), (11, fp64)] →
      let w := f.width
      let rel (e : Nat) : Bool :=
        let u := f.decode (Claims.el w x e).toNat
        let v := f.decode (Claims.el w y e).toNat
        let num := !u.isNan && !v.isNan
        match d.toNat / 8 with
        | 0 => num && u.cmp v = 0
        | 1 => !(num && u.cmp v = 0)
        | 2 => num && u.cmp v < 0
        | _ => num && u.cmp v ≤ 0
      let invalid (e : Nat) : Bool :=
        let u := f.decode (Claims.el w x e).toNat
        let v := f.decode (Claims.el w y e).toNat
        if d.toNat / 8 < 2 then u.isSig || v.isSig else u.isNan || v.isNan
      let fl := flagIf ((List.range (32 * s.me.vl / w)).any fun e => on w e && invalid e) flagNV
      ∃ r : PReg, Claims.vectorGives (.vcmp d a b p c ty) c 2 t s (.p q r) fl true ∧
        ∀ j < 1024, r.getLsbD j =
          let e := j / (w / 8)
          if e < 32 * s.me.vl / w && on w e then rel e else (s.me.p q).getLsbD j)

/-- R175: VDOT4's integer form adds, in each active lane, four products of elements and the old lane modulo 2^32; its
floating-point form works on half the lanes, rounding the exact sum once to FP32, and raises the flags of that rounding, and NV
for an invalid term. That a term which is a NaN counts as for the FMA of R152, so that a signalling one raises NV, is DEDUCED
(log 26). -/
def Sys2Proof.Claims.VectorDot : Prop :=
  ∀ (s t : State) (d a b : Reg) (p : BitVec 3) (c ty : BitVec 4) (x y o : VReg), s.me.vl ≠ 0 →
    s.vread [a, b, d] = .ok (t, [x, y, o]) →
    let on := Claims.on (s.me.p p) 32
    (ty ∈ [0, 4] →
      let num (u : BitVec 8) : Int := if ty = 0 then u.toInt else u.toNat
      let term (e j : Nat) : Int := num (Claims.el 8 x (4 * e + j)) * num (Claims.el 8 y (4 * e + j))
      ∃ v m, Claims.vectorGives (.vdot4 d a b p c ty) c 5 t s (.v d v m) 0 false ∧
        (∀ j < 8192, m.getLsbD j = (decide (j / 32 < s.me.vl) && on (j / 32))) ∧
        ∀ e < s.me.vl, on e = true →
          Claims.el 32 v e = Claims.el 32 o e + BitVec.ofInt 32 (term e 0 + term e 1 + term e 2 + term e 3)) ∧
    (∀ f : Fmt, (ty, f) ∈ [(8, fp16), (9, bf16)] →
      let pair (e j : Nat) : FV × FV :=
        (f.decode (Claims.el 16 x (4 * e + j)).toNat, f.decode (Claims.el 16 y (4 * e + j)).toNat)
      let old (e : Nat) : FV := fp32.decode (Claims.el 32 o e).toNat
      let sum (e : Nat) : FV := exactDot [pair e 0, pair e 1, pair e 2, pair e 3] (old e)
      let r (e : Nat) : Nat × BitVec 5 := fp32.round (Mode.ofFrm ((s.me.fenv.toNat / 256) % 4)) (sum e)
      let invalid (e : Nat) : Bool :=
        let ops := old e :: (List.range 4).flatMap fun j => [(pair e j).1, (pair e j).2]
        ops.any FV.isSig || ((List.range 4).any fun j => ((pair e j).1.mul (pair e j).2).2) ||
          ((sum e).isNan && !ops.any FV.isNan)
      let fl (e : Nat) : BitVec 5 := if on e then (r e).2 ||| flagIf (invalid e) flagNV else 0
      ∃ v m, Claims.vectorGives (.vdot4 d a b p c ty) c 5 t s (.v d v m)
          (((List.range (s.me.vl / 2)).map fl).foldl (· ||| ·) 0) true ∧
        (∀ j < 8192, m.getLsbD j = (decide (j / 32 < s.me.vl / 2) && on (j / 32))) ∧
        ∀ e < s.me.vl / 2, on e = true → (Claims.el 32 v e).toNat = (r e).1)

/-- R176: VRED's integer form writes the sum of the active elements modulo 2^64. Its floating-point form writes the root of the
tree of R63 over the elements in order, widened to FP32 below FP64 (a signalling NaN stays one: the model's reading, log 27),
each node rounded under FRM, with the flags of all nodes. An inactive element counts as 0, and so does a leaf beyond the last. -/
def Sys2Proof.Claims.VectorReduce : Prop :=
  ∀ (s t : State) (d a : Reg) (p : BitVec 3) (c ty : BitVec 4) (x : VReg), s.me.vl ≠ 0 → s.vread [a] = .ok (t, [x]) →
    let on := Claims.on (s.me.p p)
    (ty.toNat < 8 →
      let w := 8 * 2 ^ (ty.toNat % 4)
      let n := 32 * s.me.vl / w
      let num (u : BitVec w) : Int := if ty.toNat < 4 then u.toInt else u.toNat
      ∃ lat, Claims.vectorGives (.vred d a p c ty) c lat t s
          (.g d (BitVec.ofInt 64 (((List.range n).map fun e => if on w e then num (Claims.el w x e) else 0).sum))) 0 false ∧
        (∀ l, 2 ^ l < n → l < lat - 6) ∧ n ≤ 2 ^ (lat - 6) ∧ 6 ≤ lat) ∧
    (∀ f : Fmt, (ty, f) ∈ [(8, fp16), (9, bf16), (10, fp32), (11, fp64)] →
      let w := f.width
      let n := 32 * s.me.vl / w
      let sumFmt := if ty = 11 then fp64 else fp32
      let leaf (e : Nat) : Nat :=
        if e < n && on w e then
          (if f.width = sumFmt.width then (Claims.el w x e).toNat else widen f (Claims.el w x e).toNat)
        else 0
      let k := ceilLog n
      let r := Claims.treeNode sumFmt (Mode.ofFrm ((s.me.fenv.toNat / 256) % 4)) leaf k 0
      n ≤ 2 ^ k ∧ (∀ l, n ≤ 2 ^ l → k ≤ l) ∧
        Claims.vectorGives (.vred d a p c ty) c (6 + k) t s (.g d (BitVec.ofNat 64 r.1)) r.2 true)

/-- R179: VCVT converts the elements of the type that its kind names, as many as both registers hold; those whose destination
element is active are written, and the scalar conversion gives each. -/
def Sys2Proof.Claims.VectorConvert : Prop :=
  ∀ (s t : State) (d a : Reg) (p : BitVec 3) (c ty : BitVec 4) (x : VReg), s.me.vl ≠ 0 → s.vread [a] = .ok (t, [x]) →
    let mode := Mode.ofFrm ((s.me.fenv.toNat / 256) % 4)
    let conv (sw dw : Nat) (fp : Bool) (f : BitVec sw → Nat × FpFlags) : Prop :=
      let n := Nat.min (32 * s.me.vl / sw) (32 * s.me.vl / dw)
      let on := Claims.on (s.me.p p) dw
      let fl e := if on e then (f (Claims.el sw x e)).2 else 0
      ∃ v m, Claims.vectorGives (.vcvt d a p c ty) c 4 t s (.v d v m) (((List.range n).map fl).foldl (· ||| ·) 0) fp ∧
        (∀ j < 8192, m.getLsbD j = (decide (j / dw < n) && on (j / dw))) ∧
        ∀ e < n, on e = true → Claims.el dw v e = BitVec.ofNat dw (f (Claims.el sw x e)).1
    let nat (sw : Nat) (u : BitVec sw) : Nat := u.toNat
    let clamp (lo hi : Int) (u : BitVec 32) : Nat × FpFlags :=
      ((BitVec.ofInt 8 (if u.toInt < lo then lo else if hi < u.toInt then hi else u.toInt)).toNat, 0)
    let int (m : Mode) (lo hi : Int) (u : BitVec 32) : Nat × FpFlags :=
      let r := (fp32.decode u.toNat).toInt m lo hi
      ((BitVec.ofInt 32 r.1).toNat, r.2)
    (ty = 0 → conv 16 32 true fun u => fp16.convert fp32 mode (nat 16 u)) ∧
    (ty = 1 → conv 16 32 true fun u => bf16.convert fp32 mode (nat 16 u)) ∧
    (ty = 2 → conv 32 16 true fun u => fp32.convert fp16 mode (nat 32 u)) ∧
    (ty = 3 → conv 32 16 true fun u => fp32.convert bf16 mode (nat 32 u)) ∧
    (ty = 4 → conv 32 64 true fun u => fp32.convert fp64 mode (nat 32 u)) ∧
    (ty = 5 → conv 64 32 true fun u => fp64.convert fp32 mode (nat 64 u)) ∧
    (ty = 6 → conv 32 32 true fun u => fp32.round mode (FV.ofInt u.toInt)) ∧
    (ty = 7 → conv 32 32 true fun u => fp32.round mode (FV.ofInt u.toNat)) ∧
    (ty = 8 → conv 32 32 true (int mode (-2 ^ 31) (2 ^ 31 - 1))) ∧
    (ty = 9 → conv 32 32 true (int .rtz (-2 ^ 31) (2 ^ 31 - 1))) ∧
    (ty = 10 → conv 32 32 true (int mode 0 (2 ^ 32 - 1))) ∧
    (ty = 12 → conv 8 32 false fun u => ((u.signExtend 32).toNat, 0)) ∧
    (ty = 13 → conv 8 32 false fun u => (u.toNat, 0)) ∧
    (ty = 14 → conv 32 8 false (clamp (-128) 127)) ∧
    (ty = 15 → conv 32 8 false (clamp 0 255))

/-- R180: VQNT and VDQN need lanes in whole groups of 32·2^VT[1:0], else they are illegal with 0x0108. VQNT writes the codes of
`quant_group` (R66) from byte 0, each group's record from byte 2·VL, the saturation count as a word at byte 3·VL, and zero
elsewhere. VDQN reads that layout, and gives each lane the dequantised element (R67). Neither is predicated or sets a flag. -/
def Sys2Proof.Claims.VectorQuantise : Prop :=
  ∀ (s t : State) (d a : Reg) (c ty : BitVec 4) (x : VReg), s.me.vl ≠ 0 →
    let group := 32 * 2 ^ (ty.toNat % 4)
    let w := if ty.getLsbD 2 then 4 else 8
    let n := s.me.vl
    (n % group ≠ 0 → Claims.illegal (.vqnt d a c ty) s 0x0108 ∧ Claims.illegal (.vdqn d a c ty) s 0x0108) ∧
    (n % group = 0 → n ≤ 256 → s.vread [a] = .ok (t, [x]) →
      (let q (j : Nat) := quantGroup ((List.range group).map fun i => (Claims.el 32 x (group * j + i)).toNat) (2 ^ w - 1)
       ∃ v, Claims.vectorGives (.vqnt d a c ty) c 12 t s (.v d v (laneMask n)) 0 false ∧
        (∀ e < n, Claims.el w v e = BitVec.ofNat w ((q (e / group)).1.getD (e % group) 0)) ∧
        (∀ j < n / group, Claims.el 32 v (n / 2 + j) = BitVec.ofNat 32 ((q j).2.2.1 * 2 ^ 16 + (q j).2.1)) ∧
        Claims.el 32 v (3 * n / 4) = BitVec.ofNat 32 (((List.range (n / group)).map fun j => (q j).2.2.2).sum) ∧
        ∀ j < 4 * n, w * n / 8 ≤ j → (j < 2 * n ∨ 2 * n + 4 * (n / group) ≤ j) → (j < 3 * n ∨ 3 * n + 4 ≤ j) →
          Claims.el 8 v j = 0) ∧
      ∃ v, Claims.vectorGives (.vdqn d a c ty) c 6 t s (.v d v (laneMask n)) 0 false ∧
        ∀ e < n, Claims.el 32 v e =
          let zp := (Claims.el 8 x (2 * n + 4 * (e / group) + 2)).toNat % 2 ^ w
          BitVec.ofNat 32 (dequant (Claims.el w x e).toNat (Claims.el 16 x (n + 2 * (e / group))).toNat zp))

/-- R181: VTOPK writes, into every lane, the indices of the active elements from lane 0 of `vb` on, in the fixed order: numbers
before NaNs, greater values first, equal values and NaNs among themselves by index (the wrapped index: the model's reading,
log 28); then 0xFFFF_FFFF. -/
def Sys2Proof.Claims.VectorTop : Prop :=
  ∀ (s t : State) (d a b : Reg) (p : BitVec 3) (c ty : BitVec 4) (x y : VReg), s.me.vl ≠ 0 → s.me.vl ≤ 256 →
    s.vread [a, b] = .ok (t, [x, y]) →
    let index (e : Nat) : Word := Claims.el 32 y 0 + BitVec.ofNat 32 e
    let first (e f : Nat) : Prop := (index e).toNat < (index f).toNat
    let gives (w : Nat) (before : Nat → Nat → Prop) : Prop :=
      let n := 32 * s.me.vl / w
      ∃ (v : VReg) (order : List Nat),
        Claims.vectorGives (.vtopk d a b p c ty) c (8 + n / 16) t s (.v d v (laneMask s.me.vl)) 0 false ∧
        order.Perm ((List.range n).filter fun e => Claims.on (s.me.p p) w e) ∧ order.Pairwise before ∧
        ∀ j < s.me.vl, Claims.el 32 v j = match order[j]? with
          | some e => index e
          | none => 0xFFFF_FFFF
    (ty.toNat < 8 →
      let w := 8 * 2 ^ (ty.toNat % 4)
      let num (u : BitVec w) : Int := if ty.toNat < 4 then u.toInt else u.toNat
      gives w fun e f =>
        let u := num (Claims.el w x e)
        let v := num (Claims.el w x f)
        v < u ∨ (v = u ∧ first e f)) ∧
    ∀ f : Fmt, (ty, f) ∈ [(8, fp16), (9, bf16), (10, fp32), (11, fp64)] →
      gives f.width fun e g =>
        let u := f.decode (Claims.el f.width x e).toNat
        let v := f.decode (Claims.el f.width x g).toNat
        (u.isNan = false ∧ v.isNan = true) ∨ (u.isNan = true ∧ v.isNan = true ∧ first e g) ∨
          (u.isNan = false ∧ v.isNan = false ∧ (v.cmp u < 0 ∨ (v.cmp u = 0 ∧ first e g)))

/-- R182: VCMPR writes one descriptor per row of 16 elements, with the index of the row's first entry and the number of its
nonzero elements, or 0xFF0F for the first row with more than 15 of them or too many for the room and for every row after it;
then, from the next whole word on, the rows' entries, each with its bits and its column; and zero elsewhere. Predicate P, if not
0, becomes all ones where a row was left out, else zero. -/
def Sys2Proof.Claims.VectorCompact : Prop :=
  ∀ (s t : State) (d a : Reg) (p : BitVec 3) (c ty : BitVec 4) (x : VReg), s.me.vl ≠ 0 → s.me.vl ≤ 256 → s.me.vl % 16 = 0 →
    ty ∈ [0, 1, 8, 9] → s.vread [a] = .ok (t, [x]) →
    let w := if ty = 0 then 8 else 16
    let rows := 32 * s.me.vl / w / 16
    let start := (2 * rows + 3) / 4
    let room := s.me.vl - start
    let hits (r : Nat) : List Nat := (List.range 16).filter fun j =>
      let u := (Claims.el w x (16 * r + j)).toNat
      if ty.toNat < 8 then u ≠ 0 else u % 2 ^ 15 ≠ 0
    let fits (off r : Nat) : Bool := (hits r).length ≤ 15 && off + (hits r).length ≤ room
    let state (r : Nat) : Nat × Bool := (List.range r).foldl
      (fun q j => if !q.2 && fits q.1 j then (q.1 + (hits j).length, false) else (q.1, true)) (0, false)
    ∃ v : VReg, exec (.vcmpr d a p c ty) s = .next (Claims.later 2 c.toNat 8 (.vcmpr d a p c ty)
        (.v d v (laneMask s.me.vl) :: if p = 0 then [] else [.p p (if (state rows).2 then predMask s.me.vl else 0)]) 0 false t) ∧
      (∀ r < rows, Claims.el 16 v r =
        if (state (r + 1)).2 then 0xFF0F else BitVec.ofNat 16 ((state r).1 * 2 ^ 8 + (hits r).length)) ∧
      (∀ r < rows, (state (r + 1)).2 = false → ∀ j e, (hits r)[j]? = some e →
        Claims.el 32 v (start + (state r).1 + j) = BitVec.ofNat 32 ((Claims.el w x (16 * r + e)).toNat * 2 ^ 16 + e)) ∧
      (2 * rows % 4 ≠ 0 → Claims.el 16 v rows = 0) ∧ ∀ j < s.me.vl, start + (state rows).1 ≤ j → Claims.el 32 v j = 0

/-- R186: the predicate instructions write predicate VD mod 8 for the next pair, PCNT the count of one bits in `gd` after two
cycles; a predicate is read as its low 4·VL bits (`p0` as ones). -/
def Sys2Proof.Claims.Predicates : Prop :=
  ∀ (s : State) (d a b : Reg) (c : BitVec 4), s.me.vl ≠ 0 →
    let p (r : Reg) : PReg := s.me.p (r.setWidth 3)
    let gives (i : Instr) (v : PReg) : Prop := exec i s = .next (Claims.atOnce 2 c.toNat i [.p (d.setWidth 3) v] s)
    gives (.pand d a b c) (p a &&& p b) ∧ gives (.por d a b c) (p a ||| p b) ∧ gives (.pxor d a b c) (p a ^^^ p b) ∧
    gives (.pnot d a c) (~~~(p a)) ∧ gives (.pset d c) (predMask s.me.vl) ∧
    exec (.pcnt d a c) s = .next (Claims.later 2 c.toNat 2 (.pcnt d a c)
      [.g d (BitVec.ofNat 64 ((List.range (4 * s.me.vl)).filter (p a).getLsbD).length)] 0 false s)

/-- R169: without lanes every vector and predicate word is illegal with 0x0107. -/
def Sys2Proof.Claims.WithoutLanes : Prop :=
  ∀ (s : State) (d a b : Reg) (p : BitVec 3) (c t : BitVec 4), s.me.vl = 0 →
    ∀ i ∈ [Instr.vadd d a b p c t, .vmadd d a b p c t, .vand d a b p c, .vabs d a p c t, .vfadd d a b p c t, .vfsqrt d a p c t,
      .vdot4 d a b p c t, .vred d a p c t, .vcmp d a b p c t, .vsel d a b p c t, .vcvt d a p c t, .vqnt d a c t, .vdqn d a c t,
      .vperm d a b p c t, .vbcast d a p c t, .vmovs d a c t, .vinss d a b p c t, .vtopk d a b p c t, .vcmpr d a p c t,
      .vhash d a p c t, .vbcmp d a b p c t, .imacc d p c, .pand d a b c, .por d a b c, .pxor d a b c, .pnot d a c,
      .pcnt d a c, .pset d c], Claims.illegal i s 0x0107

/-! ### Control -/

/-- R124: a branch goes on at its own pair plus eight times the displacement where its relation holds, else at the next pair;
nothing else changes. -/
def Sys2Proof.Claims.Branches : Prop :=
  ∀ (s : State) (l : Option Word) (a b : Reg) (d : BitVec 12),
    let x := s.me.g a
    let y := s.me.g b
    let gives (i : Instr) (taken : Prop) [Decidable taken] : Prop := exec i s = .next
      (Claims.ends s { s.me with npc := if taken then s.me.pc + 8 * d.signExtend 64 else s.me.pc + 8 })
    gives (.beq l a b d) (x = y) ∧ gives (.bne l a b d) (x ≠ y) ∧ gives (.blt l a b d) (x.toInt < y.toInt) ∧
    gives (.bge l a b d) (y.toInt ≤ x.toInt) ∧ gives (.bltu l a b d) (x.toNat < y.toNat) ∧
    gives (.bgeu l a b d) (y.toNat ≤ x.toNat) ∧ gives (.bz l a d) (x = 0) ∧ gives (.bnz l a d) (x ≠ 0)

/-- R125, R126: JMP and CALL go on at their pair plus eight times the displacement, and CALL writes the next pair's address
to `g31`; RET and JMPI go on at an address whose bits 2:0 are 0 and trap at issue with 0x0307 for any other. -/
def Sys2Proof.Claims.Jumps : Prop :=
  ∀ (s : State) (l : Option Word) (a : Reg) (d : BitVec 25),
    let target := s.me.pc + 8 * d.signExtend 64
    exec (.jmp l d) s = .next (Claims.ends s { s.me with npc := target }) ∧
    exec (.call l d) s = .next (Claims.ends s { s.me.setG 31 (s.me.pc + 8) with npc := target }) ∧
    (∀ i r, (i = .ret l ∧ r = 31) ∨ (i = .jmpi l a ∧ r = a) →
      let goal := s.me.g r
      (goal.extractLsb' 0 3 = 0 → exec i s = .next (Claims.ends s { s.me with npc := goal })) ∧
      (goal.extractLsb' 0 3 ≠ 0 → Claims.traps 1 0 i s .atIssue 0x0307 goal))

/-- R138, R141, R142: NOP changes nothing, IDEM notes the next pair, PRIO gives the firing the larger of C and its starting
class. -/
def Sys2Proof.Claims.PlainControl : Prop :=
  ∀ (s : State) (l : Option Word) (c : BitVec 2),
    exec .nopA s = .next (Claims.ends s s.me) ∧ exec .nopB s = .next (Claims.ends s s.me) ∧
    exec (.idem l) s = .next (Claims.ends s { s.me with idempc := s.me.pc + 8 }) ∧
    exec (.prio l c) s = .next (Claims.ends s { s.me with fir := { s.me.fir with cls := Nat.max c.toNat s.me.fir.base } })

/-- R105, R127, R128: END and ENDR wait for every pending result and then end the firing in one step. The core is idle without
lanes, its `v` and `p` registers and its Schur context are cleared and its queue is empty; `g`, its trap banks and FENV stay. -/
def Sys2Proof.Claims.FiringEnds : Prop :=
  ∀ (s : State) (l : Option Word), ∀ i ∈ [Instr.endFiring l, .endrFiring l],
    (s.me.pend ≠ [] → Claims.holds i s) ∧
    (s.me.pend = [] → ∃ t, exec i s = .next t ∧ t.cur = s.cur ∧
      let k := t.me
      k.status = .idle ∧ k.fir = Firing.none ∧ k.pend = [] ∧ k.faults = [] ∧ k.vl = 0 ∧ k.floor = 0 ∧ k.tlevel = 0 ∧
      k.regs.v = Vector.replicate 16 0 ∧ k.regs.p = Vector.replicate 8 0 ∧ k.regs.g = s.me.regs.g ∧ k.banks = s.me.banks ∧
      k.fenv = s.me.fenv ∧ k.schur = Schur.reset ∧ k.resq = [] ∧ k.fence = none ∧ k.iter = 0)

/-- R105, R135, R139, R140, R167, R398, R412: SAFE waits for every pending result; at a trap level it acts as NOP, inside a
speculation too (DEDUCED, log 18); inside a speculation below it traps with 0x0309; while a copy of the firing's own is
unfinished it only counts in SAFE_SKIP. Else the point is taken. The firing first gives up lanes above its floor for the unmet
demands of higher classes, rounded up to sixteens, and they are set aside for the cell's demands in class order, the oldest
first; then, where a switch is pending and the firing holds no bound context, no queued resolution and no banked request, it is
frozen with its live mask noted. With no demand and no switch it changes nothing. A live mask with bits above 23 is illegal. -/
def Sys2Proof.Claims.SafePoints : Prop :=
  ∀ (s : State) (a b c : Reg) (m : Word),
    (m.toNat < 2 ^ 24 ∨ (2 ^ 24 ≤ m.toNat ∧ Claims.illegal (.safeL a b c m) s 0x0108)) ∧
    ∀ i mask, (i = .safe ∧ mask = (-1, -1, -1)) ∨
        (i = .safeL a b c m ∧ m.toNat < 2 ^ 24 ∧ mask = (a ++ b ++ c, m.extractLsb' 0 16, m.extractLsb' 16 8)) →
      (s.me.pend ≠ [] → Claims.holds i s) ∧
      (s.me.pend = [] → s.me.tlevel ≠ 0 → exec i s = .next (Claims.ends s s.me)) ∧
      (s.me.pend = [] → s.me.tlevel = 0 → s.me.fir.spec = true → Claims.traps 1 0 i s .atIssue 0x0309 0) ∧
      (s.me.pend = [] → s.me.tlevel = 0 → s.me.fir.spec = false → s.me.copies.any (·.mine) = true → ∃ v,
        exec i s = .next (Claims.ends s { s.me with sched := v }) ∧ v.extractLsb' 0 48 = s.me.sched.extractLsb' 0 48 ∧
          v.toNat / 2 ^ 48 = Nat.min (s.me.sched.toNat / 2 ^ 48 + 1) 0xFFFF) ∧
      (s.me.pend = [] → s.me.tlevel = 0 → s.me.fir.spec = false → s.me.copies.any (·.mine) = false →
        (s.cell (s.cur / 8)).demands = [] → s.me.switching = false → exec i s = .next (Claims.ends s s.me)) ∧
      (s.me.pend = [] → s.me.tlevel = 0 → s.me.fir.spec = false → s.me.copies.any (·.mine) = false →
        let w := s.cell (s.cur / 8)
        let unmet (x : Demand) : Nat := x.lanes - tabGet 0 w.aside (x.core % 8)
        let asked := ((w.demands.filter fun x => decide (x.cls < s.classOf s.cur)).map unmet).sum
        let n := Nat.min (s.me.vl - s.me.floor) ((asked + 15) / 16 * 16)
        let busy := s.me.schur.bound.isSome = true ∨ s.me.resq ≠ [] ∨ s.me.bankUsed 1 = true ∨ s.me.bankUsed 2 = true
        ∃ t, exec i s = .next t ∧ t.mem = s.mem ∧ t.me.out = .ok ∧ t.me.npc = s.me.npc ∧ t.me.regs.g = s.me.regs.g ∧
          t.me.vl = s.me.vl - n ∧ t.me.floor = s.me.floor ∧
          (∀ r < 16, t.me.v (BitVec.ofNat 5 r) =
            if n = 0 then s.me.v (BitVec.ofNat 5 r) else s.me.v (BitVec.ofNat 5 r) &&& laneMask (s.me.vl - n)) ∧
          ((w.demands.map fun x => x.core % 8).Nodup → ∀ j x, w.demands[j]? = some x →
            let before := (w.demands.zipIdx.filter fun y => decide (y.1.cls < x.cls ∨ (y.1.cls = x.cls ∧ y.2 < j))).map
              fun y => unmet y.1
            tabGet 0 (t.cell (s.cur / 8)).aside (x.core % 8) =
              tabGet 0 w.aside (x.core % 8) + Nat.min (unmet x) (n - before.sum)) ∧
          (s.me.switching = false ∨ busy → t.me.frozen = s.me.frozen ∧ t.me.safeMask = s.me.safeMask) ∧
          (s.me.switching = true → ¬ busy → t.me.frozen = true ∧ t.me.safeMask = some mask))

/-- R21, R129, R130, R312: FORK pushes at the bottom of the core's deque an arm that holds the label and `g8` to `g15`, and the
core's earlier writes, its operations on codelet counters among them, are performed first: the model performs them in FORK's own
step (DEDUCED, log 72; DESIGN CHOICE, log 9). On a full deque the oldest arm moves to the spill area first, and where the area has
no record for it FORK traps with 0x0308 and pushes nothing. Inside a speculation it traps with 0x0309. -/
def Sys2Proof.Claims.ForkPushes : Prop :=
  ∀ (s : State) (l : Option Word) (d : BitVec 25),
    (s.me.fir.spec = true → Claims.traps 1 0 (.fork l d) s .atIssue 0x0309 0) ∧
    (s.me.fir.spec = false → s.me.arms.length < (s.me.entry 62).depthOf → ∃ t arm, exec (.fork l d) s = .next t ∧
      t.me.arms = arm :: s.me.arms ∧ t.me.regs = s.me.regs ∧ t.me.npc = s.me.npc ∧ t.me.out = .ok ∧
      arm.region = s.me.fir.region ∧ (∀ w ∈ t.writes, w.core ≠ s.cur) ∧ (∀ o ∈ t.depOps, o.core ≠ some s.cur) ∧
      arm.pay = (s.me.pc + 8 * d.signExtend 64) :: (List.range 8).map fun i => s.me.g (BitVec.ofNat 5 (8 + i))) ∧
    (s.me.fir.spec = false → (s.me.entry 62).depthOf ≤ s.me.arms.length → s.me.arms ≠ [] →
      ∀ id r, s.me.region = some id → s.region id = some r →
        (∀ u off, s.takeRecord r = some (u, off) → ∃ t arm, exec (.fork l d) s = .next t ∧ t.me.out = .ok ∧
          t.me.arms = arm :: s.me.arms.dropLast ∧ t.me.armList = off :: s.me.armList ∧ t.me.regs = s.me.regs ∧
          arm.pay = (s.me.pc + 8 * d.signExtend 64) :: (List.range 8).map fun i => s.me.g (BitVec.ofNat 5 (8 + i))) ∧
        (s.takeRecord r = none → Claims.trapsIn (s.spillFull r) 1 0 (.fork l d) s .atIssue 0x0308 0))

/-- R22, R132: with no write on its way and no copy of the core under way, JOIN on an aligned counter in the device's own plain
memory lowers it by one in its own step (DESIGN CHOICE, log 9; DEDUCED, log 72); the firing goes on at the label where the counter
was 1, and ends where it was not. On a peer's counter, whose packet may be lost, it does so too, or traps with MEM_REPLY (R425).
JOIN waits for pending results and traps after issue on a misaligned address. -/
def Sys2Proof.Claims.JoinCounts : Prop :=
  ∀ (s : State) (l : Option Word) (a : Reg) (d : BitVec 12), s.me.fir.spec = false →
    (s.me.pend ≠ [] → Claims.holds (.join l a d) s) ∧
    (s.me.pend = [] → (s.me.g a).toNat % 8 ≠ 0 → Claims.traps 1 0 (.join l a d) s .afterIssue 0x030B (s.me.g a)) ∧
    (∀ key, s.me.pend = [] → (s.me.g a).toNat % 8 = 0 → s.atomicKey s.cur (s.me.g a) = .ok key → queueOf key = none →
      isWindow key = false → Claims.calm s → s.me.copies = [] → s.me.arms.length ≤ (s.me.entry 62).depthOf → key % 8 = 0 →
      ∃ t, exec (.join l a d) s = .next t ∧ ((spaceOf key = 3 ∧ ∃ q ∈ t.me.faults, q.cause = 0x0306 ∧ q.val = s.me.g a) ∨
        (∀ j < 8, memGet t.mem (key + j) = BitVec.ofNat 8 ((s.homeNat key 8 + (2 ^ 64 - 1)) % 2 ^ 64 / 256 ^ j)) ∧
        (s.homeNat key 8 = 1 → t.me.npc = s.me.pc + 8 * d.signExtend 64 ∧ t.me.status = s.me.status) ∧
        (s.homeNat key 8 ≠ 1 → t.me.status = .idle)))

/-- R134: SPEC is illegal inside a speculation, writes 0 where the cell's window is off or in use, and else starts the
speculation and writes 1. -/
def Sys2Proof.Claims.SpeculationStarts : Prop :=
  ∀ (s : State) (l : Option Word) (d : Reg),
    let w := s.cell (s.cur / 8)
    (s.me.fir.spec = true → Claims.illegal (.spec l d) s 0x0107) ∧
    (s.me.fir.spec = false → (w.specEn = false ∨ w.specActive = true) →
      exec (.spec l d) s = .next (Claims.ends s (s.me.setG d 0))) ∧
    (s.me.fir.spec = false → w.specEn = true → w.specActive = false → s.writes = [] → s.depOps = [] →
      ∃ t, exec (.spec l d) s = .next t ∧
        t.me = { s.me.setG d 1 with fir := { s.me.fir with spec := true }, out := .ok, wait := none } ∧ t.mem = s.mem ∧
        t.cell (s.cur / 8) = { w with specActive := true, specOwner := s.cur % 8, specConflict := false, shadow := [] })

/-- R136: SCOMMIT and SABORT are illegal outside a speculation; after either the firing has none, and the window holds no line.
SABORT discards the lines, and so does SCOMMIT where a conflict was found, which writes 0. Else SCOMMIT writes 1 and makes each
line visible: its 32 bytes stand at its place in the slice, and, where no FENCE `.rel` carries the core's earlier writes (R314),
no other byte of memory changes. The lines are listed once each and lie in the slice's plain bytes. -/
def Sys2Proof.Claims.SpeculationEnds : Prop :=
  ∀ (s : State) (l : Option Word) (d : Reg),
    let w := s.cell (s.cur / 8)
    let line (n : Nat) : Nat := sramKey (s.cur / 8) (32 * n)
    let ended (t : State) (g : Core) : Prop := t.mem = s.mem ∧
      t.me = { g with fir := { s.me.fir with spec := false }, out := .ok, wait := none } ∧
      (t.cell (s.cur / 8)).specActive = false ∧ (t.cell (s.cur / 8)).shadow = [] ∧ t.writes = s.writes
    (s.me.fir.spec = false → Claims.illegal (.scommit l d) s 0x0107 ∧ Claims.illegal (.sabort l) s 0x0107) ∧
    (s.me.fir.spec = true → (∃ t, exec (.sabort l) s = .next t ∧ ended t s.me) ∧
      (w.specConflict = true → ∃ t, exec (.scommit l d) s = .next t ∧ ended t (s.me.setG d 0)) ∧
      (w.specConflict = false → ∃ t, exec (.scommit l d) s = .next t ∧ t.me.regs = (s.me.setG d 1).regs ∧
        t.me.fir.spec = false ∧ t.me.out = .ok ∧ (t.cell (s.cur / 8)).specActive = false ∧
        (t.cell (s.cur / 8)).shadow = [] ∧
        (s.cur < 8192 → s.me.rels = [] → memWf s.mem = true → s.bad = [] → (w.shadow.map (·.1)).Pairwise (· < ·) →
          (∀ x ∈ w.shadow, 32 * x.1 + 32 ≤ 0x1F_C000) →
          (∀ x ∈ w.shadow, ∀ j < 32, memGet t.mem (line x.1 + j) = x.2.extractLsb' (8 * j) 8) ∧
          ∀ u, (∀ x ∈ w.shadow, u < line x.1 ∨ line x.1 + 32 ≤ u) → memGet t.mem u = memGet s.mem u)))

/-- R137: SELB changes nothing where neither queue bank holds a stream or copy. Else it keeps bank 1 where `ga` is not 0 and bank
2 where it is: the kept bank's streams and copies become ordinary and stay as they are otherwise, and the other bank's are gone,
its epoch one higher; memory changes only where a copy of the other bank heads the FIFO. -/
def Sys2Proof.Claims.QueueBanks : Prop :=
  ∀ (s : State) (l : Option Word) (a : Reg),
    let keep := if s.me.g a = 0 then 2 else 1
    let drop := 3 - keep
    let bank (q : CopyReq) : Nat := if q.unbanked then 0 else q.ctl.toNat / 2 ^ 32 % 4
    let at' (k : Core) (n : Nat) : Option Stream := k.streams.toList.getD n none
    (s.me.bankUsed 1 = false → s.me.bankUsed 2 = false → exec (.selb l a) s = .next (Claims.ends s s.me)) ∧
    (s.me.bankUsed 1 = true ∨ s.me.bankUsed 2 = true → ∃ t, exec (.selb l a) s = .next t ∧ t.me.out = .ok ∧
      t.me.regs = s.me.regs ∧ t.me.bankUsed 1 = false ∧ t.me.bankUsed 2 = false ∧
      (∀ n < 8, at' t.me n = match at' s.me n with
        | none => none
        | some x => if x.bank = drop then none else if x.bank = keep then some { x with bank := 0 } else some x) ∧
      t.me.copies = (s.me.copies.filter fun q => decide (bank q ≠ drop)).map (fun q =>
        if bank q = keep then { q with unbanked := true } else q) ∧
      t.me.epochA = s.me.epochA + (if drop = 1 then 1 else 0) ∧ t.me.epochB = s.me.epochB + (if drop = 2 then 1 else 0) ∧
      ((∀ q, s.me.copies.head? = some q → bank q ≠ drop) → t.mem = s.mem))

/-- R174: REP that steps no field, with a count above 65,535, is illegal; with one that REPC.ITER has reached its word B never
issues, and ITER becomes 0; else the firing stays at the pair with the iterations to make, counted by ITER. -/
def Sys2Proof.Claims.Repeats : Prop :=
  ∀ (s : State) (a : Reg) (x y z : BitVec 1) (st : BitVec 4),
    let n := (s.me.g a).toNat
    (65535 < n → x = 0 → y = 0 → z = 0 → Claims.illegal (.rep a x y z st) s 0x0108) ∧
    (n = 0 → exec (.rep a x y z st) s = .next (Claims.ends s { s.me with iter := 0 })) ∧
    (x = 0 → y = 0 → z = 0 → 0 < n → n ≤ 65535 → n ≤ s.me.iter.toNat →
      exec (.rep a x y z st) s = .next (Claims.ends s { s.me with iter := 0 })) ∧
    (x = 0 → y = 0 → z = 0 → 0 < n → n ≤ 65535 → s.me.iter.toNat < n → exec (.rep a x y z st) s =
      .next (Claims.ends s { s.me with
        npc := s.me.pc, rep := some ⟨s.me.iter.toNat, n, st.toNat, false, false, false, s.me.fetched⟩ }))

/-! ### System registers and lanes -/

/-- R158, R161: MFS and MTS of FENV are held while a floating-point result pends. MFS of a core register writes its value for
the next pair. That of a cell register pends for three cycles, and its read takes, two cycles after issue, what stands there
then. An MTS of a core register takes effect at once, and one of a cell register is on its way for two cycles. -/
def Sys2Proof.Claims.RegisterMoves : Prop :=
  ∀ (s : State) (l : Option Word) (d a : Reg) (c : BitVec 4) (n : BitVec 11),
    let v := s.me.g a
    let cellReg := n = 0x40 ∨ (0x80 ≤ n.toNat ∧ n.toNat < 0xA0)
    (s.me.pend.any (fun p => p.fp && p.who.ord < s.me.words) = true → n = 0 →
      Claims.holds (.mfs l d c n) s ∧ Claims.holds (.mts l a n) s) ∧
    (s.me.fpPending = false → ¬cellReg →
      exec (.mfs l d c n) s = .next (Claims.atOnce 1 c.toNat (.mfs l d c n) [.g d (s.sysRead s.cur n.toNat)] s) ∧
      exec (.mts l a n) s = .next (Claims.ends s (s.me.sysWrite n.toNat v))) ∧
    (cellReg → exec (.mfs l d c n) s = .next (Claims.later 1 c.toNat 3 (.mfs l d c n) [.g d 0] 0 false s) ∧
      (∀ p, s.me.pend = [p] → p.who.instr = .mfs l d c n → p.writes = [.g d 0] → p.waits = none → p.issued + 2 = s.cycle + 1 →
        ∃ q, (s.tick.core s.cur).pend = [q] ∧ q.writes = [.g d ((s.cell (s.cur / 8)).sysRead n.toNat)] ∧ q.due = p.due) ∧
      ∃ t, exec (.mts l a n) s = .next t ∧ t.me = { s.me with out := .ok, wait := none } ∧
        (t.cell (s.cur / 8)).sysWrites = (s.cell (s.cur / 8)).sysWrites ++ [⟨n.toNat, v, s.cycle + 2, s.cur⟩])

/-- R51, R57, R59, R108, R118, R133, R159, R168, R395: what the system registers read as, and what a write makes of their fields.
FENV's flags are cleared by ones and FRM is set; LACNT, SCHED, REPC.ITER and the trap banks take the fields that software
writes; a read-only register discards a write. -/
def Sys2Proof.Claims.RegisterFields : Prop :=
  ∀ (s : State) (v : Dword),
    (∀ k : Core, (k.sysWrite 0 v).fenv = ((k.fenv &&& ~~~v) &&& 0x1F) ||| (v &&& 0x300) ∧ (k.sysWrite 1 v).lacnt = v ∧
      (k.sysWrite 2 v).sched = v &&& 0xFFFF_FF00_00FF_FFFF ∧ (k.sysWrite 3 v).iter = v.setWidth 16 ∧
      (∀ m ∈ [4, 5, 6, 7, 0x10], k.sysWrite m v = k) ∧
      ∀ lvl ∈ [1, 2],
        let b := k.bank lvl
        let base := 0x10 + 8 * lvl
        ((k.sysWrite base v).bank lvl).cause = v &&& 0xFFFF ∧
        ((k.sysWrite (base + 1) v).bank lvl).epc = v &&& 0x00FF_FFFF_FFFF_FFF8 ∧ ((k.sysWrite (base + 2) v).bank lvl).val = v ∧
        ((k.sysWrite (base + 3) v).bank lvl).status.extractLsb' 0 56 = (v &&& 0x00FF_FFFF_FFFF_FFF9).extractLsb' 0 56 ∧
        ((k.sysWrite (base + 3) v).bank lvl).status.toNat / 2 ^ 58 = b.status.toNat / 2 ^ 58 ∧
        ((k.sysWrite (base + 3) v).bank lvl).status.toNat / 2 ^ 56 % 4 =
          (if v.toNat / 2 ^ 56 % 4 = 3 then b.status.toNat / 2 ^ 56 % 4 else v.toNat / 2 ^ 56 % 4) ∧
        ((k.sysWrite (base + 4) v).bank lvl).save = v &&& 0x00FF_FFFF_FFFF_FE00) ∧
    s.sysRead s.cur 0 = s.me.fenv ∧ s.sysRead s.cur 1 = s.me.lacnt ∧ s.sysRead s.cur 4 = s.me.idempc ∧
    s.sysRead s.cur 6 = BitVec.ofNat 64 s.cycle ∧ s.sysRead s.cur 0x10 = BitVec.ofNat 64 s.me.tlevel ∧
    s.sysRead s.cur 3 = BitVec.ofNat 64 (s.me.vl * 2 ^ 32 + s.me.floor / 16 * 2 ^ 16 + s.me.iter.toNat) ∧
    ∀ w : Cell, (w.specOwner < 8 → w.specBank < 32 → (w.sysRead 0x40).toNat =
        w.specOwner * 2 ^ 11 + (if w.specConflict then 2 ^ 10 else 0) + (if w.specActive then 2 ^ 9 else 0) +
          (if w.specEn then 2 ^ 8 else 0) + w.specBank) ∧
      (∀ m < 32, w.sysRead (0x80 + m) = tabGet 0 w.bfmt m) ∧
      (w.specActive = true → w.sysWrite 0x40 v = w) ∧
      (w.specActive = false → (w.sysWrite 0x40 v).specEn = v.getLsbD 8 ∧ (w.sysWrite 0x40 v).specBank = v.toNat % 32)

/-- R164, R165: LCLAIM takes a multiple of 16 up to 256 and a floor of at most 16 sixteens, or is illegal with 0x0108. It grants
the least of what is asked, the cap of R31 beyond VL, and the cell's free lanes (those that no firing holds and that are not
set aside for another core), rounded down to sixteens, and writes the grant three cycles later. LREL returns a multiple of 16
no greater than VL. -/
def Sys2Proof.Claims.LanePool : Prop :=
  ∀ (s : State) (l : Option Word) (d a : Reg) (c : BitVec 4) (f : BitVec 6),
    let q := (s.me.g a).toNat
    let base := s.cur / 8 * 8
    let held := ((List.range 8).map fun i => (s.core (base + i)).vl).sum
    let aside := (((s.cell (s.cur / 8)).aside.filter fun x => decide (x.1 ≠ s.cur % 8)).map (·.2)).sum
    let g := Nat.min q (Nat.min (s.laneCap s.me.region - s.me.vl) (256 - held - aside)) / 16 * 16
    ((16 < f.toNat ∨ q % 16 ≠ 0 ∨ 256 < q) → Claims.illegal (.lclaim l d a c f) s 0x0108) ∧
    (f.toNat ≤ 16 → q % 16 = 0 → q ≤ 256 → ∃ t, exec (.lclaim l d a c f) s = .next t ∧
      t.me.vl = s.me.vl + g ∧ t.me.floor = Nat.min (16 * f.toNat) t.me.vl ∧ t.me.regs = s.me.regs ∧ t.mem = s.mem ∧
      ∃ p, t.me.pend = s.me.pend ++ [p] ∧ p.writes = [.g d (BitVec.ofNat 64 g)] ∧ p.due = s.cycle + 3) ∧
    ((q % 16 ≠ 0 ∨ s.me.vl < q) → Claims.illegal (.lrel l a) s 0x0108) ∧
    (q % 16 = 0 → q ≤ s.me.vl → ∃ t, exec (.lrel l a) s = .next t ∧ t.me.vl = s.me.vl - q ∧
      t.me.floor = Nat.min s.me.floor (s.me.vl - q) ∧ t.me.regs.g = s.me.regs.g ∧ t.mem = s.mem ∧
      ∀ r < 16, (t.me.v (BitVec.ofNat 5 r)) = s.me.v (BitVec.ofNat 5 r) &&& laneMask (s.me.vl - q))

/-! ### Traps and the window -/

/-- R396, R397: below level 2 with the next level enabled, TAKING A TRAP writes the level's TCAUSE, TEPC, TVAL and the fields
WORD, NWIN and RESUME of its TSTATUS, raises TLEVEL and goes on at ENTRY; EN, ENTRY and every register stay, and no other
core and no memory changes. -/
def Sys2Proof.Claims.TakeTrap : Prop :=
  ∀ (s : State) (c : Nat) (q : TrapReq) (r : Option Replay),
    let k := s.core c
    let b := k.bank (k.tlevel + 1)
    k.tlevel ≤ 1 → b.status.getLsbD 0 = true → q.who.word < 4 →
      let t := s.takeTrap c q r
      let m := t.core c
      let e := m.bank m.tlevel
      m.tlevel = k.tlevel + 1 ∧ e.cause = BitVec.ofNat 64 (q.cause % 2 ^ 16) ∧
      e.epc = q.who.pc &&& 0x00FF_FFFF_FFFF_FFF8 ∧ e.val = q.val ∧ e.save = b.save ∧
      e.status.extractLsb' 0 56 = b.status.extractLsb' 0 56 ∧ e.status.toNat / 2 ^ 62 = q.who.word ∧
      e.status.toNat / 2 ^ 56 % 4 = (match q.kind with
        | .atIssue | .fetch => 0
        | .afterIssue => 1
        | .trapInstr => 2) ∧
      m.pc = b.status &&& 0x00FF_FFFF_FFFF_FFF8 ∧ m.npc = m.pc ∧ m.regs = k.regs ∧ m.vl = k.vl ∧ m.fenv = k.fenv ∧
      m.faults = [] ∧ t.mem = s.mem ∧ ∀ j, j ≠ c → t.core j = s.core j

/-- R401–R403: TRAP waits for pending results and traps with 0x0400 + N and `ga`; TRET is illegal at level 0, and else falls one
level and goes on as RESUME says, at TEPC, at the pair after it, or with the replay; BRK and HALT halt the firing. -/
def Sys2Proof.Claims.TrapInstructions : Prop :=
  ∀ (s : State) (l : Option Word) (a : Reg) (n : BitVec 6),
    (s.me.pend ≠ [] → ∀ i ∈ [Instr.trap l a n, .brk l n, .halt l a], Claims.holds i s) ∧
    (s.me.tlevel = 0 → Claims.illegal (.tret l) s 0x0107) ∧
    (s.me.tlevel ≠ 0 → s.me.pend ≠ [] → Claims.holds (.tret l) s) ∧
    (s.me.pend = [] →
      Claims.traps 1 0 (.trap l a n) s .trapInstr (0x0400 + n.toNat) (s.me.g a) ∧
      (∃ t, exec (.brk l n) s = .next (Claims.ends t t.me) ∧ t = s.haltNow s.cur 0x0201 1 (n.setWidth 64) s.me.fetched) ∧
      (∃ t, exec (.halt l a) s = .next (Claims.ends t t.me) ∧ t = s.haltNow s.cur 0x0202 1 (s.me.g a) s.me.fetched) ∧
      (s.me.tlevel ≠ 0 →
        let b := s.me.bank s.me.tlevel
        let k := { s.me with tlevel := s.me.tlevel - 1 }
        (b.resume = 0 → exec (.tret l) s = .next (Claims.ends s { k with npc := b.epc })) ∧
        (b.resume = 2 → exec (.tret l) s = .next (Claims.ends s { k with npc := b.epc + 8 })) ∧
        (∀ r, b.resume = 1 → s.me.replays.toList.getD (s.me.tlevel - 1) none = some r → s.me.tlevel ≤ 2 →
          ∃ v, exec (.tret l) s = .next (Claims.ends s { k with npc := r.resume, replay := some r, replays := v }))))

/-- R112, R113, R115, R404: a firing that halts keeps its registers, and its STATUS names the cause; nothing of its control is left
under way. A report of TYPE 10 with R113's payload goes to channel 0 of the region's supervisor. Where the supervisor is the
halting core itself, or stands on a die that is not live, the region's fault domain ends instead. -/
def Sys2Proof.Claims.HaltFreezes : Prop :=
  ∀ (s : State) (c cause word id : Nat) (detail pair : Dword) (r : Region),
    let k := s.core c
    let t := s.haltNow c cause word detail pair
    let m := t.core c
    k.region.getD k.fir.region = id → s.region id = some r →
      (r.supervisor ≠ c → s.isLive (r.supervisor / 2048) = true → s.device < 2 ^ 13 → r.supervisor < 2 ^ 13 → c < 2 ^ 13 →
        cause < 2 ^ 16 → word < 4 →
        m.status = .halted cause ∧ m.regs = k.regs ∧ m.pc = k.pc ∧ m.vl = k.vl ∧ m.banks = k.banks ∧ m.tlevel = k.tlevel ∧
        m.pend = k.pend ∧ m.halt = none ∧ m.faults = [] ∧ m.rep = none ∧ t.mem = s.mem ∧
        (∀ j, j ≠ c → t.core j = s.core j) ∧
        ∃ q, t.net = s.net ++ [q] ∧ hdrType q.hdr = 10 ∧ q.dst.toNat = s.tag r.supervisor 0 ∧ q.src = some c ∧
          q.pay = [BitVec.ofNat 64 (cause * 2 ^ 48 + id % 2 ^ 16 * 2 ^ 32 + c * 2 ^ 16 + word), k.pc, pair, detail,
            BitVec.ofNat 64 s.time]) ∧
      (r.supervisor = c ∨ s.isLive (r.supervisor / 2048) = false → r.state < 2 →
        ∃ q, t.region id = some q ∧ q.state = 3 ∧ q.placed = [])

/-- R405, R407: the window instructions are illegal with 0x0108 on a `gb` that breaks its layout or names a core of a region that
the issuing core does not supervise. Else they trap after issue with 0x030E and TVAL 0, since no virtual address faults (R395),
where the core's die is not live, and with 0x0319 and `gb` where no firing is halted there. That its faults are traps after
issue is DEDUCED (log 32). -/
def Sys2Proof.Claims.WindowChecks : Prop :=
  ∀ (s : State) (l : Option Word) (d a b : Reg) (c : BitVec 4) (r : BitVec 1),
    let gb := s.me.g b
    let core := gb.toNat % 2 ^ 13
    let index := gb.toNat / 2 ^ 16
    let k := s.core core
    let all := [Instr.hwinr l d b c, .hwinw l a b, .hresume l a b, .ckill l b r]
    ((2 ^ 32 ≤ gb.toNat ∨ gb.toNat / 2 ^ 13 % 8 ≠ 0) → ∀ i ∈ all, Claims.illegal i s 0x0108) ∧
    (index ≠ 0 → ∀ i ∈ [Instr.hresume l a b, .ckill l b r], Claims.illegal i s 0x0108) ∧
    (∀ id x, k.region = some id → s.region id = some x → x.supervisor ≠ s.cur → ∀ i ∈ all, Claims.illegal i s 0x0108) ∧
    (gb.toNat < 2 ^ 32 → gb.toNat / 2 ^ 13 % 8 = 0 →
      (∀ id x, k.region = some id → s.region id = some x → x.supervisor = s.cur) →
      (s.isLive (core / 2048) = false → index = 0 → ∀ i ∈ all, ∃ la, Claims.traps 1 la i s .afterIssue 0x030E 0) ∧
      (s.isLive (core / 2048) = true → index = 0 →
        ((s.me.g a).toNat % 8 ≠ 0 → Claims.traps 1 0 (.hresume l a b) s .afterIssue 0x0307 (s.me.g a)) ∧
        (k.isHalted = false → Claims.traps 1 c.toNat (.hwinr l d b c) s .afterIssue 0x0319 gb ∧
          Claims.traps 1 0 (.hwinw l a b) s .afterIssue 0x0319 gb ∧ Claims.traps 1 0 (.ckill l b r) s .afterIssue 0x0319 gb ∧
          ((s.me.g a).toNat % 8 = 0 → Claims.traps 1 0 (.hresume l a b) s .afterIssue 0x0319 gb))))

/-- R406: what each index of a core's window reads as; an index that the table does not list reads 0. -/
def Sys2Proof.Claims.WindowTable : Prop :=
  ∀ (s : State) (c : Nat),
    let k := s.core c
    (∀ x < 32, s.winRead c x = k.g (BitVec.ofNat 5 x)) ∧ s.winRead c 0x20 = k.pc ∧
    (∀ e, k.status = .halted e → e < 2 ^ 16 → k.tlevel < 4 →
      s.winRead c 0x21 = BitVec.ofNat 64 (e * 2 ^ 48 + k.region.getD 0 % 2 ^ 16 * 2 ^ 32 + k.tlevel)) ∧
    (∀ x < 32, (s.winRead c 0x22).getLsbD x = k.pend.any (·.hasDest [.g (BitVec.ofNat 5 x)])) ∧
    (∀ x < 16, (s.winRead c 0x23).getLsbD x = k.pend.any (·.hasDest [.v (BitVec.ofNat 5 x)])) ∧
    (∀ x < 8, (s.winRead c 0x23).getLsbD (16 + x) = k.pend.any (·.hasDest [.p (BitVec.ofNat 3 x)])) ∧
    (∀ x < 0xA0, s.winRead c (0x100 + x) = s.sysRead c x) ∧
    (∀ v < 16, ∀ j < 128, s.winRead c (0x1000 + 128 * v + j) =
      if j < k.vl / 2 then (k.v (BitVec.ofNat 5 v)).extractLsb' (64 * j) 64 else 0) ∧
    (∀ p < 8, ∀ j < 16, s.winRead c (0x1800 + 16 * p + j) =
      if j < (k.vl + 15) / 16 then (k.p (BitVec.ofNat 3 p)).extractLsb' (64 * j) 64 else 0) ∧
    (∀ a < 4, ∀ j < 256, s.winRead c (0x2000 + 256 * a + j) =
      ((vget 0 k.mq.shown a).extractLsb' (32 * j) 32).setWidth 64) ∧
    (∀ x < 8, s.winRead c (0x2400 + x) = s.streamStat c x) ∧ s.winRead c 0x2410 = k.copyStat ∧
    (∀ n < 16, ∀ q, k.copies[n]? = some q → s.winRead c (0x2500 + 4 * n) = q.src ∧ s.winRead c (0x2501 + 4 * n) = q.dst ∧
      s.winRead c (0x2502 + 4 * n) = q.ctl ∧ s.winRead c (0x2503 + 4 * n) = q.target) ∧
    ∀ x, (0x24 ≤ x ∧ x < 0x100) ∨ (0x1A0 ≤ x ∧ x < 0x1000) ∨ (0x1880 ≤ x ∧ x < 0x2000) ∨ 0x2540 ≤ x → s.winRead c x = 0

/-- R406–R410: on a halted core that the issuing core supervises, HWINR's reply brings the value at its index; HWINW writes a `g`
register there, whose pending result is cancelled, or a doubleword of a vector register, and to an index that takes no write
does nothing; HRESUME lets the firing run at `ga`, with its registers as they stand; CKILL ends it. HWINW to STOP halts a running
firing, whose results stay pending, and changes nothing at a core without one. That the effect on the halted core falls in the
issuing step, with the reply to follow, is the model's reading (DEDUCED, log 32). -/
def Sys2Proof.Claims.WindowActs : Prop :=
  ∀ (s : State) (l : Option Word) (d a b : Reg) (c : BitVec 4) (r : BitVec 1) (id : Nat) (x : Region),
    let gb := s.me.g b
    let core := gb.toNat % 2 ^ 13
    let index := gb.toNat / 2 ^ 16
    let k := s.core core
    gb.toNat < 2 ^ 32 → gb.toNat / 2 ^ 13 % 8 = 0 → k.region = some id → s.region id = some x → x.supervisor = s.cur →
    core ≠ s.cur → s.isLive (core / 2048) = true →
      (k.isHalted = true →
        (∃ t p, exec (.hwinr l d b c) s = .next t ∧ t.me.pend = s.me.pend ++ [p] ∧
          p.writes = [.g d (s.winRead core index)] ∧ p.fault = none ∧ t.core core = k ∧ t.mem = s.mem) ∧
        (index < 32 → ∃ t, exec (.hwinw l a b) s = .next t ∧ t.mem = s.mem ∧
          (t.core core).regs = (k.setG (BitVec.ofNat 5 index) (s.me.g a)).regs ∧ (t.core core).status = k.status ∧
          ∀ p ∈ (t.core core).pend, ∀ w ∈ p.writes, w.isDest (.g (BitVec.ofNat 5 index)) = false) ∧
        (∀ v < 16, ∀ j < 128, index = 0x1000 + 128 * v + j → ∃ t, exec (.hwinw l a b) s = .next t ∧ t.mem = s.mem ∧
          (t.core core).regs.g = k.regs.g ∧ ∀ m < 128, ((t.core core).v (BitVec.ofNat 5 v)).extractLsb' (64 * m) 64 =
            if m = j ∧ j < k.vl / 2 then s.me.g a else (k.v (BitVec.ofNat 5 v)).extractLsb' (64 * m) 64) ∧
        (index ∈ [0x20, 0x21, 0x22, 0x23, 0x24, 0x2410] → ∃ t, exec (.hwinw l a b) s = .next t ∧ t.core core = k ∧
          t.mem = s.mem) ∧
        (index = 0 → (s.me.g a).toNat % 8 = 0 → ∃ t, exec (.hresume l a b) s = .next t ∧ t.mem = s.mem ∧
          (t.core core).status = .running ∧ (t.core core).pc = s.me.g a ∧ (t.core core).regs = k.regs ∧
          (t.core core).tlevel = k.tlevel ∧ (t.core core).vl = k.vl ∧ (t.core core).pend = k.pend) ∧
        (index = 0 → ∃ t, exec (.ckill l b r) s = .next t ∧ (t.core core).status = .idle ∧ (t.core core).vl = 0 ∧
          (t.core core).pend = [] ∧ (t.core core).fir = Firing.none ∧ (t.core core).regs.g = k.regs.g)) ∧
      (index = 0x24 → k.status = .running → k.replay = none → s.isLive (s.cur / 2048) = true → ∃ t,
        exec (.hwinw l a b) s = .next t ∧ t.mem = s.mem ∧ (t.core core).status = .halted 0x0203 ∧
        (t.core core).regs = k.regs ∧ (t.core core).pc = k.pc ∧ (t.core core).pend = k.pend) ∧
      (index = 0x24 → k.status ≠ .running → ∃ t, exec (.hwinw l a b) s = .next t ∧ t.core core = k ∧ t.mem = s.mem)

/-! ### Memory -/

/-- R188, R189, R192–R194: an address with a bit above 55 gives XLATE; one below 0x20_0000 is the executing cell's own SRAM,
whatever the tables say; a region without a root translates nothing else. Any other address takes the leaf entry that the
cell's cache holds for its page, or else the one that a walk finds; a write needs the entry's W and a fetch its X. -/
def Sys2Proof.Claims.Translates : Prop :=
  ∀ (s : State) (root cell va : Nat) (acc : Acc), cell < 1024 →
    (2 ^ 56 ≤ va → s.xlate root cell va acc = .error 0x030C) ∧
    (va < 0x20_0000 → s.isLive (cell / 256) = true → s.xlate root cell va acc = .ok (sramKey cell va)) ∧
    (va < 0x20_0000 → s.isLive (cell / 256) = false → s.xlate root cell va acc = .error 0x030E) ∧
    (0x20_0000 ≤ va → s.xlate 0 cell va acc = .error 0x030C) ∧
    (∀ key, s.xlate root cell va acc = .ok key → 0x20_0000 ≤ va → ∃ e pa, s.leaf root cell va = .ok (e, pa) ∧
      (acc = .write → e / 4 % 2 = 1) ∧ (acc = .exec → e / 8 % 2 = 1) ∧ s.canon cell pa = some key) ∧
    ((s.cell cell).tlb.find? (·.covers root va) = none → s.leaf root cell va = s.walk va 4 1 root) ∧
    (∀ t, (s.cell cell).tlb.find? (·.covers root va) = some t →
      s.leaf root cell va = .ok (t.entry, t.entry / 256 * 256 + va % 2 ^ t.shift))

/-- R190–R192: a walk of `root` for `va` finds the leaf `e` and the physical address `pa` where the entries on its way, each of the
table and the index that its level gives, are valid, with their reserved bits 0 and PAs aligned for the table or page they name,
pass down to a leaf at level 2, 3 or 4 whose page lies in spaces 1 to 4. Any other walk gives XLATE. A table stands in space 1 or
2 at an address of the map on a live die, outside the management window, and is aligned to its size. -/
def Sys2Proof.Claims.WalkLayout : Prop :=
  ∀ (s : State) (root va e pa table : Nat),
    let shift (l : Nat) : Nat := [0, 39, 30, 21, 16].getD l 0
    let bits (l : Nat) : Nat := [0, 17, 9, 9, 5].getD l 0
    let size (l : Nat) : Nat := [0, 2 ^ 20, 2 ^ 12, 2 ^ 12, 2 ^ 8].getD l 0
    let base (entry : Nat) : Nat := entry / 2 ^ 8 * 2 ^ 8
    let reads (l place entry : Nat) : Prop := ∃ key, s.tableKey place = some key ∧ place % size l = 0 ∧
      entry = s.homeNat (key + 8 * (va / 2 ^ shift l % 2 ^ bits l)) 8 ∧ entry % 2 = 1 ∧ entry / 2 ^ 4 % 2 ^ 4 = 0
    (s.walk va 4 1 root = .ok (e, pa) ↔ ∃ (n : Nat) (place entry : Nat → Nat), n ∈ [2, 3, 4] ∧ place 1 = root ∧
      (∀ l, 1 ≤ l → l < n → reads l (place l) (entry l) ∧ entry l / 2 % 2 = 0 ∧ base (entry l) % size (l + 1) = 0 ∧
        place (l + 1) = base (entry l)) ∧
      reads n (place n) e ∧ e / 2 % 2 = 1 ∧ base e % 2 ^ shift n = 0 ∧ 1 ≤ base e / 2 ^ 60 ∧ base e / 2 ^ 60 ≤ 4 ∧
      pa = base e + va % 2 ^ shift n) ∧
    (∀ c, s.walk va 4 1 root = .error c → c = 0x030C) ∧
    s.tableKey table =
      if (table / 2 ^ 60 = 1 ∧ table % 2 ^ 60 < 2 ^ 31 ∧ s.isLive (table % 2 ^ 60 / 2 ^ 29) = true) ∨
        (table / 2 ^ 60 = 2 ∧ isWindow table = false ∧ table % 2 ^ 60 < 768 * 2 ^ 30 ∧
          s.isLive (table % 2 ^ 60 / (192 * 2 ^ 30)) = true)
      then some table else none

/-- Translation, and the walk of its tables: `Claims.Translates`, `Claims.WalkLayout`, whose docstrings name the rules. -/
def Obligations.Translation : Prop :=
  Claims.Translates ∧ Claims.WalkLayout

/-- R201: what a load of core `s.cur` may return for the byte at `u`. Where more than one write may be returned, it is the byte of one
that `State.returnable` lists; elsewhere it is the byte as the firing reads it. -/
def Sys2Proof.Claims.mayRead (s : State) (u : Nat) (x : Byte) : Prop :=
  if s.openByte s.cur u = false ∨ s.returnable s.cur u = [] then x = s.firingByte s.cur u
  else ∃ o ∈ s.returnable s.cur u, x = match o with
    | none => s.firingByte s.cur u
    | some w => (w.byteAt u).getD 0

/-- R202: what an acquire of core `s.cur` at a scope has made of the writes on their way that the core has observed and that `hit`
picks: those of cores in its scope are performed in `t`, and so is what they carry where they are releases at a scope of both. -/
def Sys2Proof.Claims.acquired (s t : State) (scope : Nat) (hit : Write → Bool) : Prop :=
  ∀ w ∈ s.writes, w.core ≠ s.cur → w.id ∈ t.me.seen → w.bytes ≠ [] → hit w = true → inScope scope w.core s.cur = true →
    w ∉ t.writes ∧ ∀ r ∈ w.rel, inScope r.1 w.core s.cur = true → ∀ m ∈ s.writes, m.core = w.core → m.id < r.2 → m ∉ t.writes

/-- R205: the same for a load that has `.i` or not. -/
def Sys2Proof.Claims.mayLoad (s : State) (inv : Bool) (u : Nat) (x : Byte) : Prop :=
  if inv = true ∧ 0 < s.pastLength s.cur then ∃ k ≤ s.pastLength s.cur, x = s.pastByte s.cur k u else Claims.mayRead s u x

/-- R201: a read of core `c` may return a write of the byte, on its way or performed, before which the core has observed none that
is ordered after it. What the home holds counts beside them only where no performed write that is still known gave it and the
core has observed none. A byte that only one write can give is no choice. -/
def Sys2Proof.Claims.Returnable : Prop :=
  ∀ (s : State) (c u : Nat),
    let here := (s.hist ++ s.writes).filter (·.has u)
    (∀ w, some w ∈ s.returnable c u ↔ w ∈ here ∧ ∀ m ∈ here, m.core = c ∨ m.id ∈ (s.core c).seen →
      (w.core = m.core → m.id ≤ w.id) ∧ (w.core ≠ m.core → w.id ∉ m.known)) ∧
    (none ∈ s.returnable c u ↔ (∀ w ∈ s.hist, w.has u = false) ∧
      ∀ w ∈ s.writes, w.has u = true → w.core ≠ c ∧ w.id ∉ (s.core c).seen)

/-- R196, R197, R199, R201–R203, R205: LD, LDS and LDA of `2^z` bytes trap after issue with 0x030B on a misaligned address; on a fault of
translation the reply brings it; else the reply brings bytes that the core may read (`mayRead`, R201), zero- or sign-extended;
with `.i` (R205), each byte as it is or as it stood before one of the overwrites that the region's run has seen. That they are
taken in the issuing step, and which the `.i` bytes are, is the model's choice (DESIGN CHOICE, logs 9 and 76; DEDUCED, log 8). No
register but the pending destination changes, and no memory, but that an acquire at a scope has the writes performed that it has
read and, where one is a release at a scope that holds both cores, what that carries (R202). -/
def Sys2Proof.Claims.Loads : Prop :=
  ∀ (s : State) (l : Option Word) (d b : Reg) (c sc : BitVec 4) (m : BitVec 1) (z : BitVec 2) (o : BitVec 8),
    let n := 2 ^ z.toNat
    let full := match l with
      | some x => s.me.g b + x.signExtend 64
      | none => s.me.g b + BitVec.ofNat 64 (o.toNat * n)
    let plain := match l with
      | some x => s.me.g b + x.signExtend 64
      | none => s.me.g b
    let gives (i : Instr) (va : Dword) (acq : Option Nat) (inv : Bool) (ext : BitVec (8 * n) → Dword) : Prop :=
      (va.toNat % n ≠ 0 → Claims.traps 1 c.toNat i s .afterIssue 0x030B va) ∧
      (va.toNat % n = 0 → ∃ (t : State) (p : Pend) (l : List Pend), exec i s = .next t ∧ p.kind = .reply ∧
        p.acq = acq.isSome ∧ (∀ x ∈ s.me.seen, x ∈ t.me.seen) ∧ t.me.pend = l ++ [p] ∧ t.me.regs = s.me.regs ∧
        (acq = none ∨ s.writes = [] → t.mem = s.mem ∧ t.writes = s.writes ∧
          t.me = { s.me with pend := s.me.pend ++ [p], out := .ok, wait := none, seen := t.me.seen }) ∧
        match s.xlate (s.rootOf s.cur) (s.cur / 8) va.toNat .read with
        | .error e => p.fault = some (e, va) ∧ t.mem = s.mem
        | .ok key => p.fault = none ∧
            (∃ v : BitVec (8 * n), p.writes = [.g d (ext v)] ∧
              ∀ j < n, Claims.mayLoad s inv (key + j) (v.extractLsb' (8 * j) 8)) ∧
            ∀ scope, acq = some scope → Claims.acquired s t scope fun w => (List.range n).any fun j => w.has (key + j))
    gives (.ld l d b c m z o) full none (m = 1) (fun v => v.setWidth 64) ∧
    gives (.lds l d b c m z o) full none (m = 1) (fun v => v.signExtend 64) ∧
    gives (.lda l d b c sc z) plain (some sc.toNat) false (fun v => v.setWidth 64) ∧
    (∀ key, s.pastByte s.cur 0 key = s.firingByte s.cur key)

/-- R198: VLD is illegal without lanes and traps after issue off a 64-byte boundary; else its reply brings the 4·VL bytes of a
range that translates, in byte order, each a byte that the core may read (R201), with `.i` as R205 has it (DESIGN CHOICE, logs
9 and 76). -/
def Sys2Proof.Claims.VectorLoad : Prop :=
  ∀ (s : State) (l : Option Word) (d b : Reg) (c : BitVec 4) (m : BitVec 1) (o : BitVec 8),
    let va := match l with
      | some x => s.me.g b + x.signExtend 64
      | none => s.me.g b + BitVec.ofNat 64 (o.toNat * 64)
    let i := Instr.vld l d b c m o
    (s.me.vl = 0 → Claims.illegal i s 0x0107) ∧
    (s.me.vl ≠ 0 → va.toNat % 64 ≠ 0 → Claims.traps 1 c.toNat i s .afterIssue 0x030B va) ∧
    (∀ ps, s.me.vl ≠ 0 → s.me.vl ≤ 256 → va.toNat % 64 = 0 →
      s.xlateRange (s.rootOf s.cur) (s.cur / 8) va.toNat (4 * s.me.vl) .read = .ok ps →
      ∃ (t : State) (p : Pend) (v : VReg), exec i s = .next t ∧ (∀ x ∈ s.me.seen, x ∈ t.me.seen) ∧
        t.me = { s.me with pend := s.me.pend ++ [p], out := .ok, wait := none, seen := t.me.seen } ∧ t.mem = s.mem ∧
        t.writes = s.writes ∧ p.writes = [.v d v (laneMask s.me.vl)] ∧ p.fault = none ∧
        ∀ j < 4 * s.me.vl, Claims.mayLoad s (m = 1) ((ps.flatMap fun q => (List.range q.2).map (q.1 + ·)).getD j 0)
          (v.extractLsb' (8 * j) 8))

/-- R197, R201–R203, R311: ST and STL of `2^z` bytes trap after issue on a misaligned address or where translation faults; outside
a speculation, on memory that is no queue area and no window, the bytes go on their way to the home, numbered after all earlier
writes, with what the core has observed, and with the scopes and bounds of the releases that they are: STL's own, and those of
the FENCEs before (R204). Where the core has observed no other core's write still on its way, nothing else changes. Inside a
speculation (R135) ST into the window changes its shadow, which the firing then reads; ST elsewhere, once it is aligned and
translates (DESIGN CHOICE, log 112), and STL trap with 0x0309. -/
def Sys2Proof.Claims.Stores : Prop :=
  ∀ (s : State) (l : Option Word) (a b : Reg) (c sc : BitVec 4) (z : BitVec 2) (o : BitVec 8),
    let n := 2 ^ z.toNat
    let full := match l with
      | some x => s.me.g b + x.signExtend 64
      | none => s.me.g b + BitVec.ofNat 64 (o.toNat * n)
    let plain := match l with
      | some x => s.me.g b + x.signExtend 64
      | none => s.me.g b
    let walked (va : Dword) : State := s.noteWalk (s.rootOf s.cur) (s.cur / 8) va.toNat
    let alone := ∀ w ∈ s.writes, w.core ≠ s.cur → w.id ∉ s.me.seen
    let gives (i : Instr) (la : Nat) (va : Dword) (rel : Option Nat) : Prop :=
      s.me.fir.spec = false →
      (va.toNat % n ≠ 0 → Claims.traps 1 la i s .afterIssue 0x030B va) ∧
      (∀ e, va.toNat % n = 0 → s.xlate (s.rootOf s.cur) (s.cur / 8) va.toNat .write = .error e →
        Claims.trapsIn (walked va) 1 la i s .afterIssue e va) ∧
      (∀ key, va.toNat % n = 0 → s.xlate (s.rootOf s.cur) (s.cur / 8) va.toNat .write = .ok key → queueOf key = none →
        isWindow key = false → ∃ t w rest, exec i s = .next t ∧ t.writes = rest ++ [w] ∧ t.nextWrite = s.nextWrite + 1 ∧
          w.core = s.cur ∧ w.pa = key ∧ w.bytes = ((List.range n).map fun j => some ((s.me.g a).extractLsb' (8 * j) 8)) ∧
          w.id = s.nextWrite ∧ w.known = s.me.seen ∧
          w.rel = (match rel with
            | some scope => [(scope, s.nextWrite)]
            | none => []) ++ s.me.rels ∧ t.me.regs = s.me.regs ∧ t.me.out = .ok ∧
          (alone → t.me = { s.me with out := .ok, wait := none } ∧ t.mem = s.mem ∧ rest = s.writes))
    gives (.st l a b c z o) c.toNat full none ∧ gives (.stl l a b sc z) 0 plain (some sc.toNat) ∧
    (∀ key, s.me.fir.spec = true → full.toNat % n = 0 →
      s.xlate (s.rootOf s.cur) (s.cur / 8) full.toNat .write = .ok key → queueOf key = none →
      (s.specLine key = none → Claims.trapsIn (walked full) 1 c.toNat (.st l a b c z o) s .atIssue 0x0309 0) ∧
      (∀ line, s.specLine key = some (s.cur / 8, line) → key % n = 0 → ∃ t, exec (.st l a b c z o) s = .next t ∧
        t.me.out = .ok ∧ t.me.regs = s.me.regs ∧
        (∀ j < n, t.firingByte s.cur (key + j) = (s.me.g a).extractLsb' (8 * j) 8) ∧
        (s.writes = [] → s.depOps = [] →
          t.me = { s.me with out := .ok, wait := none } ∧ t.mem = s.mem ∧ t.writes = s.writes))) ∧
    (s.me.fir.spec = true → Claims.traps 1 0 (.stl l a b sc z) s .atIssue 0x0309 0)

/-- R198, R311: VST is illegal without lanes, traps after issue off a 64-byte boundary or where a piece with a byte to write faults,
and else sends to their homes the bytes whose predicate bits are 1, in the pieces that `storeKeys` translates, where no piece is
a queue area's or the window's. -/
def Sys2Proof.Claims.VectorStore : Prop :=
  ∀ (s : State) (l : Option Word) (a b : Reg) (c : BitVec 4) (p : BitVec 3) (o : BitVec 8),
    let va := match l with
      | some x => s.me.g b + x.signExtend 64
      | none => s.me.g b + BitVec.ofNat 64 (o.toNat * 64)
    let i := Instr.vst l a b c p o
    let bytes := (List.range (4 * s.me.vl)).map fun j =>
      if (s.me.p p).getLsbD j then some ((s.me.v a).extractLsb' (8 * j) 8) else none
    (s.me.vl = 0 → Claims.illegal i s 0x0107) ∧
    (s.me.vl ≠ 0 → va.toNat % 64 ≠ 0 → Claims.traps 1 c.toNat i s .afterIssue 0x030B va) ∧
    (∀ e u, s.me.vl ≠ 0 → va.toNat % 64 = 0 → s.storeKeys s.cur va.toNat bytes = .error (e, u) →
      Claims.trapsIn (s.noteStore s.cur va.toNat bytes) 1 c.toNat i s .afterIssue e (BitVec.ofNat 64 u)) ∧
    (∀ ps, s.me.vl ≠ 0 → va.toNat % 64 = 0 → s.me.fir.spec = false → s.storeKeys s.cur va.toNat bytes = .ok ps →
      (∀ q ∈ ps, queueOf q.1 = none ∧ isWindow q.1 = false) → (∀ w ∈ s.writes, w.core ≠ s.cur → w.id ∉ s.me.seen) →
      ∃ t, exec i s = .next t ∧ t.me = { s.me with out := .ok, wait := none } ∧ t.mem = s.mem ∧
        t.writes = s.writes ++ ps.zipIdx.map fun q => { core := s.cur, pa := q.1.1, bytes := q.1.2, rel := s.me.rels,
                                                        id := s.nextWrite + q.2, known := s.me.seen })

/-- R202, R204, R213, R214, R313: FENCE completes at issue. With K bit 0 it notes the earlier reads and acquires: the writes of other
cores in its scope that the core has observed are performed, and with each the writes that a release at a scope of both
cores carries. With K bit 1 every later write is a release at its scope of what the core has written so far (DEDUCED, log 8).
TINV performs the core's writes, and every cell of the region gives up the translations of the page of `ga`, or all of them with
`.all`; it keeps the others, and so do other regions' cells. That both fall in TINV's own step is the model's choice (DEDUCED, log
72; DESIGN CHOICE, log 10). PREF reads no data, changes no register and writes nothing. -/
def Obligations.Fences : Prop :=
  ∀ (s : State) (l : Option Word) (a b : Reg) (x : BitVec 1) (sc : BitVec 4) (k : BitVec 2),
    (∃ u, exec (.fence l sc k) s = .next (Claims.ends u { u.me with
        fence := if k.getLsbD 0 then some s.me.words else s.me.fence
        rels := if k.getLsbD 1 then (sc.toNat, s.nextWrite) :: s.me.rels.filter (fun r => decide (r.1 ≠ sc.toNat))
          else s.me.rels }) ∧
      (k.getLsbD 0 = false ∨ s.writes = [] → u = s) ∧ u.me.regs = s.me.regs ∧ u.me.npc = s.me.npc ∧
      u.me.seen = s.me.seen ∧ (k.getLsbD 0 = true → Claims.acquired s u sc.toNat fun _ => true)) ∧
    (∃ t, exec (.tinv a x) s = .next t ∧ (∀ w ∈ t.writes, w.core ≠ s.cur) ∧ (∀ o ∈ t.depOps, o.core ≠ some s.cur) ∧
      t.me.regs = s.me.regs ∧ t.me.npc = s.me.npc ∧ t.me.out = .ok ∧
      ∀ n, (t.cell n).tlb = if (s.core (8 * n)).region = s.me.region then (s.cell n).tlb.filter fun c =>
        !(x = 1 || decide ((s.me.g a).toNat / 2 ^ c.shift = c.page)) else (s.cell n).tlb) ∧
    (s.writes = [] → s.depOps = [] → ∃ t, exec (.tinv a x) s = .next t ∧ t.me = { s.me with out := .ok, wait := none } ∧
      t.mem = s.mem) ∧
    ∃ t, exec (.pref l b) s = .next t ∧ t.me = { s.me with out := .ok, wait := none } ∧ t.mem = s.mem ∧ t.writes = s.writes

/-- R206, R207: an atomic on an aligned word or doubleword of plain memory, in a calm machine, reads and writes its home in one
step: the old value, sign-extended, is the reply in `ga`, and memory changes only in those bytes. ACAS writes `g(a+1)` where the
old value equals `ga`. That the home is read and written in the issuing step is the model's choice (DESIGN CHOICE, log 9). On a
peer's memory the packet may be lost (R425): nothing is written, and the reply does not come. A firing that holds a tile with IDEM
1 makes no AADD and no AXOR (`AtomicTraps`). -/
def Sys2Proof.Claims.Atomics : Prop :=
  ∀ (s : State) (l : Option Word) (a b : Reg) (c : BitVec 4) (sc : BitVec 3) (o : BitVec 2) (z : BitVec 1) (key : Nat),
    let n := if z = 1 then 8 else 4
    let va := match l with
      | some x => s.me.g b + x.signExtend 64
      | none => s.me.g b
    s.me.fir.spec = false → va.toNat % n = 0 → s.atomicKey s.cur va = .ok key → queueOf key = none →
      isWindow key = false → key % n = 0 → Claims.calm s →
      let old : BitVec (8 * n) := BitVec.ofNat _ (s.homeNat key n)
      let x : BitVec (8 * n) := (s.me.g a).setWidth _
      let gives (i : Instr) (new : BitVec (8 * n)) : Prop := ∃ (t : State) (p : Pend), exec i s = .next t ∧
        t.me = { s.me with pend := s.me.pend ++ [p], out := .ok, wait := none } ∧ p.fault = none ∧ p.acq = o.getLsbD 0 ∧
        ((spaceOf key = 3 ∧ p.ready = false ∧ p.lost = true ∧ t.mem = s.mem) ∨
          (p.ready = true ∧ p.writes = [.g a (old.signExtend 64)] ∧
            (∀ j < n, memGet t.mem (key + j) = new.extractLsb' (8 * j) 8) ∧
            ∀ u, (u < key ∨ key + n ≤ u) → memGet t.mem u = memGet s.mem u))
      let idem := s.me.fir.tiles.any (·.2)
      (idem = false → gives (.aadd l a b c sc o z) (old + x)) ∧ gives (.aswap l a b c sc o z) x ∧
      (a ≠ 0 → a ≠ 31 → gives (.acas l a b c sc o z) (if old = x then (s.me.g (a + 1)).setWidth _ else old)) ∧
      gives (.amin l a b c sc o z) (if old.toInt ≤ x.toInt then old else x) ∧
      gives (.amax l a b c sc o z) (if old.toInt ≤ x.toInt then x else old) ∧
      gives (.aand l a b c sc o z) (old &&& x) ∧ gives (.aor l a b c sc o z) (old ||| x) ∧
      (idem = false → gives (.axor l a b c sc o z) (old ^^^ x))

/-- R135, R206, R207, R391: ACAS of `g0` or `g31` is illegal; a misaligned atomic traps after issue; one inside a speculation
traps with 0x0309; AADD and AXOR are illegal for a firing that holds a tile with IDEM 1. -/
def Sys2Proof.Claims.AtomicTraps : Prop :=
  ∀ (s : State) (l : Option Word) (a b : Reg) (c : BitVec 4) (sc : BitVec 3) (o : BitVec 2) (z : BitVec 1),
    let va := match l with
      | some x => s.me.g b + x.signExtend 64
      | none => s.me.g b
    let adds := [Instr.aadd l a b c sc o z, .axor l a b c sc o z]
    let others := [Instr.aswap l a b c sc o z, .amin l a b c sc o z, .amax l a b c sc o z, .aand l a b c sc o z,
      .aor l a b c sc o z]
    ((a = 0 ∨ a = 31) → Claims.illegal (.acas l a b c sc o z) s 0x0108) ∧
    (s.me.fir.tiles.any (·.2) = true → ∀ i ∈ adds, Claims.illegal i s 0x0107) ∧
    ∀ i, i ∈ others ∨ (i ∈ adds ∧ s.me.fir.tiles.any (·.2) = false) →
      (s.me.fir.spec = true → Claims.traps 1 c.toNat i s .atIssue 0x0309 0) ∧
      (s.me.fir.spec = false → va.toNat % (if z = 1 then 8 else 4) ≠ 0 → Claims.traps 1 c.toNat i s .afterIssue 0x030B va)

/-- R208, R209: GATHER, once every element's address translates, has each element's bytes in its reply, each a byte that the core
may read (R201), and 0 for a null index; nothing in memory changes. That they are taken in the issuing step is the model's
choice (DESIGN CHOICE, log 9). -/
def Sys2Proof.Claims.Gathers : Prop :=
  ∀ (s : State) (d b : Reg) (c : BitVec 4) (z : BitVec 2) (iv : BitVec 4) (ks : List (Option Nat)),
    let bytes := 2 ^ z.toNat
    let n := Nat.min s.me.vl (4 * s.me.vl / bytes)
    let i := Instr.gather d b c z iv
    (s.me.vl = 0 → Claims.illegal i s 0x0107) ∧
    (s.me.vl ≠ 0 → s.me.fir.spec = true → Claims.traps 1 c.toNat i s .atIssue 0x0309 0) ∧
    (s.me.vl ≠ 0 → s.me.fir.spec = false → (s.me.g b).toNat % bytes ≠ 0 →
      Claims.traps 1 c.toNat i s .afterIssue 0x030B (s.me.g b)) ∧
    (s.me.vl ≠ 0 → s.me.vl ≤ 256 → s.me.fir.spec = false → (s.me.g b).toNat % bytes = 0 →
      s.elemKeys (elemAddrs (s.me.g b) (s.me.v (iv.setWidth 5)) bytes n) .read = .ok ks →
      ∃ (t : State) (p : Pend) (v : VReg), exec i s = .next t ∧ t.mem = s.mem ∧ t.writes = s.writes ∧
        (∀ x ∈ s.me.seen, x ∈ t.me.seen) ∧
        t.me = { s.me with pend := s.me.pend ++ [p], out := .ok, wait := none, seen := t.me.seen } ∧
        p.writes = [.v d v (onesBelow 8192 (8 * bytes * n))] ∧ p.fault = none ∧
        ∀ e < n, ∀ j < bytes, match ks.getD e none with
          | some key => Claims.mayRead s (key + j) (v.extractLsb' (8 * (bytes * e + j)) 8)
          | none => v.extractLsb' (8 * (bytes * e + j)) 8 = 0)

/-- R208, R210, R391: SCADD, in a calm machine, has every addition made at its element's home in increasing element number: an
integer element's home holds its old value plus the sum of the lanes that name it, a floating-point one what the rounded additions
give one after another; no other byte of memory changes. All of it falls in the issuing step (DESIGN CHOICE, log 9). Additions to a
peer may be lost with their packets (R425). SCADD is illegal for a firing that holds a tile with IDEM 1. -/
def Sys2Proof.Claims.ScatterAdds : Prop :=
  ∀ (s : State) (a b : Reg) (c : BitVec 4) (z : BitVec 2) (iv : BitVec 4) (ks : List (Option Nat)),
    let bytes := if z.toNat % 2 = 1 then 8 else 4
    let n := Nat.min s.me.vl (4 * s.me.vl / bytes)
    let i := Instr.scadd a b c z iv
    let lane (key e : Nat) : Bool := ks.getD e none = some key
    let round (v x : Nat) : Nat := (((if z = 2 then fp32 else fp64).add .rne v x).1) % 2 ^ (8 * bytes)
    (s.me.vl = 0 → Claims.illegal i s 0x0107) ∧
    (s.me.vl ≠ 0 → s.me.fir.tiles.any (·.2) = true → Claims.illegal i s 0x0107) ∧
    (s.me.vl ≠ 0 → s.me.fir.tiles.any (·.2) = false →
      (s.me.fir.spec = true → Claims.traps 1 c.toNat i s .atIssue 0x0309 0) ∧
      (s.me.fir.spec = false → (s.me.g b).toNat % bytes ≠ 0 → Claims.traps 1 c.toNat i s .afterIssue 0x030B (s.me.g b))) ∧
    (s.me.vl ≠ 0 → s.me.vl ≤ 256 → s.me.fir.spec = false → s.me.fir.tiles.any (·.2) = false → (s.me.g b).toNat % bytes = 0 →
      s.elemKeys (elemAddrs (s.me.g b) (s.me.v (iv.setWidth 5)) bytes n) .write = .ok ks → Claims.calm s →
      (∀ key ∈ ks.filterMap id, queueOf key = none ∧ isWindow key = false ∧ key % bytes = 0) →
      ∃ t, exec i s = .next t ∧ t.me = { s.me with out := .ok, wait := none } ∧
        ((∀ key ∈ ks.filterMap id, spaceOf key ≠ 3) → ∀ key ∈ ks.filterMap id, t.homeNat key bytes =
          if z.toNat < 2 then
            (s.homeNat key bytes + ((List.range n).map fun e => if lane key e then elem (s.me.v a) bytes e else 0).sum)
              % 2 ^ (8 * bytes)
          else (List.range n).foldl (fun v e => if lane key e then round v (elem (s.me.v a) bytes e) else v)
            (s.homeNat key bytes)) ∧
        ∀ u, (∀ key ∈ ks.filterMap id, u < key ∨ key + bytes ≤ u) → memGet t.mem u = memGet s.mem u)

/-! ### Streams and copies -/

/-- R216, R220, R225: SBIND on a bound register is illegal; a misaligned descriptor traps after issue; one that breaks the checks
traps at issue with 0x0311 and its address. Else the register is bound at the start of the sequence, to the named queue bank,
and no other register or byte of memory changes. A subscription joins the shared stream of the region and die that stands at the
descriptor, or traps at issue with 0x0312 where that stream has its subscribers; where there is none it makes one. -/
def Sys2Proof.Claims.StreamBinding : Prop :=
  ∀ (s : State) (l : Option Word) (r b : Reg) (kb : BitVec 2) (key : Nat), 16 ≤ r.toNat → r.toNat < 24 →
    let n := r.toNat - 16
    let va := s.me.g b
    let at' (t : State) (m : Nat) : Option Stream := t.me.streams.toList.getD m none
    let read := StreamDesc.ofBytes (s.firingBytes s.cur key 48)
    let walked := s.noteRange (s.rootOf s.cur) (s.cur / 8) va.toNat 48
    let used := (walked.windowLostN (s.fnOf s.cur) (windowHits [(key, 48)])).readDone s.cur (piecesDwords [(key, 48)])
    let binds (u : BitVec 1) (q : Stream) (t : State) : Prop := exec (.sbind l r b u kb) s = .next t ∧ at' t n = some q ∧
      q.pos = 0 ∧ q.pops = 0 ∧ q.stalls = 0 ∧ (∀ m < 8, m ≠ n → at' t m = at' s m) ∧ t.me.regs = s.me.regs ∧ t.mem = s.mem
    (at' s n ≠ none → ∀ u, Claims.illegal (.sbind l r b u kb) s 0x0107) ∧
    (at' s n = none → va.toNat % 8 ≠ 0 → ∀ u, Claims.traps 1 0 (.sbind l r b u kb) s .afterIssue 0x030B va) ∧
    (at' s n = none → va.toNat % 8 = 0 → s.xlateRange (s.rootOf s.cur) (s.cur / 8) va.toNat 48 .read = .ok [(key, 48)] →
      ((read.2 = true ∨ read.1.bad false = true) → Claims.trapsIn used 1 0 (.sbind l r b 0 kb) s .atIssue 0x0311 va) ∧
      (read.2 = false → read.1.bad false = false → ∃ t x, binds 0 x t ∧
        x.desc = read.1 ∧ x.bank = kb.toNat ∧ x.shared = none ∧ x.feed = Feed.fresh read.1 ∧ t.shared = s.shared) ∧
      (s.sharedAt s.cur key = none →
        ((read.2 = true ∨ read.1.bad true = true) → Claims.trapsIn used 1 0 (.sbind l r b 1 kb) s .atIssue 0x0311 va) ∧
        (read.2 = false → read.1.bad true = false → ∃ t x y, binds 1 x t ∧ x.desc = read.1 ∧ x.bank = 0 ∧
          x.shared = some y.id ∧ t.shared = s.shared ++ [y] ∧ y.desc = read.1 ∧ y.descPa = key ∧
          y.region = s.me.region.getD 0 ∧ y.die = s.cur / 2048 ∧ y.subs = [⟨s.cur, some n, some 0⟩] ∧
          y.feed = Feed.fresh read.1)) ∧
      ∀ y, s.sharedAt s.cur key = some y → y.desc.bad true = false → (∀ z ∈ s.shared, z.id = y.id → z = y) →
        (y.desc.subs ≤ y.subs.length → Claims.trapsIn walked 1 0 (.sbind l r b 1 kb) s .atIssue 0x0312 va) ∧
        (y.subs.length < y.desc.subs → ∃ t x, binds 1 x t ∧ x.desc = y.desc ∧ x.bank = 0 ∧ x.shared = some y.id ∧
          t.sharedOf y.id = some { y with subs := y.subs ++ [⟨s.cur, some n, some 0⟩] }))

/-- R222, R223: SFREE leaves the register unbound, and the subscriber that it was counts as past the end; no other register and no
memory changes. SSTAT writes the register's state word, which is 0 for an unbound one. -/
def Sys2Proof.Claims.StreamRelease : Prop :=
  ∀ (s : State) (l : Option Word) (r d : Reg), 16 ≤ r.toNat → r.toNat < 24 →
    let n := r.toNat - 16
    let at' (t : State) (m : Nat) : Option Stream := t.me.streams.toList.getD m none
    (∃ t, exec (.sfree l r) s = .next t ∧ at' t n = none ∧ (∀ m < 8, m ≠ n → at' t m = at' s m) ∧ t.me.regs = s.me.regs ∧
      t.mem = s.mem ∧
      ∀ x id, at' s n = some x → x.shared = some id → ∀ y, t.sharedOf id = some y → y.place s.cur (some n) = none) ∧
    exec (.sstat l d r) s = .next (Claims.atOnce 1 0 (.sstat l d r) [.g d (s.streamStat s.cur n)] s) ∧
    (at' s n = none → s.streamStat s.cur n = 0) ∧
    ∀ x, at' s n = some x → s.streamStat s.cur n = BitVec.ofNat 64 (x.stalls * 2 ^ 40 + Nat.min x.badblk 255 * 2 ^ 32 +
      x.pops * 2 ^ 8 + (if s.streamDone s.cur n x then 32 else 0) + (if x.fail then 16 else 0) + x.bank * 4 +
      (if x.shared.isSome then 2 else 0) + 1) ∧
      (x.shared = none → x.desc.decomp = false → (s.streamDone s.cur n x = true ↔ x.desc.total ≤ x.pos))

/-- R218, R221, R224, R230: a read of a bound private stream takes the next 4·VL bytes that have been fetched, moves on by them and
counts a pop; a group that runs past the end of a plain stream is filled with zeros. Where the bytes have not been fetched it is
held, and past the end it traps at issue with 0x030F. A group with bytes of a coded block that failed, whose trap has not been
taken, traps at issue with 0x0310 and the block, the kind of its failure and the register in TVAL. -/
def Sys2Proof.Claims.StreamReads : Prop :=
  ∀ (s : State) (r : Reg) (x : Stream), 16 ≤ r.toNat → r.toNat < 24 →
    s.me.streams.toList.getD (r.toNat - 16) none = some x → x.bank = 0 → x.shared = none → s.me.vl ≠ 0 → s.me.vl ≤ 256 →
    let n := 4 * s.me.vl
    (x.desc.decomp = false → x.feed.bad = [] → x.feed.start ≤ x.pos →
      (Nat.min (x.pos + n) x.desc.total ≤ x.feed.start + x.feed.buf.length → x.pos < x.desc.total →
        ∃ t v y, s.readStream r = .ok (t, v) ∧
        (∀ j < n, v.extractLsb' (8 * j) 8 =
          if x.pos + j < x.desc.total then x.feed.buf.getD (x.pos - x.feed.start + j) 0 else 0) ∧
        t.me.streams.toList.getD (r.toNat - 16) none = some y ∧ y.pos = x.pos + n ∧ y.pops = (x.pops + 1) % 2 ^ 24 ∧
        y.desc = x.desc ∧ t.mem = s.mem ∧ t.me.regs = s.me.regs) ∧
      (x.desc.total ≤ x.pos → ∃ t, s.readStream r = .error (t, .trap .atIssue 0x030F (r.setWidth 64))) ∧
      (x.feed.start + x.feed.buf.length < Nat.min (x.pos + n) x.desc.total → x.pos < x.desc.total → x.feed.hdrErr = false →
        x.feed.fault = none → ∃ t u, s.readStream r = .error (t, .hold u) ∧ u.me.wait.isSome = true ∧
          u.me.regs = s.me.regs)) ∧
    (x.desc.decomp = true → x.feed.block < x.desc.items → ∀ b kind lo hi,
      x.feed.bad.find? (fun q => decide (q.2.2.1 < x.pos + n) && decide (x.pos < q.2.2.2) && !x.trapped.contains q.1) =
        some (b, kind, lo, hi) → ∃ t, s.readStream r =
          .error (t, .trap .atIssue 0x0310 (BitVec.ofNat 64 (b * 2 ^ 32 + kind * 256 + r.toNat))))

/-- R225, R226: a read by a subscriber of a plain shared stream takes the group at its own place from what the stream has fetched,
and moves that place on, or leaves the stream past its end; it is held while a 64-byte unit of the group lies WIN or more units
beyond that of the slowest subscriber. -/
def Sys2Proof.Claims.StreamSharing : Prop :=
  ∀ (s : State) (r : Reg) (x : Stream) (id p : Nat) (y : Shared), 16 ≤ r.toNat → r.toNat < 24 →
    s.me.streams.toList.getD (r.toNat - 16) none = some x → x.bank = 0 → x.shared = some id → s.sharedOf id = some y →
    y.place s.cur (some (r.toNat - 16)) = some p → x.pos = p → y.desc.decomp = false → y.feed.bad = [] →
    y.feed.start ≤ p → p < y.desc.total → (∀ z ∈ s.shared, z.id = id → z = y) → s.me.vl ≠ 0 → s.me.vl ≤ 256 →
    let n := 4 * s.me.vl
    let stop := Nat.min (p + n) y.desc.total
    (y.slowest / 64 + y.desc.win < (stop + 63) / 64 → y.feed.hdrErr = false → y.feed.fault = none →
      ∃ t u, s.readStream r = .error (t, .hold u) ∧ u.me.wait.isSome = true ∧ u.me.regs = s.me.regs) ∧
    ((stop + 63) / 64 ≤ y.slowest / 64 + y.desc.win → stop ≤ y.feed.start + y.feed.buf.length →
      ∃ t v, s.readStream r = .ok (t, v) ∧
        (∀ j < n, v.extractLsb' (8 * j) 8 = if p + j < y.desc.total then y.feed.buf.getD (p - y.feed.start + j) 0 else 0) ∧
        t.mem = s.mem ∧ t.me.regs = s.me.regs ∧ ∀ z, t.sharedOf id = some z →
          z.place s.cur (some (r.toNat - 16)) = if y.desc.total ≤ p + n then none else some (p + n))

/-- R217, R221: STREAM_PREFETCH fetches, of a private plain stream less than 2 KiB ahead of its pops, the rest of the sequence's
next 64 bytes: each new byte is the one that the core reads at its element's address. The first element whose address does
not translate ends the fetch, and leaves its fault. What was fetched stays. The cell's cache has room for the walks. -/
def Sys2Proof.Claims.StreamFetches : Prop :=
  ∀ (s : State) (core n : Nat) (x : Stream), n < 8 → (s.core core).streams.toList.getD n none = some x → x.shared = none →
    x.desc.decomp = false → x.desc.bad false = false → x.feed.fault = none → x.feed.hdrErr = false → s.bad = [] →
    x.feed.next < x.desc.total → x.feed.next < x.pos + 2048 → x.feed.next % typeBytes x.desc.typ = 0 →
    (s.cell (core / 8)).tlb.length ≤ 192 →
    let size := typeBytes x.desc.typ
    let first := x.feed.next / size
    let count := Nat.min (64 - x.feed.next % 64) (x.desc.total - x.feed.next) / size
    let key (e : Nat) : Except Nat Nat := s.xlate (s.rootOf core) (core / 8) (x.desc.addr e 0).toNat .read
    let fetches (t : State) (y : Stream) (m : Nat) : Prop := exec (.streamPrefetch core n) s = .next t ∧
      (t.core core).streams.toList.getD n none = some y ∧ y.feed.start = x.feed.start ∧ y.pos = x.pos ∧ y.desc = x.desc ∧
      t.mem = s.mem ∧ (t.core core).regs = (s.core core).regs ∧ ∃ more, y.feed.buf = x.feed.buf ++ more ∧
        more.length = m * size ∧
        ∀ e < m, ∀ k, key (first + e) = .ok k → ∀ j < size, more.getD (e * size + j) 0 = s.coreByte core (k + j)
    ((∀ e < count, ∃ k, key (first + e) = .ok k) → ∃ t y, fetches t y count ∧ y.feed.fault = none) ∧
    ∀ m < count, (∀ e < m, ∃ k, key (first + e) = .ok k) → ∀ c, key (first + m) = .error c →
      ∃ t y, fetches t y m ∧ y.feed.fault = some (c, x.desc.addr (first + m) 0)

/-- R227–R231: DECOMP_BLOCK reads the 64 bytes of a coded stream's next block as the core reads them. A header that breaks its checks
leaves the stream in error. Else it reads the coded bytes and the table, and delivers the block's output in one step: what
`BlockHdr.output` decodes, or zeros of the same length with the failure noted. The next block stands where the walk, or the
block's own length, puts it. A read that faults leaves the fault, and what was delivered stays. -/
def Sys2Proof.Claims.StreamBlocks : Prop :=
  ∀ (s : State) (core n : Nat) (x : Stream), n < 8 → (s.core core).streams.toList.getD n none = some x → x.shared = none →
    x.desc.decomp = true → x.feed.fault = none → x.feed.hdrErr = false → x.feed.block < x.desc.items →
    x.feed.next < x.pos + 2048 →
    let base := x.feed.blockAddr
    let read (t : State) (va : Dword) (m : Nat) := t.unitRead core (s.rootOf core) va.toNat m
    let gives (f : Feed → Prop) : Prop := ∃ t y, exec (.decompBlock core n) s = .next t ∧ t.mem = s.mem ∧
      (t.core core).streams.toList.getD n none = some y ∧ y.pos = x.pos ∧ y.desc = x.desc ∧
      (t.core core).regs = (s.core core).regs ∧ f y.feed
    (∀ e, read s base 64 = .error e → gives fun f => f = { x.feed with fault := some e }) ∧
    ∀ t1 hd k1, read s base 64 = .ok (t1, hd, k1) →
      let h := BlockHdr.ofBytes hd
      (h.ok = false → gives fun f => f = { x.feed with hdrErr := true }) ∧
      (h.ok = true →
        (∀ e, read t1 (base + 64) h.codedLen = .error e → gives fun f => f = { x.feed with fault := some e }) ∧
        ∀ t2 coded k2, read t1 (base + 64) h.codedLen = .ok (t2, coded, k2) →
          let last := read t2 (base + BitVec.ofNat 64 h.scaleOff) (4 * (h.uncLen / (h.group / 2)))
          (∀ e, last = .error e → gives fun f => f = { x.feed with fault := some e }) ∧
          ∀ t3 table k3, last = .ok (t3, table, k3) →
            let out := h.output x.desc.typ coded table
            let m := x.feed.block + 1
            gives fun f => f.buf = x.feed.buf ++ out.1 ∧ f.start = x.feed.start ∧ f.block = m ∧ f.fault = none ∧
              f.hdrErr = false ∧
              f.blockAddr = (if m % x.desc.count 0 = 0 then x.desc.addr m 1
                else if x.desc.stride 0 = 0 then base + BitVec.ofNat 64 h.blockLen else base + x.desc.stride 0) ∧
              f.bad = match out.2 with
                | some kind => x.feed.bad ++ [(x.feed.block, kind, x.feed.next, x.feed.next + out.1.length)]
                | none => x.feed.bad)

/-- R229, R230: what a block that passed its header's checks decodes to. Where no code matches, it is zeros with kind 2; where the
payload fails its checksum, zeros with kind 1; else, for TYPE 1, the payload followed by the table's records, and for another
TYPE each element dequantised with its group's record. A unit's read of a run of bytes gives the bytes as its core reads them. -/
def Sys2Proof.Claims.BlockOutput : Prop :=
  (∀ (h : BlockHdr) (typ : Nat) (coded table : List Byte),
    let groups := h.uncLen / (h.group / 2)
    let size := if typ = 1 then h.uncLen + 4 * groups else 8 * h.uncLen
    let zeros (kind : Nat) : List Byte × Option Nat := (List.replicate size 0, some kind)
    let syms := takeSyms (blockCodes h.lens) (2 * h.uncLen) (bitStream coded)
    (syms = none → h.output typ coded table = zeros 2) ∧
    ∀ l, syms = some l → l.length = 2 * h.uncLen ∧
      (crc32c (packNibbles l) ≠ h.crc → h.output typ coded table = zeros 1) ∧
      (crc32c (packNibbles l) = h.crc → (h.output typ coded table).2 = none ∧
        (typ = 1 → (h.output typ coded table).1 = packNibbles l ++ table.take (4 * groups)) ∧
        (typ ≠ 1 → (h.output typ coded table).1.length = size ∧ ∀ e < 2 * h.uncLen, 0 < h.group →
          e / h.group < groups →
          let rec' := leNat ((table.drop (4 * (e / h.group))).take 4)
          ((h.output typ coded table).1.drop (4 * e)).take 4 =
            leBytes 4 (dequant (l.getD e 0) (rec' % 2 ^ 16) (rec' / 2 ^ 16 % 2 ^ 4))))) ∧
  ∀ (s : State) (core root va n key : Nat), s.xlateRange root (core / 8) va n .read = .ok [(key, n)] →
    ∃ t, s.unitRead core root va n = .ok (t, (List.range n).map fun j => s.coreByte core (key + j), key) ∧ t.mem = s.mem

/-- R234, R235, R240: XPUSH and XTRY take `ga`–`g(a+3)` with `a` from 1 to 28 and a control value of R234's layout, or are illegal
with 0x0108; inside a speculation they trap with 0x0309. With room they append the request to the FIFO; on a full one XPUSH
is held and XTRY writes 1. XSTAT writes the engine's state. -/
def Sys2Proof.Claims.CopyRequests : Prop :=
  ∀ (s : State) (l : Option Word) (a c d : Reg),
    let ctl := s.me.g (a + 2)
    let flag : Word := match l with
      | some x => x
      | none => (s.me.g c).setWidth 32
    let q : CopyReq :=
      { src := s.me.g a, dst := s.me.g (a + 1), ctl := ctl, target := s.me.g (a + 3),
        flag := flag, cls := s.classOf s.cur, region := s.me.region.getD 0, moved := 0, again := none, done := none,
        mine := true, unbanked := false }
    ((a = 0 ∨ 28 < a.toNat) → Claims.illegal (.xpush l a c) s 0x0108 ∧ Claims.illegal (.xtry l a d c) s 0x0108) ∧
    (a ≠ 0 → a.toNat ≤ 28 →
      (ctl.toNat / 2 ^ 40 % 2 ^ 8 ≠ 0 → Claims.illegal (.xpush l a c) s 0x0108 ∧ Claims.illegal (.xtry l a d c) s 0x0108) ∧
      (copyBad ctl (s.me.g (a + 3)) = false →
        (s.me.fir.spec = true → Claims.traps 1 0 (.xpush l a c) s .atIssue 0x0309 0 ∧
          Claims.traps 1 0 (.xtry l a d c) s .atIssue 0x0309 0) ∧
        (s.me.fir.spec = false → s.me.copies.length < 16 → s.me.replay = none →
          ∃ t u, exec (.xpush l a c) s = .next t ∧ exec (.xtry l a d c) s = .next u ∧
            t.me.copies = s.me.copies ++ [q] ∧ u.me.copies = s.me.copies ++ [q] ∧ t.me.regs = s.me.regs ∧
            u.me.regs = (s.me.setG d 0).regs ∧ t.mem = s.mem ∧ u.mem = s.mem) ∧
        (s.me.fir.spec = false → 16 ≤ s.me.copies.length →
          (∃ t, exec (.xpush l a c) s = .next t ∧ t.me.out = .hold ∧ t.me.copies = s.me.copies ∧ t.me.regs = s.me.regs ∧
            t.me.wait.isSome = true) ∧
          exec (.xtry l a d c) s = .next (Claims.atOnce 1 0 (.xtry l a d c) [.g d 1] s)))) ∧
    exec (.xstat l d) s = .next (Claims.atOnce 1 0 (.xstat l d) [.g d s.me.copyStat] s) ∧
    s.me.copyStat = BitVec.ofNat 64 (s.me.copyDone.toNat * 2 ^ 32 + s.me.copyErr % 256 * 2 ^ 24 + s.me.copies.length * 2 ^ 16 +
      (s.me.copies.filter fun q => !q.unbanked && q.ctl.toNat / 2 ^ 32 % 4 == 1).length * 2 ^ 8 +
      (s.me.copies.filter fun q => !q.unbanked && q.ctl.toNat / 2 ^ 32 % 4 == 2).length)

/-- R236, R239, R240: COPY_COMPLETION of a due request of no queue bank and KIND 0, whose extents are one run each of device memory,
in a calm machine, writes every byte of the source to the destination; the request leaves the FIFO, DONE rises, and no other
byte changes. -/
def Sys2Proof.Claims.CopyMoves : Prop :=
  ∀ (s : State) (core : Nat) (q : CopyReq) (rest : List CopyReq) (r : Region) (sk dk : Nat),
    let len := q.ctl.toNat % 2 ^ 32
    (s.core core).copies = q :: rest → q.done = none → q.again = none → (s.core core).copyDue ≤ s.cycle + 1 →
    q.ctl.toNat / 2 ^ 32 % 16 = 0 → s.region q.region = some r → 0 < len → len < 2 ^ 16 → Claims.calm s →
    q.src.toNat % 2 ^ 16 + len ≤ 2 ^ 16 → q.dst.toNat % 2 ^ 16 + len ≤ 2 ^ 16 →
    s.xlate r.root (core / 8) q.src.toNat .read = .ok sk → s.xlate r.root (core / 8) q.dst.toNat .write = .ok dk →
    spaceOf sk = 2 → spaceOf dk = 2 → isWindow sk = false → isWindow dk = false → isWindow (dk + len) = false →
    isWindow (sk + len) = false →
    ∃ t, exec (.copyCompletion core) s = .next t ∧ (t.core core).copies = rest ∧
      (t.core core).copyDone = (s.core core).copyDone + 1 ∧ (t.core core).copyErr = (s.core core).copyErr ∧
      (t.core core).regs = (s.core core).regs ∧
      (∀ j < len, memGet t.mem (dk + j) = memGet s.mem (sk + j)) ∧
      ∀ u, (u < dk ∨ dk + len ≤ u) → memGet t.mem u = memGet s.mem u

/-- R237–R241, R312: the completion action of a copy whose payload is over. KIND 1 sends a message of TYPE 9 to the target; KIND 2
sets a decrement of the target counter under way, once nothing of the core's own is on its way there; KIND 3 stores the flag word
at a target in the device's own memory, after what the core has on its way there, and changes no other byte where nothing is. The
request leaves the FIFO. A target that does not translate gives error 7 and no action. A request of a queue bank keeps its place
until SELB, with its action to come; one that SELB has kept is of no bank. -/
def Sys2Proof.Claims.CopyActions : Prop :=
  ∀ (s : State) (core : Nat) (q : CopyReq) (rest : List CopyReq) (r : Region),
    let kind := q.ctl.toNat / 2 ^ 34 % 4
    let target := q.target.toNat
    let gone (t : State) (err : Nat) : Prop := exec (.copyCompletion core) s = .next t ∧ (t.core core).copies = rest ∧
      (t.core core).copyDone = (s.core core).copyDone + 1 ∧ (t.core core).copyErr = err ∧
      (t.core core).regs = (s.core core).regs
    let old := (s.core core).copyErr
    (s.core core).copies = q :: rest → q.done = none → q.again = none → (s.core core).copyDue ≤ s.cycle + 1 →
    q.ctl.toNat % 2 ^ 32 = 0 → q.moved = 0 → s.region q.region = some r →
      (q.ctl.toNat / 2 ^ 32 % 4 ≠ 0 → q.unbanked = false → ∃ t, exec (.copyCompletion core) s = .next t ∧ t.mem = s.mem ∧ t.net = s.net ∧
        t.depOps = s.depOps ∧ (t.core core).copies = { q with done := some (0, 0) } :: rest) ∧
      (q.ctl.toNat / 2 ^ 32 % 4 = 0 ∨ q.unbanked = true →
        (kind = 1 → s.unreachableTag (target % 2 ^ 32) = false → ∃ t m, gone t old ∧ t.net = s.net ++ [m] ∧
          hdrType m.hdr = 9 ∧ m.dst.toNat = target % 2 ^ 32 ∧ m.pay = [0] ∧ t.mem = s.mem) ∧
        (kind = 2 →
          (∀ k, s.depKey r.root (core / 8) q.target = .ok k → Claims.idleAt s k 8 → ∃ t o, gone t old ∧ t.depOps = s.depOps ++ [o] ∧ o.pa = k ∧
            o.op = 0 ∧ t.mem = s.mem) ∧
          (∀ c, s.depKey r.root (core / 8) q.target = .error c → ∃ t, gone t 7 ∧ t.depOps = s.depOps ∧ t.mem = s.mem)) ∧
        (kind = 3 →
          ((target % 4 ≠ 0 ∨ ∃ c, s.xlate r.root (core / 8) target .write = .error c) → ∃ t, gone t 7 ∧ t.mem = s.mem) ∧
          (∀ k, target % 4 = 0 → s.xlate r.root (core / 8) target .write = .ok k → k % 4 = 0 → queueOf k = none →
            isWindow k = false → spaceOf k ≠ 3 → memWf s.mem = true → s.bad = [] → ∃ t, gone t old ∧
              (∀ j < 4, memGet t.mem (k + j) = q.flag.extractLsb' (8 * j) 8) ∧
              (Claims.idleAt s k 4 → ∀ u, (u < k ∨ k + 4 ≤ u) → memGet t.mem u = memGet s.mem u))))

/-! ### Messages, channels and waits -/

/-- R322–R326: SEND of n registers that lie below `g32`, with a control value of R323's layout and a slot, gives the network a
message of TYPE 0 from this core whose payload is those registers. The slot is one reserved at the firing's start, or else an
extra one, which needs fewer than 32 in use and is charged to the region and its ancestors. A release carries the core's own
earlier writes: the model performs them in the send's own step, so that none is left on its way (DEDUCED, log 72). A control value
or tag that breaks its layout is illegal, a speculation traps with 0x0309, and no free slot with 0x0316. SENDV takes its payload
from memory. -/
def Sys2Proof.Claims.Sends : Prop :=
  ∀ (s : State) (l : Option Word) (t a c sr : Reg) (e : BitVec 4),
    let ctl := match l with
      | some x => x.setWidth 64
      | none => s.me.g c
    let n := ctl.toNat / 2 ^ 32 % 8 + 1
    let rel := ctl.toNat.testBit 29
    let gt := s.me.g t
    let region := s.me.region.getD 0
    let slot := 0 < s.me.fir.prodLeft ∨ (s.outUsed s.cur < 32 ∧ s.fits region .msgs 1 = true)
    (ctl.toNat / 2 ^ 42 ≠ 0 → Claims.illegal (.send l t a e c) s 0x0108 ∧ Claims.illegal (.sendv l t sr e c) s 0x0108) ∧
    (sendBad ctl false = false → 32 < a.toNat + n → Claims.illegal (.send l t a e c) s 0x0108) ∧
    (gt.toNat < 2 ^ 32 → sendBad ctl false = false → a.toNat + n ≤ 32 →
      (s.me.fir.spec = true → Claims.traps 1 e.toNat (.send l t a e c) s .atIssue 0x0309 0) ∧
      (s.me.fir.spec = false → ¬ slot → Claims.traps 1 e.toNat (.send l t a e c) s .atIssue 0x0316 gt) ∧
      (s.me.fir.spec = false → slot → s.unreachableTag gt.toNat = false →
        (rel = true → s.writes = [] ∧ s.depOps = []) →
        ∃ u m, exec (.send l t a e c) s = .next u ∧ u.net = s.net ++ [m] ∧ m.pay.length = n ∧
          (∀ i < n, m.pay.getD i 0 = s.me.g (BitVec.ofNat 5 (a.toNat + i))) ∧ hdrType m.hdr = 0 ∧ m.dst = gt.setWidth 32 ∧
          m.src = some s.cur ∧ m.slot = true ∧ m.rel.isSome = rel ∧ u.me.fir.prodLeft = s.me.fir.prodLeft - 1 ∧
          u.me.regs = s.me.regs ∧ u.mem = s.mem ∧ u.writes = s.writes ∧ u.depOps = s.depOps ∧
          ((s.path 32 region).Nodup → ∀ p x, s.region p = some x → ∃ y, u.region p = some y ∧ y.used .msgs =
            if s.me.fir.prodLeft = 0 ∧ p ∈ s.path 32 region then x.used .msgs + 1 else x.used .msgs)) ∧
      (s.me.fir.spec = false → slot → s.unreachableTag gt.toNat = false → rel = true →
        ∃ u, exec (.send l t a e c) s = .next u ∧ (∀ w ∈ u.writes, w.core ≠ s.cur) ∧
          ∀ o ∈ u.depOps, o.core ≠ some s.cur)) ∧
    (gt.toNat < 2 ^ 32 → sendBad ctl true = false → s.me.fir.spec = false → ¬ slot →
      Claims.traps 1 e.toNat (.sendv l t sr e c) s .atIssue 0x0316 gt) ∧
    (gt.toNat < 2 ^ 32 → sendBad ctl true = false → s.me.fir.spec = false → slot →
      ((s.me.g sr).toNat % 8 ≠ 0 → Claims.traps 1 e.toNat (.sendv l t sr e c) s .afterIssue 0x030B (s.me.g sr)) ∧
      (∀ key, (s.me.g sr).toNat % 8 = 0 → s.bad = [] → s.unreachableTag gt.toNat = false →
        (rel = true → s.writes = [] ∧ s.depOps = []) →
        let m := ctl.toNat / 2 ^ 32 % 2 ^ 10
        (m = 0 ∨ s.xlateRange (s.rootOf s.cur) (s.cur / 8) (s.me.g sr).toNat (8 * m) .read = .ok [(key, 8 * m)]) →
        ∃ u x, exec (.sendv l t sr e c) s = .next u ∧ u.net = s.net ++ [x] ∧ hdrType x.hdr = 1 ∧ x.pay.length = m ∧
          x.dst = gt.setWidth 32 ∧ x.src = some s.cur ∧
          (∀ i < m, ∀ j < 8, (x.pay.getD i 0).extractLsb' (8 * j) 8 = s.firingByte s.cur (key + 8 * i + j)) ∧
          u.me.regs = s.me.regs ∧ u.mem = s.mem))

/-- R327: RECV and PEEK of channel 1, 2, 3 or above 63 are illegal; PEEK writes the cell-window address of the channel's oldest
unconsumed message, or 0, and changes nothing else; RECV consumes it, so that the firing holds it. -/
def Sys2Proof.Claims.Receives : Prop :=
  ∀ (s : State) (l : Option Word) (d c : Reg) (e : BitVec 4),
    let v := match l with
      | some x => x.setWidth 64
      | none => s.me.g c
    let q := s.me.recs.filter fun r => r.st = .queued && r.ch = v.toNat
    let addr (r : AreaRec) : Dword := BitVec.ofNat 64 (0x1C_0000 + 0x4000 * (s.cur % 8) + r.off)
    ((63 < v.toNat ∨ v ∈ [1, 2, 3]) → Claims.illegal (.recv l d e c) s 0x0108 ∧ Claims.illegal (.peek l d e c) s 0x0108) ∧
    (v.toNat < 64 → v ∉ [1, 2, 3] →
      exec (.peek l d e c) s = .next (Claims.later 1 e.toNat 3 (.peek l d e c) [.g d ((q.head?.map addr).getD 0)] 0 false s) ∧
      (q = [] → exec (.recv l d e c) s = .next (Claims.later 1 e.toNat 3 (.recv l d e c) [.g d 0] 0 false s)) ∧
      (∀ r, q.head? = some r → s.me.fir.held.length < 64 → ∃ t p, exec (.recv l d e c) s = .next t ∧
        t.me.pend = s.me.pend ++ [p] ∧ p.writes = [.g d (addr r)] ∧ t.me.fir.held = s.me.fir.held ++ [(r.off, r.ch)] ∧
        t.me.count v.toNat = s.me.count v.toNat - 1 ∧ t.me.regs = s.me.regs ∧ t.mem = s.mem))

/-- R328: CHEN, CHDIS and CHPND of an entry below 64 write its state as it stood to `gd` for the next pair; CHEN sets EN, and PEND
where its rates are met; CHDIS clears EN; CHPND clears (0), sets (1) or leaves PEND. A larger number is illegal. -/
def Obligations.EntryControl : Prop :=
  ∀ (s : State) (l : Option Word) (d a : Reg) (m : BitVec 2),
    let v := (s.me.g a).toNat
    let e := s.me.entry v
    let all := [Instr.chen l d a, .chdis l d a, .chpnd l d a m]
    (63 < v → ∀ i ∈ all, Claims.illegal i s 0x0108) ∧
    (v < 64 → s.me.entries.length = 64 → s.me.replay = none → ∀ i ∈ all, ∃ t, exec i s = .next t ∧ t.mem = s.mem ∧
      t.me.regs = (s.me.setG d (s.me.entryState e)).regs ∧
      (∀ n < 64, n ≠ v → t.me.entry n = s.me.entry n) ∧
      (t.me.entry v).en = (match i with
        | .chen .. => true
        | .chdis .. => false
        | _ => e.en) ∧
      (t.me.entry v).pend = (match i with
        | .chen .. => e.pend || (e.slots.any (·.2.1) && s.me.met e)
        | .chpnd .. => if m = 0 then false else if m = 1 then true else e.pend
        | _ => e.pend))

/-- R330, R331: WAITW with a limit of 32 bits on an aligned doubleword that translates pends for the condition, or traps after
issue where it does not hold and the limit is 0; that it pends, and that its limit is a trap after issue, is the model's reading
(DEDUCED, log 21). The read that finds the condition is an acquire at its scope (R202). ARMW arms a watch on a word of SRAM at its
home, and the firing ends. -/
def Sys2Proof.Claims.WordWaits : Prop :=
  ∀ (s : State) (l : Option Word) (a b : Reg) (c sc : BitVec 4) (kd : BitVec 2) (key : Nat),
    let i := Instr.waitw l a b c sc kd
    let j := Instr.armw l a b
    let v := (s.me.g a).toNat
    let va := s.me.g b
    (2 ^ 32 ≤ v → Claims.illegal i s 0x0108) ∧
    (v < 2 ^ 32 → va.toNat % 8 ≠ 0 → Claims.traps 1 c.toNat i s .afterIssue 0x030B va) ∧
    (v < 2 ^ 32 → va.toNat % 8 = 0 → s.xlate (s.rootOf s.cur) (s.cur / 8) va.toNat .read = .ok key → spaceOf key ≠ 4 →
      let w := leNat (s.firingBytes s.cur key 8)
      let met := if kd = 0 then w % 2 ^ 32 ≠ w / 2 ^ 32 else w % 2 ^ 32 = w / 2 ^ 32
      let read := ((s.noteWalk (s.rootOf s.cur) (s.cur / 8) va.toNat).windowLostN (s.fnOf s.cur)
        (windowHits [(key, 8)])).readDone s.cur [key]
      (¬met → v = 0 → Claims.trapsIn read 1 c.toNat i s .afterIssue 0x0303 (BitVec.ofNat 64 w)) ∧
      ((met ∨ 0 < v) → ∃ (t : State) (p : Pend) (ps : List Pend), exec i s = .next t ∧ t.me.pend = ps ++ [p] ∧
        t.me.regs = s.me.regs ∧ p.acq = true ∧ (p.ready = true ↔ met) ∧ p.writes = [.g a (BitVec.ofNat 64 w)] ∧
        (met → Claims.acquired s t sc.toNat (·.overlapsAt key 8)) ∧
        (¬met ∨ s.writes = [] → t.mem = s.mem ∧ t.me = { s.me with pend := s.me.pend ++ [p], out := .ok, wait := none }))) ∧
    (v / 2 ^ 32 % 2 ^ 6 < 5 ∨ v / 2 ^ 38 % 2 ^ 10 ≠ 0 → Claims.illegal j s 0x0108) ∧
    (5 ≤ v / 2 ^ 32 % 2 ^ 6 → v / 2 ^ 38 % 2 ^ 10 = 0 →
      (s.me.pend ≠ [] → Claims.holds j s) ∧
      (s.me.pend = [] → va.toNat % 4 = 0 → s.xlate (s.rootOf s.cur) (s.cur / 8) va.toNat .read = .ok key → spaceOf key = 1 →
        16 ≤ (s.cell (sramCell key)).watches.length → Claims.trapsIn (s.walked s.cur va) 1 0 j s .atIssue 0x0315 va) ∧
      (s.me.pend = [] → va.toNat % 4 = 0 → s.xlate (s.rootOf s.cur) (s.cur / 8) va.toNat .read = .ok key → spaceOf key = 1 →
        (s.cell (sramCell key)).watches.length < 16 → s.writes = [] → s.depOps = [] → s.bad = [] → s.me.copies = [] →
        s.me.arms.length ≤ (s.me.entry 62).depthOf → s.homeNat key 4 ≠ v % 2 ^ 32 →
        ∃ t w, exec j s = .next t ∧ t.me.status = .idle ∧ t.mem = s.mem ∧
          (t.cell (sramCell key)).watches = (s.cell (sramCell key)).watches ++ [w] ∧ w.pa = key ∧ w.exp.toNat = v % 2 ^ 32 ∧
          w.core = s.cur))

/-- R334, R335: DEPDEC and DEPSET trap at issue on a counter that is misaligned or lies outside global SRAM, and with 0x0309
inside a speculation; else the operation is on its way to the home, behind the writes that its core has made, which the model
performs in that step (DEDUCED, log 72), and nothing else changes. The operation takes effect there, the operations of one issuer in order (R312): the counter falls by one,
is set, or rises; a counter that reaches zero in this device's SRAM sends its descriptor's address as a message of TYPE 8 to
channel 1 of its owner (R336). -/
def Sys2Proof.Claims.CodeletCounters : Prop :=
  ∀ (s : State) (l : Option Word) (a b : Reg) (sc : BitVec 4) (kd : BitVec 2),
    let va := s.me.g b
    let all := [Instr.depdec l b sc, .depset l a b sc kd]
    (s.me.fir.spec = true → ∀ i ∈ all, Claims.traps 1 0 i s .atIssue 0x0309 0) ∧
    (s.me.fir.spec = false → va.toNat % 64 ≠ 0 → ∀ i ∈ all, Claims.traps 1 0 i s .atIssue 0x030B va) ∧
    (s.me.fir.spec = false → va.toNat % 64 = 0 → ∀ c, s.depKey (s.rootOf s.cur) (s.cur / 8) va = .error c →
      ∀ i ∈ all, Claims.trapsIn (s.walked s.cur va) 1 0 i s .atIssue c va) ∧
    (∀ key, s.me.fir.spec = false → s.depKey (s.rootOf s.cur) (s.cur / 8) va = .ok key → s.writes = [] →
      (∀ o ∈ s.depOps, o.core ≠ some s.cur) → ∀ i ∈ all,
      ∃ t o, exec i s = .next t ∧ t.me = { s.me with out := .ok, wait := none } ∧ t.mem = s.mem ∧ o.core = some s.cur ∧
        t.depOps = s.depOps ++ [o] ∧ o.pa = key ∧
        (o.op = match i with
          | .depdec .. => 0
          | _ => if kd = 0 then 1 else 2) ∧
        (o.op ≠ 0 → o.val = s.me.g a)) ∧
    (∀ n o, s.depOps[n]? = some o →
      (∀ p ∈ s.depOps.take n, p.src = o.src → p.pa ≠ o.pa ∧ (p.core = none ∨ p.core ≠ o.core)) →
      spaceOf o.pa = 1 → s.isLive (dieOfCell (sramCell o.pa)) = true → queueOf o.pa = none → o.pa % 8 = 0 → s.bad = [] →
      memWf s.mem = true →
      let old : Dword := BitVec.ofNat 64 (s.homeNat o.pa 8)
      let new : Dword := match o.op with
        | 0 => old - 1
        | 1 => o.val
        | _ => old + o.val
      let owner := sramCell o.pa * 8 + s.homeNat (o.pa + 8) 8 / 2 ^ 56 % 8
      ∃ t, exec (.codeletCounterUpdate n) s = .next t ∧ t.depOps.length + 1 = s.depOps.length ∧
        t.homeNat o.pa 8 = new.toNat ∧ (∀ u, (u < o.pa ∨ o.pa + 8 ≤ u) → memGet t.mem u = memGet s.mem u) ∧
        (new = 0 → s.device < 2 ^ 13 → ∃ m ∈ t.net, hdrType m.hdr = 8 ∧
          m.dst.toNat = s.tag owner 1 ∧ m.pay = [BitVec.ofNat 64 (sramOff o.pa)]) ∧
        (new ≠ 0 → (s.cell (sramCell o.pa)).watches = [] → t.net = s.net))

/-! ### The encoder and dictionaries -/

/-- R278–R281: a parameter with bits above 27, or of a dictionary outside the region's set or not installed, is illegal with
0x0108. SENDA of an aligned segment that reads, outside a speculation and with a reserved slot, hands the segment's words to
the cell's encoder and takes the slot; ENCX does the same with `gd` pending for the header. No register and no memory changes
at issue. -/
def Sys2Proof.Claims.EncoderTakesSegments : Prop :=
  ∀ (s : State) (l : Option Word) (t d sr c : Reg) (e : BitVec 4),
    let gc := match l with
      | some x => x.setWidth 64
      | none => s.me.g c
    let n := gc.toNat
    let gs := s.me.g sr
    let id := n % 2 ^ 12
    ((2 ^ 28 ≤ n ∨ s.inSet s.cur id = false ∨ s.dict id = none) →
      Claims.illegal (.senda l t sr e c) s 0x0108 ∧ Claims.illegal (.encx l d sr e c) s 0x0108) ∧
    (∀ x key, n < 2 ^ 28 → s.inSet s.cur id = true → s.dict id = some x → s.me.fir.spec = false → s.bad = [] →
      s.xlateRange (s.rootOf s.cur) (s.cur / 8) gs.toNat (4 * x.len) .read = .ok [(key, 4 * x.len)] →
      let word i : Word := BitVec.ofNat 32 (leNat (s.firingBytes s.cur (key + 4 * i) 4))
      (0 < s.me.fir.prodLeft → gs.toNat % 4 = 0 → ∃ u j, exec (.senda l t sr e c) s = .next u ∧
        (u.cell (s.cur / 8)).enc = (s.cell (s.cur / 8)).enc ++ [j] ∧ j.x = (List.range x.len).map word ∧ j.dict = id ∧
        j.seg = n / 2 ^ 12 ∧ j.encx = none ∧ j.core = s.cur ∧ u.me.fir.prodLeft = s.me.fir.prodLeft - 1 ∧
        u.me.regs = s.me.regs ∧ u.mem = s.mem) ∧
      (gs.toNat % 8 = 0 → ∃ u j p, exec (.encx l d sr e c) s = .next u ∧
        (u.cell (s.cur / 8)).enc = (s.cell (s.cur / 8)).enc ++ [j] ∧ j.x = (List.range x.len).map word ∧ j.dict = id ∧
        j.encx = some p.who.ord ∧ j.gs = gs ∧ u.me.pend = s.me.pend ++ [p] ∧ p.ready = false ∧ (∃ v, p.writes = [.g d v]) ∧
        u.me.regs = s.me.regs ∧ u.mem = s.mem)) ∧
    (∀ x, n < 2 ^ 28 → s.inSet s.cur id = true → s.dict id = some x →
      (s.me.fir.spec = true → Claims.traps 1 e.toNat (.senda l t sr e c) s .atIssue 0x0309 0) ∧
      (s.me.fir.spec = false → s.takeSlot s.cur = none → Claims.traps 1 e.toNat (.senda l t sr e c) s .atIssue 0x0316 (s.me.g t)) ∧
      (s.me.fir.spec = false → 0 < s.me.fir.prodLeft → gs.toNat % 4 ≠ 0 →
        Claims.traps 1 e.toNat (.senda l t sr e c) s .afterIssue 0x030B gs) ∧
      (gs.toNat % 8 ≠ 0 → Claims.traps 1 e.toNat (.encx l d sr e c) s .afterIssue 0x030B gs))

/-- R271, R272: the encoding of a segment. A value that is not finite makes it an escape whose residual is the segment; else at
most SMAX entries come out, each naming an atom whose norm is not 0; an escape has no entry. -/
def Sys2Proof.Claims.EncodingShape : Prop :=
  ∀ (x : List Nat) (atoms : List (List Nat × Nat)) (smax stop esc : Nat),
    let r := encodeSegmentOf x atoms smax stop esc
    (x.any (fun v => !(fp32.decode v).isFin) = true → r.escape.isSome = true ∧ r.residual = x ∧ r.counts.nonfin = 1) ∧
    r.entries.length ≤ smax ∧ (r.escape.isSome = true → r.entries = [] ∧ r.racc = false) ∧
    ∀ e ∈ r.entries, e.1 < atoms.length ∧ (atoms.getD e.1 ([], 0)).2 ≠ 0

/-- R271, R273–R277: ENCODE_SEGMENT of the head segment that has had its time: it leaves the encoder, SEGS rises, and where it
came from SENDA, has no route and names a live core, its message goes to the network with the encoding's header and payload. -/
def Sys2Proof.Claims.EncoderSends : Prop :=
  ∀ (s : State) (cell : Nat) (j : EncJob) (rest : List EncJob), cell < 1024 → (s.cell cell).enc = j :: rest →
    j.due ≤ s.cycle + 1 → j.encx = none → j.route = 0 → s.unreachableTag j.dst.toNat = false →
    ∃ t m, exec (.encodeSegment cell) s = .next t ∧ (t.cell cell).enc.length = rest.length ∧
      t.net = s.net ++ [m] ∧ (m.hdr, m.pay) = j.message j.result ∧ m.dst = j.dst ∧ m.src = some j.core ∧ m.slot = true ∧
      t.mem = s.mem ∧ (s.counter 1 cell 0 < 2 ^ 64 - 1 → t.counter 1 cell 0 = s.counter 1 cell 0 + 1)

/-- R280: ENCODE_SEGMENT of ENCX's segment, outside a speculation: the core's own stores of the residual, the header and the payload
are on their way to the eight-aligned range at `gs`, and `gd` gets the header; memory itself is unchanged until they are performed. A
range that does not translate for writing faults the pending word, and nothing is stored. -/
def Sys2Proof.Claims.EncoderStores : Prop :=
  ∀ (s : State) (cell ord : Nat) (j : EncJob) (rest : List EncJob) (p : Pend) (d : Reg) (v : Dword), cell < 1024 →
    (s.cell cell).enc = j :: rest → j.due ≤ s.cycle + 1 → j.encx = some ord → j.spec = false → j.dropped = false → j.rewritten = [] →
    (∀ w ∈ s.writes, w.core ≠ j.core → w.id ∉ (s.core j.core).seen) → p ∈ (s.core j.core).pend → p.who.ord = ord → p.kind = .reply → p.ready = false → p.writes = [.g d v] →
    let out := j.output
    let range := s.xlateRange (s.rootOf j.core) (j.core / 8) j.gs.toNat out.length .write
    (∀ k, range = .ok [(k, out.length)] → spaceOf k = 2 → isWindow k = false → isWindow (k + out.length) = false →
      ∃ t w q, exec (.encodeSegment cell) s = .next t ∧ t.mem = s.mem ∧ t.writes = s.writes ++ [w] ∧ w.core = j.core ∧ w.pa = k ∧
        w.bytes = out.map some ∧ q ∈ (t.core j.core).pend ∧ q.who = p.who ∧ q.ready = true ∧ q.fault = none ∧
        q.writes = [.g d (j.message j.result).1] ∧ (t.core j.core).regs = (s.core j.core).regs ∧
        out = j.result.residual.flatMap (leBytes 4) ++ msgBytes (j.message j.result).1 (j.message j.result).2) ∧
    (∀ c a, range = .error (c, a) → ∃ t q, exec (.encodeSegment cell) s = .next t ∧ t.mem = s.mem ∧ t.writes = s.writes ∧
      q ∈ (t.core j.core).pend ∧ q.who = p.who ∧ q.ready = true ∧ q.fault = some (c, BitVec.ofNat 64 a))

/-- R266–R268, R282, R284: DINST's operation is 0 to 2 or illegal; it traps inside a speculation and on a misaligned descriptor.
Removal of an installed dictionary leaves none and writes status 0. New thresholds take effect, with status 0, where R266 allows
them; else they change nothing and give status 1. An install of a descriptor that breaks R266 gives status 1, of an id that is
installed 4, and either changes nothing; one that passes leaves the dictionary at shade 1 with the descriptor's fields and with the
storage's atoms and their norms. DSTAT reads state or a counter. -/
def Sys2Proof.Claims.DictionaryInstall : Prop :=
  ∀ (s : State) (l : Option Word) (d a c : Reg) (e : BitVec 4),
    let gc := match l with
      | some x => x.setWidth 64
      | none => s.me.g c
    let n := gc.toNat
    let va := s.me.g a
    let i := Instr.dinst l d a e c
    (2 < n → Claims.illegal i s 0x0108) ∧
    (n ≤ 2 → s.me.fir.spec = true → Claims.traps 1 e.toNat i s .atIssue 0x0309 0) ∧
    (n ≤ 2 → s.me.fir.spec = false → va.toNat % 8 ≠ 0 → Claims.traps 1 e.toNat i s .afterIssue 0x030B va) ∧
    (∀ key, n ≤ 2 → s.me.fir.spec = false → va.toNat % 8 = 0 → Claims.calm s → (s.cell (s.cur / 8)).tlb = [] →
      (∀ o m, o + m ≤ 64 → 0 < m → ∀ acc,
        s.xlateRange (s.rootOf s.cur) (s.cur / 8) (va.toNat + o) m acc = .ok [(key + o, m)]) →
      let b := s.homeBytes key 64
      let field o m := leNat ((b.drop o).take m)
      let id := field 0 2 % 4096
      let old := ((s.dict id).map Dict.shade).getD 0
      s.inSet s.cur id = true → ∃ t p v, exec i s = .next t ∧ t.me.pend = s.me.pend ++ [p] ∧ p.writes = [.g d v] ∧
        t.me.regs = s.me.regs ∧
        (n = 1 → (s.dicts.map (·.1)).Pairwise (· < ·) → t.dict id = none ∧ (s.dict id ≠ none → v = 0) ∧ (s.dict id = none → v = 5)) ∧
        (n = 2 → t.mem = s.mem ∧ (s.dict id = none → v = 5 ∧ t.dict id = none) ∧ ∀ x, s.dict id = some x →
          (tausOk (field 8 4) (field 12 4) = true → v.toNat = x.shade % 2 ^ 32 * 2 ^ 32 ∧
            t.dict id = some { x with tauStop := BitVec.ofNat 32 (field 8 4), tauEsc := BitVec.ofNat 32 (field 12 4) }) ∧
          (tausOk (field 8 4) (field 12 4) = false → v.toNat = x.shade % 2 ^ 32 * 2 ^ 32 + 1 ∧ t.dict id = some x)) ∧
        (n = 0 → (descOk b = false → v.toNat = old % 2 ^ 32 * 2 ^ 32 + 1 ∧ t.mem = s.mem ∧ t.dict id = s.dict id) ∧
          (descOk b = true → s.dict id ≠ none → v.toNat = old % 2 ^ 32 * 2 ^ 32 + 4 ∧ t.mem = s.mem ∧ t.dict id = s.dict id) ∧
          (∀ ak q sl nl, descOk b = true → s.dict id = none →
            let keys va m acc := s.xlateRange (s.rootOf s.cur) (s.cur / 8) va m acc
            let k := field 0 8 / 2 ^ 28 % 2 ^ 12
            let len := field 0 8 / 2 ^ 16 % 2 ^ 9
            keys (field 0x10 8) 1 .read = .ok [(ak, 1)] → s.physSpace (s.rootOf s.cur) (s.cur / 8) (field 0x10 8) ≤ 1 →
            s.storageOk ak k len = some q → field 0x30 8 = 0 → keys (field 0x20 8) (4 * field 0x28 2) .read = .ok sl →
            keys (field 0x18 8) (4 * k) .write = .ok nl → ∃ y, t.dict id = some y ∧ y.shade = 1 ∧ y.len = len ∧ y.k = k ∧
              y.smax = field 0 8 / 2 ^ 12 % 16 ∧ y.tauStop.toNat = field 8 4 ∧ y.tauEsc.toNat = field 12 4 ∧
              y.atoms.length = k ∧ (∀ m w, y.atoms[m]? = some w → w.cur = (s.storedAtom ak q len m).1 ∧ w.nu = atomNorm w.cur ∧
                w.c = 1 ∧ w.p = 0) ∧
              v.toNat = 2 ^ 32 + (y.atoms.filter (·.nu = 0)).length * 2 ^ 20)) ) ∧
    (n / 2 ^ 12 = 0 → s.inSet s.cur n = true → exec (.dstat l d e c) s =
      .next (Claims.later 1 e.toNat 3 (.dstat l d e c) [.g d (s.dictStat (s.cur / 8) n)] 0 false s)) ∧
    (∀ m ≤ 9, n = 2 ^ 15 + m → exec (.dstat l d e c) s =
      .next (Claims.later 1 e.toNat 3 (.dstat l d e c) [.g d (BitVec.ofNat 64 (s.counter 1 (s.cur / 8) m))] 0 false s)) ∧
    (2 ^ 16 ≤ n → Claims.illegal (.dstat l d e c) s 0x0108)

/-! ### Images -/

/-- R289, R290, R298–R300: IMRES of a message and a binding that read and pass R289, outside a speculation. Its `gd` gets the
status in bits 7:0: 4 where the dictionary is not installed and the message fits the binding (SHADE is then open, log 3),
6 where it does not fit, and for a registered binding: 5 for a malformed message; 1 for an escape with a place in the queue, which
then holds the segment; and, for a coded message of one entry, 2 where the cell's view is behind the message, which the hold store
takes, 4 where no slot covers the message's shade, and 0 where a valid one does, which the queue then holds with the
coefficient. Which resolutions are complete and in which order they join the queue is DEDUCED (log 33). -/
def Sys2Proof.Claims.ImageResolves : Prop :=
  ∀ (s : State) (l : Option Word) (d m b : Reg) (e : BitVec 4) (hk bk n : Nat),
    let gm := s.me.g m
    let gb := match l with
      | some x => x.setWidth 64
      | none => s.me.g b
    let i := Instr.imres l d m e b
    let read (va k : Nat) : Except (Nat × Nat) (List (Nat × Nat)) := s.xlateRange (s.rootOf s.cur) (s.cur / 8) va k .read
    let hdr : Dword := BitVec.ofNat 64 (leNat (s.firingBytes s.cur hk 8))
    let br := bindRec bk gb (s.firingBytes s.cur bk 64)
    let typ := hdr.toNat / 2 ^ 60
    let ends' (status : Nat) (post : State → Dword → Prop) : Prop :=
      ∃ t v, exec i s = .next t ∧ t.me.regs = (s.me.setG d v).regs ∧ v.toNat % 256 = status ∧ post t v
    (s.me.fir.spec = true → Claims.traps 1 e.toNat i s .atIssue 0x0309 0) ∧
    (s.me.fir.spec = false → gm.toNat % 8 ≠ 0 → Claims.traps 1 e.toNat i s .afterIssue 0x030B gm) ∧
    (s.me.fir.spec = false → gm.toNat % 8 = 0 → gb.toNat % 64 ≠ 0 → Claims.traps 1 e.toNat i s .afterIssue 0x030B gb) ∧
    (s.me.fir.spec = false → gm.toNat % 8 = 0 → gb.toNat % 64 = 0 → s.bad = [] → s.me.replay = none →
      (∀ r ∈ s.me.resq, r.ord ≠ s.me.words) → n = (if typ = 2 ∨ typ = 3 then hdr.toNat % 256 else 0) →
      read gm.toNat 8 = .ok [(hk, 8)] → read gb.toNat 64 = .ok [(bk, 64)] → read gm.toNat (8 + 8 * n) = .ok [(hk, 8 + 8 * n)] →
      (s.bindBad s.cur br = true → Claims.illegal i s 0x0108) ∧
      (s.bindBad s.cur br = false → (typ = 2 ∨ typ = 3) → hdr.toNat / 2 ^ 40 % 2 ^ 12 = br.dict →
        hdr.toNat / 2 ^ 8 % 2 ^ 16 = br.seg →
        (s.dict br.dict = none → ends' 4 fun t _ => t.mem = s.mem) ∧
        (∀ x pay, s.dict br.dict = some x → (s.cell (s.cur / 8)).bindings.any (fun y => y.key = bk) = true →
          (s.cell (s.cur / 8)).tlb = [] → pay = dwordList n (s.firingBytes s.cur (hk + 8) (8 * n)) →
          (codedMalformed hdr pay (some x.len) = true → ends' 5 fun t _ => t.mem = s.mem ∧ t.me.resq = s.me.resq) ∧
          (codedMalformed hdr pay (some x.len) = false → typ = 3 → s.me.resq.length < 4 →
            ends' 1 fun t _ => t.mem = s.mem ∧ ∃ r, t.me.resq = s.me.resq ++ [r] ∧ r.coded = false ∧ r.xh = escapeSeg pay x.len ∧
              r.nb = br.nb) ∧
          (∀ a coef tags, codedMalformed hdr pay (some x.len) = false → typ = 2 → s.me.resq.length < 4 →
            codedEntries hdr pay = [(a, coef)] → a < x.k →
            s.xlateRange (s.rootOf s.cur) (s.cur / 8) br.tagBase (32 * x.k) .write = .ok tags →
            let view := s.view (s.cur / 8) br.dict x
            let sh := nearShade view (hdr.toNat / 2 ^ 24 % 2 ^ 16)
            ((view : Int) < sh → s.markAt s.cur hk ≠ 2 → (s.cell (s.cur / 8)).holds.length < 32 →
              ends' 2 fun t _ => t.mem = s.mem ∧ ∃ h, (t.cell (s.cur / 8)).holds = (s.cell (s.cur / 8)).holds ++ [h] ∧
                h.hdr = hdr ∧ h.pay = pay ∧ h.core = s.cur ∧ h.mark = 0) ∧
            ((view : Int) < sh → s.markAt s.cur hk = 2 → ends' 3 fun t _ => t.mem = s.mem) ∧
            (sh ≤ view → s.coveringSlot tags a sh = none → ends' 4 fun t _ => t.mem = s.mem ∧ t.me.resq = s.me.resq) ∧
            (∀ u tk tg, sh ≤ view → s.coveringSlot tags a sh = some (u, tk, tg) → tg.valid = true →
              ends' 0 fun t v => v.toNat / 2 ^ 8 % 2 ^ 16 = 1 ∧ ∃ r, t.me.resq = s.me.resq ++ [r] ∧ r.coded = true ∧
                r.pairs = [(s.slotKey (s.rootOf s.cur) (s.cur / 8) br a u, BitVec.ofNat 16 coef)] ∧ r.await = [])))) ∧
      (s.bindBad s.cur br = false → s.dict br.dict = none → (typ ≠ 2 ∧ typ ≠ 3 ∨ hdr.toNat / 2 ^ 40 % 2 ^ 12 ≠ br.dict ∨
        hdr.toNat / 2 ^ 8 % 2 ^ 16 ≠ br.seg) → ends' 6 fun t _ => t.mem = s.mem))

/-- R301, R302: IMAGE_BUILD makes, on a core whose matrix unit runs no command, the next build of its list: the slot gets one element
for each row, the exact sum of the row's products with the atom's values rounded once in the slot's bank type; the tag becomes valid
where it still names that version; no resolution of the cell awaits the image; the build leaves its list and IMAGES BUILT
rises. That a build takes the formats as they stand when it is made is DEDUCED (log 90), and when a resolution counts as
complete is too (log 33). -/
def Sys2Proof.Claims.ImageBuilds : Prop :=
  ∀ (s : State) (core : Nat) (b : Build), core < 8192 → (s.core core).mq.ran = false → (s.core core).mq.step = none →
    (s.core core).frozen = false → (s.core core).switching = false → s.nextBuild core = some b →
    ∃ t, exec (.imageBuild core) s = .next t ∧ b ∉ (t.core core).builds ∧ (t.core core).regs = (s.core core).regs ∧
      (∀ n < 8, ∀ r ∈ (t.core (8 * (core / 8) + n)).resq, (b.slotPa, b.since) ∉ r.await) ∧
      (let f := s.bankFmt (core / 8) b.slotPa
       let w := typeBits f.typ / 8
       let row e := b.rows.getD e 0
       let value e := imageBits f.typ
         (s.elemVals (s.bankFmt (core / 8) (row e)) (bankBase (row e)) (row e % bankSize) b.len) (b.atom.map fun (x : Word) => fp32.decode x.toNat)
       let top := b.slotPa + w * b.rows.length
       memWf s.mem = true → s.bad = [] → spaceOf b.slotPa = 1 → sramOff b.slotPa + w * b.rows.length ≤ 0x1F_C000 →
       b.rows ≠ [] → 0 < w → (b.tagPa + 16 ≤ b.slotPa ∨ top ≤ b.tagPa) →
       (∀ e < b.rows.length, ∀ j < w, memGet t.mem (b.slotPa + w * e + j) = BitVec.ofNat 8 (value e / 256 ^ j)) ∧
       (spaceOf b.tagPa = 1 → sramOff b.tagPa + 16 ≤ 0x1F_C000 →
         t.getTag b.tagPa = (if (s.getTag b.tagPa).since = b.since then (s.getTag b.tagPa).made else s.getTag b.tagPa)) ∧
       ∀ u, (u < b.slotPa ∨ top ≤ u) → (u < b.tagPa ∨ b.tagPa + 16 ≤ u) → memGet t.mem u = memGet s.mem u) ∧
      (s.counter 2 (core / 8) 2 < 2 ^ 64 - 1 → t.counter 2 (core / 8) 2 = s.counter 2 (core / 8) 2 + 1)

/-- R303: IMACC without a resolution that waits for no build is illegal with 0x0107, and with fewer lanes than 16·NB with
0x0108. Else the oldest such resolution leaves the queue, and each active lane below 16·NB takes its new value. That a
resolution which still waits for a build counts as none, and which one is the oldest, is DEDUCED (log 33). -/
def Sys2Proof.Claims.ImageAccumulates : Prop :=
  ∀ (s : State) (d : Reg) (p : BitVec 3) (c : BitVec 4), s.me.vl ≠ 0 → s.bad = [] →
    let i := Instr.imacc d p c
    let first := s.me.resq.find? (·.await.isEmpty)
    (first = none → Claims.illegal i s 0x0107) ∧
    (∀ r, first = some r → s.me.vl < 16 * r.nb → Claims.illegal i s 0x0108) ∧
    (∀ r, first = some r → 16 * r.nb ≤ s.me.vl → s.me.vl ≤ 256 → ∃ t q v m, exec i s = .next t ∧ t.me.resq = s.me.resq.erase r ∧
      t.me.pend = s.me.pend ++ [q] ∧ q.writes = [.v d v m] ∧ q.due = s.cycle + 4 +
        (if r.coded then r.pairs.length else (r.len + 3) / 4) ∧ t.me.regs = s.me.regs ∧ t.mem = s.mem ∧
      (∀ j < 8192, m.getLsbD j = (decide (j / 32 < 16 * r.nb) && (s.me.p p).getLsbD (4 * (j / 32)))) ∧
      ∀ e < 16 * r.nb, (s.me.p p).getLsbD (4 * e) = true →
        Claims.el 32 v e = BitVec.ofNat 32 (s.imaccLane (s.cur / 8) r e (Claims.el 32 (s.me.v d) e).toNat) ∧
        (r.coded = true → r.pairs = [] → Claims.el 32 v e = Claims.el 32 (s.me.v d) e))

/-- R305: DREPL is illegal for a dictionary outside the region's set or an atom beyond K, and traps inside a speculation. Of an
installed dictionary with nothing owed for the atom, it raises the shade by one, the old version becomes the prior one, a
notice goes to every subscriber and arrives after the word completes, the storage holds the new values, and `gd` gets the shade and
status 0; with something owed it gives status 1 and changes nothing. -/
def Sys2Proof.Claims.AtomReplacement : Prop :=
  ∀ (s : State) (l : Option Word) (d a c : Reg) (e : BitVec 4),
    let gc := match l with
      | some x => x.setWidth 64
      | none => s.me.g c
    let n := gc.toNat
    let id := n % 2 ^ 12
    let k := n / 2 ^ 12
    let i := Instr.drepl l d a e c
    let va := s.me.g a
    ((2 ^ 23 ≤ n ∨ s.inSet s.cur id = false) → Claims.illegal i s 0x0108) ∧
    (n < 2 ^ 23 → s.inSet s.cur id = true → s.dict id = none → s.me.fir.spec = false →
      exec i s = .next (Claims.later 1 e.toNat 16 i [.g d 5] 0 false s)) ∧
    (∀ x, n < 2 ^ 23 → s.inSet s.cur id = true → s.dict id = some x →
      let size := if x.q8 = none then 2 * x.len else 4 + x.len
      let align := if x.q8 = none then 2 else 4
      (x.k ≤ k → Claims.illegal i s 0x0108) ∧
      (k < x.k → s.me.fir.spec = true → Claims.traps 1 e.toNat i s .atIssue 0x0309 0) ∧
      (k < x.k → s.me.fir.spec = false → va.toNat % align ≠ 0 → Claims.traps 1 e.toNat i s .afterIssue 0x030B va) ∧
      (∀ c a, k < x.k → s.me.fir.spec = false → va.toNat % align = 0 → s.readVa s.cur va.toNat size = .error (c, a) →
        Claims.trapsIn (s.walked s.cur va size) 1 e.toNat i s .afterIssue c (BitVec.ofNat 64 a)) ∧
      (∀ t b, k < x.k → s.me.fir.spec = false → va.toNat % align = 0 → k < x.atoms.length →
        s.readVa s.cur va.toNat size = .ok (t, b) → x.shade < 2 ^ 32 - 1 → Claims.calm s →
        ∃ u p v, exec i s = .next u ∧ u.me.pend = s.me.pend ++ [p] ∧ p.writes = [.g d v] ∧ p.due = s.cycle + 16 + (x.len + 15) / 16 ∧
          u.me.regs = s.me.regs ∧
          (x.owed.any (fun o => o.1 = k) = true → v.toNat = x.shade * 2 ^ 32 + 1 ∧ u.dict id = some x ∧
            u.noticeNet = s.noticeNet ∧ u.mem = s.mem) ∧
          (x.owed.any (fun o => o.1 = k) = false → ∃ y o w, w.cur = newAtom x b ∧ w.nu = atomNorm w.cur ∧ u.dict id = some y ∧ y.shade = x.shade + 1 ∧
            x.atoms[k]? = some o ∧ y.atoms[k]? = some w ∧ w.c = x.shade + 1 ∧ w.prior = o.cur ∧ w.p = o.c ∧ w.pnu = o.nu ∧
            v.toNat / 2 ^ 32 = x.shade + 1 ∧ v.toNat % 256 = 0 ∧
            (∀ tag ∈ x.subs, ∃ q ∈ u.noticeNet, q.dict = id ∧ q.atom = k ∧ q.shade = x.shade + 1 ∧ q.tag = tag ∧ p.due < q.due) ∧
            (let p := x.atomPa + 2 * k * x.len
             x.q8 = none → spaceOf p = 1 → sramOff p + 2 * x.len ≤ 0x1F_C000 →
             (∀ m, normKey x.norms k = some m → m + 4 ≤ p ∨ p + 2 * x.len ≤ m) →
             ∀ j < 2 * x.len, memGet u.mem (p + j) = b.getD j 0))))

/-- R293, R294, R297: an acknowledgement takes what it answers off the owner's list; a refused notice whose wait is over is on its
way again; a notice that is the next of a subscribed live cell's view advances the view by one and is acknowledged, and, in the
binding's tags of its atom, closes the open range at the shade before and opens a new one in the other slot; a held message
whose limit has passed is marked, and goes to its channel's area where that has room and no earlier one of the core waits for it. -/
def Sys2Proof.Claims.Notices : Prop :=
  ∀ (s : State) (n cell : Nat),
    (∀ a x, s.acks[n]? = some a → s.dict a.dict = some x → ∃ t, exec (.noticeAck n) s = .next t ∧
      (t.dict a.dict).map Dict.owed = some (x.owed.filter fun o => decide (o ≠ (a.atom, a.shade, a.tag))) ∧ t.mem = s.mem ∧
      t.cores = s.cores) ∧
    (∀ q, s.noticeNet[n]? = some q → q.refused = true → q.due ≤ s.cycle + 1 → ∃ t r, exec (.noticeResend n) s = .next t ∧
      t.noticeNet[n]? = some r ∧ r.refused = false ∧ r.tag = q.tag ∧ r.shade = q.shade ∧ t.cores = s.cores ∧ t.mem = s.mem) ∧
    (∀ q x, s.noticeNet[n]? = some q → q.refused = false → q.due ≤ s.cycle + 1 → tagDev q.tag = s.device →
      tagCore q.tag / 8 = cell → s.isLive (cell / 256) = true → s.switchedOut cell = false → s.dict q.dict = some x →
      x.hasSub q.tag = true → (s.cell cell).bindings = [] → (s.cell cell).holds = [] → (s.cell cell).notices = [] →
      q.shade = tabGet 0 (s.cell cell).views q.dict + 1 → ∃ t a, exec (.atomReplacedNotice n) s = .next t ∧
        tabGet 0 (t.cell cell).views q.dict = q.shade ∧ t.acks = s.acks ++ [a] ∧ a.atom = q.atom ∧ a.shade = q.shade ∧
        t.noticeNet.length + 1 = s.noticeNet.length ∧ t.mem = s.mem) ∧
    (∀ q x b i, s.noticeNet[n]? = some q → q.refused = false → q.due ≤ s.cycle + 1 → tagDev q.tag = s.device →
      tagCore q.tag / 8 = cell → s.isLive (cell / 256) = true → s.switchedOut cell = false → s.dict q.dict = some x →
      x.hasSub q.tag = true → (s.cell cell).bindings = [b] → b.dict = q.dict → (s.cell cell).holds = [] →
      (s.cell cell).notices = [] → q.shade = tabGet 0 (s.cell cell).views q.dict + 1 → q.shade < 2 ^ 32 → Claims.calm s →
      tagKey b.tags (2 * q.atom) = some i → tagKey b.tags (2 * q.atom + 1) = some (i + 16) → spaceOf i = 1 →
      sramOff i + 32 ≤ 0x1F_C000 → (s.getTag i).upto = tagOpen → ∃ t, exec (.atomReplacedNotice n) s = .next t ∧
        t.getTag i = { s.getTag i with upto := q.shade - 1 } ∧ t.getTag (i + 16) = ⟨q.shade, tagOpen, 0, 0⟩ ∧
        ∀ u, (u < i ∨ i + 32 ≤ u) → memGet t.mem u = memGet s.mem u) ∧
    (∀ h, (s.cell cell).holds[n]? = some h → h.mark = 0 → h.since + 2 ^ (h.limit + 10) ≤ s.cycle + 1 →
      ((s.core h.core).recs = [] → (s.core h.core).tail = 0 → h.pay.length < 1024 →
        (∀ g ∈ (s.cell cell).holds.take n, g.mark ≠ 0 → g.core ≠ h.core) → ∃ t r, exec (.holdExpiry cell n) s = .next t ∧ (t.cell cell).holds = listDel (s.cell cell).holds n ∧
          (t.core h.core).recs = [r] ∧ r.st = .queued ∧ r.ch = h.retCh ∧ r.mark = 2) ∧
      ((s.core h.core).recCount = 256 → ∃ t, exec (.holdExpiry cell n) s = .next t ∧
        (t.cell cell).holds = listSet (s.cell cell).holds n { h with mark := 2 } ∧ t.mem = s.mem ∧ t.cores = s.cores))

/-- R306, R307: DSYNC reads no binding for its operation 0, gives 5 where the dictionary is not installed, and unregisters a
registered binding with its operation 1, and 6 where it is not; a cell that is no subscriber becomes one, or gets 7 where the list
is full. HOLDR's operations 0 and 3 read the store and a counter, 1 and 2 re-deliver and drop
the held messages of a dictionary and write their number. -/
def Sys2Proof.Claims.SyncAndHolds : Prop :=
  ∀ (s : State) (l : Option Word) (d b c : Reg) (e : BitVec 4),
    let gc := match l with
      | some x => x.setWidth 64
      | none => s.me.g c
    let n := gc.toNat
    let id := n % 2 ^ 12
    let cell := s.cur / 8
    let i := Instr.dsync l d b e c
    let j := Instr.holdr l d e c
    let mine (h : Held) : Bool := h.dict = n / 2 ^ 16
    ((2 ^ 17 ≤ n ∨ s.inSet s.cur id = false) → Claims.illegal i s 0x0108) ∧
    (n < 2 ^ 12 → s.inSet s.cur id = true → b ≠ 0 → Claims.illegal i s 0x0103) ∧
    (n < 2 ^ 12 → s.inSet s.cur id = true → b = 0 → s.me.fir.spec = true → Claims.traps 1 e.toNat i s .atIssue 0x0309 0) ∧
    (n < 2 ^ 12 → s.inSet s.cur id = true → b = 0 → s.me.fir.spec = false → s.dict id = none →
      exec i s = .next (Claims.atOnce 1 e.toNat i [.g d 5] s)) ∧
    (∀ key x, n = 2 ^ 16 + id → s.inSet s.cur id = true → s.me.fir.spec = false → s.dict id = some x → s.me.replay = none →
      s.xlate (s.rootOf s.cur) cell (s.me.g b).toNat .read = .ok key →
      (s.cell cell).bindings.any (fun y => y.key = key && y.dict = id) = true → ∃ t, exec i s = .next t ∧
        (t.cell cell).bindings = (s.cell cell).bindings.filter (fun y => decide (y.key ≠ key)) ∧
        t.me.regs = (s.me.setG d 0).regs ∧ t.mem = s.mem) ∧
    (∀ m ≤ 10, n = 16 * m + 3 → exec j s =
      .next (Claims.later 1 e.toNat 3 j [.g d (BitVec.ofNat 64 (s.counter 2 cell m))] 0 false s)) ∧
    (n = 2 ^ 16 + id → s.inSet s.cur id = true → s.me.fir.spec = false → s.dict id = none →
      exec i s = .next (Claims.atOnce 1 e.toNat i [.g d 5] s)) ∧
    (∀ key x, n = 2 ^ 16 + id → s.inSet s.cur id = true → s.me.fir.spec = false → s.dict id = some x →
      s.xlate (s.rootOf s.cur) cell (s.me.g b).toNat .read = .ok key →
      (s.cell cell).bindings.any (fun y => y.key = key && y.dict = id) = false →
      exec i s = .next (Claims.atOnce 1 e.toNat i [.g d 6] (s.walked s.cur (s.me.g b)))) ∧
    (∀ x, n < 2 ^ 12 → s.inSet s.cur id = true → b = 0 → s.me.fir.spec = false → s.dict id = some x → s.me.replay = none →
      x.shade < 2 ^ 32 →
      (x.hasSub (s.cellTag cell) = true → tabGet 0 (s.cell cell).views id = x.shade →
        (tabGet x.shade (s.cell cell).views id = x.shade) → (s.cell cell).notices = [] → ∃ t, exec i s = .next t ∧
          t.me.regs = (s.me.setG d (BitVec.ofNat 64 (x.shade * 2 ^ 32))).regs ∧ t.mem = s.mem ∧ t.dict id = some x) ∧
      (x.hasSub (s.cellTag cell) = false → x.subs.length < x.subCap → ∃ t, exec i s = .next t ∧
        t.me.regs = (s.me.setG d (BitVec.ofNat 64 (x.shade * 2 ^ 32))).regs ∧ t.mem = s.mem ∧
        t.dict id = some { x with subs := x.subs ++ [s.cellTag cell] } ∧ tabGet 0 (t.cell cell).views id = x.shade) ∧
      (x.hasSub (s.cellTag cell) = false → x.subCap ≤ x.subs.length → ∃ t v, exec i s = .next t ∧
        t.me.regs = (s.me.setG d v).regs ∧ v.toNat % 256 = 7 ∧ t.mem = s.mem ∧ t.dict id = some { x with subFull := true })) ∧
    (n = 0 → (s.cell cell).holds.length ≤ 32 → ∃ v, exec j s = .next (Claims.later 1 e.toNat 3 j [.g d v] 0 false s) ∧
      v.toNat % 2 ^ 32 = (s.cell cell).holds.length ∧ ((s.cell cell).holds = [] → v = 0) ∧
      ∀ h rest, (s.cell cell).holds = h :: rest → v.toNat / 2 ^ 32 = Nat.min (s.cycle - h.since) (2 ^ 32 - 1)) ∧
    (n % 2 ^ 16 ∈ [1, 2] → n < 2 ^ 28 → s.me.fir.spec = false → (∀ x ∈ s.cores, ∀ p ∈ x.2.pend, p.waits = none) → ∃ t p, exec j s = .next t ∧ t.me.pend = s.me.pend ++ [p] ∧
      p.writes = [.g d (BitVec.ofNat 64 ((s.cell cell).holds.filter mine).length)] ∧ t.me.regs = s.me.regs ∧
      (n % 2 ^ 16 = 1 → ∀ h ∈ (t.cell cell).holds, mine h = true → h.mark ≠ 0) ∧
      (n % 2 ^ 16 = 2 → (t.cell cell).holds = (s.cell cell).holds.filter fun h => !mine h))

/-- R90, R304: HOT of every routing entry is cleared once 2^20 cycles have passed since the last time: no byte of memory changes but
to 0, and where nothing watches, awaits or shadows one, cores and cells stay as they are. A replication request that names no
dictionary, or that finds no binding to copy, no cell for the copy or none that can register it, is counted at its distributor and
changes no memory; else the cell has the binding and the routing entry one more alternate, with the core and channel of the first.
Which cell, what of the first alternate its tag takes, and the refusals are the model's choice (DESIGN CHOICE, log 34). -/
def Sys2Proof.Claims.Replication : Prop :=
  ∀ (s : State),
    (s.hotAt + 2 ^ 20 ≤ s.cycle + 1 → ∃ t, exec .routeHotClear s = .next t ∧ t.hotAt = s.cycle + 1 ∧
      (Claims.noWaits s → t.cores = s.cores) ∧
      (Claims.noWaits s → (∀ x ∈ s.cells, x.2.watches = [] ∧ x.2.shadow = []) → t.cells = s.cells) ∧
      (memWf s.mem = true → ∀ u, memGet t.mem u = memGet s.mem u ∨ memGet t.mem u = 0) ∧
      (memWf s.mem = true → ∀ id x r m, s.dict id = some x → x.route ≠ 0 → s.canon 0 x.route = some r → m < 65536 → r % 32 = 0 →
        queueOf (r + 32 * m + 24) = none → isWindow (r + 32 * m + 24) = false →
        ∀ j < 4, memGet t.mem (r + 32 * m + 24 + j) = 0)) ∧
    (∀ q rest, s.repl = q :: rest → s.dict q.dict = none → q.die < 4 → ∃ t, exec .replicationRequest s = .next t ∧
      t.repl = rest ∧ t.mem = s.mem ∧ (t.die q.die).refused = (s.die q.die).refused + 1 ∧ t.cores = s.cores) ∧
    (∀ q rest x src key r, s.repl = q :: rest → s.dict q.dict = some x → q.die < 4 → q.cell = some src → x.route ≠ 0 →
      s.canon 0 (x.route + 32 * q.seg) = some key → s.region q.region = some r →
      let d0 := s.homeNat key 8
      let cnt := d0 / 2 ^ 8 % 8
      let alt n := s.homeNat (key + 8 + 4 * n) 4
      let used c := c = src ∨ ∃ n < cnt, tagDev (alt n) = s.device ∧ tagCore (alt n) / 8 = c
      let free c := c ∈ r.placed ∧ ¬used c ∧ Config.holdsRows s.free q.dict q.seg c = true
      let refused := ∃ t, exec .replicationRequest s = .next t ∧ t.repl = rest ∧ t.mem = s.mem ∧
        (t.die q.die).refused = (s.die q.die).refused + 1
      let s' := { s with repl := rest, free := s.free + 1 }
      ((d0 < 2 ^ 63 ∨ cnt = 0 ∨ 4 ≤ cnt ∨ (∀ b ∈ (s.cell src).bindings, b.key ≠ q.key) ∨ ∀ c, ¬free c) → refused) ∧
      (∀ dst b, 2 ^ 63 ≤ d0 → 0 < cnt → cnt < 4 → free dst → (∀ c, free c → dst ≤ c) → dst < 1024 → s.device < 2 ^ 13 →
        (s.cell src).bindings.filter (fun y => y.key = q.key) = [b] →
        (s'.copyBinding q.region dst b = none → refused) ∧
        (∀ u, s'.copyBinding q.region dst b = some u → memWf u.mem = true → u.bad = [] → spaceOf key = 2 → isWindow key = false →
          key % 32 = 0 → u.homeNat key 8 = d0 →
          ∃ t, exec .replicationRequest s = .next t ∧ t.repl = u.repl ∧ t.die q.die = u.die q.die ∧
            (t.cell dst).bindings = (u.cell dst).bindings ∧ (∃ y ∈ (t.cell dst).bindings, y.key = sramKey dst (sramOff b.key)) ∧
            t.homeNat (key + 8 + 4 * cnt) 4 = s.tag (8 * dst + tagCore (alt 0) % 8) (tagCh (alt 0)) ∧
            t.homeNat key 8 / 2 ^ 8 % 8 = cnt + 1 ∧ t.homeNat key 8 % 2 ^ 8 = d0 % 2 ^ 8)))

/-! ### Travelling contexts -/

/-- R349–R352: MIGRATE waits for pending results, SPAWN does not. Each checks its code address (0x0307), the translation of `ga`,
that its home is SRAM (0x030E), and the speculation (0x0309); then MIGRATE of a firing that no context started needs a grant
(0x0317), and each needs a slot (0x0316). With a grant, a reserved slot, nothing of the core on its way and a live owner, the context
goes to channel 3 of the owner core of `ga` with the code and `g8` to `g15`; MIGRATE ends the firing; SPAWN's `gd` pends for the
answer, or is 0 at once without a grant. -/
def Sys2Proof.Claims.ContextsTravel : Prop :=
  ∀ (s : State) (l : Option Word) (a c d : Reg) (e : BitVec 4) (key : Nat),
    let ga := s.me.g a
    let gc := match l with
      | some x => x.setWidth 64
      | none => s.me.g c
    let i := Instr.migrate l a c
    let j := Instr.spawn l d a e c
    let region := s.me.region.getD 0
    let t := s.walked s.cur ga
    let owner := sramCell key * 8 + sramOff key / 2 ^ 18
    (s.me.pend ≠ [] → Claims.holds i s) ∧
    ((gc.toNat % 8 ≠ 0 ∨ 2 ^ 56 ≤ gc.toNat) → Claims.traps 1 e.toNat j s .atIssue 0x0307 gc ∧
      (s.me.pend = [] → Claims.traps 1 0 i s .atIssue 0x0307 gc)) ∧
    (∀ c, gc.toNat % 8 = 0 → gc.toNat < 2 ^ 56 → s.xlate (s.rootOf s.cur) (s.cur / 8) ga.toNat .read = .error c →
      Claims.trapsIn t 1 e.toNat j s .atIssue c ga ∧ (s.me.pend = [] → Claims.trapsIn t 1 0 i s .atIssue c ga)) ∧
    (gc.toNat % 8 = 0 → gc.toNat < 2 ^ 56 → s.xlate (s.rootOf s.cur) (s.cur / 8) ga.toNat .read = .ok key →
      (spaceOf key ≠ 1 → Claims.trapsIn t 1 e.toNat j s .atIssue 0x030E ga ∧
        (s.me.pend = [] → Claims.trapsIn t 1 0 i s .atIssue 0x030E ga)) ∧
      (spaceOf key = 1 → s.me.fir.spec = true → Claims.trapsIn t 1 e.toNat j s .atIssue 0x0309 0 ∧
        (s.me.pend = [] → Claims.trapsIn t 1 0 i s .atIssue 0x0309 0)) ∧
      (spaceOf key = 1 → s.me.fir.spec = false → s.me.pend = [] → s.me.fir.ctx = none → s.fits region .ctx 1 = false →
        Claims.trapsIn t 1 0 i s .atIssue 0x0317 ga) ∧
      (spaceOf key = 1 → s.me.fir.spec = false → s.takeSlot s.cur = none → s.me.fir.ctx ≠ none → s.me.pend = [] →
        Claims.trapsIn t 1 0 i s .atIssue 0x0316 ga) ∧
      (spaceOf key = 1 → s.me.fir.spec = false → s.fits region .ctx 1 = false → s.me.replay = none →
        ∃ t, exec j s = .next t ∧ t.me.regs = (s.me.setG d 0).regs ∧ t.net = s.net ∧ t.mem = s.mem) ∧
      (spaceOf key = 1 → s.me.fir.spec = false → s.fits region .ctx 1 = true → 0 < s.me.fir.prodLeft → s.writes = [] →
        s.depOps = [] → s.unreachableTag (s.tag owner 3 % 2 ^ 32) = false →
        let sent (t : State) : Prop := ∃ m, t.net = s.net ++ [m] ∧ hdrType m.hdr = 6 ∧ m.dst.toNat = s.tag owner 3 % 2 ^ 32 ∧
          m.pay = gc :: (List.range 8).map fun r => s.me.g (BitVec.ofNat 5 (8 + r))
        (∃ t p, exec j s = .next t ∧ sent t ∧ t.me.pend = s.me.pend ++ [p] ∧ p.ready = false ∧ p.writes = [.g d 0] ∧
          t.me.regs = s.me.regs ∧ t.mem = s.mem) ∧
        (s.me.pend = [] → s.me.copies = [] → s.me.arms.length ≤ (s.me.entry 62).depthOf →
          ∃ t, exec i s = .next t ∧ sent t ∧ t.me.status = .idle ∧ t.mem = s.mem)))

/-- R345, R351, R353: CTXLD's counter form reads a counter; its reload form with an empty list loads none, and with N = 1 and a
record it places that record's context on channel 3 and writes what is left of the list, and 1. A context that arrives for another
region is dropped with answer 4; one that finds its channel's list empty and room in area and channel is placed, counted, and
answered with 1; behind spilled ones it is spilled where a record is free, and answered with 2; where none is free it is refused, to be
tried again, and answered with 3. -/
def Sys2Proof.Claims.ContextsArrive : Prop :=
  (∀ (s : State) (l : Option Word) (d c : Reg) (e : BitVec 4),
    let gc := match l with
      | some x => x.setWidth 64
      | none => s.me.g c
    let i := Instr.ctxld l d e c
    (2 ^ 20 ≤ gc.toNat → Claims.illegal i s 0x0108) ∧
    (∀ m ≤ 6, gc.toNat = m * 2 ^ 16 + 1 →
      exec i s = .next (Claims.atOnce 1 e.toNat i [.g d (BitVec.ofNat 64 (s.counter 4 s.cur m))] s)) ∧
    (gc.toNat < 2 ^ 16 → gc.toNat % 2 ^ 8 = 0 → s.me.ctxList = [] →
      exec i s = .next (Claims.atOnce 1 e.toNat i [.g d 0] s)) ∧
    (∀ id r off rest, gc.toNat = 2 ^ 8 → s.me.region = some id → s.region id = some r → s.me.ctxList = off :: rest →
      s.me.contextsFull = false → s.me.recs = [] → s.me.tail = 0 → s.me.replay = none → Claims.calm s →
      ∃ t x, exec i s = .next t ∧ t.me.recs = [x] ∧ x.ch = 3 ∧ x.st = .queued ∧ x.size = 80 ∧
        t.me.count 3 = s.me.count 3 + 1 ∧ t.me.ctxList = s.afterHead r off rest ∧
        t.me.regs = (s.me.setG d (BitVec.ofNat 64 (t.me.ctxList.length * 2 ^ 32 + 1))).regs)) ∧
  ∀ (s : State) (n : Nat) (m : Msg) (id : Nat) (r : Region), s.net[n]? = some m → hdrType m.hdr = 6 → m.refused = false →
    m.due ≤ s.cycle + 1 → s.behind n m = false → s.unreachableTag m.dst.toNat = false → Claims.calm s →
    let core := tagCore m.dst.toNat
    let k := s.core core
    let here := m.hdr.toNat / 2 ^ 32 % 2 ^ 16 = id % 2 ^ 16
    let answered (t : State) (code : Dword) : Prop := ∀ c ord p d v, m.answer = some (c, ord) → p ∈ (s.core c).pend →
      p.who.ord = ord → p.ready = false → p.writes = [.g d v] →
      ∃ q ∈ (t.core c).pend, q.who = p.who ∧ q.ready = true ∧ q.writes = [.g d code]
    k.region = some id → s.region id = some r →
    (¬here → ∃ t, exec (.contextArrival n) s = .next t ∧ t.net.length + 1 = s.net.length ∧ t.mem = s.mem ∧
      (t.core core).recs = k.recs ∧ answered t 4) ∧
    (here → k.ctxList = [] → k.recs = [] → k.tail = 0 → k.contextsFull = false → m.pay.length = 9 →
      ∃ t x, exec (.contextArrival n) s = .next t ∧ (t.core core).recs = [x] ∧ x.off = 0 ∧ x.size = 80 ∧ x.ch = 3 ∧
        x.st = .queued ∧ (t.core core).count 3 = k.count 3 + 1 ∧ answered t 1) ∧
    (∀ off, here → (k.ctxList ≠ [] ∨ k.contextsFull = true) → s.spillGet r 0 % 2 ^ 32 = off → off ≠ 0 →
      ∃ t, exec (.contextArrival n) s = .next t ∧ (t.core core).recs = k.recs ∧ (t.core core).ctxList = k.ctxList ++ [off] ∧ answered t 2) ∧
    (here → (k.ctxList ≠ [] ∨ k.contextsFull = true) → s.spillGet r 0 % 2 ^ 32 = 0 →
      ∃ t x, exec (.contextArrival n) s = .next t ∧ t.net[n]? = some x ∧ x.hdr = m.hdr ∧ x.pay = m.pay ∧ x.refused = true ∧
        x.due = s.cycle + (if m.back = 0 then 64 else Nat.min (2 * m.back) 4096) ∧ (t.core core).ctxList = k.ctxList ∧
        answered t 3)

/-! ### Gaussian message passing -/

/-- R363, R365, R366: a command of the Schur unit without a bound context is illegal with 0x0107; GJOIN with a bit of `gc` above
bit 3 set is illegal with 0x0108, before anything of its node is looked at; one on a misaligned node traps
after issue, and inside a speculation at issue with 0x0309; a node outside the core's own slice, or one that breaks R357, is illegal
with 0x0108. GJOIN of a sound node binds the context to it, with J the sum that R366 gives and M not valid, clears DIRTY, and gives
`gd` the kind, D and the WRITTEN bits; no other byte of memory changes. That a command computes at its issue, `gd` following in the
unit's time, and that a bound context keeps the KIND and dimensions of its GJOIN, is DEDUCED (log 38). -/
def Sys2Proof.Claims.SchurJoins : Prop :=
  ∀ (s : State) (l : Option Word) (d a c : Reg) (e : BitVec 4) (key : Nat),
    let gc := match l with
      | some x => x.setWidth 64
      | none => s.me.g c
    let va := s.me.g a
    let i := Instr.gjoin l d a e c
    let h := nodeHdr (s.coreByte s.cur) (s.cur / 8) (sramOff key)
    (s.me.schur.bound = none → ∀ j ∈ [Instr.gelim l d e, .gdamp l d e, .gsend l d e], Claims.illegal j s 0x0107) ∧
    (16 ≤ gc.toNat → Claims.illegal i s 0x0108) ∧
    (va.toNat % 64 ≠ 0 → ∀ j ∈ (if gc.toNat < 16 then [i, .gbel l d a e] else [.gbel l d a e]),
      (s.me.fir.spec = false → Claims.traps 1 e.toNat j s .afterIssue 0x030B va) ∧
      (s.me.fir.spec = true → Claims.traps 1 e.toNat j s .atIssue 0x0309 0)) ∧
    (∀ c, va.toNat % 64 = 0 → s.xlate (s.rootOf s.cur) (s.cur / 8) va.toNat .read = .error c → s.me.fir.spec = false →
      ∀ j ∈ (if gc.toNat < 16 then [i, .gbel l d a e] else [.gbel l d a e]),
        Claims.trapsIn (s.walked s.cur va) 1 e.toNat j s .afterIssue c va) ∧
    (va.toNat % 64 = 0 → s.xlate (s.rootOf s.cur) (s.cur / 8) va.toNat .read = .ok key →
      ((spaceOf key ≠ 1 ∨ sramCell key ≠ s.cur / 8 ∨ h.ok = false) →
        Claims.illegal i s 0x0108 ∧ Claims.illegal (.gbel l d a e) s 0x0108) ∧
      (spaceOf key = 1 → sramCell key = s.cur / 8 → h.ok = true →
        (h.ne ≤ gc.toNat → Claims.illegal i s 0x0108) ∧
        (gc.toNat < h.ne → s.me.fir.spec = true → Claims.traps 1 e.toNat i s .atIssue 0x0309 0) ∧
        (gc.toNat < h.ne → s.me.fir.spec = false → Claims.calm s → sramOff key + 0x1000 ≤ 0x1F_C000 →
          ∃ t p v, exec i s = .next t ∧ t.me.schur.bound = some (sramOff key, gc.toNat) ∧ t.me.schur.kind = h.kind ∧
            t.me.schur.dims = h.dims ∧ t.me.schur.valid = false ∧ t.me.pend = s.me.pend ++ [p] ∧ p.writes = [.g d v] ∧
            v.toNat / 2 ^ 30 = h.kind ∧ v.toNat / 2 ^ 20 % 2 ^ 10 = h.joint ∧
            (∀ m < 20, v.toNat.testBit m = (decide (m < h.ne) && (s.homeNat (key + slotOff h.kind m + 60) 4).testBit 0)) ∧
            t.me.schur.j = (s.joinNode (sramOff key) h (some gc.toNat)).1.map (BitVec.ofNat 32) ∧
            t.me.regs = s.me.regs ∧ (t.homeNat key 8).testBit 61 = false ∧
            (∀ m ≠ 61, (t.homeNat key 8).testBit m = (s.homeNat key 8).testBit m) ∧
            ∀ u, (u < key ∨ key + 8 ≤ u) → memGet t.mem u = memGet s.mem u)))

/-- R364, R367, R368: with a bound context, outside a speculation, GELIM either forms M as the lower pair of the elimination, and
writes whether its precision is all zero, or meets a failing pivot: then it traps after issue with 0x0318, or, with SKIP, leaves M not
valid, counts in SKIPS, and writes the pivot and 1. GDAMP and GSEND without a valid M write 2 and change nothing. That they
compute at their issue is DEDUCED (log 38). -/
def Sys2Proof.Claims.SchurMessages : Prop :=
  ∀ (s : State) (l : Option Word) (d : Reg) (e : BitVec 4) (off tgt : Nat), s.me.schur.bound = some (off, tgt) →
    s.cur < 8192 → Claims.calm s → off + 0x1000 ≤ 0x1F_C000 →
    let x := s.me.schur
    let n := x.joint
    let h := nodeHdr (s.coreByte s.cur) (s.cur / 8) off
    let nb := if x.kind = 1 then 0 else n - x.dimOf tgt
    let out := eliminateJoint (x.j.map (·.toNat)) n (if x.kind = 1 then List.range n else x.order tgt) nb h.eps
    let skips := sramKey (s.cur / 8) (off + 24)
    let writes (i : Instr) (t : State) (v : Nat) : Prop := exec i s = .next t ∧ ∃ p, t.me.pend = s.me.pend ++ [p] ∧
      p.writes = [.g d (BitVec.ofNat 64 v)] ∧ t.me.regs = s.me.regs
    (s.me.fir.spec = true → ∀ j ∈ [Instr.gelim l d e, .gdamp l d e, .gsend l d e],
      Claims.traps 1 e.toNat j s .atIssue 0x0309 0) ∧
    (s.me.fir.spec = false →
      (∀ a, out = .ok a →
        let m := lowerPair a nb n
        ∃ t, writes (.gelim l d e) t (if ∀ w ∈ m.drop (n - nb), w % 2 ^ 31 = 0 then 256 else 0) ∧ t.me.schur.valid = true ∧
          t.me.schur.settled = true ∧ t.me.schur.m = m.map (BitVec.ofNat 32) ∧ t.mem = s.mem) ∧
      (∀ j, out = .error j → h.skip = false →
        Claims.traps 1 e.toNat (.gelim l d e) s .afterIssue 0x0318 (singularVal off tgt j 1)) ∧
      (∀ j, out = .error j → h.skip = true → ∃ t, writes (.gelim l d e) t (j * 2 ^ 16 + 1) ∧ t.me.schur.valid = false ∧
        t.homeNat skips 4 = Nat.min (s.homeNat skips 4 + 1) (2 ^ 32 - 1) ∧
        ∀ u, (u < skips ∨ skips + 4 ≤ u) → memGet t.mem u = memGet s.mem u) ∧
      (x.valid = false → ∀ i ∈ [Instr.gdamp l d e, .gsend l d e], ∃ t, writes i t 2 ∧ t.me.schur = x ∧ t.mem = s.mem))

/-- R369: with a bound context and a valid M, outside a speculation, GDAMP leaves M as it is, settled, where nothing was sent on the
edge or each word of the damped pair lies within δ of M's; else M becomes the damped pair, word by word. `gd` says whether it is
settled. That it computes at its issue is DEDUCED (log 38). -/
def Sys2Proof.Claims.SchurDamps : Prop :=
  ∀ (s : State) (l : Option Word) (d : Reg) (e : BitVec 4) (off tgt : Nat), s.me.schur.bound = some (off, tgt) →
    s.bad = [] → s.me.fir.spec = false → s.me.schur.valid = true →
    let x := s.me.schur
    let h := nodeHdr (s.coreByte s.cur) (s.cur / 8) off
    let sent := s.schurWords off (outOff x.kind tgt) 16
    let words := x.m.map (·.toNat)
    let mixed := (words.zip sent).map fun (w, o) => damped h.alpha w o
    let stays := sent.getD 15 0 < 2 ^ 31 ∨ ∀ q ∈ mixed.zip words, within q.1 q.2 h.delta = true
    let writes (t : State) (v : Nat) : Prop := exec (.gdamp l d e) s = .next t ∧ ∃ p, t.me.pend = s.me.pend ++ [p] ∧
      p.writes = [.g d (BitVec.ofNat 64 v)] ∧ t.me.regs = s.me.regs ∧ t.mem = s.mem
    (stays → ∃ t, writes t 256 ∧ t.me.schur = { x with settled := true }) ∧
    (¬stays → ∃ t, writes t (if mixed = words then 256 else 0) ∧ t.me.schur.valid = true ∧
      t.me.schur.m = mixed.map (BitVec.ofNat 32) ∧ (t.me.schur.settled = true ↔ mixed = words))

/-- R358, R360, R370: with a bound context and a valid M, outside a speculation, GSEND sends where nothing was sent on the edge, a
word of M has moved by more than δ from the one last sent or is NaN, or M is settled and differs while the last send was not: the
pair goes to the edge-table entry's core, slot and node, and the out record holds M, the settled state and one send more; where M
is not settled and DIRTY was 0, DIRTY is set, an entry is placed at the node's own core, and `gd` has bit 8. Else nothing is sent,
SUPP rises and `gd` is 1. M is no longer valid. That it computes at its issue is DEDUCED (log 38). -/
def Sys2Proof.Claims.SchurSends : Prop :=
  ∀ (s : State) (l : Option Word) (d : Reg) (e : BitVec 4) (off tgt : Nat), s.me.schur.bound = some (off, tgt) →
    s.cur < 8192 → Claims.calm s → off % 64 = 0 → off + 0x1000 ≤ 0x1C_0000 → s.me.fir.spec = false →
    s.me.schur.valid = true →
    let x := s.me.schur
    let h := nodeHdr (s.coreByte s.cur) (s.cur / 8) off
    let rec' := outOff x.kind tgt
    let sent := s.schurWords off rec' 16
    let edge := s.schurWords off (edgeOff x.kind + 8 * tgt) 2
    let words := x.m.map (·.toNat)
    let flags := sent.getD 15 0
    let sends := flags < 2 ^ 31 ∨ (∃ q ∈ words.zip sent, movedBeyond q.1 q.2 h.delta = true) ∨
      (∃ w ∈ words, (fp32.decode w).isNan = true) ∨
      (x.settled = true ∧ flags.testBit 30 = false ∧ words ≠ sent.take words.length)
    let dst := edge.getD 0 0 % 2 ^ 26 * 64
    let supp := sramKey (s.cur / 8) (off + 28)
    let writes (t : State) (v : Nat) : Prop := exec (.gsend l d e) s = .next t ∧ ∃ p, t.me.pend = s.me.pend ++ [p] ∧
      p.writes = [.g d (BitVec.ofNat 64 v)] ∧ t.me.regs = s.me.regs ∧ t.me.schur = { x with valid := false }
    tgt < 16 → words.length ≤ 14 →
    (¬sends → ∃ t, writes t 1 ∧ t.net = s.net ∧ t.homeNat supp 4 = Nat.min (s.homeNat supp 4 + 1) (2 ^ 32 - 1) ∧
      ∀ u, (u < supp ∨ supp + 4 ≤ u) → memGet t.mem u = memGet s.mem u) ∧
    (sends → s.takeSlot s.cur = none → Claims.traps 1 e.toNat (.gsend l d e) s .atIssue 0x0316 (BitVec.ofNat 64 dst)) ∧
    (sends → 0 < s.me.fir.prodLeft → s.unreachableTag dst = false →
      let gone (t : State) (m : Msg) : Prop := hdrType m.hdr = 4 ∧ m.dst.toNat = dst ∧ m.src = some s.cur ∧
        m.hdr.toNat / 2 ^ 48 % 2 ^ 4 = edge.getD 1 0 / 2 ^ 26 % 2 ^ 4 ∧
        m.hdr.toNat / 2 ^ 33 % 2 ^ 15 = edge.getD 1 0 / 2 ^ 9 % 2 ^ 15 ∧
        payWords m.pay = words ++ List.replicate (words.length % 2) 0 ∧
        t.schurWords off rec' words.length = words ∧ t.schurWords off (rec' + 56) 1 = [(sent.getD 14 0 + 1) % 2 ^ 32] ∧
        ∃ w, t.schurWords off (rec' + 60) 1 = [w] ∧ w / 2 ^ 30 = (if x.settled = true then 3 else 2) ∧
          w % 2 ^ 30 = flags % 2 ^ 30
      ((x.settled = true ∨ (h.dw 0).testBit 61 = true) → ∃ t m, writes t 0 ∧ t.net = s.net ++ [m] ∧ gone t m ∧
        t.mem = s.mem) ∧
      (x.settled = false → (h.dw 0).testBit 61 = false → (s.cell (s.cur / 8)).watches = [] →
        let owner := s.cur / 8 * 8 + h.owner
        (s.core owner).recs = [] → (s.core owner).tail = 0 → ∃ t m r, writes t 256 ∧ t.net = s.net ++ [m] ∧ gone t m ∧
          (t.homeNat (sramKey (s.cur / 8) off) 8).testBit 61 = true ∧ (t.core owner).recs = [r] ∧ r.ch = h.dch ∧
          r.st = .queued))

/-- R365, R371: GBEL of a sound variable in the core's own slice completes: with the belief solved, the node's belief holds the joint
pair and its means the solution, and it writes 0; with a failing pivot it traps after issue or, with SKIP, counts in SKIPS and writes
1. A factor is illegal with 0x0108. That it computes at its issue is DEDUCED (log 38). -/
def Sys2Proof.Claims.SchurBeliefs : Prop :=
  ∀ (s : State) (l : Option Word) (d a : Reg) (e : BitVec 4) (key : Nat),
    let va := s.me.g a
    let i := Instr.gbel l d a e
    let off := sramOff key
    let h := nodeHdr (s.coreByte s.cur) (s.cur / 8) off
    let joined := (s.joinNode off h none).1
    let out := eliminateJoint joined h.joint (List.range h.joint) h.joint h.eps
    va.toNat % 64 = 0 → s.xlate (s.rootOf s.cur) (s.cur / 8) va.toNat .read = .ok key → spaceOf key = 1 →
      sramCell key = s.cur / 8 → h.ok = true →
      (h.kind ≠ 1 → Claims.illegal i s 0x0108) ∧
      (h.kind = 1 → s.me.fir.spec = true → Claims.traps 1 e.toNat i s .atIssue 0x0309 0) ∧
      (h.kind = 1 → s.me.fir.spec = false → Claims.calm s → off + 0x1000 ≤ 0x1F_C000 →
        let writes (t : State) (v : Nat) : Prop := exec i s = .next t ∧ ∃ p, t.me.pend = s.me.pend ++ [p] ∧
          p.writes = [.g d (BitVec.ofNat 64 v)] ∧ t.me.regs = s.me.regs
        (∀ j, out = .error j → h.skip = false →
          Claims.trapsIn (s.noteWalk (s.rootOf s.cur) (s.cur / 8) va.toNat) 1 e.toNat i s .afterIssue 0x0318
            (singularVal off 0 j 2)) ∧
        (∀ j, out = .error j → h.skip = true → ∃ t, writes t 1 ∧
          t.homeNat (key + 24) 4 = Nat.min (s.homeNat (key + 24) 4 + 1) (2 ^ 32 - 1)) ∧
        (∀ rows, out = .ok rows → ∃ t, writes t 0 ∧ t.schurWords off 0x100 joined.length = joined ∧
          t.schurWords off 0x140 h.joint = backSolve rows h.joint h.joint []))

/-- R361: a pair that arrives at its node and breaks the node's shape is dropped and counted, and no memory changes; one that fits is
written into its slot, WRITTEN set and WRITES raised; where DIRTY is 1 no other byte of memory changes and no entry is placed, and
where it is 0 it becomes 1 and an entry is placed on channel DCH of the owner core. -/
def Sys2Proof.Claims.PairsArrive : Prop :=
  ∀ (s : State) (n : Nat) (m : Msg), s.net[n]? = some m → hdrType m.hdr = 4 → m.isDirty = false → m.refused = false →
    m.due ≤ s.cycle + 1 → s.behind n m = false → s.unreachableTag m.dst.toNat = false → tagDev m.dst.toNat = s.device →
    let core := tagCore m.dst.toNat
    let cell := core / 8
    let off := m.hdr.toNat / 2 ^ 33 % 2 ^ 15 * 64
    let h := nodeHdr s.homeByte cell off
    let slot := m.hdr.toNat / 2 ^ 48 % 16
    let key := sramKey cell (off + slotOff h.kind slot)
    let owner := cell * 8 + h.owner
    let i := Instr.gaussianPairArrival n
    (s.core core).region ≠ none → Claims.calm s → (s.cell cell).watches = [] →
    (pairBad h m.hdr m.pay = true → ∃ t, exec i s = .next t ∧ t.net.length + 1 = s.net.length ∧ t.mem = s.mem ∧
      (s.counter 5 cell 6 < 2 ^ 64 - 1 → t.counter 5 cell 6 = s.counter 5 cell 6 + 1)) ∧
    (pairBad h m.hdr m.pay = false → off + 0x1000 ≤ 0x1C_0000 →
      let written (t : State) : Prop :=
        (∀ j < pairWords (h.slotDim slot), t.homeNat (key + 4 * j) 4 = (payWords m.pay).getD j 0) ∧
        (∀ j < 14, pairWords (h.slotDim slot) ≤ j → t.homeNat (key + 4 * j) 4 = 0) ∧
        (t.homeNat (key + 60) 4).testBit 0 = true ∧ t.homeNat (key + 56) 4 = (s.homeNat (key + 56) 4 + 1) % 2 ^ 32
      ((h.dw 0).testBit 61 = true → ∃ t, exec i s = .next t ∧ t.net.length + 1 = s.net.length ∧ written t ∧
        ∀ u, (u < key ∨ key + 64 ≤ u) → memGet t.mem u = memGet s.mem u) ∧
      ((h.dw 0).testBit 61 = false → (s.core owner).recs = [] → (s.core owner).tail = 0 → ∃ t r, exec i s = .next t ∧
        t.net.length + 1 = s.net.length ∧ written t ∧ (t.homeNat (sramKey cell off) 8).testBit 61 = true ∧
        (t.core owner).recs = [r] ∧ r.ch = h.dch ∧ r.st = .queued ∧
        (t.core owner).count h.dch = (s.core owner).count h.dch + 1))

/-! ### Barriers and tiles -/

/-- R376, R380, R381: a handle with a nonzero reserved field makes every barrier instruction illegal with 0x0108, and one that
names another device makes `.init`, `.free` and `.dump` so; each traps with 0x0309 inside a speculation, and after issue with
0x030E where the home cannot be reached. -/
def Sys2Proof.Claims.BarrierHandles : Prop :=
  ∀ (s : State) (l : Option Word) (a b d : Reg) (c : BitVec 4) (hd : BitVec 1) (m : BitVec 5),
    let h := s.me.g b
    let home := h.toNat / 2 ^ 16 % 2 ^ 13
    let own := [Instr.barrInit l a b c, .barrFree l a b c, .barrDump l a b c]
    let any := [Instr.barr l a b c, .bstat l d b c hd m]
    ((2 ^ 29 ≤ h.toNat ∨ h.toNat / 2 ^ 10 % 2 ^ 6 ≠ 0) → ∀ i ∈ Instr.bwait l a b :: own ++ any, Claims.illegal i s 0x0108) ∧
    (home ≠ s.device → ∀ i ∈ own, Claims.illegal i s 0x0108) ∧
    (h.toNat < 2 ^ 29 → h.toNat / 2 ^ 10 % 2 ^ 6 = 0 →
      (s.me.fir.spec = true → ∀ i ∈ any, Claims.traps 1 c.toNat i s .atIssue 0x0309 0) ∧
      (s.me.fir.spec = false → s.homeReachable h = false → ∀ i ∈ any, Claims.traps 1 c.toNat i s .afterIssue 0x030E h) ∧
      (home = s.device → s.me.fir.spec = true → ∀ i ∈ own, Claims.traps 1 c.toNat i s .atIssue 0x0309 0))

/-- R381, R385: with a sound handle of this device that can be reached, `.init` of a sound descriptor installs the object with
episode 0 and answers 0, or 2 where one is installed, or 1 for a descriptor that breaks R378; `.free` empties it and answers
0, or 4; `.dump` writes its image and answers 0, or 4; BSTAT answers the header's or a member's first doubleword. -/
def Sys2Proof.Claims.BarrierObjects : Prop :=
  ∀ (s : State) (l : Option Word) (a b d : Reg) (c : BitVec 4) (hd : BitVec 1) (m : BitVec 5),
    let h := s.me.g b
    let n := h.toNat % 2 ^ 10
    let answers (i : Instr) (t : State) (r : Reg) (v : Dword) : Prop := exec i s = .next t ∧ ∃ p : Pend,
      t.me.pend = s.me.pend ++ [p] ∧ p.writes = [.g r v] ∧ p.fault = none ∧ t.me.regs = s.me.regs
    h.toNat < 2 ^ 29 → h.toNat / 2 ^ 10 % 2 ^ 6 = 0 → h.toNat / 2 ^ 16 = s.device → s.homeReachable h = true →
    s.me.fir.spec = false →
      (∀ t bytes, (s.me.g a).toNat % 64 = 0 → s.readVa s.cur (s.me.g a).toNat 2112 = .ok (t, bytes) →
        let dws := (List.range 264).map fun j => leNat ((bytes.drop (8 * j)).take 8)
        (s.barrierOk dws = false → ∃ u, answers (.barrInit l a b c) u a 1 ∧ u.barriers = s.barriers) ∧
        (s.barrierOk dws = true → s.barrier n ≠ none → ∃ u, answers (.barrInit l a b c) u a 2 ∧ u.barriers = s.barriers) ∧
        (s.barrierOk dws = true → s.barrier n = none → ∃ u x, answers (.barrInit l a b c) u a 0 ∧ u.barrier n = some x ∧
          x.episode = 0 ∧ x.arrived = 0 ∧ x.scope = dws.getD 0 0 / 2 ^ 4 % 16 ∧
          x.members.length = dws.getD 0 0 / 2 ^ 8 % 64 ∧ x.region = s.me.region.getD 0 ∧
          ∀ k w, x.members[k]? = some w →
            let e := dws.getD (8 + 8 * k) 0
            w.kind = e / 2 ^ 62 ∧ w.need = e / 2 ^ 40 % 2 ^ 14 ∧ w.id = e % 2 ^ 13 ∧ w.arr = false ∧ w.gone = false ∧
              w.opn = false ∧ w.got = 0 ∧ w.next = 0)) ∧
      (s.barrier n = none → (∃ t, answers (.barrFree l a b c) t a 4 ∧ t.mem = s.mem) ∧
        (∃ t, answers (.barrDump l a b c) t a 4 ∧ t.mem = s.mem) ∧ ∃ t, answers (.bstat l d b c hd m) t d 0) ∧
      (∀ x, s.barrier n = some x →
        (∃ t, answers (.barrFree l a b c) t a 0 ∧ ((s.barriers.map (·.1)).Pairwise (· < ·) → t.barrier n = none) ∧
          t.mem = s.mem) ∧
        (∀ ps, s.xlateRange (s.rootOf s.cur) (s.cur / 8) (s.me.g a).toNat 2112 .write = .ok ps →
          (∀ q ∈ ps, queueOf q.1 = none ∧ isWindow q.1 = false) → (∀ w ∈ s.writes, w.core ≠ s.cur → w.id ∉ s.me.seen) →
          ∃ t ws, answers (.barrDump l a b c) t a 0 ∧ t.barriers = s.barriers ∧ t.mem = s.mem ∧ t.writes = s.writes ++ ws ∧
            ws.map (fun w => (w.pa, w.bytes.length)) = ps ∧ (∀ w ∈ ws, w.core = s.cur) ∧
            ws.flatMap (·.bytes) = (x.image.flatMap (leBytes 8)).map some ∧
            x.image.take 4 = [x.episode % 2 ^ 32 * 2 ^ 32 + x.arrived * 2 ^ 20 + x.members.length * 2 ^ 8 + x.scope * 2 ^ 4,
              x.lth * 2 ^ 48 + x.m * 2 ^ 40 + x.n * 2 ^ 32, x.first, x.doneAt] ∧
            ∀ k w, x.members[k]? = some w → x.image[8 + 8 * k]? = some w.dw0) ∧
        (hd = 1 → ∃ t, answers (.bstat l d b c hd m) t d (BitVec.ofNat 64 x.dw0) ∧ t.mem = s.mem) ∧
        (hd = 0 → ∃ t, answers (.bstat l d b c hd m) t d (BitVec.ofNat 64 ((x.members[m.toNat]?.map Member.dw0).getD 0)) ∧
          t.mem = s.mem))

/-- R382: BARR of a core whose member has not arrived counts its arrival and answers status 0 with the episode; where that is the
last one that the member needs, the member has arrived. A member that has arrived takes it for the next episode, with answer 1, and
has none left with answer 2. Of a free object it answers 4; of one it is no member of, or whose member has gone, 3. That a
member which has gone is answered as no member is DEDUCED (log 39). -/
def Sys2Proof.Claims.BarrierArrivals : Prop :=
  ∀ (s : State) (l : Option Word) (a b : Reg) (c : BitVec 4),
    let h := s.me.g b
    let n := h.toNat % 2 ^ 10
    let i := Instr.barr l a b c
    let answers (t : State) (v : Nat) : Prop := exec i s = .next t ∧ ∃ p : Pend, t.me.pend = s.me.pend ++ [p] ∧
      p.writes = [.g a (BitVec.ofNat 64 v)] ∧ t.me.regs = s.me.regs ∧ t.mem = s.mem
    h.toNat < 2 ^ 29 → h.toNat / 2 ^ 10 % 2 ^ 6 = 0 → h.toNat / 2 ^ 16 = s.device → s.homeReachable h = true →
    s.me.fir.spec = false → s.writes = [] → s.depOps = [] →
      (s.barrier n = none → ∃ t, answers t 4) ∧
      (∀ x, s.barrier n = some x → s.memberOf n s.cur = none → ∃ t, answers t 3 ∧ t.barriers = s.barriers) ∧
      (∀ x k m, s.barrier n = some x → s.memberOf n s.cur = some k → x.members[k]? = some m → m.gone = true →
        ∃ t, answers t 3 ∧ t.barriers = s.barriers) ∧
      (∀ x k m, s.barrier n = some x → s.memberOf n s.cur = some k → x.members[k]? = some m → m.gone = false →
        m.arr = false → m.got + 1 < m.need → ∃ t y w, answers t (x.episode * 2 ^ 32) ∧ t.barrier n = some y ∧
          y.episode = x.episode ∧ y.arrived = x.arrived ∧ y.members[k]? = some w ∧ w.got = m.got + 1 ∧ w.arr = false) ∧
      (∀ x k m j o, s.barrier n = some x → s.memberOf n s.cur = some k → x.members[k]? = some m → m.gone = false →
        m.arr = false → m.got + 1 = m.need → j ≠ k → x.members[j]? = some o → o.gone = false → o.arr = false →
        ∃ t y w, answers t (x.episode * 2 ^ 32) ∧ t.barrier n = some y ∧ y.episode = x.episode ∧ y.arrived = x.arrived + 1 ∧
          y.members[k]? = some w ∧ w.arr = true ∧ w.stamp = s.time ∧ y.members[j]? = some o) ∧
      (∀ x k m, s.barrier n = some x → s.memberOf n s.cur = some k → x.members[k]? = some m → m.gone = false →
        m.arr = true → m.next < m.need → ∃ t y w, answers t ((x.episode + 1) % 2 ^ 32 * 2 ^ 32 + 1) ∧ t.barrier n = some y ∧
          y.episode = x.episode ∧ y.members[k]? = some w ∧ w.next = m.next + 1 ∧ w.arr = true) ∧
      (∀ x k m, s.barrier n = some x → s.memberOf n s.cur = some k → x.members[k]? = some m → m.gone = false →
        m.arr = true → m.next = m.need → ∃ t, answers t 2 ∧ t.barriers = s.barriers)

/-- R383: the arrival of the last member that an episode waits for completes it in the same step. The episode number rises by one,
DONE_AT is TIME, FIRST is the least stamp of those that arrived; each member that is not gone keeps its lateness in HIST, counts in
LAG those of the last N that exceed LTH, and starts the next episode with the arrivals that it has had for it; a member device's
tile set is open where LAG is at least M, and closed where not. A barrier whose next episode has all it waits for completes that in
a step of its own. That FIRST is taken over every member that has arrived, one that is GONE since included, is DEDUCED (log 39). -/
def Sys2Proof.Claims.BarrierCompletes : Prop :=
  ∀ (s : State) (l : Option Word) (a b : Reg) (c : BitVec 4) (x : Barrier) (k : Nat) (o : Member),
    let h := s.me.g b
    let n := h.toNat % 2 ^ 10
    let stamp (j : Nat) (m : Member) : Nat := if j = k then s.time else m.stamp
    (h.toNat < 2 ^ 29 → h.toNat / 2 ^ 10 % 2 ^ 6 = 0 → h.toNat / 2 ^ 16 = s.device → s.homeReachable h = true →
      s.me.fir.spec = false → s.writes = [] → s.depOps = [] → s.barrier n = some x → s.memberOf n s.cur = some k →
      x.members[k]? = some o → o.gone = false → o.arr = false → o.got + 1 = o.need →
      (∀ j m, j ≠ k → x.members[j]? = some m → m.gone = true ∨ m.arr = true) →
      ∃ t y p, exec (.barr l a b c) s = .next t ∧ t.me.pend = s.me.pend ++ [p] ∧
        p.writes = [.g a (BitVec.ofNat 64 (x.episode * 2 ^ 32))] ∧ t.me.regs = s.me.regs ∧ t.mem = s.mem ∧
        t.barrier n = some y ∧ y.episode = (x.episode + 1) % 2 ^ 32 ∧ y.doneAt = s.time ∧
        y.members.length = x.members.length ∧ y.arrived = (y.members.filter (·.arr)).length ∧
        (∀ j m, x.members[j]? = some m → (j = k ∨ m.arr = true) → y.first ≤ stamp j m) ∧
        (∃ j m, x.members[j]? = some m ∧ (j = k ∨ m.arr = true) ∧ y.first = stamp j m) ∧
        ∀ j m, x.members[j]? = some m → m.gone = false → ∃ w, y.members[j]? = some w ∧ w.got = m.next ∧ w.next = 0 ∧
          w.arr = decide (m.next = m.need) ∧ w.hist = Nat.min ((stamp j m - y.first) / 64) 65535 :: m.hist.take 15 ∧
          w.lag = ((w.hist.take x.n).filter fun v => decide (x.lth < v)).length ∧
          w.opn = (if m.kind = 2 ∧ m.region ≠ 0 then decide (x.m ≤ w.lag) else m.opn)) ∧
    ∀ (i : Nat) (z : Barrier), s.barrier i = some z → (∃ m ∈ z.members, m.gone = false) →
      (∀ m ∈ z.members, m.gone = true ∨ m.arr = true) → ∃ t y, State.nextEpisode i s = .next t ∧ t.barrier i = some y ∧
        y.episode = (z.episode + 1) % 2 ^ 32 ∧ t.cores = s.cores ∧ t.mem = s.mem

/-- R384: BWAIT of a barrier of this device writes the episode to `ga` where the named one is over; else, with a limit of 0 it
traps at issue with 0x0305, and with another it is held; an object not in use traps at issue, with a TVAL of 0 where the firing has
not waited for it (DEDUCED, log 39). -/
def Sys2Proof.Claims.BarrierWaits : Prop :=
  ∀ (s : State) (l : Option Word) (a b : Reg),
    let h := s.me.g b
    let n := h.toNat % 2 ^ 10
    let i := Instr.bwait l a b
    let e := (s.me.g a).toNat % 2 ^ 32
    let limit := (s.me.g a).toNat / 2 ^ 32
    h.toNat < 2 ^ 29 → h.toNat / 2 ^ 10 % 2 ^ 6 = 0 → h.toNat / 2 ^ 16 = s.device → s.homeReachable h = true →
      (s.me.fir.spec = true → Claims.traps 1 0 i s .atIssue 0x0309 0) ∧
      (s.me.fir.spec = false → s.barrier n = none → s.me.wait = none → Claims.traps 1 0 i s .atIssue 0x0305 0) ∧
      (∀ x, s.me.fir.spec = false → s.barrier n = some x →
        let gone := (x.episode + 2 ^ 32 - e) % 2 ^ 32
        (1 ≤ gone → gone ≤ 2 ^ 31 → s.me.replay = none → ∃ t, exec i s = .next t ∧
          t.me = { s.me.setG a (BitVec.ofNat 64 x.episode) with out := .ok, wait := none } ∧ t.mem = s.mem) ∧
        ((gone = 0 ∨ 2 ^ 31 < gone) →
          (limit = 0 → Claims.traps 1 0 i s .atIssue 0x0305 (BitVec.ofNat 64 x.dw0)) ∧
          (limit ≠ 0 → ∃ t w, exec i s = .next t ∧ t.me.out = .hold ∧ t.me.wait = some w ∧ w.kind = .bwait ∧
            w.limit = limit ∧ w.handle = h ∧ t.me.regs = s.me.regs ∧ t.mem = s.mem)))

/-- R386–R388, R391: TTAKE of a stealable running region's own tile that is QUEUED or OFFERED takes it for this device, so that
`gd` gets the old dw0 with bit 31 set and the firing holds the tile; of one taken already it gives dw0 and changes nothing. TDONE of a
held own tile makes it DONE and its tile retires, with answer 0; of a peer's tile the owner answers 0 to 2 (open, log 3), and 2 once
it has left the domain, and the firing holds it no more. Any other operand is illegal with 0x0108. -/
def Sys2Proof.Claims.Tiles : Prop :=
  ∀ (s : State) (l : Option Word) (d b : Reg) (c : BitVec 4),
    let v := s.me.g b
    let i := Instr.ttake l d b c
    let j := Instr.tdone l d b c
    let answers (k : Instr) (t : State) (x : Dword) : Prop := exec k s = .next t ∧ ∃ p : Pend,
      t.me.pend = s.me.pend ++ [p] ∧ p.writes = [.g d x] ∧ t.me.regs = s.me.regs ∧ t.mem = s.mem
    (s.descRef v = .bad → Claims.illegal i s 0x0108 ∧ Claims.illegal j s 0x0108) ∧
    (∀ dev off, s.descRef v = .peer dev off → Claims.illegal i s 0x0108) ∧
    (∀ id t r, s.descRef v = .own id t → s.region id = some r → r.state = 1 →
      (s.me.fir.spec = true → Claims.traps 1 c.toNat i s .atIssue 0x0309 0 ∧ Claims.traps 1 c.toNat j s .atIssue 0x0309 0) ∧
      (s.me.fir.spec = false → (r.desc s.device t).st < 2 → ∃ u y, answers i u
          (BitVec.ofNat 64 ((r.desc s.device t).dw0 s.device + 2 ^ 31)) ∧
        u.region id = some y ∧ (y.desc s.device t).st = 2 ∧ (y.desc s.device t).taker = s.device ∧
        u.me.fir.tiles.length = s.me.fir.tiles.length + 1) ∧
      (s.me.fir.spec = false → 2 ≤ (r.desc s.device t).st → ∃ u, answers i u
        (BitVec.ofNat 64 ((r.desc s.device t).dw0 s.device)) ∧ u.region id = some r) ∧
      (s.me.fir.spec = false → s.writes = [] → s.depOps = [] → (r.desc s.device t).st = 2 → (r.desc s.device t).taker = s.device →
        ∃ u y, answers j u 0 ∧ u.region id = some y ∧ (y.desc s.device t).st = 3 ∧
          u.retires = s.retires ++ [(id, t, s.cur / 2048)]) ∧
      (s.me.fir.spec = false → s.writes = [] → s.depOps = [] → (r.desc s.device t).st < 2 → ∃ u, answers j u 1)) ∧
    (∀ id t r, s.descRef v = .own id t → s.region id = some r → r.state ≠ 1 →
      Claims.illegal i s 0x0108 ∧ (s.me.fir.spec = false → s.writes = [] → s.depOps = [] → ∃ u, answers j u 2)) ∧
    ∀ dev off, s.descRef v = .peer dev off →
      (s.me.fir.spec = true → Claims.traps 1 c.toNat j s .atIssue 0x0309 0) ∧
      (s.me.fir.spec = false → s.writes = [] → s.depOps = [] → ∃ u x, answers j u x ∧ x.toNat ≤ 2 ∧
        (s.inDomain dev = false → x = 2) ∧
        u.me.fir.tiles = s.me.fir.tiles.filter fun q => decide (q.1 ≠ descPeer dev off))

/-- R390: TSTEAL into other than `g1`–`g28` is illegal, as is one of a handle with a reserved field; it traps inside a speculation, and
after issue where the home cannot be reached. From a home on this device it fails with 3 for a member that the barrier does not
have, with 1 for one that is no device, is gone, or whose tile set is not open, and with 2 where the member is this device or none of
its NB0 to NB7 is valid and names this device; else it fails with 5 or steals a tile of the member. A failure leaves 0 in the other three
registers; a theft writes the peer-form address of a descriptor, whose bits 4:0 are 0, with its range beside it, and the firing holds
the tile. Whether the peer has a tile, which one, and what a home elsewhere answers within these is open (log 3). -/
def Sys2Proof.Claims.Steals : Prop :=
  ∀ (s : State) (l : Option Word) (d b : Reg) (c : BitVec 4) (m : BitVec 5),
    let h := s.me.g b
    let i := Instr.tsteal l d b c m
    let good := d ≠ 0 ∧ d.toNat ≤ 28 ∧ h.toNat < 2 ^ 29 ∧ h.toNat / 2 ^ 10 % 2 ^ 6 = 0
    let gives (t : State) (w x y z : Dword) : Prop := exec i s = .next t ∧ t.me.regs = s.me.regs ∧ t.mem = s.mem ∧ ∃ p : Pend,
      t.me.pend = s.me.pend ++ [p] ∧ p.fault = none ∧ p.writes = [.g d w, .g (d + 1) x, .g (d + 2) y, .g (d + 3) z]
    let fails (st : Nat) : Prop := ∃ t, gives t (BitVec.ofNat 64 st) 0 0 0 ∧ t.me.fir.tiles = s.me.fir.tiles
    let steals (dev : Nat) : Prop := s.inDomain dev = true ∧ ∃ t w x y z, gives t w x y z ∧
      w.toNat / 2 ^ 45 = 3 * 2 ^ 15 + dev % 2 ^ 13 * 4 + 2 ∧ w.toNat % 32 = 0 ∧
      t.me.fir.tiles.length = s.me.fir.tiles.length + 1
    ((d = 0 ∨ 28 < d.toNat ∨ 2 ^ 29 ≤ h.toNat ∨ h.toNat / 2 ^ 10 % 2 ^ 6 ≠ 0) → Claims.illegal i s 0x0108) ∧
    (good → s.me.fir.spec = true → Claims.traps 1 c.toNat i s .atIssue 0x0309 0) ∧
    (good → s.me.fir.spec = false → s.homeReachable h = false → Claims.traps 1 c.toNat i s .afterIssue 0x030E h) ∧
    (good → s.me.fir.spec = false → s.homeReachable h = true → h.toNat / 2 ^ 16 = s.device →
      let x := (s.barrier (h.toNat % 2 ^ 10)).bind fun z => z.members[m.toNat]?
      (x = none → fails 3) ∧
      ∀ y, x = some y →
        let asks := y.id ≠ s.device ∧ ∃ n ∈ y.nb, n.getLsbD 15 = true ∧ n.toNat % 2 ^ 13 = s.device
        ((y.kind ≠ 2 ∨ y.opn = false ∨ y.gone = true) → fails 1) ∧
        (y.kind = 2 → y.opn = true → y.gone = false → ¬asks → fails 2) ∧
        (y.kind = 2 → y.opn = true → y.gone = false → asks → fails 5 ∨ steals y.id)) ∧
    (good → s.me.fir.spec = false → s.homeReachable h = true → h.toNat / 2 ^ 16 ≠ s.device →
      (∃ st ∈ [1, 2, 3, 5], fails st) ∨ ∃ dev, steals dev)

/-- R389, R392: a notice of one of this device's barriers opens or closes the tile set of its running stealable region: every
QUEUED descriptor becomes OFFERED, or the other way about. A device lost from the domain is fenced, every member of it in a barrier
is gone, an episode that waited only for such members completes, and the tiles that it had taken return, to be dealt again. Of the
cores no more changes than that a peer's class no longer raises one, once no peer is left. -/
def Sys2Proof.Claims.TileSets : Prop :=
  ∀ (s : State) (id dev : Nat) (r : Region),
    let sets (i : Instr) (o : Bool) (st : Nat) : Prop :=
      s.tileNotices.head? = some (id, o) → s.region id = some r → r.stealable = true → r.state = 1 → ∃ t y,
        exec i s = .next t ∧ t.region id = some y ∧ y.offered = o ∧ t.tileNotices.length + 1 = s.tileNotices.length ∧
          t.cores = s.cores ∧ t.mem = s.mem ∧ ∀ n, (r.desc s.device n).st < 2 → (y.desc s.device n).st = st
    sets (.tileSetOpen id) true 1 ∧ sets (.tileSetClose id) false 0 ∧
    (dev < 2 ^ 13 → dev ∉ s.fenced → dev ≠ s.device → ∃ t, exec (.deviceFencedFromDomain dev) s = .next t ∧
      dev ∈ t.fenced ∧ t.inDomain dev = false ∧ t.mem = s.mem ∧
      (∀ c, t.core c = { s.core c with peerInh := if t.peers.any t.inDomain = true then (s.core c).peerInh else none }) ∧
      (∀ n x, s.barrier n = some x → (∃ m ∈ x.members, m.kind = 2 ∧ m.id = dev ∧ m.gone = false ∧ m.arr = false) →
        (∀ m ∈ x.members, m.gone = true ∨ m.arr = true ∨ (m.kind = 2 ∧ m.id = dev)) →
        ∃ y, t.barrier n = some y ∧ y.episode = (x.episode + 1) % 2 ^ 32 ∧ y.doneAt = s.time) ∧
      (∀ n x, t.barrier n = some x → ∀ m ∈ x.members, m.kind = 2 → m.id = dev → m.gone = true) ∧
      ∀ i q n, s.region i = some q → q.stealable = true → q.state = 1 → (q.desc s.device n).st = 2 →
        (q.desc s.device n).taker = dev → ∃ y, t.region i = some y ∧ (y.desc s.device n).st = (if q.offered then 1 else 0) ∧
          n ∈ y.redo)

/-! ### Matrix units -/

/-- R247, R252, R256–R259: a command at HEAD of the OPC that its event names, with a reserved field used, fails with error 1: the
unit stops, nothing else of it changes. A sound MZERO zeroes its accumulator and marks and sets its type; MFENCE changes no
accumulator, and no later read finds a byte that an earlier command has overwritten; MSIG performs its action, a message of TYPE 9, a
decrement of the target counter or a store of the flag word, or fails with error 12 where the target faults. Each is then left to
complete. -/
def Sys2Proof.Claims.MatrixCommands : Prop :=
  ∀ (s : State) (core : Nat) (c : Cmd), s.command core = some c → (s.core core).mq.stream = none →
    (s.core core).mq.step = none →
    let m := (s.core core).mq
    let run : Nat → Instr
      | 1 => .mzero core
      | 2 => .mlda core
      | 3 => .mma core
      | 4 => .msta core
      | 5 => .imgb core
      | 6 => .mfence core
      | _ => .msig core
    let kind := c.aux / 2 ^ 34 % 4
    let target := (c.op 0).1
    let root := ((s.region c.owner.region).map (·.root)).getD 0
    let signals (t : State) : Prop := exec (.msig core) s = .next t ∧ (t.core core).mq.acc = m.acc ∧ (t.core core).mq.ran = true
    let fails12 : Prop := ∃ t, exec (.msig core) s = .next t ∧ (t.core core).mq.err = 12 ∧ (t.core core).mq.stopped = true ∧
      (t.core core).mq.acc = m.acc ∧ t.mem = s.mem ∧ t.net = s.net ∧ t.depOps = s.depOps
    (1 ≤ c.opc → c.opc ≤ 7 → c.bad1 = true → (s.core core).region ≠ none → ∃ t, exec (run c.opc) s = .next t ∧
      (t.core core).mq = { m with err := 1, errSlot := m.head, stopped := true, linkSince := none } ∧
      (t.core core).regs = (s.core core).regs ∧ t.mem = s.mem) ∧
    (c.opc = 1 → c.bad1 = false → ∃ t, exec (.mzero core) s = .next t ∧
      vget 0 (t.core core).mq.acc c.acc = 0 ∧ vget 0 (t.core core).mq.marks c.acc = 0 ∧
      vget false (t.core core).mq.isFp c.acc = decide (2 ≤ c.mode) ∧ (t.core core).mq.ran = true ∧
      (∀ a, a ≠ c.acc → vget 0 (t.core core).mq.acc a = vget 0 m.acc a) ∧ t.mem = s.mem) ∧
    (c.opc = 6 → c.bad1 = false → ∃ t, exec (.mfence core) s = .next t ∧ (t.core core).mq.acc = m.acc ∧
      (t.core core).mq.marks = m.marks ∧ (t.core core).mq.past = [] ∧ (t.core core).mq.ran = true ∧ t.mem = s.mem) ∧
    (c.opc = 7 → c.bad1 = false →
      (kind = 0 → ∃ t, signals t ∧ t.mem = s.mem ∧ t.net = s.net ∧ t.depOps = s.depOps) ∧
      (kind = 1 → target < 2 ^ 64 → s.unreachableTag (target % 2 ^ 32) = false → ∃ t x, signals t ∧ t.mem = s.mem ∧
        t.net = s.net ++ [x] ∧ hdrType x.hdr = 9 ∧ x.hdr.toNat / 2 ^ 58 % 4 = c.owner.cls % 4 ∧
        x.hdr.toNat / 2 ^ 32 % 2 ^ 16 = c.aux / 2 ^ 48 % 2 ^ 16 ∧ x.dst.toNat = target % 2 ^ 32 ∧ x.pay = [0]) ∧
      (kind = 2 →
        (∀ k, s.depKey root (core / 8) (BitVec.ofNat 64 target) = .ok k → Claims.idleAt s k 8 → ∃ t o, signals t ∧ t.mem = s.mem ∧
          t.depOps = s.depOps ++ [o] ∧ o.pa = k ∧ o.op = 0) ∧
        (∀ e, s.depKey root (core / 8) (BitVec.ofNat 64 target) = .error e → fails12)) ∧
      (kind = 3 → target < 2 ^ 64 →
        ((target % 4 ≠ 0 ∨ ∃ e, s.xlate root (core / 8) target .write = .error e) → fails12) ∧
        (∀ k, target % 4 = 0 → s.xlate root (core / 8) target .write = .ok k → k % 4 = 0 → queueOf k = none →
          isWindow k = false → spaceOf k ≠ 3 → Claims.calm s → ∃ t, signals t ∧ t.homeNat k 4 = (c.op 0).2 % 2 ^ 32 ∧
            ∀ u, (u < k ∨ k + 4 ≤ u) → memGet t.mem u = memGet s.mem u)))

/-- R249, R250, R252, R253, R258, R263: MLDA whose rows pass their checks loads the 256 words in row order into its accumulator. A
started MMA performs one k-step on the rows that its operands give at that step, and completes behind its last one; rows that it
forwards reach the FIFO of the neighbour to the east, whose core a region holds, and rows that come from the west are the oldest sixteen of the core's FIFO.
Where a check fails the command fails with the least code, and the accumulators stand as before it. -/
def Sys2Proof.Claims.MatrixData : Prop :=
  ∀ (s : State) (core : Nat) (c : Cmd), s.command core = some c → (s.core core).mq.stream = none → c.bad1 = false → s.bad = [] →
    let m := (s.core core).mq
    let rows := List.range 16
    let errs2 := rows.flatMap fun i => s.rowErrs c core (c.op 0) 0 i 16 [4, 7] false .read
    let stepped (t : State) (ra rb : List (List Word)) (k : Nat) : Prop := exec (.mma core) s = .next t ∧ t.mem = s.mem ∧
      (vget 0 (t.core core).mq.acc c.acc, vget 0 (t.core core).mq.marks c.acc) =
        mmaStep c.mode ra rb (vget 0 m.acc c.acc) (vget 0 m.marks c.acc) ∧
      (t.core core).mq.ran = decide (k = c.cnt)
    (c.opc = 2 → m.step = none → c.strmErrs = [] →
      (∀ e, minErr errs2 = some e → ∃ t f, exec (.mlda core) s = .next t ∧ (t.core core).mq.stopped = true ∧ f ≤ e ∧
        (t.core core).mq.err = f ∧ (t.core core).mq.acc = m.acc ∧ t.mem = s.mem) ∧
      (errs2 = [] → m.past = [] → (∃ ty, ∀ i < 16, (s.row c core (c.op 0) 0 i .read).map (·.2.typ) = some ty) →
        ∃ t, exec (.mlda core) s = .next t ∧ (t.core core).mq.ran = true ∧ vget 0 (t.core core).mq.marks c.acc = 0 ∧
          t.mem = s.mem ∧ ∀ i < 16, ∀ j < 16, ∀ k f, s.row c core (c.op 0) 0 i .read = some (k, f) →
            (accWords (vget 0 (t.core core).mq.acc c.acc)).getD (16 * i + j) 0 = s.homeNat (k + 4 * j) 4)) ∧
    (c.opc = 3 → m.step = none → opStrm (c.op 0) = false → opStrm (c.op 1) = false → opStrm (c.op 2) = false →
      c.ain = false → c.bin = false → c.aout = false → c.bout = false → vget false m.isFp c.acc = decide (2 ≤ c.mode) →
      (∀ t ≤ c.cnt, ∀ i < 16, ∀ o ∈ [c.op 0, c.op 1], s.rowErrs c core o t i 16 (mmaTypes c.mode) false .read = []) →
      ∃ t, exec (.mma core) s = .next t ∧ (t.core core).mq.step = some 0 ∧ (t.core core).mq.acc = m.acc ∧ t.mem = s.mem) ∧
    (∀ k ra rb u v, c.opc = 3 → m.step = some k → c.ain = false → c.bin = false → c.bout = false →
      (c.aout = true → s.linkRoom core true = true) →
      s.memRows c core (c.op 0) k = .ready u ra → u.memRows c core (c.op 1) k = .ready v rb → ∃ t, stepped t ra rb k ∧
        ∀ n, c.aout = true → neighbour (core / 8) true = some n → n ≠ core / 8 →
          (s.core (8 * n + core % 8)).region ≠ none → (t.core (8 * n + core % 8)).mq.west =
          (s.core (8 * n + core % 8)).mq.west ++ ra.map fun r => ⟨c.mode, c.owner.region, r⟩) ∧
    (∀ k rb v, c.opc = 3 → m.step = some k → c.ain = true → c.bin = false → c.aout = false → c.bout = false →
      16 ≤ m.west.length → (∀ r ∈ m.west.take 16, r.mode = c.mode ∧ r.region = c.owner.region) →
      (s.modMq core fun m => { m with west := m.west.drop 16 }).memRows c core (c.op 1) k = .ready v rb →
      ∃ t, stepped t ((m.west.take 16).map (·.elems)) rb k ∧ (t.core core).mq.west = m.west.drop 16)

/-- R254, R255: MSTA whose rows, scales and trailer pass their checks stores each element of its accumulator, converted to its row's
bank type, clears the marks, and stores at AUX, where that is not 0, how many elements were marked; IMGB stores, for each of its atoms,
a row of sixteen elements, the exact sums of the W rows' products with the atom, rounded once. No accumulator changes. Rows may not
overlap in this statement. -/
def Sys2Proof.Claims.MatrixStores : Prop :=
  ∀ (s : State) (core : Nat) (c : Cmd) (key : Nat → Nat) (fmt : Nat → BankFmt), s.command core = some c →
    (s.core core).mq.stream = none → c.bad1 = false → Claims.calm s → (s.core core).mq.step = none → (s.core core).mq.past = [] →
    c.strmErrs = [] →
    let m := (s.core core).mq
    let size i := 16 * ((fmt i).bits / 8)
    let apart (n : Nat) : Prop := ∀ i < n, spaceOf (key i) = 1 ∧ sramOff (key i) + size i ≤ 0x1F_C000 ∧
      ∀ j < n, i ≠ j → key i + size i ≤ key j ∨ key j + size j ≤ key i
    let holds (t : State) (i j v : Nat) : Prop := ∀ b < (fmt i).bits / 8,
      memGet t.mem (key i + (fmt i).bits / 8 * j + b) = BitVec.ofNat 8 (v / 256 ^ b)
    (c.opc = 4 → c.aux % 4 = 0 → s.scaleErrs c core (c.op 1).1 64 .read = [] → s.scaleErrs c core (c.op 2).1 64 .read = [] →
      s.scaleErrs c core c.aux 4 .write = [] →
      (∀ i < 16, s.rowErrs c core (c.op 0) 0 i 16 [0, 3, 4, 5, 7] false .write = [] ∧
        s.row c core (c.op 0) 0 i .write = some (key i, fmt i)) → apart 16 →
      let rs := (s.scales c core (c.op 1).1).map (·.1)
      let cs := (s.scales c core (c.op 2).1).map (·.1)
      let elem i j := mstaElem (vget false m.isFp c.acc) ((accWords (vget 0 m.acc c.acc)).getD (16 * i + j) 0)
        (rs.map fun l => l.getD i 0) (cs.map fun l => l.getD j 0) (fmt i).typ (fmt i).clamp
      let marked n := (elem (n / 16) (n % 16)).2.1 || (vget 0 m.marks c.acc).getLsbD n
      let done (t : State) : Prop := exec (.msta core) s = .next t ∧ (t.core core).mq.ran = true ∧ (t.core core).mq.acc = m.acc ∧
        vget 0 (t.core core).mq.marks c.acc = 0 ∧ ∀ i < 16, ∀ j < 16, holds t i j (elem i j).1
      (c.aux = 0 → ∃ t, done t) ∧
      ∀ ka, c.aux ≠ 0 → s.xlateRange c.owner.root (core / 8) c.aux 4 .write = .ok [(ka, 4)] → sramOff ka + 4 ≤ 0x1F_C000 →
        (∀ i < 16, key i + size i ≤ ka ∨ ka + 4 ≤ key i) →
        ∃ t, done t ∧ t.homeNat ka 4 = ((List.range 256).filter marked).length) ∧
    (c.opc = 5 →
      let len := 4 * (c.cnt + 1)
      let a0 := c.aux % 2 ^ 11
      let na := c.aux / 2 ^ 16 % 16 + 1
      (∀ i < 16, s.rowErrs c core (c.op 0) 0 i len [1, 2, 3, 4, 5] true .read = []) →
      (∀ n < na, s.rowErrs c core (c.op 1) 0 (a0 + n) len [3, 2] true .read = [] ∧
        s.rowErrs c core (c.op 2) 0 n 16 [3, 4, 5] true .write = [] ∧
        s.row c core (c.op 2) 0 n .write = some (key n, fmt n)) → apart na →
      ∃ t, exec (.imgb core) s = .next t ∧ (t.core core).mq.ran = true ∧ (t.core core).mq.acc = m.acc ∧
        ∀ n < na, ∀ i < 16, holds t n i
          (imageBits (fmt n).typ (s.rowVals c core (c.op 0) 0 i len) (s.rowVals c core (c.op 1) 0 (a0 + n) len)))

/-- R70, R253: a k-step of an integer MMA adds to each element the sum of sixteen products, clamped to 32 bits, and marks the
elements that clamped; marks are never cleared by it. -/
def Sys2Proof.Claims.MatrixStep : Prop :=
  ∀ (mode : Nat) (ra rb : List (List Word)) (acc : AccBits) (marks : BitVec 256), mode < 2 →
    let r := mmaStep mode ra rb acc marks
    ∀ i < 16, ∀ j < 16,
      let row := ra.getD i []
      let col := rb.map fun b => b.getD j 0
      let old := (BitVec.ofNat 32 ((accWords acc).getD (16 * i + j) 0)).toInt
      let sum := old + ((row.zip col).map fun p => p.1.toInt * p.2.toInt).sum
      let v := if sum < -2 ^ 31 then -2 ^ 31 else if 2 ^ 31 - 1 < sum then 2 ^ 31 - 1 else sum
      (accWords r.1).getD (16 * i + j) 0 = (BitVec.ofInt 32 v).toNat ∧
      r.2.getLsbD (16 * i + j) = (marks.getLsbD (16 * i + j) || decide (v ≠ sum))

/-- R244–R246, R258, R260, R261: a command that has run its time completes: DONE rises, its slot is no longer valid, and HEAD
advances. A write of MQCTL sets DISCARD, and with bit 0 starts a stopped unit again behind the failed slot. MQWAIT goes on
where no more slots are valid than `ga` says, and traps at issue where the unit has stopped or `gb` is 0. A link that has kept a
command waiting for more than 65,536 cycles is error 9. -/
def Sys2Proof.Claims.MatrixQueue : Prop :=
  ∀ (s : State) (core : Nat) (l : Option Word) (a b : Reg) (v : Dword),
    let m := (s.core core).mq
    let i := Instr.mqwait l a b
    let stat := BitVec.ofNat 64 (mqStat s.me.mq)
    (m.ran = true → m.due ≤ s.cycle + 1 → (s.core core).region ≠ none →
      ∃ t, exec (.matrixCommandComplete core) s = .next t ∧
      (t.core core).mq =
        { m with ran := false, shown := m.acc, done := m.done + 1, head := (m.head + 1) % 16,
                 valid := m.valid.filter fun x => decide (x.1 ≠ m.head) } ∧ t.mem = s.mem) ∧
    (∃ t, exec (.mqctlWrite core v) s = .next t ∧ (t.core core).mq.discard = v.getLsbD 1 ∧ t.mem = s.mem ∧
      (v.getLsbD 0 = true → m.stopped = true → (t.core core).mq.stopped = false ∧ (t.core core).mq.err = 0 ∧
        (t.core core).mq.head = (m.head + 1) % 16) ∧
      (v.getLsbD 0 = false → (t.core core).mq.stopped = m.stopped ∧ (t.core core).mq.head = m.head)) ∧
    (∀ c k n, s.command core = some c → m.step = some k → m.linkSince = some n → n + 65536 < s.cycle + 1 →
      (s.mmaRun c core k).isNone = true → m.stream = none → ∃ t, exec (.matrixLinkTimeout core) s = .next t ∧
        (t.core core).mq.err = 9 ∧ (t.core core).mq.stopped = true ∧ vget 0 (t.core core).mq.acc c.acc = m.saved.1) ∧
    (16 < (s.me.g a).toNat → Claims.illegal i s 0x0108) ∧
    ((s.me.g a).toNat ≤ 16 →
      (s.me.mq.stopped = true → Claims.traps 1 0 i s .atIssue 0x0314 stat) ∧
      (s.me.mq.stopped = false → s.me.mq.valid.length ≤ (s.me.g a).toNat → exec i s = .next (Claims.ends s
        (if s.me.mq.valid = [] then { s.me with mq := { s.me.mq with past := [] } } else s.me))) ∧
      (s.me.mq.stopped = false → (s.me.g a).toNat < s.me.mq.valid.length →
        (s.me.g b = 0 → Claims.traps 1 0 i s .atIssue 0x0304 stat) ∧
        (s.me.g b ≠ 0 → ∃ t, exec i s = .next t ∧ t.me.out = .hold ∧ t.me.wait.isSome = true ∧ t.me.regs = s.me.regs)))

/-! ### Commands to the firmware -/

/-- The command that the firmware serves next stands in function `fn`'s slot, with the opcode `op`, and only the arguments
`named` are used (R73, R74); nothing of it has been carried out yet. The functions are listed in increasing number. -/
def Sys2Proof.Claims.served (s : State) (fn op : Nat) (named : List Nat) : Prop :=
  s.power = .ready ∧ s.nextFn = some fn ∧ (s.fns.map (·.1)).Pairwise (· < ·) ∧ (s.fn fn).taken = [] ∧
    opcodeOf (s.slot fn) = op ∧ argsOk (s.slot fn) named = true

/-- The command of function `fn` completes (R73): its results stand from doubleword 13 of its slot on, DONE and STATUS in
doubleword 12, CMD_HEAD has advanced, and vector 0 has been raised. -/
def Sys2Proof.Claims.commandEnds (t s : State) (fn status : Nat) (res : List Nat) : Prop :=
  let f := s.fn fn
  let g := t.fn fn
  g.head = (f.head + 1) % 32 ∧ g.msix0 = f.msix0 + 1 ∧
    tabGet 0 g.slots (16 * (f.head % 16) + 12) = BitVec.ofNat 64 (2 ^ 63 + status) ∧
    ∀ j < res.length, tabGet 0 g.slots (16 * (f.head % 16) + 13 + j) = BitVec.ofNat 64 (res.getD j 0)

/-- The command completes with this status and has no other effect. -/
def Sys2Proof.Claims.onlyStatus (i : Instr) (s : State) (fn status : Nat) : Prop :=
  ∃ t, exec i s = .next t ∧ Claims.commandEnds t s fn status [] ∧ t.mem = s.mem ∧ t.cores = s.cores ∧ t.regions = s.regions

/-- R74, R76: an opcode of 0 or above 0x0E completes with 0x01; a command whose reserved fields or unnamed arguments are not 0
with 0x02; one that only the PF may issue, from a VF, with 0x03. None of them does anything else. The order of 0x01, 0x02 and
0x03 where a command has several errors is DEDUCED (log 46). -/
def Obligations.CommandChecks : Prop :=
  ∀ (s : State) (fn : Nat), s.power = .ready → s.nextFn = some fn → (s.fns.map (·.1)).Pairwise (· < ·) →
    (s.fn fn).taken = [] →
    let d := s.slot fn
    let check (i : Instr) (named : List Nat) (pf : Bool) : Prop :=
      (argsOk d named = false → Claims.onlyStatus i s fn 2) ∧
      (argsOk d named = true → pf = true → fn ≠ 0 → Claims.onlyStatus i s fn 3)
    ((opcodeOf d = 0 ∨ 14 < opcodeOf d) → Claims.onlyStatus (.unknownOpcode fn) s fn 1) ∧
    (opcodeOf d = 1 → check (.identify fn) [1] false) ∧
    (opcodeOf d = 2 → check (.attest fn) [1, 2, 3, 4, 5, 6, 7] false) ∧
    (opcodeOf d = 3 → check (.loadImage fn) [1, 2, 3, 4] false) ∧
    (opcodeOf d = 4 → check (.createRegion fn) [1, 2] false) ∧
    (opcodeOf d = 5 → check (.launch fn) [1] false) ∧
    (opcodeOf d = 6 → check (.signal fn) [1, 2, 3, 4] false) ∧
    (opcodeOf d = 7 → check (.query fn) [1] false) ∧
    (opcodeOf d = 8 → check (.kill fn) [1] false) ∧
    (opcodeOf d = 9 → check (.fenceDie fn) [1] true) ∧
    (opcodeOf d = 10 → check (.setDictionary fn) [1] false) ∧
    (opcodeOf d = 11 → check (.readCounters fn) [1, 2] false) ∧
    (opcodeOf d = 12 → check (.readLifetime fn) [1, 2] true) ∧
    (opcodeOf d = 13 → check (if bitOf (d.getD 1 0) 17 then .switchContextIn fn else .switchContextOut fn) [1, 2] true) ∧
    (opcodeOf d = 14 → check (.resetFunction fn) [1] false)

/-- R72, R75, R80, R427, R429: the commands that tell the host something. Each writes its bytes to the host's buffer where that
lies within 56 bits of bus address, else completes with 0x05: IDENTIFY the certificate chain behind its length, ATTEST a
report that begins with the nonce, READ_COUNTERS records of a name and a value, which it reads some at a time, READ_LIFETIME
the boots and hours before its records, or nothing where the buffer is below 16 bytes. QUERY gives STATUS and the number of
cells, or 0x04 for a region that is not the function's. That a buffer beyond 56 bits gives 0x05 is DEDUCED (log 45), and so
is the order of the statuses (log 46). -/
def Obligations.FirmwareReads : Prop :=
  ∀ (s : State) (fn : Nat),
    let d := s.slot fn
    let at' (a : Nat) : Nat := 4 * 2 ^ 60 + a
    (Claims.served s fn 1 [1] →
      (2 ^ 56 < d.getD 1 0 + 4096 → Claims.onlyStatus (.identify fn) s fn 5) ∧
      (d.getD 1 0 + 4096 ≤ 2 ^ 56 → memWf s.mem = true → ∃ t, exec (.identify fn) s = .next t ∧
        Claims.commandEnds t s fn 0 [s.device % 2 ^ 13 + s.live.toNat * 2 ^ 16 + (if s.conflict then 1 else 0) * 2 ^ 20] ∧
        t.homeNat (at' (d.getD 1 0)) 8 = Config.certChain.length % 2 ^ 64 ∧
        ∀ j, j < Config.certChain.length → j < 4088 → t.homeByte (at' (d.getD 1 0 + 8 + j)) = Config.certChain.getD j 0)) ∧
    (Claims.served s fn 2 [1, 2, 3, 4, 5, 6, 7] →
      (2 ^ 56 < d.getD 7 0 + 256 → Claims.onlyStatus (.attest fn) s fn 5) ∧
      (d.getD 7 0 + 256 ≤ 2 ^ 56 → memWf s.mem = true → ∃ t, exec (.attest fn) s = .next t ∧
        Claims.commandEnds t s fn 0 [] ∧ ∀ j < 6, t.homeNat (at' (d.getD 7 0 + 8 * j)) 8 = d.getD (1 + j) 0)) ∧
    (Claims.served s fn 7 [1] →
      (s.ownRegion fn (d.getD 1 0) = none → Claims.onlyStatus (.query fn) s fn 4) ∧
      (∀ r, s.ownRegion fn (d.getD 1 0) = some r → ∃ t, exec (.query fn) s = .next t ∧
        Claims.commandEnds t s fn 0 [r.tilesDone % 2 ^ 32 * 2 ^ 32 + r.state % 4, r.placed.length] ∧ t.mem = s.mem)) ∧
    (∀ d, s.serves fn = some d → (s.fns.map (·.1)).Pairwise (· < ·) → opcodeOf d = 11 → argsOk d [1, 2] = true →
      let got := (s.fn fn).counted
      let room := d.getD 2 0 / 16 - got.length
      let next := recordsOf s.counter (s.mayRead fn) ((got.getLast?.map (·.1 + 1)).getD 0) counterKinds
      (next (Nat.min room 1) ≠ [] → ∃ t n, exec (.readCounters fn) s = .next t ∧ 0 < n ∧ n ≤ room ∧
        (t.fn fn).counted = got ++ next n ∧ (t.fn fn).taken = d ∧ (t.fn fn).head = (s.fn fn).head ∧ t.mem = s.mem ∧
        t.cores = s.cores ∧ t.counters = s.counters) ∧
      (next (Nat.min room 1) = [] →
        (2 ^ 56 < d.getD 1 0 + 16 * got.length → Claims.onlyStatus (.readCounters fn) s fn 5) ∧
        (d.getD 1 0 + 16 * got.length ≤ 2 ^ 56 → memWf s.mem = true → ∃ t, exec (.readCounters fn) s = .next t ∧
          Claims.commandEnds t s fn 0 [16 * got.length] ∧ ∀ j a b, got[j]? = some (a, b) →
            t.homeNat (at' (d.getD 1 0 + 16 * j)) 8 = a % 2 ^ 64 ∧
            t.homeNat (at' (d.getD 1 0 + 16 * j + 8)) 8 = b % 2 ^ 64))) ∧
    (Claims.served s fn 12 [1, 2] → fn = 0 →
      let total kind unit idx := tabGet 0 s.life.totals (ckey kind unit idx)
      let recs := recordsOf total (fun _ _ => true) 0 counterKinds (d.getD 2 0 / 16 - 1)
      16 ≤ d.getD 2 0 →
      (2 ^ 56 < d.getD 1 0 + 16 + 16 * recs.length → Claims.onlyStatus (.readLifetime fn) s fn 5) ∧
      (d.getD 1 0 + 16 + 16 * recs.length ≤ 2 ^ 56 → memWf s.mem = true → ∃ t, exec (.readLifetime fn) s = .next t ∧
        Claims.commandEnds t s fn 0 [16 + 16 * recs.length] ∧
        t.homeNat (at' (d.getD 1 0)) 8 = s.life.boots % 2 ^ 64 ∧
        t.homeNat (at' (d.getD 1 0 + 8)) 8 = s.life.seconds / 3600 % 2 ^ 64 ∧
        ∀ j a b, recs[j]? = some (a, b) → t.homeNat (at' (d.getD 1 0 + 16 + 16 * j)) 8 = a % 2 ^ 64 ∧
          t.homeNat (at' (d.getD 1 0 + 24 + 16 * j)) 8 = b % 2 ^ 64)) ∧
    (Claims.served s fn 12 [1, 2] → fn = 0 → d.getD 2 0 < 16 →
      (2 ^ 56 < d.getD 1 0 → Claims.onlyStatus (.readLifetime fn) s fn 5) ∧
      (d.getD 1 0 ≤ 2 ^ 56 → ∃ t, exec (.readLifetime fn) s = .next t ∧ Claims.commandEnds t s fn 0 [0] ∧ t.mem = s.mem))

/-- R75, R80, R81, R283: LOAD_IMAGE of a multiple of 8 bytes copies them and extends the function's measurement by their SHA-384;
SIGNAL sends its two doublewords to a core of the running region; KILL ends a region that has not ended; FENCE_DIE takes a
die out of the live mask, but never the last; SET_DICTIONARY installs what its descriptor names. SIGNAL's 0x02 and 0x07,
KILL's 0x07, FENCE_DIE's 0x02 and the order of the statuses are DEDUCED (log 46), and so is LOAD_IMAGE's physical address
where ARG3 is 0 (log 61). -/
def Obligations.FirmwareChanges : Prop :=
  ∀ (s : State) (fn : Nat),
    let d := s.slot fn
    (Claims.served s fn 3 [1, 2, 3, 4] →
      let n := d.getD 4 0
      (n % 8 ≠ 0 → Claims.onlyStatus (.loadImage fn) s fn 2) ∧
      (n % 8 = 0 → (2 ^ 56 < d.getD 1 0 + n ∨ s.fwPieces (loadRoot (d.getD 3 0)) (d.getD 2 0) n .write = none) →
        Claims.onlyStatus (.loadImage fn) s fn 5) ∧
      (∀ l, n % 8 = 0 → d.getD 1 0 + n ≤ 2 ^ 56 → s.fwPieces (loadRoot (d.getD 3 0)) (d.getD 2 0) n .write = some l →
        let bytes := s.homeBytes (4 * 2 ^ 60 + d.getD 1 0) n
        ∃ t, exec (.loadImage fn) s = .next t ∧ Claims.commandEnds t s fn 0 [crc32c bytes] ∧
          t.mem = (s.writePieces l bytes).mem ∧ (t.fn fn).measure =
            BitVec.ofNat 384 (leNat (sha384 (beBytes 48 (s.fn fn).measure.toNat ++ sha384 bytes)).reverse) ∧
          ∀ k, l = [(k, n)] → spaceOf k ≠ 3 → memWf s.mem = true → (∀ j < n, isWindow (k + j) = false) →
            (spaceOf k = 1 → sramOff k + n ≤ 0x1F_C000) → ∀ j < n, t.homeByte (k + j) = bytes.getD j 0)) ∧
    (Claims.served s fn 6 [1, 2, 3, 4] →
      let id := d.getD 1 0
      let tag := d.getD 2 0
      (s.ownRegion fn id = none → Claims.onlyStatus (.signal fn) s fn 4) ∧
      (∀ r, s.ownRegion fn id = some r → r.state ≠ 1 → Claims.onlyStatus (.signal fn) s fn 7) ∧
      (∀ r, s.ownRegion fn id = some r → r.state = 1 →
        ((2 ^ 32 ≤ tag ∨ tagDev tag ≠ s.device ∨ tagCore tag / 8 ∉ r.placed) → Claims.onlyStatus (.signal fn) s fn 2) ∧
        (tag < 2 ^ 32 → tagDev tag = s.device → tagCore tag / 8 ∈ r.placed → s.isLive (dieOfCore (tagCore tag)) = true →
          ∃ t m, exec (.signal fn) s = .next t ∧ Claims.commandEnds t s fn 0 [] ∧ t.net = s.net ++ [m] ∧
            hdrType m.hdr = 11 ∧ m.pay = [BitVec.ofNat 64 (d.getD 3 0), BitVec.ofNat 64 (d.getD 4 0)] ∧ m.dst.toNat = tag ∧
            m.region = id ∧ t.mem = s.mem ∧ t.cores = s.cores))) ∧
    (Claims.served s fn 8 [1] →
      let id := d.getD 1 0
      (s.ownRegion fn id = none → Claims.onlyStatus (.kill fn) s fn 4) ∧
      (∀ r, s.ownRegion fn id = some r → 2 ≤ r.state → Claims.onlyStatus (.kill fn) s fn 7) ∧
      (∀ r, s.ownRegion fn id = some r → r.state < 2 → ∃ t q, exec (.kill fn) s = .next t ∧
        Claims.commandEnds t s fn 0 [] ∧ t.region id = some q ∧ q.state = 3)) ∧
    (Claims.served s fn 9 [1] → fn = 0 →
      let die := d.getD 1 0
      (3 < die → Claims.onlyStatus (.fenceDie fn) s fn 2) ∧
      (s.live.toNat = 2 ^ die → Claims.onlyStatus (.fenceDie fn) s fn 7) ∧
      (die ≤ 3 → s.live.toNat ≠ 2 ^ die → ∃ t, exec (.fenceDie fn) s = .next t ∧
        Claims.commandEnds t s fn 0 [t.live.toNat] ∧ ∀ e < 4, t.isLive e = (s.isLive e && decide (e ≠ die)))) ∧
    (Claims.served s fn 10 [1] → ∀ t e x, s.install reachPhysical (d.getD 1 0) = (t, e, x) →
      ∃ u, exec (.setDictionary fn) s = .next u ∧ u.dicts = t.dicts ∧ u.mem = t.mem ∧
        Claims.commandEnds u t fn (if e = 0 then 0 else if e = 3 then 5 else 2) [] ∧
        ∀ k, e = 0 → reachPhysical.keys s (d.getD 1 0) 8 .read = .ok [(k, 8)] →
          Claims.commandEnds u t fn 0 [t.shadeOf (s.homeNat k 8 % 4096)])

/-- R24, R29, R77, R83: CREATE_REGION by the PF for itself makes, of a tree that reads and passes the checks, a region for each
RCB, numbered upwards, and answers the root's number; a tree that does not answers its status and makes none; a VF without
a function root gets 0x20. LAUNCH of a region that has been created gives it cells and starts it, or answers why not: a
region without children takes as many free cells of live dies as it asks for, and its cores their tables, unless they are too
few (0x06), none of them deals tiles (0x21) or its spill area is out of reach (0x05). The order of the checks and 0x05 for a
misaligned RCB are DEDUCED (logs 46 and 52), and so are the numbers with their 0x06 (log 59) and which cells are taken (log
19). -/
def Obligations.RegionsStart : Prop :=
  ∀ (s : State) (fn : Nat),
    let d := s.slot fn
    (Claims.served s fn 4 [1, 2] →
      (fn ≠ 0 → d.getD 2 0 ≠ 0 → Claims.onlyStatus (.createRegion fn) s fn 2) ∧
      (fn ≠ 0 → d.getD 2 0 = 0 → s.rootOfFn fn = none → Claims.onlyStatus (.createRegion fn) s fn 0x20) ∧
      (fn = 0 → 384 < d.getD 2 0 → Claims.onlyStatus (.createRegion fn) s fn 2) ∧
      (fn = 0 → d.getD 2 0 = 0 →
        (d.getD 1 0 % 128 ≠ 0 → Claims.onlyStatus (.createRegion fn) s fn 5) ∧
        (∀ nodes read, s.readTree 0 65536 [⟨d.getD 1 0, none, none, none, 0⟩] [] [] = .ok (nodes, read) →
          (s.treeStatus nodes ≠ 0 → Claims.onlyStatus (.createRegion fn) s fn (s.treeStatus nodes)) ∧
          (s.treeStatus nodes = 0 → 65536 < s.nextRegion + nodes.length → Claims.onlyStatus (.createRegion fn) s fn 6) ∧
          (s.treeStatus nodes = 0 → s.nextRegion + nodes.length ≤ 65536 → ∃ t, exec (.createRegion fn) s = .next t ∧
            Claims.commandEnds t s fn 0 [s.nextRegion] ∧ t.nextRegion = s.nextRegion + nodes.length ∧
            (Claims.noWaits s → t.cores = s.cores) ∧
            (∀ j n, nodes[j]? = some n → ∃ r, t.region (s.nextRegion + j) = some r ∧ r.fn = 0 ∧ r.state = 0 ∧ r.placed = [] ∧
              r.parent = n.up.map (s.nextRegion + ·) ∧ r.cells = n.reg.cells ∧ r.supervisor = n.reg.supervisor ∧ r.rcb = n.key) ∧
            ∀ n, nodes = [n] → spaceOf n.key = 2 → isWindow n.key = false → n.key % 128 = 0 → memWf s.mem = true →
              t.homeNat (n.key + 0x18) 8 = setBits (setBits n.ctl 63 48 s.nextRegion) 2 0 n.reg.level)))) ∧
    (Claims.served s fn 5 [1] →
      let id := d.getD 1 0
      (s.ownRegion fn id = none → Claims.onlyStatus (.launch fn) s fn 4) ∧
      (∀ r, s.ownRegion fn id = some r → r.state ≠ 0 → Claims.onlyStatus (.launch fn) s fn 7) ∧
      (∀ r e, s.ownRegion fn id = some r → r.state = 0 → s.launch id = .error e → Claims.onlyStatus (.launch fn) s fn e) ∧
      (∀ r u, s.ownRegion fn id = some r → r.state = 0 → s.launch id = .ok u → ∃ t q n, exec (.launch fn) s = .next t ∧
        Claims.commandEnds t s fn 0 [n] ∧ t.region id = some q ∧ q.state = 1) ∧
      (∀ r, s.ownRegion fn id = some r → r.state = 0 → r.kids = [] →
        let got := (s.freeList r.supervisor).take r.cells
        let deals := Region.dealers { r with placed := got }
        ((r.cells = 0 ∨ got.length < r.cells ∨ s.fits id .cells r.cells = false) → Claims.onlyStatus (.launch fn) s fn 6) ∧
        (r.cells ≠ 0 → got.length = r.cells → s.fits id .cells r.cells = true →
          (deals = [] → Claims.onlyStatus (.launch fn) s fn 0x21) ∧
          (deals ≠ [] → r.spills = true → s.spillReachable r = false → Claims.onlyStatus (.launch fn) s fn 5) ∧
          (deals ≠ [] → (r.spills = true → s.spillReachable r = true) → ∃ t q, exec (.launch fn) s = .next t ∧
            Claims.commandEnds t s fn 0 [r.cells] ∧ t.region id = some q ∧ q.state = 1 ∧ q.placed = got ∧ q.dealing = deals ∧
            ∀ n ∈ got, s.isLive (dieOfCell n) = true ∧ (∀ x ∈ s.regions, ∀ p, x.2 = some p → n ∉ p.placed) ∧
              ∀ j < 8, (t.core (8 * n + j)).region = some id ∧ (t.core (8 * n + j)).entries = imageTable r.image j ∧
                (t.core (8 * n + j)).recs = []))))

/-- R77, R412–R417: SWITCH_CONTEXT with DIR 0 marks the cores of its regions and waits; once they stand still it completes with 0
and the regions are off their cells, which are in the area behind its header and in a save, or with 0x05 where the area is
out of reach, and they go on. With DIR 1 it puts a region that stands in a sound area back on the cells that it had, with what
their cores and slices held; an area of another version ends it with 0x07, one that does not check with 0x05, cells that are
not free with 0x06. RESET_FUNCTION empties a function's queue, clears its measurement and ends its regions. What a save
stands for is DEDUCED (log 62), and so are the order of the statuses (log 46) and what RESET_FUNCTION does to the queue (log
47); what an area that no switch of this power cycle wrote gives beside its slices is free (log 62). -/
def Obligations.FunctionsMove : Prop :=
  ∀ (s : State) (fn : Nat),
    let d := s.slot fn
    let arg := d.getD 1 0
    (Claims.served s fn 13 [1, 2] → fn = 0 → bitOf arg 17 = false →
      (2 ^ 18 ≤ arg → Claims.onlyStatus (.switchContextOut fn) s fn 2) ∧
      (∀ e, arg < 2 ^ 18 → s.switchTargets arg true = .error e → Claims.onlyStatus (.switchContextOut fn) s fn e) ∧
      (∀ ids, arg < 2 ^ 18 → s.switchTargets arg true = .ok ids →
        let key := s.areaKey (d.getD 2 0) (switchAreaSize (ids.map fun i => ((s.region i).map (·.placed.length)).getD 0))
        (key = none → Claims.onlyStatus (.switchContextOut fn) s fn 5) ∧
        (key ≠ none → ∃ t, exec (.switchContextOut fn) s = .next t ∧ (t.fn fn).switching = ids ∧ (t.fn fn).taken = d ∧
          (t.fn fn).head = (s.fn fn).head ∧ t.mem = s.mem ∧ ∀ i ∈ ids, ∀ r, s.region i = some r → ∀ c ∈ r.cores,
            (t.core c).switching = true ∧ (t.core c).frozen = decide ((s.core c).status ≠ .running) ∧
            (t.core c).regs = (s.core c).regs))) ∧
    (∀ ids, (s.fn fn).switching = ids → ids ≠ [] → ids.Nodup → (s.fns.map (·.1)).Pairwise (· < ·) →
      (∀ i ∈ ids, ∃ r, s.region i = some r ∧ r.state = 1 ∧ r.placed.length ≤ 1024) →
      let size := switchAreaSize (ids.map fun i => ((s.region i).map (·.placed.length)).getD 0)
      let key := s.areaKey ((s.fn fn).taken.getD 2 0) size
      (∀ i ∈ ids, ∀ r, s.region i = some r → s.regionStill i r = false → exec (.switchContextOut fn) s = .fault .notEnabled) ∧
      ((∀ i ∈ ids, ∀ r, s.region i = some r → s.regionStill i r = true) →
        (key = none → ∃ t, exec (.switchContextOut fn) s = .next t ∧ Claims.commandEnds t s fn 5 [] ∧
          (t.fn fn).switching = [] ∧ ∀ i ∈ ids, ∀ r, s.region i = some r → (∃ q, t.region i = some q ∧ q.placed = r.placed) ∧
            ∀ c ∈ r.cores, (t.core c).switching = false ∧ (t.core c).frozen = false) ∧
        (∀ k, key = some k → ∃ t, exec (.switchContextOut fn) s = .next t ∧ Claims.commandEnds t s fn 0 [] ∧
          (t.fn fn).switching = [] ∧
          (∀ i ∈ ids, ∀ r, s.region i = some r →
            (∃ q, t.region i = some q ∧ q.switched = true ∧ q.placed = [] ∧ q.state = 1) ∧
            (∀ c ∈ r.cores, (t.core c).region = none ∧ (t.core c).status = .idle) ∧
            ∃ x, tabGet [] t.saves i = x :: tabGet [] s.saves i ∧ x.placed = r.placed ∧ x.cores.map (·.1) = r.cores) ∧
          (Claims.calm s → (∀ c, (s.core c).copies = []) → (∀ j < size, isWindow (k + j) = false) →
            t.homeNat k 8 = Config.firmwareVersion.toNat ∧ t.homeNat (k + 16) 8 = ids.length % 2 ^ 64 ∧
            t.homeNat (k + 24) 8 = size % 2 ^ 64 ∧ t.homeNat (k + 32) 8 = crc32c (t.homeBytes (k + 4096) (size - 4096)) ∧
            ∀ i r j n o, ids = [i] → s.region i = some r → r.placed[j]? = some n → o < sliceSize →
              t.homeByte (k + 8192 + j * cellRecordSize + o) = s.homeByte (sramKey n 0 + o))))) ∧
    (Claims.served s fn 13 [1, 2] → fn = 0 → bitOf arg 17 = true →
      (2 ^ 18 ≤ arg → Claims.onlyStatus (.switchContextIn fn) s fn 2) ∧
      (∀ e, arg < 2 ^ 18 → s.switchTargets arg false = .error e → Claims.onlyStatus (.switchContextIn fn) s fn e) ∧
      (∀ ids, arg < 2 ^ 18 → s.switchTargets arg false = .ok ids →
        let area := d.getD 2 0
        (s.areaKey area 4096 = none → Claims.onlyStatus (.switchContextIn fn) s fn 5) ∧
        ∀ k, s.areaKey area 4096 = some k →
          let head := s.homeBytes k 4096
          let size := bytesAt head 24 8
          let bytes := s.homeBytes k size
          let crc := crc32c (bytes.drop 4096)
          (bytesAt head 0 8 ≠ Config.firmwareVersion.toNat → Claims.onlyStatus (.switchContextIn fn) s fn 7) ∧
          (bytesAt head 0 8 = Config.firmwareVersion.toNat →
            ((size < 4096 ∨ s.areaKey area size = none ∨ bytesAt head 32 8 % 2 ^ 32 ≠ crc ∨ bytesAt head 16 8 ≠ ids.length) →
              Claims.onlyStatus (.switchContextIn fn) s fn 5) ∧
            ((areaRecords bytes (Nat.min (bytesAt head 16 8) ids.length) 4096).map (·.2.1) ≠ ids →
              Claims.onlyStatus (.switchContextIn fn) s fn 5) ∧
            ∀ id cells, ids = [id] → 4096 ≤ size → s.areaKey area size ≠ none → bytesAt head 32 8 % 2 ^ 32 = crc →
              bytesAt head 16 8 = 1 → areaRecords bytes 1 4096 = [(4096, id, cells)] →
              let free (n : Nat) : Prop := s.isLive (dieOfCell n) = true ∧ n ∉ s.drainingCells ∧
                ∀ x ∈ s.regions, ∀ p, x.2 = some p → n ∉ p.placed
              (((∃ n ∈ cells, ¬ free n) ∨ s.fits id .cells cells.length = false) →
                Claims.onlyStatus (.switchContextIn fn) s fn 6) ∧
              ∀ x, (∀ n ∈ cells, free n) → s.fits id .cells cells.length = true → (s.region id).isSome = true →
                x = (s.saveOf crc id cells).getD (s.foreignSave crc id cells) → (x.cores.map (·.1)).Nodup → cells.Nodup →
                ∃ t q, exec (.switchContextIn fn) s = .next t ∧ Claims.commandEnds t s fn 0 [] ∧ t.region id = some q ∧
                  q.switched = false ∧ q.placed = cells ∧
                  (∀ c k', (c, k') ∈ x.cores → (t.core c).pc = k'.pc ∧ (t.core c).status = k'.status ∧
                    (k'.safeMask = none ∨ k'.frozen = false → (t.core c).regs = k'.regs) ∧
                    ∀ g v p, k'.safeMask = some (g, v, p) → k'.frozen = true →
                      (∀ r : Reg, (t.core c).g r = if 16 ≤ r.toNat ∨ (1 ≤ r.toNat ∧ g.getLsbD (r.toNat - 1) = true) then k'.g r else 0) ∧
                      (∀ r : Reg, r.toNat < 16 → (t.core c).v r = if v.getLsbD r.toNat = true then k'.v r else 0) ∧
                      ∀ r : BitVec 3, r ≠ 0 → (t.core c).p r = if p.getLsbD r.toNat = true then k'.p r else 0) ∧
                  (memWf s.mem = true → (∀ y ∈ x.cells, y.2.bindings = []) → (∀ n ∈ cells, (s.cell n).bindings = []) →
                    ∀ j n o, cells[j]? = some n → o < 0x1F_C000 →
                      t.homeByte (sramKey n 0 + o) = bytes.getD (8192 + j * cellRecordSize + o) 0)))) ∧
    (Claims.served s fn 14 [1] →
      (384 < arg → Claims.onlyStatus (.resetFunction fn) s fn 2) ∧
      (arg ≤ 384 → fn ≠ 0 → arg ≠ fn → Claims.onlyStatus (.resetFunction fn) s fn 3) ∧
      (arg ≤ 384 → fn = 0 ∨ arg = fn → ∃ t, exec (.resetFunction fn) s = .next t ∧ (t.fn arg).head = 0 ∧ (t.fn arg).tail = 0 ∧
        (t.fn arg).measure = 0 ∧ (arg ≠ fn → Claims.commandEnds t s fn 0 []) ∧
        ∀ id r, s.region id = some r → r.fn = arg → (fn = 0 → arg ≠ 0 → (s.fn arg).root ≠ some id) →
          ∃ q, t.region id = some q ∧ 2 ≤ q.state))

/-- R72, R73, R79: a host write of a page register is what the host then reads there, a write of CMD_TAIL its low five bits;
before readiness it is discarded, and so is a CMD_TAIL that leaves more than 16 commands. A program's report at the port
whose record lies in device memory goes into the owning function's queue, where it has room, and is marked with 1. -/
def Obligations.CommandPage : Prop :=
  (∀ (s : State) (fn off : Nat) (v : Dword), fn ≤ 384 → off < 0x1000 → off % 8 = 0 →
    (s.power ≠ .ready → exec (.commandPageWrite fn off v) s = .next s) ∧
    (s.power = .ready → (off = 0x010 ∨ 0x800 ≤ off) → ∃ t, exec (.commandPageWrite fn off v) s = .next t ∧
      t.pageRead fn off = v ∧ t.mem = s.mem ∧ t.cores = s.cores ∧ ∀ o, o ≠ off → o % 8 = 0 → t.pageRead fn o = s.pageRead fn o) ∧
    (s.power = .ready → off = 0 → (v.toNat % 32 + 32 - (s.fn fn).head) % 32 ≤ 16 →
      ∃ t, exec (.commandPageWrite fn off v) s = .next t ∧ t.pageRead fn 0 = BitVec.ofNat 64 (v.toNat % 32) ∧
        t.mem = s.mem ∧ t.cores = s.cores) ∧
    (s.power = .ready → off = 0 → 16 < (v.toNat % 32 + 32 - (s.fn fn).head) % 32 →
      ∃ t, exec (.commandPageWrite fn off v) s = .next t ∧ t.pageRead fn 0 = s.pageRead fn 0 ∧ t.cores = s.cores)) ∧
  ∀ (s : State) (q : Report) (rest : List Report) (k : Nat), s.reports = q :: rest → spaceOf q.pa = 2 →
    s.canon 0 q.pa = some k → isWindow k = false → memWf s.mem = true →
      let f := s.fn q.fn
      ∃ t, exec .programReport s = .next t ∧ t.reports = rest ∧ t.homeNat k 8 = 1 ∧ t.regions = s.regions ∧
        (Claims.noWaits s → t.cores = s.cores) ∧
        (f.hmqSize ≠ 0 → (f.hmqTail + 1) % f.hmqSize ≠ f.hmqHead % f.hmqSize →
          let rec' := 4 * 2 ^ 60 + (f.hmqBase + 64 * f.hmqTail) % 2 ^ 56
          (t.fn q.fn).hmqTail = (f.hmqTail + 1) % f.hmqSize ∧ t.homeNat rec' 8 % 2 ^ 16 = 4 ∧
            ∀ j < 6, t.homeNat (rec' + 16 + 8 * j) 8 = s.homeNat (k + 16 + 8 * j) 8)

/-! ### Messages on their way, firings that start, results that come -/

/-- R318–R320, R41, R115: a message of another TYPE than 2, 3, 4 and 6 that may arrive at a core of a placed cell is written into
the receive area where there is room, at its start behind a pad where the end has none, queued on its channel and counted;
with no room it is refused and waits 64 cycles, then twice the wait before, up to 4,096. One whose destination cannot be
reached is dropped, and a fault report so dropped ends the fault domain. A refused one whose wait is over is on its way
again. -/
def Obligations.MessageDelivery : Prop :=
  ∀ (s : State) (idx : Nat) (m : Msg), s.net[idx]? = some m →
    let core := tagCore m.dst.toNat
    let ch := tagCh m.dst.toNat
    let k := s.core core
    (s.canArrive idx m = true → s.unreachableTag m.dst.toNat = true →
      (hdrType m.hdr ≠ 10 → ∃ t, exec (.messageArrival idx) s = .next t ∧ t.net = listDel s.net idx ∧ t.mem = s.mem) ∧
      (hdrType m.hdr = 10 → ∀ r, s.region m.region = some r → r.state < 2 → ∃ t, exec (.messageArrival idx) s = .next t ∧
        ∀ id x, s.region id = some x → x.domain = r.domain → x.state < 2 → ∃ q, t.region id = some q ∧ q.state = 3)) ∧
    (s.canArrive idx m = true → s.unreachableTag m.dst.toNat = false → tagDev m.dst.toNat = s.device →
      hdrType m.hdr < 13 → hdrType m.hdr ≠ 2 → hdrType m.hdr ≠ 3 → k.region.isSome = true → m.quiet = false →
      (k.placeOff (8 + 8 * m.pay.length) = none → ∃ t, exec (.messageArrival idx) s = .next t ∧ t.cores = s.cores ∧
        t.mem = s.mem ∧ ∃ n, t.net[idx]? = some n ∧ n.refused = true ∧
          n.due = s.cycle + (if m.back = 0 then 64 else Nat.min (2 * m.back) 4096) ∧ n.pay = m.pay ∧ n.dst = m.dst) ∧
      (∀ off pad, k.placeOff (8 + 8 * m.pay.length) = some (off, pad) → k.head ≤ 0x4000 → k.tail ≤ 0x4000 → memWf s.mem = true →
        ∃ t r, exec (.messageArrival idx) s = .next t ∧
          ((s.cell (cellOf core)).watches = [] → t.net = listDel s.net idx) ∧
          (pad = false → (t.core core).recs = k.recs ++ [r]) ∧
          (pad = true → ∃ x, (t.core core).recs = k.recs ++ [x, r] ∧ x.st = .pad ∧ x.off = k.tail ∧ x.size = 0x4000 - k.tail) ∧
          r.off = off ∧ r.ch = ch ∧ r.st = .queued ∧ (t.core core).count ch = k.count ch + 1 ∧ (t.core core).regs = k.regs ∧
          t.homeNat (sramKey (cellOf core) (areaBase core + off)) 8 = m.hdr.toNat ∧
          ∀ j < m.pay.length, t.homeNat (sramKey (cellOf core) (areaBase core + off + 8 + 8 * j)) 8 = (m.pay.getD j 0).toNat)) ∧
    (m.refused = true → m.due ≤ s.cycle + 1 → ∃ t n, exec (.messageRetry idx) s = .next t ∧ t.net[idx]? = some n ∧
      n = { m with refused := false, due := s.cycle } ∧ t.cores = s.cores ∧ t.mem = s.mem)

/-- R116, R117, R119, R121, R130, R131: the selector starts a firing of a candidate entry of the least class, which runs from the
entry's code with `g8` to `g15` zero (entries 61 to 63: from what the message or arm gives), or starts none; a thief takes the
oldest arm of the first core in its order that has one; LIFT is set at AGE; a spilled arm returns to a deque with room. -/
def Obligations.FiringsStart : Prop :=
  ∀ (s : State) (core : Nat),
    let k := s.core core
    (s.selects core = true →
      (s.candidates core = [] → exec (.selector core) s = .next
        (s.setCore core { k with tried := s.cycle + 1, stealing := k.stealing || (k.entry 62).en })) ∧
      (s.candidates core ≠ [] → k.entries.length = 64 → ∃ t, ∃ e ∈ s.candidates core, exec (.selector core) s = .next t ∧
        (∀ x ∈ s.candidates core, s.selClass core (k.entry e) ≤ s.selClass core (k.entry x)) ∧
        let q := t.core core
        q.status = .running ∧ q.fir.entry = e ∧ q.fir.prodLeft = (k.entry e).prod ∧ q.vl = 0 ∧
          (q.entry e).fires = (k.entry e).fires + 1 ∧ q.pc = (s.startRegs core e (k.entry e) (k.consume (k.entry e))).1 ∧
          (e < 61 → q.pc = (k.entry e).code ∧ ∀ r : Reg, 8 ≤ r.toNat → r.toNat ≤ 15 → q.g r = 0) ∧
          q.regs.v = k.regs.v ∧ t.mem = s.mem)) ∧
    (k.stealing = true → k.status = .idle →
      ((k.switching = true ∨ k.frozen = true ∨ ∀ v ∈ victims core, (s.core v).stealableArm k.region = none) →
        exec (.stealAttempt core) s = .next (s.setCore core { k with stealing := false })) ∧
      (∀ v a, k.switching = false → k.frozen = false →
        (victims core).find? (fun v => ((s.core v).stealableArm k.region).isSome) = some v →
        (s.core v).arms.getLast? = some a → s.prodFits core (k.entry 62) = true → ∃ t, exec (.stealAttempt core) s = .next t ∧
          (t.core core).status = .running ∧ (t.core core).fir.entry = 62 ∧ (t.core core).fir.arm = some a ∧
          (t.core core).pc = a.pay.getD 0 0 ∧ (t.core v).arms = (s.core v).arms.dropLast ∧ t.mem = s.mem)) ∧
    (∀ n, n < k.entries.length → (k.entry n).en = true → (k.entry n).pend = true → (k.entry n).lift = false → k.age ≠ 0 →
      (k.entry n).since + k.age ≤ s.cycle + 1 → ∃ t, exec (.agingLift core n) s = .next t ∧
        (t.core core).entry n = { k.entry n with lift := true } ∧ (t.core core).regs = k.regs ∧ t.mem = s.mem ∧
        ∀ j, j ≠ n → (t.core core).entry j = k.entry j) ∧
    (∀ off rest r, k.armList = off :: rest → k.region.bind s.region = some r → k.arms.length < (k.entry 62).depthOf →
      ∃ t a, exec (.armUnspill core) s = .next t ∧ (t.core core).arms = k.arms ++ [a] ∧
        (t.core core).armList = s.afterHead r off rest ∧ (bitsOf (s.spillGet r off) 31 0 = rest.headD 0 → (t.core core).armList = rest) ∧
        a.hdr = (s.readRecord r off).1 ∧ a.pay = (s.readRecord r off).2 ∧ (t.core core).regs = k.regs)

/-- R52, R103, R161, R195, R199, R311, R330: a due result is written and its instruction complete; a reply writes its registers
or brings its word's trap after issue; a WAITW whose condition holds acquires and writes the doubleword; a write that may be
performed is applied at its home and changes those bytes alone, and it waits for the core's earlier writes to its bytes, a
release for all that it carries; a write of a BFMTn takes effect behind the bank's earlier ones, where each copy that converts in the bank may have
moved some of its groups in the old format, and nothing else changes where none does. That a WAITW is a pending reply is
DEDUCED (log 21); that a BFMTn write cuts converting copies after a free number of groups is DEDUCED (log 24). -/
def Obligations.CoreResults : Prop :=
  ∀ (s : State) (core seq idx n : Nat),
    let k := s.core core
    (∀ p, k.pend.find? (fun p => p.who.ord = seq && p.kind = .unit && p.ready && p.due ≤ s.cycle + 1) = some p →
      ∃ t, exec (.pendingResultWrite core seq) s = .next t ∧ t.mem = s.mem ∧ (t.core core).pc = k.pc ∧
        (t.core core).pend = k.pend.filter (fun q => decide (q ≠ p)) ∧ (t.core core).regs = (k.writeAll p.writes).regs ∧
        (t.core core).fenv = k.fenv ||| p.flags.setWidth 64) ∧
    (∀ p, k.pendOf .reply seq = some p →
      (p.ready = true → p.due ≤ s.cycle + 1 → ∃ t, exec (.memoryReply core seq) s = .next t ∧ t.mem = s.mem ∧
        (t.core core).pend = k.pend.filter (fun q => decide (q ≠ p)) ∧
        (p.fault = none → (t.core core).regs = (k.writeAll p.writes).regs ∧ (t.core core).faults = k.faults) ∧
        (∀ c v, p.fault = some (c, v) → (t.core core).regs = k.regs ∧
          (t.core core).faults = insertTrap ⟨.afterIssue, c, v, p.who⟩ k.faults)) ∧
      (∀ a kd key, p.waits = some (a, kd, key) → waitwMet kd (s.waitwRead core key) = true →
        ∃ t, exec (.memoryReply core seq) s = .next t ∧ t.mem = (s.acquire core p.waitScope (·.overlapsAt key 8)).mem ∧
          (s.writes = [] → t.mem = s.mem ∧
            (∀ x, p.writes = [.g a x] → (t.core core).regs = (k.setG a (BitVec.ofNat 64 (s.waitwRead core key))).regs) ∧
            (p.writes = [] → (t.core core).regs = k.regs)))) ∧
    (∀ w, s.writes[idx]? = some w → s.mayPerform idx w = true → ∃ t, exec (.writePerform idx) s = .next t ∧
      t.writes = listDel s.writes idx ∧ (Claims.noWaits s → t.cores = s.cores) ∧
      ∀ l : List Byte, w.bytes = l.map some → queueOf w.pa = none → isWindow w.pa = false →
        (spaceOf w.pa = 1 → sramOff w.pa + l.length ≤ 0x1F_C000) → memWf s.mem = true → s.bad = [] → l ≠ [] →
        ∀ a, memGet t.mem a = if w.pa ≤ a ∧ a < w.pa + l.length then l.getD (a - w.pa) 0 else memGet s.mem a) ∧
    (∀ w j p, s.writes[idx]? = some w → j < idx → s.writes[j]? = some p → p.core = w.core →
      (p.id < carriedTo w.rel ∨ p.overlaps w = true) → exec (.writePerform idx) s = .fault .notEnabled) ∧
    (∀ w, (s.cell n).sysWrites[idx]? = some w → 0x80 ≤ w.num → w.num < 0xA0 → w.due ≤ s.cycle →
      ((s.cell n).sysWrites.take idx).all (fun p => decide (p.num ≠ w.num)) = true → ∃ t, exec (.bfmtUpdate n idx) s = .next t ∧
        (t.cell n).sysWrites = listDel (s.cell n).sysWrites idx ∧
        let base := sramKey n (0x1_0000 * (w.num - 0x80))
        let u := s.cutCopies base
        t.mem = u.mem ∧ t.cores = u.cores ∧
        ((s.cores.all fun (c, _) => !s.convertsIn c base) = true → u = s) ∧
        (8 ≤ w.val.toNat % 16 → (t.cell n).bfmt = (u.cell n).bfmt) ∧
        (w.val.toNat % 16 < 8 → ((u.cell n).bfmt.map (·.1)).Pairwise (· < ·) →
          (t.cell n).sysRead w.num = w.val &&& 0xFFFF_FFFF_FF00_01BF))

/-! ### Limits -/

/-- A held pair's wait has passed its limit (R397): its trap at issue is noted, and taken at once where nothing of the firing is
pending and the next level is enabled. -/
def Sys2Proof.Claims.timesOut (i : Instr) (s : State) (core cause : Nat) (val : Dword) : Prop :=
  let k := s.core core
  ∃ t, exec i s = .next t ∧
    (k.settled = false → t.mem = s.mem ∧ (t.core core).regs = k.regs ∧ (t.core core).wait = none ∧
      ∃ q : TrapReq, (t.core core).faults = k.faults ++ [q] ∧ q.kind = .atIssue ∧ q.cause = cause ∧ q.val = val) ∧
    (k.settled = true → k.tlevel < 2 → (k.bank (k.tlevel + 1)).en = true → t.mem = s.mem ∧ (t.core core).regs = k.regs ∧
      (t.core core).wait = none ∧ (t.core core).tlevel = k.tlevel + 1 ∧ (t.core core).pc = (k.bank (k.tlevel + 1)).entry ∧
      ((t.core core).bank (k.tlevel + 1)).cause = BitVec.ofNat 64 cause ∧ ((t.core core).bank (k.tlevel + 1)).val = val)

/-- R107, R112, R122, R258, R261, R330, R384, R396, R411: what a passed limit does. A held stream read traps with 0x0301, a held
XPUSH with 0x0302, MQWAIT with 0x0304, BWAIT with 0x0305, WAITW after issue with 0x0303, a reply that does not come after
issue with 0x0306; a trap or halt that was met is taken once every result is complete; the watchdog reports and the firing
goes on. That WAITW's limit is a trap after issue is DEDUCED (log 21). The pair that the watchdog's report names is the one
that would issue next (DEDUCED, log 12). -/
def Obligations.LimitsPass : Prop :=
  ∀ (s : State) (core seq : Nat),
    let k := s.core core
    (∀ l j since last r, k.wait ≠ none → k.held = l ++ (j, since, last) :: r →
      (∀ y ∈ l, ¬ (s.cycle ≤ y.2.2 + 1 ∧ y.2.1 + k.sto ≤ s.cycle + 1)) → s.cycle ≤ last + 1 → since + k.sto ≤ s.cycle + 1 →
      Claims.timesOut (.streamWait core) s core 0x0301 (BitVec.ofNat 64 j)) ∧
    (∀ w, k.wait = some w → w.since + w.limit ≤ s.cycle + 1 →
      (w.kind = .copyFifo → Claims.timesOut (.copyFull core) s core 0x0302 w.val) ∧
      (w.kind = .mqwait → Claims.timesOut (.mqwaitLimit core) s core 0x0304 (BitVec.ofNat 64 (mqStat k.mq))) ∧
      (w.kind = .bwait → handleHome w.handle ≠ s.device → Claims.timesOut (.bwaitLimit core) s core 0x0305 w.val) ∧
      (∀ b, w.kind = .bwait → handleHome w.handle = s.device → s.barrier (handleNum w.handle) = some b →
        episodeOver b.episode w.episode = false → Claims.timesOut (.bwaitLimit core) s core 0x0305 (BitVec.ofNat 64 b.dw0))) ∧
    (∀ l r p a kd key, k.pend = l ++ p :: r → (∀ q ∈ l, q.waits = none) → p.waits = some (a, kd, key) → p.due ≤ s.cycle + 1 →
      waitwMet kd (s.waitwRead core key) = false → ∃ t, exec (.waitwLimit core) s = .next t ∧ t.mem = s.mem ∧
        (t.core core).regs = k.regs ∧ (t.core core).pend = k.pend.filter (fun q => decide (q ≠ p)) ∧
        (t.core core).faults =
          insertTrap ⟨.afterIssue, 0x0303, BitVec.ofNat 64 (s.waitwRead core key), p.who⟩ k.faults) ∧
    (∀ p, k.pendOf .reply seq = some p → p.bounded = true → p.issued + k.wlim ≤ s.cycle + 1 →
      ∃ t, exec (.memReplyLimit core seq) s = .next t ∧ t.mem = s.mem ∧ (t.core core).regs = k.regs ∧
        (t.core core).pend = k.pend.filter (fun q => decide (q ≠ p)) ∧
        (t.core core).faults = insertTrap ⟨.afterIssue, 0x0306, p.va, p.who⟩ k.faults) ∧
    (∀ q, k.status = .running → k.pend = [] → k.faults = [q] → k.tlevel < 2 → (k.bank (k.tlevel + 1)).en = true →
      ∃ t, exec (.trapTake core) s = .next t ∧ t.mem = s.mem ∧ (t.core core).regs = k.regs ∧ (t.core core).faults = [] ∧
        (t.core core).tlevel = k.tlevel + 1 ∧ (t.core core).pc = (k.bank (k.tlevel + 1)).entry ∧
        ((t.core core).bank (k.tlevel + 1)).val = q.val) ∧
    (∀ h r, k.halt = some h → k.status = .running → k.settled = true → s.region (k.region.getD k.fir.region) = some r →
      r.supervisor ≠ core → s.isLive (dieOfCore r.supervisor) = true → ∃ t, exec (.firingHalt core) s = .next t ∧
        t.mem = s.mem ∧ (t.core core).status = .halted h.cause ∧ (t.core core).pc = h.pc ∧ (t.core core).regs = k.regs) ∧
    (k.status = .running → (k.fir.wdDone + 1) * k.wdPeriod ≤ k.elapsed (s.cycle + 1) → ∃ t, exec (.watchdog core) s = .next t ∧
      t.mem = s.mem ∧ t.core core = { k with fir := { k.fir with wdDone := k.fir.wdDone + 1 } })

/-! ### Distributors and the package -/

/-- R81, R82, R84, R375, R418–R420: a running distributor beats every 2^13 cycles and samples every 2^14, and the master fences
a die whose count has not moved; a tile goes to a dealing core that holds fewer than two, as a message of TYPE 5; a tile that
retires is counted once; Q fallen to 0 is posted to the supervisor once the region's writes are performed; a finished region retires and its cells are free. -/
def Obligations.Distributors : Prop :=
  ∀ (s : State) (die id core : Nat) (r : Region),
    (s.dieRuns die = true → die < 4 →
      ((s.die die).beatAt + 2 ^ 13 ≤ s.cycle + 1 → ∃ t, exec (.heartbeat die) s = .next t ∧
        (t.die die).beats = (s.die die).beats + 1 ∧ (t.die die).beatAt = (s.die die).beatAt + 2 ^ 13 ∧ t.cores = s.cores ∧
        t.mem = s.mem) ∧
      ((s.die die).sampleAt + 2 ^ 14 ≤ s.cycle + 1 → s.master = die →
        (∃ t, exec (.heartbeatSample die) s = .next t ∧
          ∀ d < 4, d ≠ die → s.isLive d = true → (s.die d).beats = (s.die die).sampled.getD d 0 → t.isLive d = false) ∧
        ((∀ d < 4, d ≠ die → s.isLive d = true → (s.die d).beats ≠ (s.die die).sampled.getD d 0) →
          ∃ t, exec (.heartbeatSample die) s = .next t ∧ t.live = s.live ∧ t.cores = s.cores ∧ t.mem = s.mem ∧
            ∀ d < 4, (t.die die).sampled.getD d 0 = (s.die d).beats))) ∧
    (∀ i n, s.region id = some r → r.dealing.findIdx? (fun c => decide (c = core)) = some i → r.state = 1 → r.switched = false →
      (s.core core).switching = false → s.dieRuns (dieOfCore core) = true → core < 8192 → s.device < 2 ^ 13 →
      (r.dealt.filter fun x => decide (x.2 = core)).length < 2 → r.tileFor i = some n →
      ∃ t m q, exec (.tileDeal id core) s = .next t ∧ t.net = s.net ++ [m] ∧ hdrType m.hdr = 5 ∧
        m.dst.toNat = s.tag core 4 ∧ m.pay = (r.tilePayload n ++ [r.tdesc n]).map (BitVec.ofNat 64) ∧ t.region id = some q ∧
        q.dealt = r.dealt ++ [(n, core)] ∧ n ∉ q.redo ∧ t.mem = s.mem ∧ t.cores = s.cores) ∧
    (∀ n rest, s.retires = (id, n, die) :: rest → s.region id = some r → s.isLive die = true → r.state = 1 →
      (n ∈ r.done → ∃ t, exec .tileRetire s = .next t ∧ t.retires = rest ∧ t.region id = some r ∧ t.mem = s.mem) ∧
      (n ∉ r.done → ∃ t q, exec .tileRetire s = .next t ∧ t.retires = rest ∧ t.region id = some q ∧ q.done = n :: r.done ∧
        q.tilesDone = r.tilesDone + 1 ∧ t.cores = s.cores)) ∧
    (s.region id = some r → r.state = 1 → r.switched = false → r.qRose = true → s.qCount id r = 0 →
      (∃ t, exec (.quiescenceEvent id) s = .next t ∧ ∀ w ∈ t.writes, w.core ∉ r.cores) ∧
      (s.writes = [] → s.depOps = [] → s.device < 2 ^ 13 → r.supervisor < 8192 → s.isLive (dieOfCore r.supervisor) = true →
        ∃ t m q, exec (.quiescenceEvent id) s = .next t ∧ t.net = s.net ++ [m] ∧ hdrType m.hdr = 11 ∧ m.dst.toNat = s.tag r.supervisor 0 ∧ t.region id = some q ∧
        q.qevents = r.qevents + 1 ∧ q.qRose = false ∧ t.mem = s.mem ∧ t.cores = s.cores)) ∧
    (∀ c, s.region id = some r → s.finished id r = true → r.doneSince = some c → c < s.cycle →
      ∃ t q, exec (.regionRetire id) s = .next t ∧ t.region id = some q ∧ q.state = 2 ∧ q.placed = [])

/-- R421, R422, R425, R429, R430, R451, R453–R456, R458: what happens to the package. Bring-up counts a boot, takes the straps'
device number and the dies that passed, and elects the least; without a die the device stays dead; the command pages answer once the
firmware is ready. Power lost keeps the store, an orderly power-down updates it first; both leave nothing of the device's
memory. At 110 °C a die is fenced, and the last one powers the module down. A port trains in bring-up only, in its first
1,000 ms, goes down, and asks again for a bad flit up to eight times; with no device of the domain left, no core is raised
for one (R384). An uncorrectable error makes a doubleword bad, a correctable one leaves its
value. That steps 1 to 4 of the bring-up fall into one step at cycle 0 is DESIGN CHOICE (log 64), and so is how the device
learns of the devices beyond a partner and that they are gone (log 68). -/
def Obligations.Package : Prop :=
  ∀ (s : State),
    let stored (t : State) : Prop := (s.counters.map (·.1)).Pairwise (· < ·) → ∀ k,
      let more := tabGet 0 s.counters k - tabGet 0 s.life.last k
      tabGet 0 t.life.totals k =
        if more = 0 then tabGet 0 s.life.totals k else Nat.min (tabGet 0 s.life.totals k + more) (2 ^ 64 - 1)
    let dark (t : State) : Prop := t.power = .off ∧ t.cores = [] ∧ t.regions = [] ∧ t.life.boots = s.life.boots ∧
      ∀ a, spaceOf a < 3 → memGet t.mem a = 0
    let calmed (t : State) : Prop :=
      if t.peers.any t.inDomain = true then t.cores = s.cores else ∀ c, t.core c = { s.core c with peerInh := none }
    (∀ live straps, s.power = .off → ∃ t, exec (.powerOn live straps) s = .next t ∧ t.life.boots = s.life.boots + 1 ∧
      t.device = straps % 2 ^ 13 ∧ t.cores = [] ∧ t.cycle = 0 ∧ (∀ a, spaceOf a < 3 → memGet t.mem a = 0) ∧
      (live % 16 = 0 → t.power = .dead) ∧
      (live % 16 ≠ 0 → t.power = .starting ∧ t.live = BitVec.ofNat 4 live ∧ t.isLive t.master = true ∧
        ∀ d, t.isLive d = true → t.master ≤ d ∧ (t.die d).beating = true)) ∧
    (s.power = .starting → ∃ t, s.becomeReady = .next t ∧ t.power = .ready ∧ t.cores = s.cores ∧ t.mem = s.mem ∧
      ∀ f ≤ 384, (t.fn f).status = BitVec.ofNat 64 (1 + Config.firmwareVersion.toNat * 256)) ∧
    (s.power ≠ .off →
      (∃ t, exec .powerDown s = .next t ∧ dark t ∧ stored t) ∧
      (∃ t, exec .lossOfPower s = .next t ∧ dark t ∧ t.life.totals = s.life.totals) ∧
      (s.life.updated + 60 * 1_900_000_000 ≤ s.cycle + 1 → ∃ t, exec .lifetimeUpdate s = .next t ∧ stored t ∧
        t.life.updated = s.cycle + 1 ∧ t.life.seconds = s.life.seconds + (s.cycle + 1 - s.life.updated) / 1_900_000_000 ∧
        t.cores = s.cores ∧ t.mem = s.mem ∧ t.counters = s.counters) ∧
      (s.life.second + 1_900_000_000 ≤ s.cycle + 1 → ∃ t, exec .histogramSample s = .next t ∧ t.life.second = s.cycle + 1 ∧
        t.cores = s.cores ∧ t.mem = s.mem ∧ ∀ d < 4, t.counter 11 d (Nat.min 15 ((s.die d).temp / 8)) =
          Nat.min (s.counter 11 d (Nat.min 15 ((s.die d).temp / 8)) + 1) (2 ^ 64 - 1)) ∧
      (∀ die temp, die ≤ 3 →
        (temp < 110 → ∃ t, exec (.thermalSample die temp) s = .next t ∧ (t.die die).temp = temp ∧
          (t.die die).readAt = s.cycle + 1 ∧ t.live = s.live ∧ t.cores = s.cores ∧ t.mem = s.mem) ∧
        (110 ≤ temp → s.isLive die = true → s.power ≠ .dead → ∃ t, exec (.thermalSample die temp) s = .next t ∧
          (s.live.toNat = 2 ^ die → dark t) ∧ (s.live.toNat ≠ 2 ^ die → t.isLive die = false ∧ t.power = s.power)))) ∧
    (∀ die, s.dieRuns die = true → ∃ t, exec (.dieStop die) s = .next t ∧ t.dieRuns die = false ∧ t.cores = s.cores ∧
      t.mem = s.mem ∧ t.live = s.live) ∧
    (∀ port dev, (s.power = .starting ∨ s.power = .ready) → s.conflict = false → port < 32 → dev < 2 ^ 13 →
      ((s.port port).trained = false → s.power = .ready ∨ 1_900_000_000 < s.cycle →
        exec (.keagusPortTrain port dev) s = .fault .notEnabled) ∧
      ((s.port port).trained = false → s.power = .starting → s.cycle ≤ 1_900_000_000 → dev = s.device → ∃ t,
        exec (.keagusPortTrain port dev) s = .next t ∧ t.conflict = true ∧ t.ports = [] ∧ t.peers = [] ∧ calmed t) ∧
      ((s.port port).trained = false → s.power = .starting → s.cycle ≤ 1_900_000_000 → dev ≠ s.device → ∃ t,
        exec (.keagusPortTrain port dev) s = .next t ∧ (t.port port).trained = true ∧ (t.port port).reach = [dev] ∧
          dev ∈ t.peers ∧ dev ∈ t.partners ∧ calmed t ∧ t.mem = s.mem) ∧
      ((s.port port).trained = true → dev ≠ s.device → dev ∉ (s.port port).reach → ∃ t,
        exec (.keagusPortTrain port dev) s = .next t ∧ (t.port port).reach = (s.port port).reach ++ [dev] ∧
          dev ∈ t.peers ∧ calmed t ∧ t.mem = s.mem)) ∧
    (∀ dev, dev ∈ s.peers → dev ∉ s.partners → ∃ t, s.peerLeaves dev = .next t ∧ dev ∉ t.peers ∧ calmed t ∧
      t.mem = s.mem) ∧
    (∀ port, (s.port port).trained = true →
      (∃ t, exec (.keagusPortDown port) s = .next t ∧ (t.port port).trained = false ∧ calmed t ∧ t.mem = s.mem ∧
        ∀ d ∈ t.peers, ∃ n p, (n, p) ∈ t.ports ∧ p.trained = true ∧ d ∈ p.reach) ∧
      ∀ idx q, s.packets[idx]? = some q →
        let tries := if (s.port port).packet = some q then (s.port port).tries else 0
        (tries < 8 → ∃ t, exec (.flitRetry port idx) s = .next t ∧ (t.port port).tries = tries + 1 ∧
          (t.port port).packet = some q ∧ t.net = s.net ∧ t.writes = s.writes ∧ t.cores = s.cores ∧ t.mem = s.mem) ∧
        (8 ≤ tries → ∃ t, exec (.flitRetry port idx) s = .next t ∧ (t.port port).tries = 0 ∧ t.mem = s.mem ∧
          (∀ n m, q = .msg n → s.net.find? (fun x => decide (x.seq = n)) = some m → t.net = s.net.erase m) ∧
          (∀ w, q = .write w → t.writes = s.writes.erase w) ∧ (∀ o, q = .dep o → t.depOps = s.depOps.erase o) ∧
          ∀ c n, q = .reply c n → ∀ p ∈ (t.core c).pend, p.kind = .reply → p.who.ord = n → p.lost = true)) ∧
    (∀ addr k unc, s.canon 0 addr = some k → (spaceOf addr = 1 ∨ spaceOf addr = 2) → isWindow k = false →
      (k / 8 * 8 ∈ s.bad → exec (.memoryError addr unc) s = .next s) ∧
      (k / 8 * 8 ∉ s.bad → ∃ t, exec (.memoryError addr unc) s = .next t ∧ t.mem = s.mem ∧ t.cores = s.cores ∧
        (unc = true → t.bad = s.bad ++ [k / 8 * 8] ∧ t.rawByte k = 0) ∧
        (unc = false → t.bad = s.bad ∧ k / 8 * 8 ∈ t.soft ∧ t.rawByte k = s.rawByte k)))

/-! ### The machine as a whole -/

/-- What reset leaves (R57, R108, R118, R133, R158, R159, R168, R395, R454): every core is idle without a region; the system
registers with a reset value read as it; memory reads as 0 (where the spec gives none, log 2) and has its canonical form; no
write, message or region is there. IDEMPC (0x004) and every other register without a reset value in the spec reads 0 (DESIGN
CHOICE, log 1). -/
def Obligations.ResetValues : Prop :=
  memWf State.reset.mem = true ∧ State.reset.power = .off ∧ State.reset.writes = [] ∧ State.reset.net = [] ∧
    State.reset.regions = [] ∧ (∀ a, memGet State.reset.mem a = 0) ∧
    ∀ c, (State.reset.core c).status = .idle ∧ (State.reset.core c).region = none ∧
      (∀ n ∈ [0x000, 0x001, 0x003, 0x004, 0x006, 0x010, 0x011, 0x012, 0x013, 0x014, 0x015, 0x018, 0x019, 0x01A, 0x01B, 0x01C,
          0x020, 0x021, 0x022, 0x023, 0x024, 0x040, 0x080, 0x09F], State.reset.sysRead c n = 0) ∧
      State.reset.sysRead c 0x002 = 0x0000_6A00_0001_0000

/-- R311: bytes put at their home, where no doubleword is bad and the range is no queue area's, the window's or beyond a slice's
plain bytes, are what those addresses read as afterwards; every other byte reads as before; the canonical form is kept. -/
def Obligations.MemoryReadsBack : Prop :=
  ∀ (s : State) (key : Nat) (l : List Byte), memWf s.mem = true →
    memWf (s.putBytes key l).mem = true ∧
    (s.bad = [] → queueOf key = none → isWindow key = false → (spaceOf key = 1 → sramOff key + l.length ≤ 0x1F_C000) →
      (∀ j < l.length, memGet (s.putBytes key l).mem (key + j) = l.getD j 0) ∧
      ∀ a, (a < key ∨ key + l.length ≤ a) → memGet (s.putBytes key l).mem a = memGet s.mem a)

/-- R95, R99, R109, R110: decode and encode agree on every instruction word. A well-formed word A or word B has an encoding, with
every operand at every value that it admits; decoding it (a word A with its literal as word B where L is 1, and beside any word
B where L is 0) gives the instruction back. And whatever word decodes is the encoding of what it decodes to. -/
def Obligations.DecodeEncode : Prop :=
  (∀ i : Instr, i.wf = true → i.slot = .wordA → ∃ w, encode i = some w ∧
    (∀ l, i.literal = some l → decodeA w l = .ok i) ∧ (i.literal = none → ∀ wb, decodeA w wb = .ok i)) ∧
  (∀ i : Instr, i.wf = true → i.slot = .wordB → ∃ w, encode i = some w ∧ decodeB w = .ok i) ∧
  (∀ w wb i, decodeA w wb = .ok i → i.wf = true ∧ i.slot = .wordA ∧ encode i = some w ∧ (∀ l, i.literal = some l → l = wb)) ∧
  (∀ w i, decodeB w = .ok i → i.wf = true ∧ i.slot = .wordB ∧ encode i = some w)

/-- Words written out from the encodings of R95, R109 and R110 decode to the instructions they stand for. -/
def Obligations.DecodeSamples : Prop :=
  decodeB 0x04443001#32 = .ok (.add 2 4 6 0 1) ∧
  decodeB 0x2043FFFF#32 = .ok (.addi 2 3 0xFFFF) ∧
  decodeA 0x02218003#32 0 = .ok (.beq none 2 3 3) ∧
  decodeA 0#32 5 = .ok .nopA ∧
  decodeB 0#32 = .ok .nopB ∧
  decodeA 0x00000040#32 7 = .ok (.endFiring none) ∧
  decodeA 0x00000300#32 0 = .error 0x0102

/-- R92, R93, R195: a core whose turn it is, with nothing pending, no ENCX of its own under way and no replay, repetition or stop,
runs the pair at its pc: when the bytes there decode to a word A alone (a literal stands beside it, or word B is never
executed with it), the step is `exec` of that word, and the firing goes on behind it where the word completed; when they
decode to two words that both complete, the step has the effects of both. The turn notes the core and the cycle, the translation and the bits of the pair, and the next
pair's address; a fetch from the management window counts in HMQ_LOST (R79). -/
def Obligations.StepRunsDecoded : Prop :=
  ∀ (s : State) (c key : Nat) (p : Pair) (rest : List Byte),
    let s1 := s.turn c
    let k := s1.core c
    let bytes := s1.firingBytes c key 8
    let u := ((s1.walked c k.pc).windowLostN (s1.fnOf c) (windowHits [(key, 8)])).setCore c
      { k with fetched := BitVec.ofNat 64 (leNat bytes), npc := k.pc + 8 }
    s.nextCore = some c → s.issues c = true → k.stop = false → k.replay = none → k.rep = none → k.pend = [] →
    k.pc.toNat % 8 = 0 → s.bad = [] → s.soft = [] → s.encxUnder c = false →
    s1.xlate (s1.rootOf c) (cellOf c) k.pc.toNat .exec = .ok key →
    decodeBytes bytes = .ok (p, rest) → callClash p = false →
    ((p.b = none ∨ skipsB p.a = true) → ∀ t, exec p.a u = .next t →
      step s = .next (if (t.core c).out = .ok then t.advance 1 else t)) ∧
    (∀ b ta tb, p.b = some b → skipsB p.a = false → exec p.a u = .next ta → exec b u = .next tb →
      ((ta.core c).out = .ok → (tb.core c).out = .ok → step s = .next ((u.bothWords p.a b).advance 2)) ∧
      ((ta.core c).out = .hold → (tb.core c).out = .ok → step s = .next ta) ∧
      ((ta.core c).out = .ok → (tb.core c).out = .hold → step s = .next tb))

/-- R93, R111: the meaning of every instruction word answers a next state, in every state and with every operand: a word
completes, is held, is illegal or traps, and never stops the machine. -/
def Obligations.WordsNeverStop : Prop :=
  ∀ (i : Instr) (s : State), i.slot ≠ .noWord → ∃ t, exec i s = .next t

/-- The memory keeps its canonical form in every step, whatever the state, the word, the event or the input. -/
def Obligations.StepKeepsMemoryForm : Prop :=
  ∀ s t : State, memWf s.mem = true → step s = .next t → memWf t.mem = true

/-! ### Rules stated whole -/

/-- R94: a pair whose two words both name the same register as an explicit destination is illegal (0x0106, both words), a
destination of `g0` exempt; any other pair of legal words decodes to the two of them. -/
def Obligations.PairDestinations : Prop :=
  ∀ (wa wb : Word) (a b : Instr), wa.getLsbD 31 = false → decodeA wa wb = .ok a → decodeB wb = .ok b →
    ((∃ d ∈ a.dests, d ∈ b.dests ∧ d ≠ .g 0) → decodePair wa wb = .error (.illegal 0x0106 3)) ∧
    ((∀ d ∈ a.dests, d ∈ b.dests → d = .g 0) → decodePair wa wb = .ok ⟨a, some b⟩)

/-- R105: END, ENDR, JOIN, ARMW, MIGRATE, SAFE, BRK, HALT and TRAP are held while a result of their firing is pending, whatever
the windows (JOIN outside a speculation, ARMW and SAFE with legal operands: the others are turned away before). -/
def Obligations.ResultsAwaited : Prop :=
  ∀ (s : State) (l : Option Word) (a b c : Reg) (d : BitVec 12) (n : BitVec 6) (w : Word), s.me.pend ≠ [] →
    Claims.holds (.endFiring l) s ∧ Claims.holds (.endrFiring l) s ∧
    (s.me.fir.spec = false → Claims.holds (.join l a d) s) ∧
    ((s.me.g a).toNat / 2 ^ 38 % 2 ^ 10 = 0 → 5 ≤ (s.me.g a).toNat / 2 ^ 32 % 2 ^ 6 → Claims.holds (.armw l a b) s) ∧
    Claims.holds (.migrate l a c) s ∧ Claims.holds .safe s ∧
    (w.toNat < 2 ^ 24 → Claims.holds (.safeL a b c w) s) ∧
    Claims.holds (.brk l n) s ∧ Claims.holds (.halt l a) s ∧ Claims.holds (.trap l a n) s

/-- R423: a write that covers a whole doubleword replaces an uncorrectable one; a write that covers only part of it writes its own
bytes, zero into the others, and adds 1 to the bank's or stack's UE. -/
def Obligations.PartialOverwrite : Prop :=
  ∀ (s : State) (key kind unit : Nat) (l : List Byte), memWf s.mem = true → l ≠ [] → key % 8 + l.length ≤ 8 →
    key / 8 * 8 ∈ s.bad → eccUnit (key / 8 * 8) = some (kind, unit) → queueOf key = none → isWindow key = false →
    let t := s.putBytes key l
    key / 8 * 8 ∉ t.bad ∧
    (∀ j < 8, memGet t.mem (key / 8 * 8 + j) =
      if key % 8 ≤ j ∧ j < key % 8 + l.length then l.getD (j - key % 8) 0 else 0) ∧
    t.counter kind unit 1 =
      if l.length = 8 then s.counter kind unit 1 else Nat.min (s.counter kind unit 1 + 1) (2 ^ 64 - 1)

/-- R160: COREID holds the device number in bits 28:16 and the device-wide core number in bits 12:0; its other bits are 0. -/
def Obligations.CoreIdentity : Prop :=
  ∀ (s : State) (c : Nat), s.device < 2 ^ 13 → c < 2 ^ 13 →
    let v := (s.sysRead c 0x007).toNat
    v / 2 ^ 16 % 2 ^ 13 = s.device ∧ v % 2 ^ 13 = c ∧ v / 2 ^ 29 = 0 ∧ v / 2 ^ 13 % 2 ^ 3 = 0

/-! ### Families of statements -/

/-- Integer, bit-field and immediate instructions write their results: `Claims.IntegerResults`, `Claims.IntegerCounts`,
`Claims.SelectAndFields`, `Claims.Immediates`, whose docstrings name the rules. -/
def Obligations.IntegerOperations : Prop :=
  Claims.IntegerResults ∧ Claims.IntegerCounts ∧ Claims.SelectAndFields ∧ Claims.Immediates

/-- Multiply and divide instructions write their results: `Claims.Products`, `Claims.Quotients`, whose docstrings name the
rules. -/
def Obligations.MultiplyDivide : Prop :=
  Claims.Products ∧ Claims.Quotients

/-- Scalar floating-point results, flags and special cases: `Claims.ScalarFloat`, `Claims.FloatCases`, whose docstrings name the
rules. -/
def Obligations.ScalarFloatingPoint : Prop :=
  Claims.ScalarFloat ∧ Claims.FloatCases

/-- Elementwise vector instructions work on the active elements alone: `Claims.VectorOperands`, `Claims.VectorInteger`,
`Claims.VectorBytes`, `Claims.VectorFloat`, whose docstrings name the rules. -/
def Obligations.VectorElements : Prop :=
  Claims.VectorOperands ∧ Claims.VectorInteger ∧ Claims.VectorBytes ∧ Claims.VectorFloat

/-- Vector moves, comparisons, dot products and reductions: `Claims.VectorMoves`, `Claims.VectorCompare`, `Claims.VectorDot`,
`Claims.VectorReduce`, whose docstrings name the rules. -/
def Obligations.VectorLanes : Prop :=
  Claims.VectorMoves ∧ Claims.VectorCompare ∧ Claims.VectorDot ∧ Claims.VectorReduce

/-- Vector conversions, quantisation, VTOPK and VCMPR: `Claims.VectorConvert`, `Claims.VectorQuantise`, `Claims.VectorTop`,
`Claims.VectorCompact`, whose docstrings name the rules. -/
def Obligations.VectorFormats : Prop :=
  Claims.VectorConvert ∧ Claims.VectorQuantise ∧ Claims.VectorTop ∧ Claims.VectorCompact

/-- Predicate instructions, and vector words without lanes: `Claims.Predicates`, `Claims.WithoutLanes`, whose docstrings name
the rules. -/
def Obligations.PredicateWords : Prop :=
  Claims.Predicates ∧ Claims.WithoutLanes

/-- Branches, jumps, NOP, IDEM, PRIO and REP: `Claims.Branches`, `Claims.Jumps`, `Claims.PlainControl`, `Claims.Repeats`, whose
docstrings name the rules. -/
def Obligations.ControlFlow : Prop :=
  Claims.Branches ∧ Claims.Jumps ∧ Claims.PlainControl ∧ Claims.Repeats

/-- END, ENDR and SAFE: `Claims.FiringEnds`, `Claims.SafePoints`, whose docstrings name the rules. -/
def Obligations.FiringsStop : Prop :=
  Claims.FiringEnds ∧ Claims.SafePoints

/-- FORK pushes an arm and JOIN counts down: `Claims.ForkPushes`, `Claims.JoinCounts`, whose docstrings name the rules. -/
def Obligations.ForkJoin : Prop :=
  Claims.ForkPushes ∧ Claims.JoinCounts

/-- SPEC, SCOMMIT, SABORT and SELB: `Claims.SpeculationStarts`, `Claims.SpeculationEnds`, `Claims.QueueBanks`, whose docstrings
name the rules. -/
def Obligations.SpeculationAndBanks : Prop :=
  Claims.SpeculationStarts ∧ Claims.SpeculationEnds ∧ Claims.QueueBanks

/-- MFS, MTS, LCLAIM and LREL: `Claims.RegisterMoves`, `Claims.RegisterFields`, `Claims.LanePool`, whose docstrings name the
rules. -/
def Obligations.RegistersAndLanes : Prop :=
  Claims.RegisterMoves ∧ Claims.RegisterFields ∧ Claims.LanePool

/-- Taking a trap, and TRAP, TRET, BRK and HALT: `Claims.TakeTrap`, `Claims.TrapInstructions`, whose docstrings name the rules.
-/
def Obligations.Traps : Prop :=
  Claims.TakeTrap ∧ Claims.TrapInstructions

/-- A halted firing and the window instructions: `Claims.HaltFreezes`, `Claims.WindowChecks`, `Claims.WindowTable`,
`Claims.WindowActs`, whose docstrings name the rules. -/
def Obligations.HaltAndWindow : Prop :=
  Claims.HaltFreezes ∧ Claims.WindowChecks ∧ Claims.WindowTable ∧ Claims.WindowActs

/-- Scalar, acquire and vector loads, and the writes that a read may return: `Claims.Loads`, `Claims.VectorLoad`,
`Claims.Returnable`, whose docstrings name the rules. -/
def Obligations.AllLoads : Prop :=
  Claims.Loads ∧ Claims.VectorLoad ∧ Claims.Returnable

/-- Scalar, release and vector stores: `Claims.Stores`, `Claims.VectorStore`, whose docstrings name the rules. -/
def Obligations.AllStores : Prop :=
  Claims.Stores ∧ Claims.VectorStore

/-- Atomic instructions act once at their home: `Claims.Atomics`, `Claims.AtomicTraps`, whose docstrings name the rules. -/
def Obligations.AllAtomics : Prop :=
  Claims.Atomics ∧ Claims.AtomicTraps

/-- GATHER and SCADD: `Claims.Gathers`, `Claims.ScatterAdds`, whose docstrings name the rules. -/
def Obligations.GatherScatter : Prop :=
  Claims.Gathers ∧ Claims.ScatterAdds

/-- Streams: binding, reading, fetching and decompression: `Claims.StreamBinding`, `Claims.StreamRelease`, `Claims.StreamReads`,
`Claims.StreamSharing`, `Claims.StreamFetches`, `Claims.StreamBlocks`, `Claims.BlockOutput`, whose docstrings name the rules. -/
def Obligations.Streams : Prop :=
  Claims.StreamBinding ∧ Claims.StreamRelease ∧ Claims.StreamReads ∧ Claims.StreamSharing ∧ Claims.StreamFetches ∧
    Claims.StreamBlocks ∧ Claims.BlockOutput

/-- Copy requests and the copy engine: `Claims.CopyRequests`, `Claims.CopyMoves`, `Claims.CopyActions`, whose docstrings name the
rules. -/
def Obligations.Copies : Prop :=
  Claims.CopyRequests ∧ Claims.CopyMoves ∧ Claims.CopyActions

/-- SEND, SENDV, RECV and PEEK: `Claims.Sends`, `Claims.Receives`, whose docstrings name the rules. -/
def Obligations.Channels : Prop :=
  Claims.Sends ∧ Claims.Receives

/-- WAITW, ARMW and codelet counters: `Claims.WordWaits`, `Claims.CodeletCounters`, whose docstrings name the rules. -/
def Obligations.WaitsAndCounters : Prop :=
  Claims.WordWaits ∧ Claims.CodeletCounters

/-- SENDA, ENCX and the encoder: `Claims.EncoderTakesSegments`, `Claims.EncodingShape`, `Claims.EncoderSends`,
`Claims.EncoderStores`, whose docstrings name the rules. -/
def Obligations.Encoder : Prop :=
  Claims.EncoderTakesSegments ∧ Claims.EncodingShape ∧ Claims.EncoderSends ∧ Claims.EncoderStores

/-- IMRES, image builds and IMACC: `Claims.ImageResolves`, `Claims.ImageBuilds`, `Claims.ImageAccumulates`, whose docstrings
name the rules. -/
def Obligations.Images : Prop :=
  Claims.ImageResolves ∧ Claims.ImageBuilds ∧ Claims.ImageAccumulates

/-- DINST, DSTAT and DREPL: `Claims.DictionaryInstall`, `Claims.AtomReplacement`, whose docstrings name the rules. -/
def Obligations.Dictionaries : Prop :=
  Claims.DictionaryInstall ∧ Claims.AtomReplacement

/-- Notices, DSYNC, HOLDR and replication: `Claims.Notices`, `Claims.SyncAndHolds`, `Claims.Replication`, whose docstrings name
the rules. -/
def Obligations.DictionaryUpkeep : Prop :=
  Claims.Notices ∧ Claims.SyncAndHolds ∧ Claims.Replication

/-- MIGRATE, SPAWN, CTXLD and arriving contexts: `Claims.ContextsTravel`, `Claims.ContextsArrive`, whose docstrings name the
rules. -/
def Obligations.ContextsMove : Prop :=
  Claims.ContextsTravel ∧ Claims.ContextsArrive

/-- GJOIN, GELIM, GDAMP, GSEND, GBEL and arriving pairs: `Claims.SchurJoins`, `Claims.SchurMessages`, `Claims.SchurDamps`,
`Claims.SchurSends`, `Claims.SchurBeliefs`, `Claims.PairsArrive`, whose docstrings name the rules. -/
def Obligations.SchurUnit : Prop :=
  Claims.SchurJoins ∧ Claims.SchurMessages ∧ Claims.SchurDamps ∧ Claims.SchurSends ∧ Claims.SchurBeliefs ∧
    Claims.PairsArrive

/-- Barrier handles, objects, arrivals, completions and waits: `Claims.BarrierHandles`, `Claims.BarrierObjects`,
`Claims.BarrierArrivals`, `Claims.BarrierCompletes`, `Claims.BarrierWaits`, whose docstrings name the rules. -/
def Obligations.Barriers : Prop :=
  Claims.BarrierHandles ∧ Claims.BarrierObjects ∧ Claims.BarrierArrivals ∧ Claims.BarrierCompletes ∧ Claims.BarrierWaits

/-- Tile descriptors, stealing and tile sets: `Claims.Tiles`, `Claims.Steals`, `Claims.TileSets`, whose docstrings name the
rules. -/
def Obligations.StolenTiles : Prop :=
  Claims.Tiles ∧ Claims.Steals ∧ Claims.TileSets

/-- Matrix commands, k-steps and MQWAIT: `Claims.MatrixCommands`, `Claims.MatrixData`, `Claims.MatrixStores`,
`Claims.MatrixStep`, `Claims.MatrixQueue`, whose docstrings name the rules. -/
def Obligations.MatrixUnits : Prop :=
  Claims.MatrixCommands ∧ Claims.MatrixData ∧ Claims.MatrixStores ∧ Claims.MatrixStep ∧ Claims.MatrixQueue
end

