-- ==== Sys2Proof/Laws/State.lean ====
section
/-! SUPPORT. What each plain update of the state leaves alone, field by field. -/

namespace Sys2Proof.Machine

/-! ### State.setCore -/

@[simp] theorem State.setCore_cycle (s : State) (c : Nat) (x : Core) : (s.setCore c x).cycle = s.cycle := rfl
@[simp] theorem State.setCore_startNs (s : State) (c : Nat) (x : Core) : (s.setCore c x).startNs = s.startNs := rfl
@[simp] theorem State.setCore_cur (s : State) (c : Nat) (x : Core) : (s.setCore c x).cur = s.cur := rfl
@[simp] theorem State.setCore_cells (s : State) (c : Nat) (x : Core) : (s.setCore c x).cells = s.cells := rfl
@[simp] theorem State.setCore_dies (s : State) (c : Nat) (x : Core) : (s.setCore c x).dies = s.dies := rfl
@[simp] theorem State.setCore_live (s : State) (c : Nat) (x : Core) : (s.setCore c x).live = s.live := rfl
@[simp] theorem State.setCore_master (s : State) (c : Nat) (x : Core) : (s.setCore c x).master = s.master := rfl
@[simp] theorem State.setCore_mem (s : State) (c : Nat) (x : Core) : (s.setCore c x).mem = s.mem := rfl
@[simp] theorem State.setCore_bad (s : State) (c : Nat) (x : Core) : (s.setCore c x).bad = s.bad := rfl
@[simp] theorem State.setCore_soft (s : State) (c : Nat) (x : Core) : (s.setCore c x).soft = s.soft := rfl
@[simp] theorem State.setCore_past (s : State) (c : Nat) (x : Core) : (s.setCore c x).past = s.past := rfl
@[simp] theorem State.setCore_writes (s : State) (c : Nat) (x : Core) : (s.setCore c x).writes = s.writes := rfl
@[simp] theorem State.setCore_hist (s : State) (c : Nat) (x : Core) : (s.setCore c x).hist = s.hist := rfl
@[simp] theorem State.setCore_nextWrite (s : State) (c : Nat) (x : Core) : (s.setCore c x).nextWrite = s.nextWrite :=
  rfl
@[simp] theorem State.setCore_regions (s : State) (c : Nat) (x : Core) : (s.setCore c x).regions = s.regions := rfl
@[simp] theorem State.setCore_nextRegion (s : State) (c : Nat) (x : Core) : (s.setCore c x).nextRegion = s.nextRegion :=
  rfl
@[simp] theorem State.setCore_saves (s : State) (c : Nat) (x : Core) : (s.setCore c x).saves = s.saves := rfl
@[simp] theorem State.setCore_fns (s : State) (c : Nat) (x : Core) : (s.setCore c x).fns = s.fns := rfl
@[simp] theorem State.setCore_lastFn (s : State) (c : Nat) (x : Core) : (s.setCore c x).lastFn = s.lastFn := rfl
@[simp] theorem State.setCore_net (s : State) (c : Nat) (x : Core) : (s.setCore c x).net = s.net := rfl
@[simp] theorem State.setCore_seq (s : State) (c : Nat) (x : Core) : (s.setCore c x).seq = s.seq := rfl
@[simp] theorem State.setCore_depOps (s : State) (c : Nat) (x : Core) : (s.setCore c x).depOps = s.depOps := rfl
@[simp] theorem State.setCore_reports (s : State) (c : Nat) (x : Core) : (s.setCore c x).reports = s.reports := rfl
@[simp] theorem State.setCore_retires (s : State) (c : Nat) (x : Core) : (s.setCore c x).retires = s.retires := rfl
@[simp] theorem State.setCore_dicts (s : State) (c : Nat) (x : Core) : (s.setCore c x).dicts = s.dicts := rfl
@[simp] theorem State.setCore_shared (s : State) (c : Nat) (x : Core) : (s.setCore c x).shared = s.shared := rfl
@[simp] theorem State.setCore_nextShared (s : State) (c : Nat) (x : Core) : (s.setCore c x).nextShared = s.nextShared :=
  rfl
@[simp] theorem State.setCore_noticeNet (s : State) (c : Nat) (x : Core) : (s.setCore c x).noticeNet = s.noticeNet :=
  rfl
@[simp] theorem State.setCore_acks (s : State) (c : Nat) (x : Core) : (s.setCore c x).acks = s.acks := rfl
@[simp] theorem State.setCore_repl (s : State) (c : Nat) (x : Core) : (s.setCore c x).repl = s.repl := rfl
@[simp] theorem State.setCore_hotAt (s : State) (c : Nat) (x : Core) : (s.setCore c x).hotAt = s.hotAt := rfl
@[simp] theorem State.setCore_barriers (s : State) (c : Nat) (x : Core) : (s.setCore c x).barriers = s.barriers := rfl
@[simp] theorem State.setCore_tileNotices (s : State) (c : Nat) (x : Core) : (s.setCore c x).tileNotices = s.tileNotices :=
  rfl
@[simp] theorem State.setCore_nextDesc (s : State) (c : Nat) (x : Core) : (s.setCore c x).nextDesc = s.nextDesc := rfl
@[simp] theorem State.setCore_device (s : State) (c : Nat) (x : Core) : (s.setCore c x).device = s.device := rfl
@[simp] theorem State.setCore_peers (s : State) (c : Nat) (x : Core) : (s.setCore c x).peers = s.peers := rfl
@[simp] theorem State.setCore_fenced (s : State) (c : Nat) (x : Core) : (s.setCore c x).fenced = s.fenced := rfl
@[simp] theorem State.setCore_left (s : State) (c : Nat) (x : Core) : (s.setCore c x).left = s.left := rfl
@[simp] theorem State.setCore_peerDead (s : State) (c : Nat) (x : Core) : (s.setCore c x).peerDead = s.peerDead := rfl
@[simp] theorem State.setCore_conflict (s : State) (c : Nat) (x : Core) : (s.setCore c x).conflict = s.conflict := rfl
@[simp] theorem State.setCore_ports (s : State) (c : Nat) (x : Core) : (s.setCore c x).ports = s.ports := rfl
@[simp] theorem State.setCore_counters (s : State) (c : Nat) (x : Core) : (s.setCore c x).counters = s.counters := rfl
@[simp] theorem State.setCore_life (s : State) (c : Nat) (x : Core) : (s.setCore c x).life = s.life := rfl
@[simp] theorem State.setCore_power (s : State) (c : Nat) (x : Core) : (s.setCore c x).power = s.power := rfl
@[simp] theorem State.setCore_inputs (s : State) (c : Nat) (x : Core) : (s.setCore c x).inputs = s.inputs := rfl
@[simp] theorem State.setCore_free (s : State) (c : Nat) (x : Core) : (s.setCore c x).free = s.free := rfl
@[simp] theorem State.setCore_oracle (s : State) (c : Nat) (x : Core) : (s.setCore c x).oracle = s.oracle := rfl

/-! ### State.modCore -/

@[simp] theorem State.modCore_cycle (s : State) (c : Nat) (f : Core → Core) : (s.modCore c f).cycle = s.cycle := rfl
@[simp] theorem State.modCore_startNs (s : State) (c : Nat) (f : Core → Core) : (s.modCore c f).startNs = s.startNs :=
  rfl
@[simp] theorem State.modCore_cur (s : State) (c : Nat) (f : Core → Core) : (s.modCore c f).cur = s.cur := rfl
@[simp] theorem State.modCore_cells (s : State) (c : Nat) (f : Core → Core) : (s.modCore c f).cells = s.cells := rfl
@[simp] theorem State.modCore_dies (s : State) (c : Nat) (f : Core → Core) : (s.modCore c f).dies = s.dies := rfl
@[simp] theorem State.modCore_live (s : State) (c : Nat) (f : Core → Core) : (s.modCore c f).live = s.live := rfl
@[simp] theorem State.modCore_master (s : State) (c : Nat) (f : Core → Core) : (s.modCore c f).master = s.master := rfl
@[simp] theorem State.modCore_mem (s : State) (c : Nat) (f : Core → Core) : (s.modCore c f).mem = s.mem := rfl
@[simp] theorem State.modCore_bad (s : State) (c : Nat) (f : Core → Core) : (s.modCore c f).bad = s.bad := rfl
@[simp] theorem State.modCore_soft (s : State) (c : Nat) (f : Core → Core) : (s.modCore c f).soft = s.soft := rfl
@[simp] theorem State.modCore_past (s : State) (c : Nat) (f : Core → Core) : (s.modCore c f).past = s.past := rfl
@[simp] theorem State.modCore_writes (s : State) (c : Nat) (f : Core → Core) : (s.modCore c f).writes = s.writes := rfl
@[simp] theorem State.modCore_hist (s : State) (c : Nat) (f : Core → Core) : (s.modCore c f).hist = s.hist := rfl
@[simp] theorem State.modCore_nextWrite (s : State) (c : Nat) (f : Core → Core) : (s.modCore c f).nextWrite = s.nextWrite :=
  rfl
@[simp] theorem State.modCore_regions (s : State) (c : Nat) (f : Core → Core) : (s.modCore c f).regions = s.regions :=
  rfl
@[simp] theorem State.modCore_nextRegion (s : State) (c : Nat) (f : Core → Core) : (s.modCore c f).nextRegion = s.nextRegion :=
  rfl
@[simp] theorem State.modCore_saves (s : State) (c : Nat) (f : Core → Core) : (s.modCore c f).saves = s.saves := rfl
@[simp] theorem State.modCore_fns (s : State) (c : Nat) (f : Core → Core) : (s.modCore c f).fns = s.fns := rfl
@[simp] theorem State.modCore_lastFn (s : State) (c : Nat) (f : Core → Core) : (s.modCore c f).lastFn = s.lastFn := rfl
@[simp] theorem State.modCore_net (s : State) (c : Nat) (f : Core → Core) : (s.modCore c f).net = s.net := rfl
@[simp] theorem State.modCore_seq (s : State) (c : Nat) (f : Core → Core) : (s.modCore c f).seq = s.seq := rfl
@[simp] theorem State.modCore_depOps (s : State) (c : Nat) (f : Core → Core) : (s.modCore c f).depOps = s.depOps := rfl
@[simp] theorem State.modCore_reports (s : State) (c : Nat) (f : Core → Core) : (s.modCore c f).reports = s.reports :=
  rfl
@[simp] theorem State.modCore_retires (s : State) (c : Nat) (f : Core → Core) : (s.modCore c f).retires = s.retires :=
  rfl
@[simp] theorem State.modCore_dicts (s : State) (c : Nat) (f : Core → Core) : (s.modCore c f).dicts = s.dicts := rfl
@[simp] theorem State.modCore_shared (s : State) (c : Nat) (f : Core → Core) : (s.modCore c f).shared = s.shared := rfl
@[simp] theorem State.modCore_nextShared (s : State) (c : Nat) (f : Core → Core) : (s.modCore c f).nextShared = s.nextShared :=
  rfl
@[simp] theorem State.modCore_noticeNet (s : State) (c : Nat) (f : Core → Core) : (s.modCore c f).noticeNet = s.noticeNet :=
  rfl
@[simp] theorem State.modCore_acks (s : State) (c : Nat) (f : Core → Core) : (s.modCore c f).acks = s.acks := rfl
@[simp] theorem State.modCore_repl (s : State) (c : Nat) (f : Core → Core) : (s.modCore c f).repl = s.repl := rfl
@[simp] theorem State.modCore_hotAt (s : State) (c : Nat) (f : Core → Core) : (s.modCore c f).hotAt = s.hotAt := rfl
@[simp] theorem State.modCore_barriers (s : State) (c : Nat) (f : Core → Core) : (s.modCore c f).barriers = s.barriers :=
  rfl
@[simp] theorem State.modCore_tileNotices (s : State) (c : Nat) (f : Core → Core) : (s.modCore c f).tileNotices = s.tileNotices :=
  rfl
@[simp] theorem State.modCore_nextDesc (s : State) (c : Nat) (f : Core → Core) : (s.modCore c f).nextDesc = s.nextDesc :=
  rfl
@[simp] theorem State.modCore_device (s : State) (c : Nat) (f : Core → Core) : (s.modCore c f).device = s.device := rfl
@[simp] theorem State.modCore_peers (s : State) (c : Nat) (f : Core → Core) : (s.modCore c f).peers = s.peers := rfl
@[simp] theorem State.modCore_fenced (s : State) (c : Nat) (f : Core → Core) : (s.modCore c f).fenced = s.fenced := rfl
@[simp] theorem State.modCore_left (s : State) (c : Nat) (f : Core → Core) : (s.modCore c f).left = s.left := rfl
@[simp] theorem State.modCore_peerDead (s : State) (c : Nat) (f : Core → Core) : (s.modCore c f).peerDead = s.peerDead :=
  rfl
@[simp] theorem State.modCore_conflict (s : State) (c : Nat) (f : Core → Core) : (s.modCore c f).conflict = s.conflict :=
  rfl
@[simp] theorem State.modCore_ports (s : State) (c : Nat) (f : Core → Core) : (s.modCore c f).ports = s.ports := rfl
@[simp] theorem State.modCore_counters (s : State) (c : Nat) (f : Core → Core) : (s.modCore c f).counters = s.counters :=
  rfl
@[simp] theorem State.modCore_life (s : State) (c : Nat) (f : Core → Core) : (s.modCore c f).life = s.life := rfl
@[simp] theorem State.modCore_power (s : State) (c : Nat) (f : Core → Core) : (s.modCore c f).power = s.power := rfl
@[simp] theorem State.modCore_inputs (s : State) (c : Nat) (f : Core → Core) : (s.modCore c f).inputs = s.inputs := rfl
@[simp] theorem State.modCore_free (s : State) (c : Nat) (f : Core → Core) : (s.modCore c f).free = s.free := rfl
@[simp] theorem State.modCore_oracle (s : State) (c : Nat) (f : Core → Core) : (s.modCore c f).oracle = s.oracle := rfl

/-! ### State.modMe -/

@[simp] theorem State.modMe_cycle (s : State) (f : Core → Core) : (s.modMe f).cycle = s.cycle := rfl
@[simp] theorem State.modMe_startNs (s : State) (f : Core → Core) : (s.modMe f).startNs = s.startNs := rfl
@[simp] theorem State.modMe_cur (s : State) (f : Core → Core) : (s.modMe f).cur = s.cur := rfl
@[simp] theorem State.modMe_cells (s : State) (f : Core → Core) : (s.modMe f).cells = s.cells := rfl
@[simp] theorem State.modMe_dies (s : State) (f : Core → Core) : (s.modMe f).dies = s.dies := rfl
@[simp] theorem State.modMe_live (s : State) (f : Core → Core) : (s.modMe f).live = s.live := rfl
@[simp] theorem State.modMe_master (s : State) (f : Core → Core) : (s.modMe f).master = s.master := rfl
@[simp] theorem State.modMe_mem (s : State) (f : Core → Core) : (s.modMe f).mem = s.mem := rfl
@[simp] theorem State.modMe_bad (s : State) (f : Core → Core) : (s.modMe f).bad = s.bad := rfl
@[simp] theorem State.modMe_soft (s : State) (f : Core → Core) : (s.modMe f).soft = s.soft := rfl
@[simp] theorem State.modMe_past (s : State) (f : Core → Core) : (s.modMe f).past = s.past := rfl
@[simp] theorem State.modMe_writes (s : State) (f : Core → Core) : (s.modMe f).writes = s.writes := rfl
@[simp] theorem State.modMe_hist (s : State) (f : Core → Core) : (s.modMe f).hist = s.hist := rfl
@[simp] theorem State.modMe_nextWrite (s : State) (f : Core → Core) : (s.modMe f).nextWrite = s.nextWrite := rfl
@[simp] theorem State.modMe_regions (s : State) (f : Core → Core) : (s.modMe f).regions = s.regions := rfl
@[simp] theorem State.modMe_nextRegion (s : State) (f : Core → Core) : (s.modMe f).nextRegion = s.nextRegion := rfl
@[simp] theorem State.modMe_saves (s : State) (f : Core → Core) : (s.modMe f).saves = s.saves := rfl
@[simp] theorem State.modMe_fns (s : State) (f : Core → Core) : (s.modMe f).fns = s.fns := rfl
@[simp] theorem State.modMe_lastFn (s : State) (f : Core → Core) : (s.modMe f).lastFn = s.lastFn := rfl
@[simp] theorem State.modMe_net (s : State) (f : Core → Core) : (s.modMe f).net = s.net := rfl
@[simp] theorem State.modMe_seq (s : State) (f : Core → Core) : (s.modMe f).seq = s.seq := rfl
@[simp] theorem State.modMe_depOps (s : State) (f : Core → Core) : (s.modMe f).depOps = s.depOps := rfl
@[simp] theorem State.modMe_reports (s : State) (f : Core → Core) : (s.modMe f).reports = s.reports := rfl
@[simp] theorem State.modMe_retires (s : State) (f : Core → Core) : (s.modMe f).retires = s.retires := rfl
@[simp] theorem State.modMe_dicts (s : State) (f : Core → Core) : (s.modMe f).dicts = s.dicts := rfl
@[simp] theorem State.modMe_shared (s : State) (f : Core → Core) : (s.modMe f).shared = s.shared := rfl
@[simp] theorem State.modMe_nextShared (s : State) (f : Core → Core) : (s.modMe f).nextShared = s.nextShared := rfl
@[simp] theorem State.modMe_noticeNet (s : State) (f : Core → Core) : (s.modMe f).noticeNet = s.noticeNet := rfl
@[simp] theorem State.modMe_acks (s : State) (f : Core → Core) : (s.modMe f).acks = s.acks := rfl
@[simp] theorem State.modMe_repl (s : State) (f : Core → Core) : (s.modMe f).repl = s.repl := rfl
@[simp] theorem State.modMe_hotAt (s : State) (f : Core → Core) : (s.modMe f).hotAt = s.hotAt := rfl
@[simp] theorem State.modMe_barriers (s : State) (f : Core → Core) : (s.modMe f).barriers = s.barriers := rfl
@[simp] theorem State.modMe_tileNotices (s : State) (f : Core → Core) : (s.modMe f).tileNotices = s.tileNotices := rfl
@[simp] theorem State.modMe_nextDesc (s : State) (f : Core → Core) : (s.modMe f).nextDesc = s.nextDesc := rfl
@[simp] theorem State.modMe_device (s : State) (f : Core → Core) : (s.modMe f).device = s.device := rfl
@[simp] theorem State.modMe_peers (s : State) (f : Core → Core) : (s.modMe f).peers = s.peers := rfl
@[simp] theorem State.modMe_fenced (s : State) (f : Core → Core) : (s.modMe f).fenced = s.fenced := rfl
@[simp] theorem State.modMe_left (s : State) (f : Core → Core) : (s.modMe f).left = s.left := rfl
@[simp] theorem State.modMe_peerDead (s : State) (f : Core → Core) : (s.modMe f).peerDead = s.peerDead := rfl
@[simp] theorem State.modMe_conflict (s : State) (f : Core → Core) : (s.modMe f).conflict = s.conflict := rfl
@[simp] theorem State.modMe_ports (s : State) (f : Core → Core) : (s.modMe f).ports = s.ports := rfl
@[simp] theorem State.modMe_counters (s : State) (f : Core → Core) : (s.modMe f).counters = s.counters := rfl
@[simp] theorem State.modMe_life (s : State) (f : Core → Core) : (s.modMe f).life = s.life := rfl
@[simp] theorem State.modMe_power (s : State) (f : Core → Core) : (s.modMe f).power = s.power := rfl
@[simp] theorem State.modMe_inputs (s : State) (f : Core → Core) : (s.modMe f).inputs = s.inputs := rfl
@[simp] theorem State.modMe_free (s : State) (f : Core → Core) : (s.modMe f).free = s.free := rfl
@[simp] theorem State.modMe_oracle (s : State) (f : Core → Core) : (s.modMe f).oracle = s.oracle := rfl

/-! ### State.modCell -/

@[simp] theorem State.modCell_cycle (s : State) (n : Nat) (f : Cell → Cell) : (s.modCell n f).cycle = s.cycle := rfl
@[simp] theorem State.modCell_startNs (s : State) (n : Nat) (f : Cell → Cell) : (s.modCell n f).startNs = s.startNs :=
  rfl
@[simp] theorem State.modCell_cur (s : State) (n : Nat) (f : Cell → Cell) : (s.modCell n f).cur = s.cur := rfl
@[simp] theorem State.modCell_cores (s : State) (n : Nat) (f : Cell → Cell) : (s.modCell n f).cores = s.cores := rfl
@[simp] theorem State.modCell_dies (s : State) (n : Nat) (f : Cell → Cell) : (s.modCell n f).dies = s.dies := rfl
@[simp] theorem State.modCell_live (s : State) (n : Nat) (f : Cell → Cell) : (s.modCell n f).live = s.live := rfl
@[simp] theorem State.modCell_master (s : State) (n : Nat) (f : Cell → Cell) : (s.modCell n f).master = s.master := rfl
@[simp] theorem State.modCell_mem (s : State) (n : Nat) (f : Cell → Cell) : (s.modCell n f).mem = s.mem := rfl
@[simp] theorem State.modCell_bad (s : State) (n : Nat) (f : Cell → Cell) : (s.modCell n f).bad = s.bad := rfl
@[simp] theorem State.modCell_soft (s : State) (n : Nat) (f : Cell → Cell) : (s.modCell n f).soft = s.soft := rfl
@[simp] theorem State.modCell_past (s : State) (n : Nat) (f : Cell → Cell) : (s.modCell n f).past = s.past := rfl
@[simp] theorem State.modCell_writes (s : State) (n : Nat) (f : Cell → Cell) : (s.modCell n f).writes = s.writes := rfl
@[simp] theorem State.modCell_hist (s : State) (n : Nat) (f : Cell → Cell) : (s.modCell n f).hist = s.hist := rfl
@[simp] theorem State.modCell_nextWrite (s : State) (n : Nat) (f : Cell → Cell) : (s.modCell n f).nextWrite = s.nextWrite :=
  rfl
@[simp] theorem State.modCell_regions (s : State) (n : Nat) (f : Cell → Cell) : (s.modCell n f).regions = s.regions :=
  rfl
@[simp] theorem State.modCell_nextRegion (s : State) (n : Nat) (f : Cell → Cell) : (s.modCell n f).nextRegion = s.nextRegion :=
  rfl
@[simp] theorem State.modCell_saves (s : State) (n : Nat) (f : Cell → Cell) : (s.modCell n f).saves = s.saves := rfl
@[simp] theorem State.modCell_fns (s : State) (n : Nat) (f : Cell → Cell) : (s.modCell n f).fns = s.fns := rfl
@[simp] theorem State.modCell_lastFn (s : State) (n : Nat) (f : Cell → Cell) : (s.modCell n f).lastFn = s.lastFn := rfl
@[simp] theorem State.modCell_net (s : State) (n : Nat) (f : Cell → Cell) : (s.modCell n f).net = s.net := rfl
@[simp] theorem State.modCell_seq (s : State) (n : Nat) (f : Cell → Cell) : (s.modCell n f).seq = s.seq := rfl
@[simp] theorem State.modCell_depOps (s : State) (n : Nat) (f : Cell → Cell) : (s.modCell n f).depOps = s.depOps := rfl
@[simp] theorem State.modCell_reports (s : State) (n : Nat) (f : Cell → Cell) : (s.modCell n f).reports = s.reports :=
  rfl
@[simp] theorem State.modCell_retires (s : State) (n : Nat) (f : Cell → Cell) : (s.modCell n f).retires = s.retires :=
  rfl
@[simp] theorem State.modCell_dicts (s : State) (n : Nat) (f : Cell → Cell) : (s.modCell n f).dicts = s.dicts := rfl
@[simp] theorem State.modCell_shared (s : State) (n : Nat) (f : Cell → Cell) : (s.modCell n f).shared = s.shared := rfl
@[simp] theorem State.modCell_nextShared (s : State) (n : Nat) (f : Cell → Cell) : (s.modCell n f).nextShared = s.nextShared :=
  rfl
@[simp] theorem State.modCell_noticeNet (s : State) (n : Nat) (f : Cell → Cell) : (s.modCell n f).noticeNet = s.noticeNet :=
  rfl
@[simp] theorem State.modCell_acks (s : State) (n : Nat) (f : Cell → Cell) : (s.modCell n f).acks = s.acks := rfl
@[simp] theorem State.modCell_repl (s : State) (n : Nat) (f : Cell → Cell) : (s.modCell n f).repl = s.repl := rfl
@[simp] theorem State.modCell_hotAt (s : State) (n : Nat) (f : Cell → Cell) : (s.modCell n f).hotAt = s.hotAt := rfl
@[simp] theorem State.modCell_barriers (s : State) (n : Nat) (f : Cell → Cell) : (s.modCell n f).barriers = s.barriers :=
  rfl
@[simp] theorem State.modCell_tileNotices (s : State) (n : Nat) (f : Cell → Cell) : (s.modCell n f).tileNotices = s.tileNotices :=
  rfl
@[simp] theorem State.modCell_nextDesc (s : State) (n : Nat) (f : Cell → Cell) : (s.modCell n f).nextDesc = s.nextDesc :=
  rfl
@[simp] theorem State.modCell_device (s : State) (n : Nat) (f : Cell → Cell) : (s.modCell n f).device = s.device := rfl
@[simp] theorem State.modCell_peers (s : State) (n : Nat) (f : Cell → Cell) : (s.modCell n f).peers = s.peers := rfl
@[simp] theorem State.modCell_fenced (s : State) (n : Nat) (f : Cell → Cell) : (s.modCell n f).fenced = s.fenced := rfl
@[simp] theorem State.modCell_left (s : State) (n : Nat) (f : Cell → Cell) : (s.modCell n f).left = s.left := rfl
@[simp] theorem State.modCell_peerDead (s : State) (n : Nat) (f : Cell → Cell) : (s.modCell n f).peerDead = s.peerDead :=
  rfl
@[simp] theorem State.modCell_conflict (s : State) (n : Nat) (f : Cell → Cell) : (s.modCell n f).conflict = s.conflict :=
  rfl
@[simp] theorem State.modCell_ports (s : State) (n : Nat) (f : Cell → Cell) : (s.modCell n f).ports = s.ports := rfl
@[simp] theorem State.modCell_counters (s : State) (n : Nat) (f : Cell → Cell) : (s.modCell n f).counters = s.counters :=
  rfl
@[simp] theorem State.modCell_life (s : State) (n : Nat) (f : Cell → Cell) : (s.modCell n f).life = s.life := rfl
@[simp] theorem State.modCell_power (s : State) (n : Nat) (f : Cell → Cell) : (s.modCell n f).power = s.power := rfl
@[simp] theorem State.modCell_inputs (s : State) (n : Nat) (f : Cell → Cell) : (s.modCell n f).inputs = s.inputs := rfl
@[simp] theorem State.modCell_free (s : State) (n : Nat) (f : Cell → Cell) : (s.modCell n f).free = s.free := rfl
@[simp] theorem State.modCell_oracle (s : State) (n : Nat) (f : Cell → Cell) : (s.modCell n f).oracle = s.oracle := rfl

/-! ### State.modFn -/

@[simp] theorem State.modFn_cycle (s : State) (n : Nat) (f : Fn → Fn) : (s.modFn n f).cycle = s.cycle := rfl
@[simp] theorem State.modFn_startNs (s : State) (n : Nat) (f : Fn → Fn) : (s.modFn n f).startNs = s.startNs := rfl
@[simp] theorem State.modFn_cur (s : State) (n : Nat) (f : Fn → Fn) : (s.modFn n f).cur = s.cur := rfl
@[simp] theorem State.modFn_cores (s : State) (n : Nat) (f : Fn → Fn) : (s.modFn n f).cores = s.cores := rfl
@[simp] theorem State.modFn_cells (s : State) (n : Nat) (f : Fn → Fn) : (s.modFn n f).cells = s.cells := rfl
@[simp] theorem State.modFn_dies (s : State) (n : Nat) (f : Fn → Fn) : (s.modFn n f).dies = s.dies := rfl
@[simp] theorem State.modFn_live (s : State) (n : Nat) (f : Fn → Fn) : (s.modFn n f).live = s.live := rfl
@[simp] theorem State.modFn_master (s : State) (n : Nat) (f : Fn → Fn) : (s.modFn n f).master = s.master := rfl
@[simp] theorem State.modFn_mem (s : State) (n : Nat) (f : Fn → Fn) : (s.modFn n f).mem = s.mem := rfl
@[simp] theorem State.modFn_bad (s : State) (n : Nat) (f : Fn → Fn) : (s.modFn n f).bad = s.bad := rfl
@[simp] theorem State.modFn_soft (s : State) (n : Nat) (f : Fn → Fn) : (s.modFn n f).soft = s.soft := rfl
@[simp] theorem State.modFn_past (s : State) (n : Nat) (f : Fn → Fn) : (s.modFn n f).past = s.past := rfl
@[simp] theorem State.modFn_writes (s : State) (n : Nat) (f : Fn → Fn) : (s.modFn n f).writes = s.writes := rfl
@[simp] theorem State.modFn_hist (s : State) (n : Nat) (f : Fn → Fn) : (s.modFn n f).hist = s.hist := rfl
@[simp] theorem State.modFn_nextWrite (s : State) (n : Nat) (f : Fn → Fn) : (s.modFn n f).nextWrite = s.nextWrite := rfl
@[simp] theorem State.modFn_regions (s : State) (n : Nat) (f : Fn → Fn) : (s.modFn n f).regions = s.regions := rfl
@[simp] theorem State.modFn_nextRegion (s : State) (n : Nat) (f : Fn → Fn) : (s.modFn n f).nextRegion = s.nextRegion :=
  rfl
@[simp] theorem State.modFn_saves (s : State) (n : Nat) (f : Fn → Fn) : (s.modFn n f).saves = s.saves := rfl
@[simp] theorem State.modFn_lastFn (s : State) (n : Nat) (f : Fn → Fn) : (s.modFn n f).lastFn = s.lastFn := rfl
@[simp] theorem State.modFn_net (s : State) (n : Nat) (f : Fn → Fn) : (s.modFn n f).net = s.net := rfl
@[simp] theorem State.modFn_seq (s : State) (n : Nat) (f : Fn → Fn) : (s.modFn n f).seq = s.seq := rfl
@[simp] theorem State.modFn_depOps (s : State) (n : Nat) (f : Fn → Fn) : (s.modFn n f).depOps = s.depOps := rfl
@[simp] theorem State.modFn_reports (s : State) (n : Nat) (f : Fn → Fn) : (s.modFn n f).reports = s.reports := rfl
@[simp] theorem State.modFn_retires (s : State) (n : Nat) (f : Fn → Fn) : (s.modFn n f).retires = s.retires := rfl
@[simp] theorem State.modFn_dicts (s : State) (n : Nat) (f : Fn → Fn) : (s.modFn n f).dicts = s.dicts := rfl
@[simp] theorem State.modFn_shared (s : State) (n : Nat) (f : Fn → Fn) : (s.modFn n f).shared = s.shared := rfl
@[simp] theorem State.modFn_nextShared (s : State) (n : Nat) (f : Fn → Fn) : (s.modFn n f).nextShared = s.nextShared :=
  rfl
@[simp] theorem State.modFn_noticeNet (s : State) (n : Nat) (f : Fn → Fn) : (s.modFn n f).noticeNet = s.noticeNet := rfl
@[simp] theorem State.modFn_acks (s : State) (n : Nat) (f : Fn → Fn) : (s.modFn n f).acks = s.acks := rfl
@[simp] theorem State.modFn_repl (s : State) (n : Nat) (f : Fn → Fn) : (s.modFn n f).repl = s.repl := rfl
@[simp] theorem State.modFn_hotAt (s : State) (n : Nat) (f : Fn → Fn) : (s.modFn n f).hotAt = s.hotAt := rfl
@[simp] theorem State.modFn_barriers (s : State) (n : Nat) (f : Fn → Fn) : (s.modFn n f).barriers = s.barriers := rfl
@[simp] theorem State.modFn_tileNotices (s : State) (n : Nat) (f : Fn → Fn) : (s.modFn n f).tileNotices = s.tileNotices :=
  rfl
@[simp] theorem State.modFn_nextDesc (s : State) (n : Nat) (f : Fn → Fn) : (s.modFn n f).nextDesc = s.nextDesc := rfl
@[simp] theorem State.modFn_device (s : State) (n : Nat) (f : Fn → Fn) : (s.modFn n f).device = s.device := rfl
@[simp] theorem State.modFn_peers (s : State) (n : Nat) (f : Fn → Fn) : (s.modFn n f).peers = s.peers := rfl
@[simp] theorem State.modFn_fenced (s : State) (n : Nat) (f : Fn → Fn) : (s.modFn n f).fenced = s.fenced := rfl
@[simp] theorem State.modFn_left (s : State) (n : Nat) (f : Fn → Fn) : (s.modFn n f).left = s.left := rfl
@[simp] theorem State.modFn_peerDead (s : State) (n : Nat) (f : Fn → Fn) : (s.modFn n f).peerDead = s.peerDead := rfl
@[simp] theorem State.modFn_conflict (s : State) (n : Nat) (f : Fn → Fn) : (s.modFn n f).conflict = s.conflict := rfl
@[simp] theorem State.modFn_ports (s : State) (n : Nat) (f : Fn → Fn) : (s.modFn n f).ports = s.ports := rfl
@[simp] theorem State.modFn_counters (s : State) (n : Nat) (f : Fn → Fn) : (s.modFn n f).counters = s.counters := rfl
@[simp] theorem State.modFn_life (s : State) (n : Nat) (f : Fn → Fn) : (s.modFn n f).life = s.life := rfl
@[simp] theorem State.modFn_power (s : State) (n : Nat) (f : Fn → Fn) : (s.modFn n f).power = s.power := rfl
@[simp] theorem State.modFn_inputs (s : State) (n : Nat) (f : Fn → Fn) : (s.modFn n f).inputs = s.inputs := rfl
@[simp] theorem State.modFn_free (s : State) (n : Nat) (f : Fn → Fn) : (s.modFn n f).free = s.free := rfl
@[simp] theorem State.modFn_oracle (s : State) (n : Nat) (f : Fn → Fn) : (s.modFn n f).oracle = s.oracle := rfl

/-! ### State.modPort -/

@[simp] theorem State.modPort_cycle (s : State) (p : Nat) (f : Port → Port) : (s.modPort p f).cycle = s.cycle := rfl
@[simp] theorem State.modPort_startNs (s : State) (p : Nat) (f : Port → Port) : (s.modPort p f).startNs = s.startNs :=
  rfl
@[simp] theorem State.modPort_cur (s : State) (p : Nat) (f : Port → Port) : (s.modPort p f).cur = s.cur := rfl
@[simp] theorem State.modPort_cores (s : State) (p : Nat) (f : Port → Port) : (s.modPort p f).cores = s.cores := rfl
@[simp] theorem State.modPort_cells (s : State) (p : Nat) (f : Port → Port) : (s.modPort p f).cells = s.cells := rfl
@[simp] theorem State.modPort_dies (s : State) (p : Nat) (f : Port → Port) : (s.modPort p f).dies = s.dies := rfl
@[simp] theorem State.modPort_live (s : State) (p : Nat) (f : Port → Port) : (s.modPort p f).live = s.live := rfl
@[simp] theorem State.modPort_master (s : State) (p : Nat) (f : Port → Port) : (s.modPort p f).master = s.master := rfl
@[simp] theorem State.modPort_mem (s : State) (p : Nat) (f : Port → Port) : (s.modPort p f).mem = s.mem := rfl
@[simp] theorem State.modPort_bad (s : State) (p : Nat) (f : Port → Port) : (s.modPort p f).bad = s.bad := rfl
@[simp] theorem State.modPort_soft (s : State) (p : Nat) (f : Port → Port) : (s.modPort p f).soft = s.soft := rfl
@[simp] theorem State.modPort_past (s : State) (p : Nat) (f : Port → Port) : (s.modPort p f).past = s.past := rfl
@[simp] theorem State.modPort_writes (s : State) (p : Nat) (f : Port → Port) : (s.modPort p f).writes = s.writes := rfl
@[simp] theorem State.modPort_hist (s : State) (p : Nat) (f : Port → Port) : (s.modPort p f).hist = s.hist := rfl
@[simp] theorem State.modPort_nextWrite (s : State) (p : Nat) (f : Port → Port) : (s.modPort p f).nextWrite = s.nextWrite :=
  rfl
@[simp] theorem State.modPort_regions (s : State) (p : Nat) (f : Port → Port) : (s.modPort p f).regions = s.regions :=
  rfl
@[simp] theorem State.modPort_nextRegion (s : State) (p : Nat) (f : Port → Port) : (s.modPort p f).nextRegion = s.nextRegion :=
  rfl
@[simp] theorem State.modPort_saves (s : State) (p : Nat) (f : Port → Port) : (s.modPort p f).saves = s.saves := rfl
@[simp] theorem State.modPort_fns (s : State) (p : Nat) (f : Port → Port) : (s.modPort p f).fns = s.fns := rfl
@[simp] theorem State.modPort_lastFn (s : State) (p : Nat) (f : Port → Port) : (s.modPort p f).lastFn = s.lastFn := rfl
@[simp] theorem State.modPort_net (s : State) (p : Nat) (f : Port → Port) : (s.modPort p f).net = s.net := rfl
@[simp] theorem State.modPort_seq (s : State) (p : Nat) (f : Port → Port) : (s.modPort p f).seq = s.seq := rfl
@[simp] theorem State.modPort_depOps (s : State) (p : Nat) (f : Port → Port) : (s.modPort p f).depOps = s.depOps := rfl
@[simp] theorem State.modPort_reports (s : State) (p : Nat) (f : Port → Port) : (s.modPort p f).reports = s.reports :=
  rfl
@[simp] theorem State.modPort_retires (s : State) (p : Nat) (f : Port → Port) : (s.modPort p f).retires = s.retires :=
  rfl
@[simp] theorem State.modPort_dicts (s : State) (p : Nat) (f : Port → Port) : (s.modPort p f).dicts = s.dicts := rfl
@[simp] theorem State.modPort_shared (s : State) (p : Nat) (f : Port → Port) : (s.modPort p f).shared = s.shared := rfl
@[simp] theorem State.modPort_nextShared (s : State) (p : Nat) (f : Port → Port) : (s.modPort p f).nextShared = s.nextShared :=
  rfl
@[simp] theorem State.modPort_noticeNet (s : State) (p : Nat) (f : Port → Port) : (s.modPort p f).noticeNet = s.noticeNet :=
  rfl
@[simp] theorem State.modPort_acks (s : State) (p : Nat) (f : Port → Port) : (s.modPort p f).acks = s.acks := rfl
@[simp] theorem State.modPort_repl (s : State) (p : Nat) (f : Port → Port) : (s.modPort p f).repl = s.repl := rfl
@[simp] theorem State.modPort_hotAt (s : State) (p : Nat) (f : Port → Port) : (s.modPort p f).hotAt = s.hotAt := rfl
@[simp] theorem State.modPort_barriers (s : State) (p : Nat) (f : Port → Port) : (s.modPort p f).barriers = s.barriers :=
  rfl
@[simp] theorem State.modPort_tileNotices (s : State) (p : Nat) (f : Port → Port) : (s.modPort p f).tileNotices = s.tileNotices :=
  rfl
@[simp] theorem State.modPort_nextDesc (s : State) (p : Nat) (f : Port → Port) : (s.modPort p f).nextDesc = s.nextDesc :=
  rfl
@[simp] theorem State.modPort_device (s : State) (p : Nat) (f : Port → Port) : (s.modPort p f).device = s.device := rfl
@[simp] theorem State.modPort_peers (s : State) (p : Nat) (f : Port → Port) : (s.modPort p f).peers = s.peers := rfl
@[simp] theorem State.modPort_fenced (s : State) (p : Nat) (f : Port → Port) : (s.modPort p f).fenced = s.fenced := rfl
@[simp] theorem State.modPort_left (s : State) (p : Nat) (f : Port → Port) : (s.modPort p f).left = s.left := rfl
@[simp] theorem State.modPort_peerDead (s : State) (p : Nat) (f : Port → Port) : (s.modPort p f).peerDead = s.peerDead :=
  rfl
@[simp] theorem State.modPort_conflict (s : State) (p : Nat) (f : Port → Port) : (s.modPort p f).conflict = s.conflict :=
  rfl
@[simp] theorem State.modPort_counters (s : State) (p : Nat) (f : Port → Port) : (s.modPort p f).counters = s.counters :=
  rfl
@[simp] theorem State.modPort_life (s : State) (p : Nat) (f : Port → Port) : (s.modPort p f).life = s.life := rfl
@[simp] theorem State.modPort_power (s : State) (p : Nat) (f : Port → Port) : (s.modPort p f).power = s.power := rfl
@[simp] theorem State.modPort_inputs (s : State) (p : Nat) (f : Port → Port) : (s.modPort p f).inputs = s.inputs := rfl
@[simp] theorem State.modPort_free (s : State) (p : Nat) (f : Port → Port) : (s.modPort p f).free = s.free := rfl
@[simp] theorem State.modPort_oracle (s : State) (p : Nat) (f : Port → Port) : (s.modPort p f).oracle = s.oracle := rfl

/-! ### State.drawn -/

@[simp] theorem State.drawn_cycle (s : State) : (s.drawn).cycle = s.cycle := rfl
@[simp] theorem State.drawn_startNs (s : State) : (s.drawn).startNs = s.startNs := rfl
@[simp] theorem State.drawn_cur (s : State) : (s.drawn).cur = s.cur := rfl
@[simp] theorem State.drawn_cores (s : State) : (s.drawn).cores = s.cores := rfl
@[simp] theorem State.drawn_cells (s : State) : (s.drawn).cells = s.cells := rfl
@[simp] theorem State.drawn_dies (s : State) : (s.drawn).dies = s.dies := rfl
@[simp] theorem State.drawn_live (s : State) : (s.drawn).live = s.live := rfl
@[simp] theorem State.drawn_master (s : State) : (s.drawn).master = s.master := rfl
@[simp] theorem State.drawn_mem (s : State) : (s.drawn).mem = s.mem := rfl
@[simp] theorem State.drawn_bad (s : State) : (s.drawn).bad = s.bad := rfl
@[simp] theorem State.drawn_soft (s : State) : (s.drawn).soft = s.soft := rfl
@[simp] theorem State.drawn_past (s : State) : (s.drawn).past = s.past := rfl
@[simp] theorem State.drawn_writes (s : State) : (s.drawn).writes = s.writes := rfl
@[simp] theorem State.drawn_hist (s : State) : (s.drawn).hist = s.hist := rfl
@[simp] theorem State.drawn_nextWrite (s : State) : (s.drawn).nextWrite = s.nextWrite := rfl
@[simp] theorem State.drawn_regions (s : State) : (s.drawn).regions = s.regions := rfl
@[simp] theorem State.drawn_nextRegion (s : State) : (s.drawn).nextRegion = s.nextRegion := rfl
@[simp] theorem State.drawn_saves (s : State) : (s.drawn).saves = s.saves := rfl
@[simp] theorem State.drawn_fns (s : State) : (s.drawn).fns = s.fns := rfl
@[simp] theorem State.drawn_lastFn (s : State) : (s.drawn).lastFn = s.lastFn := rfl
@[simp] theorem State.drawn_net (s : State) : (s.drawn).net = s.net := rfl
@[simp] theorem State.drawn_seq (s : State) : (s.drawn).seq = s.seq := rfl
@[simp] theorem State.drawn_depOps (s : State) : (s.drawn).depOps = s.depOps := rfl
@[simp] theorem State.drawn_reports (s : State) : (s.drawn).reports = s.reports := rfl
@[simp] theorem State.drawn_retires (s : State) : (s.drawn).retires = s.retires := rfl
@[simp] theorem State.drawn_dicts (s : State) : (s.drawn).dicts = s.dicts := rfl
@[simp] theorem State.drawn_shared (s : State) : (s.drawn).shared = s.shared := rfl
@[simp] theorem State.drawn_nextShared (s : State) : (s.drawn).nextShared = s.nextShared := rfl
@[simp] theorem State.drawn_noticeNet (s : State) : (s.drawn).noticeNet = s.noticeNet := rfl
@[simp] theorem State.drawn_acks (s : State) : (s.drawn).acks = s.acks := rfl
@[simp] theorem State.drawn_repl (s : State) : (s.drawn).repl = s.repl := rfl
@[simp] theorem State.drawn_hotAt (s : State) : (s.drawn).hotAt = s.hotAt := rfl
@[simp] theorem State.drawn_barriers (s : State) : (s.drawn).barriers = s.barriers := rfl
@[simp] theorem State.drawn_tileNotices (s : State) : (s.drawn).tileNotices = s.tileNotices := rfl
@[simp] theorem State.drawn_nextDesc (s : State) : (s.drawn).nextDesc = s.nextDesc := rfl
@[simp] theorem State.drawn_device (s : State) : (s.drawn).device = s.device := rfl
@[simp] theorem State.drawn_peers (s : State) : (s.drawn).peers = s.peers := rfl
@[simp] theorem State.drawn_fenced (s : State) : (s.drawn).fenced = s.fenced := rfl
@[simp] theorem State.drawn_left (s : State) : (s.drawn).left = s.left := rfl
@[simp] theorem State.drawn_peerDead (s : State) : (s.drawn).peerDead = s.peerDead := rfl
@[simp] theorem State.drawn_conflict (s : State) : (s.drawn).conflict = s.conflict := rfl
@[simp] theorem State.drawn_ports (s : State) : (s.drawn).ports = s.ports := rfl
@[simp] theorem State.drawn_counters (s : State) : (s.drawn).counters = s.counters := rfl
@[simp] theorem State.drawn_life (s : State) : (s.drawn).life = s.life := rfl
@[simp] theorem State.drawn_power (s : State) : (s.drawn).power = s.power := rfl
@[simp] theorem State.drawn_inputs (s : State) : (s.drawn).inputs = s.inputs := rfl
@[simp] theorem State.drawn_oracle (s : State) : (s.drawn).oracle = s.oracle := rfl

/-! ### State.modRegion -/

@[simp] theorem State.modRegion_cycle (s : State) (r : Nat) (f : Region → Region) : (s.modRegion r f).cycle = s.cycle :=
  by unfold State.modRegion; split <;> rfl
@[simp] theorem State.modRegion_startNs (s : State) (r : Nat) (f : Region → Region) : (s.modRegion r f).startNs = s.startNs :=
  by unfold State.modRegion; split <;> rfl
@[simp] theorem State.modRegion_cur (s : State) (r : Nat) (f : Region → Region) : (s.modRegion r f).cur = s.cur :=
  by unfold State.modRegion; split <;> rfl
@[simp] theorem State.modRegion_cores (s : State) (r : Nat) (f : Region → Region) : (s.modRegion r f).cores = s.cores :=
  by unfold State.modRegion; split <;> rfl
@[simp] theorem State.modRegion_cells (s : State) (r : Nat) (f : Region → Region) : (s.modRegion r f).cells = s.cells :=
  by unfold State.modRegion; split <;> rfl
@[simp] theorem State.modRegion_dies (s : State) (r : Nat) (f : Region → Region) : (s.modRegion r f).dies = s.dies :=
  by unfold State.modRegion; split <;> rfl
@[simp] theorem State.modRegion_live (s : State) (r : Nat) (f : Region → Region) : (s.modRegion r f).live = s.live :=
  by unfold State.modRegion; split <;> rfl
@[simp] theorem State.modRegion_master (s : State) (r : Nat) (f : Region → Region) : (s.modRegion r f).master = s.master :=
  by unfold State.modRegion; split <;> rfl
@[simp] theorem State.modRegion_mem (s : State) (r : Nat) (f : Region → Region) : (s.modRegion r f).mem = s.mem :=
  by unfold State.modRegion; split <;> rfl
@[simp] theorem State.modRegion_bad (s : State) (r : Nat) (f : Region → Region) : (s.modRegion r f).bad = s.bad :=
  by unfold State.modRegion; split <;> rfl
@[simp] theorem State.modRegion_soft (s : State) (r : Nat) (f : Region → Region) : (s.modRegion r f).soft = s.soft :=
  by unfold State.modRegion; split <;> rfl
@[simp] theorem State.modRegion_past (s : State) (r : Nat) (f : Region → Region) : (s.modRegion r f).past = s.past :=
  by unfold State.modRegion; split <;> rfl
@[simp] theorem State.modRegion_writes (s : State) (r : Nat) (f : Region → Region) : (s.modRegion r f).writes = s.writes :=
  by unfold State.modRegion; split <;> rfl
@[simp] theorem State.modRegion_hist (s : State) (r : Nat) (f : Region → Region) : (s.modRegion r f).hist = s.hist :=
  by unfold State.modRegion; split <;> rfl
@[simp] theorem State.modRegion_nextWrite (s : State) (r : Nat) (f : Region → Region) : (s.modRegion r f).nextWrite = s.nextWrite :=
  by unfold State.modRegion; split <;> rfl
@[simp] theorem State.modRegion_nextRegion (s : State) (r : Nat) (f : Region → Region) : (s.modRegion r f).nextRegion = s.nextRegion :=
  by unfold State.modRegion; split <;> rfl
@[simp] theorem State.modRegion_saves (s : State) (r : Nat) (f : Region → Region) : (s.modRegion r f).saves = s.saves :=
  by unfold State.modRegion; split <;> rfl
@[simp] theorem State.modRegion_fns (s : State) (r : Nat) (f : Region → Region) : (s.modRegion r f).fns = s.fns :=
  by unfold State.modRegion; split <;> rfl
@[simp] theorem State.modRegion_lastFn (s : State) (r : Nat) (f : Region → Region) : (s.modRegion r f).lastFn = s.lastFn :=
  by unfold State.modRegion; split <;> rfl
@[simp] theorem State.modRegion_net (s : State) (r : Nat) (f : Region → Region) : (s.modRegion r f).net = s.net :=
  by unfold State.modRegion; split <;> rfl
@[simp] theorem State.modRegion_seq (s : State) (r : Nat) (f : Region → Region) : (s.modRegion r f).seq = s.seq :=
  by unfold State.modRegion; split <;> rfl
@[simp] theorem State.modRegion_depOps (s : State) (r : Nat) (f : Region → Region) : (s.modRegion r f).depOps = s.depOps :=
  by unfold State.modRegion; split <;> rfl
@[simp] theorem State.modRegion_reports (s : State) (r : Nat) (f : Region → Region) : (s.modRegion r f).reports = s.reports :=
  by unfold State.modRegion; split <;> rfl
@[simp] theorem State.modRegion_retires (s : State) (r : Nat) (f : Region → Region) : (s.modRegion r f).retires = s.retires :=
  by unfold State.modRegion; split <;> rfl
@[simp] theorem State.modRegion_dicts (s : State) (r : Nat) (f : Region → Region) : (s.modRegion r f).dicts = s.dicts :=
  by unfold State.modRegion; split <;> rfl
@[simp] theorem State.modRegion_shared (s : State) (r : Nat) (f : Region → Region) : (s.modRegion r f).shared = s.shared :=
  by unfold State.modRegion; split <;> rfl
@[simp] theorem State.modRegion_nextShared (s : State) (r : Nat) (f : Region → Region) : (s.modRegion r f).nextShared = s.nextShared :=
  by unfold State.modRegion; split <;> rfl
@[simp] theorem State.modRegion_noticeNet (s : State) (r : Nat) (f : Region → Region) : (s.modRegion r f).noticeNet = s.noticeNet :=
  by unfold State.modRegion; split <;> rfl
@[simp] theorem State.modRegion_acks (s : State) (r : Nat) (f : Region → Region) : (s.modRegion r f).acks = s.acks :=
  by unfold State.modRegion; split <;> rfl
@[simp] theorem State.modRegion_repl (s : State) (r : Nat) (f : Region → Region) : (s.modRegion r f).repl = s.repl :=
  by unfold State.modRegion; split <;> rfl
@[simp] theorem State.modRegion_hotAt (s : State) (r : Nat) (f : Region → Region) : (s.modRegion r f).hotAt = s.hotAt :=
  by unfold State.modRegion; split <;> rfl
@[simp] theorem State.modRegion_barriers (s : State) (r : Nat) (f : Region → Region) : (s.modRegion r f).barriers = s.barriers :=
  by unfold State.modRegion; split <;> rfl
@[simp] theorem State.modRegion_tileNotices (s : State) (r : Nat) (f : Region → Region) : (s.modRegion r f).tileNotices = s.tileNotices :=
  by unfold State.modRegion; split <;> rfl
@[simp] theorem State.modRegion_nextDesc (s : State) (r : Nat) (f : Region → Region) : (s.modRegion r f).nextDesc = s.nextDesc :=
  by unfold State.modRegion; split <;> rfl
@[simp] theorem State.modRegion_device (s : State) (r : Nat) (f : Region → Region) : (s.modRegion r f).device = s.device :=
  by unfold State.modRegion; split <;> rfl
@[simp] theorem State.modRegion_peers (s : State) (r : Nat) (f : Region → Region) : (s.modRegion r f).peers = s.peers :=
  by unfold State.modRegion; split <;> rfl
@[simp] theorem State.modRegion_fenced (s : State) (r : Nat) (f : Region → Region) : (s.modRegion r f).fenced = s.fenced :=
  by unfold State.modRegion; split <;> rfl
@[simp] theorem State.modRegion_left (s : State) (r : Nat) (f : Region → Region) : (s.modRegion r f).left = s.left :=
  by unfold State.modRegion; split <;> rfl
@[simp] theorem State.modRegion_peerDead (s : State) (r : Nat) (f : Region → Region) : (s.modRegion r f).peerDead = s.peerDead :=
  by unfold State.modRegion; split <;> rfl
@[simp] theorem State.modRegion_conflict (s : State) (r : Nat) (f : Region → Region) : (s.modRegion r f).conflict = s.conflict :=
  by unfold State.modRegion; split <;> rfl
@[simp] theorem State.modRegion_ports (s : State) (r : Nat) (f : Region → Region) : (s.modRegion r f).ports = s.ports :=
  by unfold State.modRegion; split <;> rfl
@[simp] theorem State.modRegion_counters (s : State) (r : Nat) (f : Region → Region) : (s.modRegion r f).counters = s.counters :=
  by unfold State.modRegion; split <;> rfl
@[simp] theorem State.modRegion_life (s : State) (r : Nat) (f : Region → Region) : (s.modRegion r f).life = s.life :=
  by unfold State.modRegion; split <;> rfl
@[simp] theorem State.modRegion_power (s : State) (r : Nat) (f : Region → Region) : (s.modRegion r f).power = s.power :=
  by unfold State.modRegion; split <;> rfl
@[simp] theorem State.modRegion_inputs (s : State) (r : Nat) (f : Region → Region) : (s.modRegion r f).inputs = s.inputs :=
  by unfold State.modRegion; split <;> rfl
@[simp] theorem State.modRegion_free (s : State) (r : Nat) (f : Region → Region) : (s.modRegion r f).free = s.free :=
  by unfold State.modRegion; split <;> rfl
@[simp] theorem State.modRegion_oracle (s : State) (r : Nat) (f : Region → Region) : (s.modRegion r f).oracle = s.oracle :=
  by unfold State.modRegion; split <;> rfl

/-! ### State.modDict -/

@[simp] theorem State.modDict_cycle (s : State) (d : Nat) (f : Dict → Dict) : (s.modDict d f).cycle = s.cycle :=
  by unfold State.modDict; split <;> rfl
@[simp] theorem State.modDict_startNs (s : State) (d : Nat) (f : Dict → Dict) : (s.modDict d f).startNs = s.startNs :=
  by unfold State.modDict; split <;> rfl
@[simp] theorem State.modDict_cur (s : State) (d : Nat) (f : Dict → Dict) : (s.modDict d f).cur = s.cur :=
  by unfold State.modDict; split <;> rfl
@[simp] theorem State.modDict_cores (s : State) (d : Nat) (f : Dict → Dict) : (s.modDict d f).cores = s.cores :=
  by unfold State.modDict; split <;> rfl
@[simp] theorem State.modDict_cells (s : State) (d : Nat) (f : Dict → Dict) : (s.modDict d f).cells = s.cells :=
  by unfold State.modDict; split <;> rfl
@[simp] theorem State.modDict_dies (s : State) (d : Nat) (f : Dict → Dict) : (s.modDict d f).dies = s.dies :=
  by unfold State.modDict; split <;> rfl
@[simp] theorem State.modDict_live (s : State) (d : Nat) (f : Dict → Dict) : (s.modDict d f).live = s.live :=
  by unfold State.modDict; split <;> rfl
@[simp] theorem State.modDict_master (s : State) (d : Nat) (f : Dict → Dict) : (s.modDict d f).master = s.master :=
  by unfold State.modDict; split <;> rfl
@[simp] theorem State.modDict_mem (s : State) (d : Nat) (f : Dict → Dict) : (s.modDict d f).mem = s.mem :=
  by unfold State.modDict; split <;> rfl
@[simp] theorem State.modDict_bad (s : State) (d : Nat) (f : Dict → Dict) : (s.modDict d f).bad = s.bad :=
  by unfold State.modDict; split <;> rfl
@[simp] theorem State.modDict_soft (s : State) (d : Nat) (f : Dict → Dict) : (s.modDict d f).soft = s.soft :=
  by unfold State.modDict; split <;> rfl
@[simp] theorem State.modDict_past (s : State) (d : Nat) (f : Dict → Dict) : (s.modDict d f).past = s.past :=
  by unfold State.modDict; split <;> rfl
@[simp] theorem State.modDict_writes (s : State) (d : Nat) (f : Dict → Dict) : (s.modDict d f).writes = s.writes :=
  by unfold State.modDict; split <;> rfl
@[simp] theorem State.modDict_hist (s : State) (d : Nat) (f : Dict → Dict) : (s.modDict d f).hist = s.hist :=
  by unfold State.modDict; split <;> rfl
@[simp] theorem State.modDict_nextWrite (s : State) (d : Nat) (f : Dict → Dict) : (s.modDict d f).nextWrite = s.nextWrite :=
  by unfold State.modDict; split <;> rfl
@[simp] theorem State.modDict_regions (s : State) (d : Nat) (f : Dict → Dict) : (s.modDict d f).regions = s.regions :=
  by unfold State.modDict; split <;> rfl
@[simp] theorem State.modDict_nextRegion (s : State) (d : Nat) (f : Dict → Dict) : (s.modDict d f).nextRegion = s.nextRegion :=
  by unfold State.modDict; split <;> rfl
@[simp] theorem State.modDict_saves (s : State) (d : Nat) (f : Dict → Dict) : (s.modDict d f).saves = s.saves :=
  by unfold State.modDict; split <;> rfl
@[simp] theorem State.modDict_fns (s : State) (d : Nat) (f : Dict → Dict) : (s.modDict d f).fns = s.fns :=
  by unfold State.modDict; split <;> rfl
@[simp] theorem State.modDict_lastFn (s : State) (d : Nat) (f : Dict → Dict) : (s.modDict d f).lastFn = s.lastFn :=
  by unfold State.modDict; split <;> rfl
@[simp] theorem State.modDict_net (s : State) (d : Nat) (f : Dict → Dict) : (s.modDict d f).net = s.net :=
  by unfold State.modDict; split <;> rfl
@[simp] theorem State.modDict_seq (s : State) (d : Nat) (f : Dict → Dict) : (s.modDict d f).seq = s.seq :=
  by unfold State.modDict; split <;> rfl
@[simp] theorem State.modDict_depOps (s : State) (d : Nat) (f : Dict → Dict) : (s.modDict d f).depOps = s.depOps :=
  by unfold State.modDict; split <;> rfl
@[simp] theorem State.modDict_reports (s : State) (d : Nat) (f : Dict → Dict) : (s.modDict d f).reports = s.reports :=
  by unfold State.modDict; split <;> rfl
@[simp] theorem State.modDict_retires (s : State) (d : Nat) (f : Dict → Dict) : (s.modDict d f).retires = s.retires :=
  by unfold State.modDict; split <;> rfl
@[simp] theorem State.modDict_shared (s : State) (d : Nat) (f : Dict → Dict) : (s.modDict d f).shared = s.shared :=
  by unfold State.modDict; split <;> rfl
@[simp] theorem State.modDict_nextShared (s : State) (d : Nat) (f : Dict → Dict) : (s.modDict d f).nextShared = s.nextShared :=
  by unfold State.modDict; split <;> rfl
@[simp] theorem State.modDict_noticeNet (s : State) (d : Nat) (f : Dict → Dict) : (s.modDict d f).noticeNet = s.noticeNet :=
  by unfold State.modDict; split <;> rfl
@[simp] theorem State.modDict_acks (s : State) (d : Nat) (f : Dict → Dict) : (s.modDict d f).acks = s.acks :=
  by unfold State.modDict; split <;> rfl
@[simp] theorem State.modDict_repl (s : State) (d : Nat) (f : Dict → Dict) : (s.modDict d f).repl = s.repl :=
  by unfold State.modDict; split <;> rfl
@[simp] theorem State.modDict_hotAt (s : State) (d : Nat) (f : Dict → Dict) : (s.modDict d f).hotAt = s.hotAt :=
  by unfold State.modDict; split <;> rfl
@[simp] theorem State.modDict_barriers (s : State) (d : Nat) (f : Dict → Dict) : (s.modDict d f).barriers = s.barriers :=
  by unfold State.modDict; split <;> rfl
@[simp] theorem State.modDict_tileNotices (s : State) (d : Nat) (f : Dict → Dict) : (s.modDict d f).tileNotices = s.tileNotices :=
  by unfold State.modDict; split <;> rfl
@[simp] theorem State.modDict_nextDesc (s : State) (d : Nat) (f : Dict → Dict) : (s.modDict d f).nextDesc = s.nextDesc :=
  by unfold State.modDict; split <;> rfl
@[simp] theorem State.modDict_device (s : State) (d : Nat) (f : Dict → Dict) : (s.modDict d f).device = s.device :=
  by unfold State.modDict; split <;> rfl
@[simp] theorem State.modDict_peers (s : State) (d : Nat) (f : Dict → Dict) : (s.modDict d f).peers = s.peers :=
  by unfold State.modDict; split <;> rfl
@[simp] theorem State.modDict_fenced (s : State) (d : Nat) (f : Dict → Dict) : (s.modDict d f).fenced = s.fenced :=
  by unfold State.modDict; split <;> rfl
@[simp] theorem State.modDict_left (s : State) (d : Nat) (f : Dict → Dict) : (s.modDict d f).left = s.left :=
  by unfold State.modDict; split <;> rfl
@[simp] theorem State.modDict_peerDead (s : State) (d : Nat) (f : Dict → Dict) : (s.modDict d f).peerDead = s.peerDead :=
  by unfold State.modDict; split <;> rfl
@[simp] theorem State.modDict_conflict (s : State) (d : Nat) (f : Dict → Dict) : (s.modDict d f).conflict = s.conflict :=
  by unfold State.modDict; split <;> rfl
@[simp] theorem State.modDict_ports (s : State) (d : Nat) (f : Dict → Dict) : (s.modDict d f).ports = s.ports :=
  by unfold State.modDict; split <;> rfl
@[simp] theorem State.modDict_counters (s : State) (d : Nat) (f : Dict → Dict) : (s.modDict d f).counters = s.counters :=
  by unfold State.modDict; split <;> rfl
@[simp] theorem State.modDict_life (s : State) (d : Nat) (f : Dict → Dict) : (s.modDict d f).life = s.life :=
  by unfold State.modDict; split <;> rfl
@[simp] theorem State.modDict_power (s : State) (d : Nat) (f : Dict → Dict) : (s.modDict d f).power = s.power :=
  by unfold State.modDict; split <;> rfl
@[simp] theorem State.modDict_inputs (s : State) (d : Nat) (f : Dict → Dict) : (s.modDict d f).inputs = s.inputs :=
  by unfold State.modDict; split <;> rfl
@[simp] theorem State.modDict_free (s : State) (d : Nat) (f : Dict → Dict) : (s.modDict d f).free = s.free :=
  by unfold State.modDict; split <;> rfl
@[simp] theorem State.modDict_oracle (s : State) (d : Nat) (f : Dict → Dict) : (s.modDict d f).oracle = s.oracle :=
  by unfold State.modDict; split <;> rfl

/-! ### State.modBarrier -/

@[simp] theorem State.modBarrier_cycle (s : State) (b : Nat) (f : Barrier → Barrier) : (s.modBarrier b f).cycle = s.cycle :=
  by unfold State.modBarrier; split <;> rfl
@[simp] theorem State.modBarrier_startNs (s : State) (b : Nat) (f : Barrier → Barrier) : (s.modBarrier b f).startNs = s.startNs :=
  by unfold State.modBarrier; split <;> rfl
@[simp] theorem State.modBarrier_cur (s : State) (b : Nat) (f : Barrier → Barrier) : (s.modBarrier b f).cur = s.cur :=
  by unfold State.modBarrier; split <;> rfl
@[simp] theorem State.modBarrier_cores (s : State) (b : Nat) (f : Barrier → Barrier) : (s.modBarrier b f).cores = s.cores :=
  by unfold State.modBarrier; split <;> rfl
@[simp] theorem State.modBarrier_cells (s : State) (b : Nat) (f : Barrier → Barrier) : (s.modBarrier b f).cells = s.cells :=
  by unfold State.modBarrier; split <;> rfl
@[simp] theorem State.modBarrier_dies (s : State) (b : Nat) (f : Barrier → Barrier) : (s.modBarrier b f).dies = s.dies :=
  by unfold State.modBarrier; split <;> rfl
@[simp] theorem State.modBarrier_live (s : State) (b : Nat) (f : Barrier → Barrier) : (s.modBarrier b f).live = s.live :=
  by unfold State.modBarrier; split <;> rfl
@[simp] theorem State.modBarrier_master (s : State) (b : Nat) (f : Barrier → Barrier) : (s.modBarrier b f).master = s.master :=
  by unfold State.modBarrier; split <;> rfl
@[simp] theorem State.modBarrier_mem (s : State) (b : Nat) (f : Barrier → Barrier) : (s.modBarrier b f).mem = s.mem :=
  by unfold State.modBarrier; split <;> rfl
@[simp] theorem State.modBarrier_bad (s : State) (b : Nat) (f : Barrier → Barrier) : (s.modBarrier b f).bad = s.bad :=
  by unfold State.modBarrier; split <;> rfl
@[simp] theorem State.modBarrier_soft (s : State) (b : Nat) (f : Barrier → Barrier) : (s.modBarrier b f).soft = s.soft :=
  by unfold State.modBarrier; split <;> rfl
@[simp] theorem State.modBarrier_past (s : State) (b : Nat) (f : Barrier → Barrier) : (s.modBarrier b f).past = s.past :=
  by unfold State.modBarrier; split <;> rfl
@[simp] theorem State.modBarrier_writes (s : State) (b : Nat) (f : Barrier → Barrier) : (s.modBarrier b f).writes = s.writes :=
  by unfold State.modBarrier; split <;> rfl
@[simp] theorem State.modBarrier_hist (s : State) (b : Nat) (f : Barrier → Barrier) : (s.modBarrier b f).hist = s.hist :=
  by unfold State.modBarrier; split <;> rfl
@[simp] theorem State.modBarrier_nextWrite (s : State) (b : Nat) (f : Barrier → Barrier) : (s.modBarrier b f).nextWrite = s.nextWrite :=
  by unfold State.modBarrier; split <;> rfl
@[simp] theorem State.modBarrier_regions (s : State) (b : Nat) (f : Barrier → Barrier) : (s.modBarrier b f).regions = s.regions :=
  by unfold State.modBarrier; split <;> rfl
@[simp] theorem State.modBarrier_nextRegion (s : State) (b : Nat) (f : Barrier → Barrier) : (s.modBarrier b f).nextRegion = s.nextRegion :=
  by unfold State.modBarrier; split <;> rfl
@[simp] theorem State.modBarrier_saves (s : State) (b : Nat) (f : Barrier → Barrier) : (s.modBarrier b f).saves = s.saves :=
  by unfold State.modBarrier; split <;> rfl
@[simp] theorem State.modBarrier_fns (s : State) (b : Nat) (f : Barrier → Barrier) : (s.modBarrier b f).fns = s.fns :=
  by unfold State.modBarrier; split <;> rfl
@[simp] theorem State.modBarrier_lastFn (s : State) (b : Nat) (f : Barrier → Barrier) : (s.modBarrier b f).lastFn = s.lastFn :=
  by unfold State.modBarrier; split <;> rfl
@[simp] theorem State.modBarrier_net (s : State) (b : Nat) (f : Barrier → Barrier) : (s.modBarrier b f).net = s.net :=
  by unfold State.modBarrier; split <;> rfl
@[simp] theorem State.modBarrier_seq (s : State) (b : Nat) (f : Barrier → Barrier) : (s.modBarrier b f).seq = s.seq :=
  by unfold State.modBarrier; split <;> rfl
@[simp] theorem State.modBarrier_depOps (s : State) (b : Nat) (f : Barrier → Barrier) : (s.modBarrier b f).depOps = s.depOps :=
  by unfold State.modBarrier; split <;> rfl
@[simp] theorem State.modBarrier_reports (s : State) (b : Nat) (f : Barrier → Barrier) : (s.modBarrier b f).reports = s.reports :=
  by unfold State.modBarrier; split <;> rfl
@[simp] theorem State.modBarrier_retires (s : State) (b : Nat) (f : Barrier → Barrier) : (s.modBarrier b f).retires = s.retires :=
  by unfold State.modBarrier; split <;> rfl
@[simp] theorem State.modBarrier_dicts (s : State) (b : Nat) (f : Barrier → Barrier) : (s.modBarrier b f).dicts = s.dicts :=
  by unfold State.modBarrier; split <;> rfl
@[simp] theorem State.modBarrier_shared (s : State) (b : Nat) (f : Barrier → Barrier) : (s.modBarrier b f).shared = s.shared :=
  by unfold State.modBarrier; split <;> rfl
@[simp] theorem State.modBarrier_nextShared (s : State) (b : Nat) (f : Barrier → Barrier) : (s.modBarrier b f).nextShared = s.nextShared :=
  by unfold State.modBarrier; split <;> rfl
@[simp] theorem State.modBarrier_noticeNet (s : State) (b : Nat) (f : Barrier → Barrier) : (s.modBarrier b f).noticeNet = s.noticeNet :=
  by unfold State.modBarrier; split <;> rfl
@[simp] theorem State.modBarrier_acks (s : State) (b : Nat) (f : Barrier → Barrier) : (s.modBarrier b f).acks = s.acks :=
  by unfold State.modBarrier; split <;> rfl
@[simp] theorem State.modBarrier_repl (s : State) (b : Nat) (f : Barrier → Barrier) : (s.modBarrier b f).repl = s.repl :=
  by unfold State.modBarrier; split <;> rfl
@[simp] theorem State.modBarrier_hotAt (s : State) (b : Nat) (f : Barrier → Barrier) : (s.modBarrier b f).hotAt = s.hotAt :=
  by unfold State.modBarrier; split <;> rfl
@[simp] theorem State.modBarrier_tileNotices (s : State) (b : Nat) (f : Barrier → Barrier) : (s.modBarrier b f).tileNotices = s.tileNotices :=
  by unfold State.modBarrier; split <;> rfl
@[simp] theorem State.modBarrier_nextDesc (s : State) (b : Nat) (f : Barrier → Barrier) : (s.modBarrier b f).nextDesc = s.nextDesc :=
  by unfold State.modBarrier; split <;> rfl
@[simp] theorem State.modBarrier_device (s : State) (b : Nat) (f : Barrier → Barrier) : (s.modBarrier b f).device = s.device :=
  by unfold State.modBarrier; split <;> rfl
@[simp] theorem State.modBarrier_peers (s : State) (b : Nat) (f : Barrier → Barrier) : (s.modBarrier b f).peers = s.peers :=
  by unfold State.modBarrier; split <;> rfl
@[simp] theorem State.modBarrier_fenced (s : State) (b : Nat) (f : Barrier → Barrier) : (s.modBarrier b f).fenced = s.fenced :=
  by unfold State.modBarrier; split <;> rfl
@[simp] theorem State.modBarrier_left (s : State) (b : Nat) (f : Barrier → Barrier) : (s.modBarrier b f).left = s.left :=
  by unfold State.modBarrier; split <;> rfl
@[simp] theorem State.modBarrier_peerDead (s : State) (b : Nat) (f : Barrier → Barrier) : (s.modBarrier b f).peerDead = s.peerDead :=
  by unfold State.modBarrier; split <;> rfl
@[simp] theorem State.modBarrier_conflict (s : State) (b : Nat) (f : Barrier → Barrier) : (s.modBarrier b f).conflict = s.conflict :=
  by unfold State.modBarrier; split <;> rfl
@[simp] theorem State.modBarrier_ports (s : State) (b : Nat) (f : Barrier → Barrier) : (s.modBarrier b f).ports = s.ports :=
  by unfold State.modBarrier; split <;> rfl
@[simp] theorem State.modBarrier_counters (s : State) (b : Nat) (f : Barrier → Barrier) : (s.modBarrier b f).counters = s.counters :=
  by unfold State.modBarrier; split <;> rfl
@[simp] theorem State.modBarrier_life (s : State) (b : Nat) (f : Barrier → Barrier) : (s.modBarrier b f).life = s.life :=
  by unfold State.modBarrier; split <;> rfl
@[simp] theorem State.modBarrier_power (s : State) (b : Nat) (f : Barrier → Barrier) : (s.modBarrier b f).power = s.power :=
  by unfold State.modBarrier; split <;> rfl
@[simp] theorem State.modBarrier_inputs (s : State) (b : Nat) (f : Barrier → Barrier) : (s.modBarrier b f).inputs = s.inputs :=
  by unfold State.modBarrier; split <;> rfl
@[simp] theorem State.modBarrier_free (s : State) (b : Nat) (f : Barrier → Barrier) : (s.modBarrier b f).free = s.free :=
  by unfold State.modBarrier; split <;> rfl
@[simp] theorem State.modBarrier_oracle (s : State) (b : Nat) (f : Barrier → Barrier) : (s.modBarrier b f).oracle = s.oracle :=
  by unfold State.modBarrier; split <;> rfl

/-! ### State.modDie -/

@[simp] theorem State.modDie_cycle (s : State) (d : Nat) (f : Die → Die) : (s.modDie d f).cycle = s.cycle :=
  by unfold State.modDie; split <;> rfl
@[simp] theorem State.modDie_startNs (s : State) (d : Nat) (f : Die → Die) : (s.modDie d f).startNs = s.startNs :=
  by unfold State.modDie; split <;> rfl
@[simp] theorem State.modDie_cur (s : State) (d : Nat) (f : Die → Die) : (s.modDie d f).cur = s.cur :=
  by unfold State.modDie; split <;> rfl
@[simp] theorem State.modDie_cores (s : State) (d : Nat) (f : Die → Die) : (s.modDie d f).cores = s.cores :=
  by unfold State.modDie; split <;> rfl
@[simp] theorem State.modDie_cells (s : State) (d : Nat) (f : Die → Die) : (s.modDie d f).cells = s.cells :=
  by unfold State.modDie; split <;> rfl
@[simp] theorem State.modDie_live (s : State) (d : Nat) (f : Die → Die) : (s.modDie d f).live = s.live :=
  by unfold State.modDie; split <;> rfl
@[simp] theorem State.modDie_master (s : State) (d : Nat) (f : Die → Die) : (s.modDie d f).master = s.master :=
  by unfold State.modDie; split <;> rfl
@[simp] theorem State.modDie_mem (s : State) (d : Nat) (f : Die → Die) : (s.modDie d f).mem = s.mem :=
  by unfold State.modDie; split <;> rfl
@[simp] theorem State.modDie_bad (s : State) (d : Nat) (f : Die → Die) : (s.modDie d f).bad = s.bad :=
  by unfold State.modDie; split <;> rfl
@[simp] theorem State.modDie_soft (s : State) (d : Nat) (f : Die → Die) : (s.modDie d f).soft = s.soft :=
  by unfold State.modDie; split <;> rfl
@[simp] theorem State.modDie_past (s : State) (d : Nat) (f : Die → Die) : (s.modDie d f).past = s.past :=
  by unfold State.modDie; split <;> rfl
@[simp] theorem State.modDie_writes (s : State) (d : Nat) (f : Die → Die) : (s.modDie d f).writes = s.writes :=
  by unfold State.modDie; split <;> rfl
@[simp] theorem State.modDie_hist (s : State) (d : Nat) (f : Die → Die) : (s.modDie d f).hist = s.hist :=
  by unfold State.modDie; split <;> rfl
@[simp] theorem State.modDie_nextWrite (s : State) (d : Nat) (f : Die → Die) : (s.modDie d f).nextWrite = s.nextWrite :=
  by unfold State.modDie; split <;> rfl
@[simp] theorem State.modDie_regions (s : State) (d : Nat) (f : Die → Die) : (s.modDie d f).regions = s.regions :=
  by unfold State.modDie; split <;> rfl
@[simp] theorem State.modDie_nextRegion (s : State) (d : Nat) (f : Die → Die) : (s.modDie d f).nextRegion = s.nextRegion :=
  by unfold State.modDie; split <;> rfl
@[simp] theorem State.modDie_saves (s : State) (d : Nat) (f : Die → Die) : (s.modDie d f).saves = s.saves :=
  by unfold State.modDie; split <;> rfl
@[simp] theorem State.modDie_fns (s : State) (d : Nat) (f : Die → Die) : (s.modDie d f).fns = s.fns :=
  by unfold State.modDie; split <;> rfl
@[simp] theorem State.modDie_lastFn (s : State) (d : Nat) (f : Die → Die) : (s.modDie d f).lastFn = s.lastFn :=
  by unfold State.modDie; split <;> rfl
@[simp] theorem State.modDie_net (s : State) (d : Nat) (f : Die → Die) : (s.modDie d f).net = s.net :=
  by unfold State.modDie; split <;> rfl
@[simp] theorem State.modDie_seq (s : State) (d : Nat) (f : Die → Die) : (s.modDie d f).seq = s.seq :=
  by unfold State.modDie; split <;> rfl
@[simp] theorem State.modDie_depOps (s : State) (d : Nat) (f : Die → Die) : (s.modDie d f).depOps = s.depOps :=
  by unfold State.modDie; split <;> rfl
@[simp] theorem State.modDie_reports (s : State) (d : Nat) (f : Die → Die) : (s.modDie d f).reports = s.reports :=
  by unfold State.modDie; split <;> rfl
@[simp] theorem State.modDie_retires (s : State) (d : Nat) (f : Die → Die) : (s.modDie d f).retires = s.retires :=
  by unfold State.modDie; split <;> rfl
@[simp] theorem State.modDie_dicts (s : State) (d : Nat) (f : Die → Die) : (s.modDie d f).dicts = s.dicts :=
  by unfold State.modDie; split <;> rfl
@[simp] theorem State.modDie_shared (s : State) (d : Nat) (f : Die → Die) : (s.modDie d f).shared = s.shared :=
  by unfold State.modDie; split <;> rfl
@[simp] theorem State.modDie_nextShared (s : State) (d : Nat) (f : Die → Die) : (s.modDie d f).nextShared = s.nextShared :=
  by unfold State.modDie; split <;> rfl
@[simp] theorem State.modDie_noticeNet (s : State) (d : Nat) (f : Die → Die) : (s.modDie d f).noticeNet = s.noticeNet :=
  by unfold State.modDie; split <;> rfl
@[simp] theorem State.modDie_acks (s : State) (d : Nat) (f : Die → Die) : (s.modDie d f).acks = s.acks :=
  by unfold State.modDie; split <;> rfl
@[simp] theorem State.modDie_repl (s : State) (d : Nat) (f : Die → Die) : (s.modDie d f).repl = s.repl :=
  by unfold State.modDie; split <;> rfl
@[simp] theorem State.modDie_hotAt (s : State) (d : Nat) (f : Die → Die) : (s.modDie d f).hotAt = s.hotAt :=
  by unfold State.modDie; split <;> rfl
@[simp] theorem State.modDie_barriers (s : State) (d : Nat) (f : Die → Die) : (s.modDie d f).barriers = s.barriers :=
  by unfold State.modDie; split <;> rfl
@[simp] theorem State.modDie_tileNotices (s : State) (d : Nat) (f : Die → Die) : (s.modDie d f).tileNotices = s.tileNotices :=
  by unfold State.modDie; split <;> rfl
@[simp] theorem State.modDie_nextDesc (s : State) (d : Nat) (f : Die → Die) : (s.modDie d f).nextDesc = s.nextDesc :=
  by unfold State.modDie; split <;> rfl
@[simp] theorem State.modDie_device (s : State) (d : Nat) (f : Die → Die) : (s.modDie d f).device = s.device :=
  by unfold State.modDie; split <;> rfl
@[simp] theorem State.modDie_peers (s : State) (d : Nat) (f : Die → Die) : (s.modDie d f).peers = s.peers :=
  by unfold State.modDie; split <;> rfl
@[simp] theorem State.modDie_fenced (s : State) (d : Nat) (f : Die → Die) : (s.modDie d f).fenced = s.fenced :=
  by unfold State.modDie; split <;> rfl
@[simp] theorem State.modDie_left (s : State) (d : Nat) (f : Die → Die) : (s.modDie d f).left = s.left :=
  by unfold State.modDie; split <;> rfl
@[simp] theorem State.modDie_peerDead (s : State) (d : Nat) (f : Die → Die) : (s.modDie d f).peerDead = s.peerDead :=
  by unfold State.modDie; split <;> rfl
@[simp] theorem State.modDie_conflict (s : State) (d : Nat) (f : Die → Die) : (s.modDie d f).conflict = s.conflict :=
  by unfold State.modDie; split <;> rfl
@[simp] theorem State.modDie_ports (s : State) (d : Nat) (f : Die → Die) : (s.modDie d f).ports = s.ports :=
  by unfold State.modDie; split <;> rfl
@[simp] theorem State.modDie_counters (s : State) (d : Nat) (f : Die → Die) : (s.modDie d f).counters = s.counters :=
  by unfold State.modDie; split <;> rfl
@[simp] theorem State.modDie_life (s : State) (d : Nat) (f : Die → Die) : (s.modDie d f).life = s.life :=
  by unfold State.modDie; split <;> rfl
@[simp] theorem State.modDie_power (s : State) (d : Nat) (f : Die → Die) : (s.modDie d f).power = s.power :=
  by unfold State.modDie; split <;> rfl
@[simp] theorem State.modDie_inputs (s : State) (d : Nat) (f : Die → Die) : (s.modDie d f).inputs = s.inputs :=
  by unfold State.modDie; split <;> rfl
@[simp] theorem State.modDie_free (s : State) (d : Nat) (f : Die → Die) : (s.modDie d f).free = s.free :=
  by unfold State.modDie; split <;> rfl
@[simp] theorem State.modDie_oracle (s : State) (d : Nat) (f : Die → Die) : (s.modDie d f).oracle = s.oracle :=
  by unfold State.modDie; split <;> rfl

/-! ### State.bump -/

@[simp] theorem State.bump_cycle (s : State) (k u i n : Nat) : (s.bump k u i n).cycle = s.cycle :=
  by unfold State.bump; split <;> rfl
@[simp] theorem State.bump_startNs (s : State) (k u i n : Nat) : (s.bump k u i n).startNs = s.startNs :=
  by unfold State.bump; split <;> rfl
@[simp] theorem State.bump_cur (s : State) (k u i n : Nat) : (s.bump k u i n).cur = s.cur :=
  by unfold State.bump; split <;> rfl
@[simp] theorem State.bump_cores (s : State) (k u i n : Nat) : (s.bump k u i n).cores = s.cores :=
  by unfold State.bump; split <;> rfl
@[simp] theorem State.bump_cells (s : State) (k u i n : Nat) : (s.bump k u i n).cells = s.cells :=
  by unfold State.bump; split <;> rfl
@[simp] theorem State.bump_dies (s : State) (k u i n : Nat) : (s.bump k u i n).dies = s.dies :=
  by unfold State.bump; split <;> rfl
@[simp] theorem State.bump_live (s : State) (k u i n : Nat) : (s.bump k u i n).live = s.live :=
  by unfold State.bump; split <;> rfl
@[simp] theorem State.bump_master (s : State) (k u i n : Nat) : (s.bump k u i n).master = s.master :=
  by unfold State.bump; split <;> rfl
@[simp] theorem State.bump_mem (s : State) (k u i n : Nat) : (s.bump k u i n).mem = s.mem :=
  by unfold State.bump; split <;> rfl
@[simp] theorem State.bump_bad (s : State) (k u i n : Nat) : (s.bump k u i n).bad = s.bad :=
  by unfold State.bump; split <;> rfl
@[simp] theorem State.bump_soft (s : State) (k u i n : Nat) : (s.bump k u i n).soft = s.soft :=
  by unfold State.bump; split <;> rfl
@[simp] theorem State.bump_past (s : State) (k u i n : Nat) : (s.bump k u i n).past = s.past :=
  by unfold State.bump; split <;> rfl
@[simp] theorem State.bump_writes (s : State) (k u i n : Nat) : (s.bump k u i n).writes = s.writes :=
  by unfold State.bump; split <;> rfl
@[simp] theorem State.bump_hist (s : State) (k u i n : Nat) : (s.bump k u i n).hist = s.hist :=
  by unfold State.bump; split <;> rfl
@[simp] theorem State.bump_nextWrite (s : State) (k u i n : Nat) : (s.bump k u i n).nextWrite = s.nextWrite :=
  by unfold State.bump; split <;> rfl
@[simp] theorem State.bump_regions (s : State) (k u i n : Nat) : (s.bump k u i n).regions = s.regions :=
  by unfold State.bump; split <;> rfl
@[simp] theorem State.bump_nextRegion (s : State) (k u i n : Nat) : (s.bump k u i n).nextRegion = s.nextRegion :=
  by unfold State.bump; split <;> rfl
@[simp] theorem State.bump_saves (s : State) (k u i n : Nat) : (s.bump k u i n).saves = s.saves :=
  by unfold State.bump; split <;> rfl
@[simp] theorem State.bump_fns (s : State) (k u i n : Nat) : (s.bump k u i n).fns = s.fns :=
  by unfold State.bump; split <;> rfl
@[simp] theorem State.bump_lastFn (s : State) (k u i n : Nat) : (s.bump k u i n).lastFn = s.lastFn :=
  by unfold State.bump; split <;> rfl
@[simp] theorem State.bump_net (s : State) (k u i n : Nat) : (s.bump k u i n).net = s.net :=
  by unfold State.bump; split <;> rfl
@[simp] theorem State.bump_seq (s : State) (k u i n : Nat) : (s.bump k u i n).seq = s.seq :=
  by unfold State.bump; split <;> rfl
@[simp] theorem State.bump_depOps (s : State) (k u i n : Nat) : (s.bump k u i n).depOps = s.depOps :=
  by unfold State.bump; split <;> rfl
@[simp] theorem State.bump_reports (s : State) (k u i n : Nat) : (s.bump k u i n).reports = s.reports :=
  by unfold State.bump; split <;> rfl
@[simp] theorem State.bump_retires (s : State) (k u i n : Nat) : (s.bump k u i n).retires = s.retires :=
  by unfold State.bump; split <;> rfl
@[simp] theorem State.bump_dicts (s : State) (k u i n : Nat) : (s.bump k u i n).dicts = s.dicts :=
  by unfold State.bump; split <;> rfl
@[simp] theorem State.bump_shared (s : State) (k u i n : Nat) : (s.bump k u i n).shared = s.shared :=
  by unfold State.bump; split <;> rfl
@[simp] theorem State.bump_nextShared (s : State) (k u i n : Nat) : (s.bump k u i n).nextShared = s.nextShared :=
  by unfold State.bump; split <;> rfl
@[simp] theorem State.bump_noticeNet (s : State) (k u i n : Nat) : (s.bump k u i n).noticeNet = s.noticeNet :=
  by unfold State.bump; split <;> rfl
@[simp] theorem State.bump_acks (s : State) (k u i n : Nat) : (s.bump k u i n).acks = s.acks :=
  by unfold State.bump; split <;> rfl
@[simp] theorem State.bump_repl (s : State) (k u i n : Nat) : (s.bump k u i n).repl = s.repl :=
  by unfold State.bump; split <;> rfl
@[simp] theorem State.bump_hotAt (s : State) (k u i n : Nat) : (s.bump k u i n).hotAt = s.hotAt :=
  by unfold State.bump; split <;> rfl
@[simp] theorem State.bump_barriers (s : State) (k u i n : Nat) : (s.bump k u i n).barriers = s.barriers :=
  by unfold State.bump; split <;> rfl
@[simp] theorem State.bump_tileNotices (s : State) (k u i n : Nat) : (s.bump k u i n).tileNotices = s.tileNotices :=
  by unfold State.bump; split <;> rfl
@[simp] theorem State.bump_nextDesc (s : State) (k u i n : Nat) : (s.bump k u i n).nextDesc = s.nextDesc :=
  by unfold State.bump; split <;> rfl
@[simp] theorem State.bump_device (s : State) (k u i n : Nat) : (s.bump k u i n).device = s.device :=
  by unfold State.bump; split <;> rfl
@[simp] theorem State.bump_peers (s : State) (k u i n : Nat) : (s.bump k u i n).peers = s.peers :=
  by unfold State.bump; split <;> rfl
@[simp] theorem State.bump_fenced (s : State) (k u i n : Nat) : (s.bump k u i n).fenced = s.fenced :=
  by unfold State.bump; split <;> rfl
@[simp] theorem State.bump_left (s : State) (k u i n : Nat) : (s.bump k u i n).left = s.left :=
  by unfold State.bump; split <;> rfl
@[simp] theorem State.bump_peerDead (s : State) (k u i n : Nat) : (s.bump k u i n).peerDead = s.peerDead :=
  by unfold State.bump; split <;> rfl
@[simp] theorem State.bump_conflict (s : State) (k u i n : Nat) : (s.bump k u i n).conflict = s.conflict :=
  by unfold State.bump; split <;> rfl
@[simp] theorem State.bump_ports (s : State) (k u i n : Nat) : (s.bump k u i n).ports = s.ports :=
  by unfold State.bump; split <;> rfl
@[simp] theorem State.bump_life (s : State) (k u i n : Nat) : (s.bump k u i n).life = s.life :=
  by unfold State.bump; split <;> rfl
@[simp] theorem State.bump_power (s : State) (k u i n : Nat) : (s.bump k u i n).power = s.power :=
  by unfold State.bump; split <;> rfl
@[simp] theorem State.bump_inputs (s : State) (k u i n : Nat) : (s.bump k u i n).inputs = s.inputs :=
  by unfold State.bump; split <;> rfl
@[simp] theorem State.bump_free (s : State) (k u i n : Nat) : (s.bump k u i n).free = s.free :=
  by unfold State.bump; split <;> rfl
@[simp] theorem State.bump_oracle (s : State) (k u i n : Nat) : (s.bump k u i n).oracle = s.oracle :=
  by unfold State.bump; split <;> rfl

/-! ### Core.setG -/

@[simp] theorem Core.setG_fenv (k : Core) (r : Reg) (v : Dword) : (k.setG r v).fenv = k.fenv :=
  by unfold Core.setG; split <;> rfl
@[simp] theorem Core.setG_lacnt (k : Core) (r : Reg) (v : Dword) : (k.setG r v).lacnt = k.lacnt :=
  by unfold Core.setG; split <;> rfl
@[simp] theorem Core.setG_sched (k : Core) (r : Reg) (v : Dword) : (k.setG r v).sched = k.sched :=
  by unfold Core.setG; split <;> rfl
@[simp] theorem Core.setG_lastch (k : Core) (r : Reg) (v : Dword) : (k.setG r v).lastch = k.lastch :=
  by unfold Core.setG; split <;> rfl
@[simp] theorem Core.setG_peerInh (k : Core) (r : Reg) (v : Dword) : (k.setG r v).peerInh = k.peerInh :=
  by unfold Core.setG; split <;> rfl
@[simp] theorem Core.setG_vl (k : Core) (r : Reg) (v : Dword) : (k.setG r v).vl = k.vl :=
  by unfold Core.setG; split <;> rfl
@[simp] theorem Core.setG_floor (k : Core) (r : Reg) (v : Dword) : (k.setG r v).floor = k.floor :=
  by unfold Core.setG; split <;> rfl
@[simp] theorem Core.setG_iter (k : Core) (r : Reg) (v : Dword) : (k.setG r v).iter = k.iter :=
  by unfold Core.setG; split <;> rfl
@[simp] theorem Core.setG_idempc (k : Core) (r : Reg) (v : Dword) : (k.setG r v).idempc = k.idempc :=
  by unfold Core.setG; split <;> rfl
@[simp] theorem Core.setG_tlevel (k : Core) (r : Reg) (v : Dword) : (k.setG r v).tlevel = k.tlevel :=
  by unfold Core.setG; split <;> rfl
@[simp] theorem Core.setG_banks (k : Core) (r : Reg) (v : Dword) : (k.setG r v).banks = k.banks :=
  by unfold Core.setG; split <;> rfl
@[simp] theorem Core.setG_replays (k : Core) (r : Reg) (v : Dword) : (k.setG r v).replays = k.replays :=
  by unfold Core.setG; split <;> rfl
@[simp] theorem Core.setG_status (k : Core) (r : Reg) (v : Dword) : (k.setG r v).status = k.status :=
  by unfold Core.setG; split <;> rfl
@[simp] theorem Core.setG_pc (k : Core) (r : Reg) (v : Dword) : (k.setG r v).pc = k.pc :=
  by unfold Core.setG; split <;> rfl
@[simp] theorem Core.setG_fetched (k : Core) (r : Reg) (v : Dword) : (k.setG r v).fetched = k.fetched :=
  by unfold Core.setG; split <;> rfl
@[simp] theorem Core.setG_npc (k : Core) (r : Reg) (v : Dword) : (k.setG r v).npc = k.npc :=
  by unfold Core.setG; split <;> rfl
@[simp] theorem Core.setG_words (k : Core) (r : Reg) (v : Dword) : (k.setG r v).words = k.words :=
  by unfold Core.setG; split <;> rfl
@[simp] theorem Core.setG_fir (k : Core) (r : Reg) (v : Dword) : (k.setG r v).fir = k.fir :=
  by unfold Core.setG; split <;> rfl
@[simp] theorem Core.setG_pend (k : Core) (r : Reg) (v : Dword) : (k.setG r v).pend = k.pend :=
  by unfold Core.setG; split <;> rfl
@[simp] theorem Core.setG_faults (k : Core) (r : Reg) (v : Dword) : (k.setG r v).faults = k.faults :=
  by unfold Core.setG; split <;> rfl
@[simp] theorem Core.setG_halt (k : Core) (r : Reg) (v : Dword) : (k.setG r v).halt = k.halt :=
  by unfold Core.setG; split <;> rfl
@[simp] theorem Core.setG_wait (k : Core) (r : Reg) (v : Dword) : (k.setG r v).wait = k.wait :=
  by unfold Core.setG; split <;> rfl
@[simp] theorem Core.setG_held (k : Core) (r : Reg) (v : Dword) : (k.setG r v).held = k.held :=
  by unfold Core.setG; split <;> rfl
@[simp] theorem Core.setG_replay (k : Core) (r : Reg) (v : Dword) : (k.setG r v).replay = k.replay :=
  by unfold Core.setG; split <;> rfl
@[simp] theorem Core.setG_rep (k : Core) (r : Reg) (v : Dword) : (k.setG r v).rep = k.rep :=
  by unfold Core.setG; split <;> rfl
@[simp] theorem Core.setG_out (k : Core) (r : Reg) (v : Dword) : (k.setG r v).out = k.out :=
  by unfold Core.setG; split <;> rfl
@[simp] theorem Core.setG_violated (k : Core) (r : Reg) (v : Dword) : (k.setG r v).violated = k.violated :=
  by unfold Core.setG; split <;> rfl
@[simp] theorem Core.setG_tried (k : Core) (r : Reg) (v : Dword) : (k.setG r v).tried = k.tried :=
  by unfold Core.setG; split <;> rfl
@[simp] theorem Core.setG_fence (k : Core) (r : Reg) (v : Dword) : (k.setG r v).fence = k.fence :=
  by unfold Core.setG; split <;> rfl
@[simp] theorem Core.setG_rels (k : Core) (r : Reg) (v : Dword) : (k.setG r v).rels = k.rels :=
  by unfold Core.setG; split <;> rfl
@[simp] theorem Core.setG_seen (k : Core) (r : Reg) (v : Dword) : (k.setG r v).seen = k.seen :=
  by unfold Core.setG; split <;> rfl
@[simp] theorem Core.setG_region (k : Core) (r : Reg) (v : Dword) : (k.setG r v).region = k.region :=
  by unfold Core.setG; split <;> rfl
@[simp] theorem Core.setG_entries (k : Core) (r : Reg) (v : Dword) : (k.setG r v).entries = k.entries :=
  by unfold Core.setG; split <;> rfl
@[simp] theorem Core.setG_counts (k : Core) (r : Reg) (v : Dword) : (k.setG r v).counts = k.counts :=
  by unfold Core.setG; split <;> rfl
@[simp] theorem Core.setG_head (k : Core) (r : Reg) (v : Dword) : (k.setG r v).head = k.head :=
  by unfold Core.setG; split <;> rfl
@[simp] theorem Core.setG_tail (k : Core) (r : Reg) (v : Dword) : (k.setG r v).tail = k.tail :=
  by unfold Core.setG; split <;> rfl
@[simp] theorem Core.setG_recs (k : Core) (r : Reg) (v : Dword) : (k.setG r v).recs = k.recs :=
  by unfold Core.setG; split <;> rfl
@[simp] theorem Core.setG_arms (k : Core) (r : Reg) (v : Dword) : (k.setG r v).arms = k.arms :=
  by unfold Core.setG; split <;> rfl
@[simp] theorem Core.setG_stealing (k : Core) (r : Reg) (v : Dword) : (k.setG r v).stealing = k.stealing :=
  by unfold Core.setG; split <;> rfl
@[simp] theorem Core.setG_streams (k : Core) (r : Reg) (v : Dword) : (k.setG r v).streams = k.streams :=
  by unfold Core.setG; split <;> rfl
@[simp] theorem Core.setG_copies (k : Core) (r : Reg) (v : Dword) : (k.setG r v).copies = k.copies :=
  by unfold Core.setG; split <;> rfl
@[simp] theorem Core.setG_copyDone (k : Core) (r : Reg) (v : Dword) : (k.setG r v).copyDone = k.copyDone :=
  by unfold Core.setG; split <;> rfl
@[simp] theorem Core.setG_copyErr (k : Core) (r : Reg) (v : Dword) : (k.setG r v).copyErr = k.copyErr :=
  by unfold Core.setG; split <;> rfl
@[simp] theorem Core.setG_copyDue (k : Core) (r : Reg) (v : Dword) : (k.setG r v).copyDue = k.copyDue :=
  by unfold Core.setG; split <;> rfl
@[simp] theorem Core.setG_epochA (k : Core) (r : Reg) (v : Dword) : (k.setG r v).epochA = k.epochA :=
  by unfold Core.setG; split <;> rfl
@[simp] theorem Core.setG_epochB (k : Core) (r : Reg) (v : Dword) : (k.setG r v).epochB = k.epochB :=
  by unfold Core.setG; split <;> rfl
@[simp] theorem Core.setG_mq (k : Core) (r : Reg) (v : Dword) : (k.setG r v).mq = k.mq :=
  by unfold Core.setG; split <;> rfl
@[simp] theorem Core.setG_schur (k : Core) (r : Reg) (v : Dword) : (k.setG r v).schur = k.schur :=
  by unfold Core.setG; split <;> rfl
@[simp] theorem Core.setG_resq (k : Core) (r : Reg) (v : Dword) : (k.setG r v).resq = k.resq :=
  by unfold Core.setG; split <;> rfl
@[simp] theorem Core.setG_builds (k : Core) (r : Reg) (v : Dword) : (k.setG r v).builds = k.builds :=
  by unfold Core.setG; split <;> rfl
@[simp] theorem Core.setG_ctxList (k : Core) (r : Reg) (v : Dword) : (k.setG r v).ctxList = k.ctxList :=
  by unfold Core.setG; split <;> rfl
@[simp] theorem Core.setG_armList (k : Core) (r : Reg) (v : Dword) : (k.setG r v).armList = k.armList :=
  by unfold Core.setG; split <;> rfl
@[simp] theorem Core.setG_switching (k : Core) (r : Reg) (v : Dword) : (k.setG r v).switching = k.switching :=
  by unfold Core.setG; split <;> rfl
@[simp] theorem Core.setG_frozen (k : Core) (r : Reg) (v : Dword) : (k.setG r v).frozen = k.frozen :=
  by unfold Core.setG; split <;> rfl
@[simp] theorem Core.setG_stop (k : Core) (r : Reg) (v : Dword) : (k.setG r v).stop = k.stop :=
  by unfold Core.setG; split <;> rfl
@[simp] theorem Core.setG_safeMask (k : Core) (r : Reg) (v : Dword) : (k.setG r v).safeMask = k.safeMask :=
  by unfold Core.setG; split <;> rfl

/-! ### Core.setV -/

@[simp] theorem Core.setV_fenv (k : Core) (r : Reg) (x : VReg) : (k.setV r x).fenv = k.fenv := rfl
@[simp] theorem Core.setV_lacnt (k : Core) (r : Reg) (x : VReg) : (k.setV r x).lacnt = k.lacnt := rfl
@[simp] theorem Core.setV_sched (k : Core) (r : Reg) (x : VReg) : (k.setV r x).sched = k.sched := rfl
@[simp] theorem Core.setV_lastch (k : Core) (r : Reg) (x : VReg) : (k.setV r x).lastch = k.lastch := rfl
@[simp] theorem Core.setV_peerInh (k : Core) (r : Reg) (x : VReg) : (k.setV r x).peerInh = k.peerInh := rfl
@[simp] theorem Core.setV_vl (k : Core) (r : Reg) (x : VReg) : (k.setV r x).vl = k.vl := rfl
@[simp] theorem Core.setV_floor (k : Core) (r : Reg) (x : VReg) : (k.setV r x).floor = k.floor := rfl
@[simp] theorem Core.setV_iter (k : Core) (r : Reg) (x : VReg) : (k.setV r x).iter = k.iter := rfl
@[simp] theorem Core.setV_idempc (k : Core) (r : Reg) (x : VReg) : (k.setV r x).idempc = k.idempc := rfl
@[simp] theorem Core.setV_tlevel (k : Core) (r : Reg) (x : VReg) : (k.setV r x).tlevel = k.tlevel := rfl
@[simp] theorem Core.setV_banks (k : Core) (r : Reg) (x : VReg) : (k.setV r x).banks = k.banks := rfl
@[simp] theorem Core.setV_replays (k : Core) (r : Reg) (x : VReg) : (k.setV r x).replays = k.replays := rfl
@[simp] theorem Core.setV_status (k : Core) (r : Reg) (x : VReg) : (k.setV r x).status = k.status := rfl
@[simp] theorem Core.setV_pc (k : Core) (r : Reg) (x : VReg) : (k.setV r x).pc = k.pc := rfl
@[simp] theorem Core.setV_fetched (k : Core) (r : Reg) (x : VReg) : (k.setV r x).fetched = k.fetched := rfl
@[simp] theorem Core.setV_npc (k : Core) (r : Reg) (x : VReg) : (k.setV r x).npc = k.npc := rfl
@[simp] theorem Core.setV_words (k : Core) (r : Reg) (x : VReg) : (k.setV r x).words = k.words := rfl
@[simp] theorem Core.setV_fir (k : Core) (r : Reg) (x : VReg) : (k.setV r x).fir = k.fir := rfl
@[simp] theorem Core.setV_pend (k : Core) (r : Reg) (x : VReg) : (k.setV r x).pend = k.pend := rfl
@[simp] theorem Core.setV_faults (k : Core) (r : Reg) (x : VReg) : (k.setV r x).faults = k.faults := rfl
@[simp] theorem Core.setV_halt (k : Core) (r : Reg) (x : VReg) : (k.setV r x).halt = k.halt := rfl
@[simp] theorem Core.setV_wait (k : Core) (r : Reg) (x : VReg) : (k.setV r x).wait = k.wait := rfl
@[simp] theorem Core.setV_held (k : Core) (r : Reg) (x : VReg) : (k.setV r x).held = k.held := rfl
@[simp] theorem Core.setV_replay (k : Core) (r : Reg) (x : VReg) : (k.setV r x).replay = k.replay := rfl
@[simp] theorem Core.setV_rep (k : Core) (r : Reg) (x : VReg) : (k.setV r x).rep = k.rep := rfl
@[simp] theorem Core.setV_out (k : Core) (r : Reg) (x : VReg) : (k.setV r x).out = k.out := rfl
@[simp] theorem Core.setV_violated (k : Core) (r : Reg) (x : VReg) : (k.setV r x).violated = k.violated := rfl
@[simp] theorem Core.setV_tried (k : Core) (r : Reg) (x : VReg) : (k.setV r x).tried = k.tried := rfl
@[simp] theorem Core.setV_fence (k : Core) (r : Reg) (x : VReg) : (k.setV r x).fence = k.fence := rfl
@[simp] theorem Core.setV_rels (k : Core) (r : Reg) (x : VReg) : (k.setV r x).rels = k.rels := rfl
@[simp] theorem Core.setV_seen (k : Core) (r : Reg) (x : VReg) : (k.setV r x).seen = k.seen := rfl
@[simp] theorem Core.setV_region (k : Core) (r : Reg) (x : VReg) : (k.setV r x).region = k.region := rfl
@[simp] theorem Core.setV_entries (k : Core) (r : Reg) (x : VReg) : (k.setV r x).entries = k.entries := rfl
@[simp] theorem Core.setV_counts (k : Core) (r : Reg) (x : VReg) : (k.setV r x).counts = k.counts := rfl
@[simp] theorem Core.setV_head (k : Core) (r : Reg) (x : VReg) : (k.setV r x).head = k.head := rfl
@[simp] theorem Core.setV_tail (k : Core) (r : Reg) (x : VReg) : (k.setV r x).tail = k.tail := rfl
@[simp] theorem Core.setV_recs (k : Core) (r : Reg) (x : VReg) : (k.setV r x).recs = k.recs := rfl
@[simp] theorem Core.setV_arms (k : Core) (r : Reg) (x : VReg) : (k.setV r x).arms = k.arms := rfl
@[simp] theorem Core.setV_stealing (k : Core) (r : Reg) (x : VReg) : (k.setV r x).stealing = k.stealing := rfl
@[simp] theorem Core.setV_streams (k : Core) (r : Reg) (x : VReg) : (k.setV r x).streams = k.streams := rfl
@[simp] theorem Core.setV_copies (k : Core) (r : Reg) (x : VReg) : (k.setV r x).copies = k.copies := rfl
@[simp] theorem Core.setV_copyDone (k : Core) (r : Reg) (x : VReg) : (k.setV r x).copyDone = k.copyDone := rfl
@[simp] theorem Core.setV_copyErr (k : Core) (r : Reg) (x : VReg) : (k.setV r x).copyErr = k.copyErr := rfl
@[simp] theorem Core.setV_copyDue (k : Core) (r : Reg) (x : VReg) : (k.setV r x).copyDue = k.copyDue := rfl
@[simp] theorem Core.setV_epochA (k : Core) (r : Reg) (x : VReg) : (k.setV r x).epochA = k.epochA := rfl
@[simp] theorem Core.setV_epochB (k : Core) (r : Reg) (x : VReg) : (k.setV r x).epochB = k.epochB := rfl
@[simp] theorem Core.setV_mq (k : Core) (r : Reg) (x : VReg) : (k.setV r x).mq = k.mq := rfl
@[simp] theorem Core.setV_schur (k : Core) (r : Reg) (x : VReg) : (k.setV r x).schur = k.schur := rfl
@[simp] theorem Core.setV_resq (k : Core) (r : Reg) (x : VReg) : (k.setV r x).resq = k.resq := rfl
@[simp] theorem Core.setV_builds (k : Core) (r : Reg) (x : VReg) : (k.setV r x).builds = k.builds := rfl
@[simp] theorem Core.setV_ctxList (k : Core) (r : Reg) (x : VReg) : (k.setV r x).ctxList = k.ctxList := rfl
@[simp] theorem Core.setV_armList (k : Core) (r : Reg) (x : VReg) : (k.setV r x).armList = k.armList := rfl
@[simp] theorem Core.setV_switching (k : Core) (r : Reg) (x : VReg) : (k.setV r x).switching = k.switching := rfl
@[simp] theorem Core.setV_frozen (k : Core) (r : Reg) (x : VReg) : (k.setV r x).frozen = k.frozen := rfl
@[simp] theorem Core.setV_stop (k : Core) (r : Reg) (x : VReg) : (k.setV r x).stop = k.stop := rfl
@[simp] theorem Core.setV_safeMask (k : Core) (r : Reg) (x : VReg) : (k.setV r x).safeMask = k.safeMask := rfl

/-! ### Core.setP -/

@[simp] theorem Core.setP_fenv (k : Core) (r : BitVec 3) (x : PReg) : (k.setP r x).fenv = k.fenv :=
  by unfold Core.setP; split <;> rfl
@[simp] theorem Core.setP_lacnt (k : Core) (r : BitVec 3) (x : PReg) : (k.setP r x).lacnt = k.lacnt :=
  by unfold Core.setP; split <;> rfl
@[simp] theorem Core.setP_sched (k : Core) (r : BitVec 3) (x : PReg) : (k.setP r x).sched = k.sched :=
  by unfold Core.setP; split <;> rfl
@[simp] theorem Core.setP_lastch (k : Core) (r : BitVec 3) (x : PReg) : (k.setP r x).lastch = k.lastch :=
  by unfold Core.setP; split <;> rfl
@[simp] theorem Core.setP_peerInh (k : Core) (r : BitVec 3) (x : PReg) : (k.setP r x).peerInh = k.peerInh :=
  by unfold Core.setP; split <;> rfl
@[simp] theorem Core.setP_vl (k : Core) (r : BitVec 3) (x : PReg) : (k.setP r x).vl = k.vl :=
  by unfold Core.setP; split <;> rfl
@[simp] theorem Core.setP_floor (k : Core) (r : BitVec 3) (x : PReg) : (k.setP r x).floor = k.floor :=
  by unfold Core.setP; split <;> rfl
@[simp] theorem Core.setP_iter (k : Core) (r : BitVec 3) (x : PReg) : (k.setP r x).iter = k.iter :=
  by unfold Core.setP; split <;> rfl
@[simp] theorem Core.setP_idempc (k : Core) (r : BitVec 3) (x : PReg) : (k.setP r x).idempc = k.idempc :=
  by unfold Core.setP; split <;> rfl
@[simp] theorem Core.setP_tlevel (k : Core) (r : BitVec 3) (x : PReg) : (k.setP r x).tlevel = k.tlevel :=
  by unfold Core.setP; split <;> rfl
@[simp] theorem Core.setP_banks (k : Core) (r : BitVec 3) (x : PReg) : (k.setP r x).banks = k.banks :=
  by unfold Core.setP; split <;> rfl
@[simp] theorem Core.setP_replays (k : Core) (r : BitVec 3) (x : PReg) : (k.setP r x).replays = k.replays :=
  by unfold Core.setP; split <;> rfl
@[simp] theorem Core.setP_status (k : Core) (r : BitVec 3) (x : PReg) : (k.setP r x).status = k.status :=
  by unfold Core.setP; split <;> rfl
@[simp] theorem Core.setP_pc (k : Core) (r : BitVec 3) (x : PReg) : (k.setP r x).pc = k.pc :=
  by unfold Core.setP; split <;> rfl
@[simp] theorem Core.setP_fetched (k : Core) (r : BitVec 3) (x : PReg) : (k.setP r x).fetched = k.fetched :=
  by unfold Core.setP; split <;> rfl
@[simp] theorem Core.setP_npc (k : Core) (r : BitVec 3) (x : PReg) : (k.setP r x).npc = k.npc :=
  by unfold Core.setP; split <;> rfl
@[simp] theorem Core.setP_words (k : Core) (r : BitVec 3) (x : PReg) : (k.setP r x).words = k.words :=
  by unfold Core.setP; split <;> rfl
@[simp] theorem Core.setP_fir (k : Core) (r : BitVec 3) (x : PReg) : (k.setP r x).fir = k.fir :=
  by unfold Core.setP; split <;> rfl
@[simp] theorem Core.setP_pend (k : Core) (r : BitVec 3) (x : PReg) : (k.setP r x).pend = k.pend :=
  by unfold Core.setP; split <;> rfl
@[simp] theorem Core.setP_faults (k : Core) (r : BitVec 3) (x : PReg) : (k.setP r x).faults = k.faults :=
  by unfold Core.setP; split <;> rfl
@[simp] theorem Core.setP_halt (k : Core) (r : BitVec 3) (x : PReg) : (k.setP r x).halt = k.halt :=
  by unfold Core.setP; split <;> rfl
@[simp] theorem Core.setP_wait (k : Core) (r : BitVec 3) (x : PReg) : (k.setP r x).wait = k.wait :=
  by unfold Core.setP; split <;> rfl
@[simp] theorem Core.setP_held (k : Core) (r : BitVec 3) (x : PReg) : (k.setP r x).held = k.held :=
  by unfold Core.setP; split <;> rfl
@[simp] theorem Core.setP_replay (k : Core) (r : BitVec 3) (x : PReg) : (k.setP r x).replay = k.replay :=
  by unfold Core.setP; split <;> rfl
@[simp] theorem Core.setP_rep (k : Core) (r : BitVec 3) (x : PReg) : (k.setP r x).rep = k.rep :=
  by unfold Core.setP; split <;> rfl
@[simp] theorem Core.setP_out (k : Core) (r : BitVec 3) (x : PReg) : (k.setP r x).out = k.out :=
  by unfold Core.setP; split <;> rfl
@[simp] theorem Core.setP_violated (k : Core) (r : BitVec 3) (x : PReg) : (k.setP r x).violated = k.violated :=
  by unfold Core.setP; split <;> rfl
@[simp] theorem Core.setP_tried (k : Core) (r : BitVec 3) (x : PReg) : (k.setP r x).tried = k.tried :=
  by unfold Core.setP; split <;> rfl
@[simp] theorem Core.setP_fence (k : Core) (r : BitVec 3) (x : PReg) : (k.setP r x).fence = k.fence :=
  by unfold Core.setP; split <;> rfl
@[simp] theorem Core.setP_rels (k : Core) (r : BitVec 3) (x : PReg) : (k.setP r x).rels = k.rels :=
  by unfold Core.setP; split <;> rfl
@[simp] theorem Core.setP_seen (k : Core) (r : BitVec 3) (x : PReg) : (k.setP r x).seen = k.seen :=
  by unfold Core.setP; split <;> rfl
@[simp] theorem Core.setP_region (k : Core) (r : BitVec 3) (x : PReg) : (k.setP r x).region = k.region :=
  by unfold Core.setP; split <;> rfl
@[simp] theorem Core.setP_entries (k : Core) (r : BitVec 3) (x : PReg) : (k.setP r x).entries = k.entries :=
  by unfold Core.setP; split <;> rfl
@[simp] theorem Core.setP_counts (k : Core) (r : BitVec 3) (x : PReg) : (k.setP r x).counts = k.counts :=
  by unfold Core.setP; split <;> rfl
@[simp] theorem Core.setP_head (k : Core) (r : BitVec 3) (x : PReg) : (k.setP r x).head = k.head :=
  by unfold Core.setP; split <;> rfl
@[simp] theorem Core.setP_tail (k : Core) (r : BitVec 3) (x : PReg) : (k.setP r x).tail = k.tail :=
  by unfold Core.setP; split <;> rfl
@[simp] theorem Core.setP_recs (k : Core) (r : BitVec 3) (x : PReg) : (k.setP r x).recs = k.recs :=
  by unfold Core.setP; split <;> rfl
@[simp] theorem Core.setP_arms (k : Core) (r : BitVec 3) (x : PReg) : (k.setP r x).arms = k.arms :=
  by unfold Core.setP; split <;> rfl
@[simp] theorem Core.setP_stealing (k : Core) (r : BitVec 3) (x : PReg) : (k.setP r x).stealing = k.stealing :=
  by unfold Core.setP; split <;> rfl
@[simp] theorem Core.setP_streams (k : Core) (r : BitVec 3) (x : PReg) : (k.setP r x).streams = k.streams :=
  by unfold Core.setP; split <;> rfl
@[simp] theorem Core.setP_copies (k : Core) (r : BitVec 3) (x : PReg) : (k.setP r x).copies = k.copies :=
  by unfold Core.setP; split <;> rfl
@[simp] theorem Core.setP_copyDone (k : Core) (r : BitVec 3) (x : PReg) : (k.setP r x).copyDone = k.copyDone :=
  by unfold Core.setP; split <;> rfl
@[simp] theorem Core.setP_copyErr (k : Core) (r : BitVec 3) (x : PReg) : (k.setP r x).copyErr = k.copyErr :=
  by unfold Core.setP; split <;> rfl
@[simp] theorem Core.setP_copyDue (k : Core) (r : BitVec 3) (x : PReg) : (k.setP r x).copyDue = k.copyDue :=
  by unfold Core.setP; split <;> rfl
@[simp] theorem Core.setP_epochA (k : Core) (r : BitVec 3) (x : PReg) : (k.setP r x).epochA = k.epochA :=
  by unfold Core.setP; split <;> rfl
@[simp] theorem Core.setP_epochB (k : Core) (r : BitVec 3) (x : PReg) : (k.setP r x).epochB = k.epochB :=
  by unfold Core.setP; split <;> rfl
@[simp] theorem Core.setP_mq (k : Core) (r : BitVec 3) (x : PReg) : (k.setP r x).mq = k.mq :=
  by unfold Core.setP; split <;> rfl
@[simp] theorem Core.setP_schur (k : Core) (r : BitVec 3) (x : PReg) : (k.setP r x).schur = k.schur :=
  by unfold Core.setP; split <;> rfl
@[simp] theorem Core.setP_resq (k : Core) (r : BitVec 3) (x : PReg) : (k.setP r x).resq = k.resq :=
  by unfold Core.setP; split <;> rfl
@[simp] theorem Core.setP_builds (k : Core) (r : BitVec 3) (x : PReg) : (k.setP r x).builds = k.builds :=
  by unfold Core.setP; split <;> rfl
@[simp] theorem Core.setP_ctxList (k : Core) (r : BitVec 3) (x : PReg) : (k.setP r x).ctxList = k.ctxList :=
  by unfold Core.setP; split <;> rfl
@[simp] theorem Core.setP_armList (k : Core) (r : BitVec 3) (x : PReg) : (k.setP r x).armList = k.armList :=
  by unfold Core.setP; split <;> rfl
@[simp] theorem Core.setP_switching (k : Core) (r : BitVec 3) (x : PReg) : (k.setP r x).switching = k.switching :=
  by unfold Core.setP; split <;> rfl
@[simp] theorem Core.setP_frozen (k : Core) (r : BitVec 3) (x : PReg) : (k.setP r x).frozen = k.frozen :=
  by unfold Core.setP; split <;> rfl
@[simp] theorem Core.setP_stop (k : Core) (r : BitVec 3) (x : PReg) : (k.setP r x).stop = k.stop :=
  by unfold Core.setP; split <;> rfl
@[simp] theorem Core.setP_safeMask (k : Core) (r : BitVec 3) (x : PReg) : (k.setP r x).safeMask = k.safeMask :=
  by unfold Core.setP; split <;> rfl

/-! ### Core.raise -/

@[simp] theorem Core.raise_regs (k : Core) (f : BitVec 5) : (k.raise f).regs = k.regs := rfl
@[simp] theorem Core.raise_lacnt (k : Core) (f : BitVec 5) : (k.raise f).lacnt = k.lacnt := rfl
@[simp] theorem Core.raise_sched (k : Core) (f : BitVec 5) : (k.raise f).sched = k.sched := rfl
@[simp] theorem Core.raise_lastch (k : Core) (f : BitVec 5) : (k.raise f).lastch = k.lastch := rfl
@[simp] theorem Core.raise_peerInh (k : Core) (f : BitVec 5) : (k.raise f).peerInh = k.peerInh := rfl
@[simp] theorem Core.raise_vl (k : Core) (f : BitVec 5) : (k.raise f).vl = k.vl := rfl
@[simp] theorem Core.raise_floor (k : Core) (f : BitVec 5) : (k.raise f).floor = k.floor := rfl
@[simp] theorem Core.raise_iter (k : Core) (f : BitVec 5) : (k.raise f).iter = k.iter := rfl
@[simp] theorem Core.raise_idempc (k : Core) (f : BitVec 5) : (k.raise f).idempc = k.idempc := rfl
@[simp] theorem Core.raise_tlevel (k : Core) (f : BitVec 5) : (k.raise f).tlevel = k.tlevel := rfl
@[simp] theorem Core.raise_banks (k : Core) (f : BitVec 5) : (k.raise f).banks = k.banks := rfl
@[simp] theorem Core.raise_replays (k : Core) (f : BitVec 5) : (k.raise f).replays = k.replays := rfl
@[simp] theorem Core.raise_status (k : Core) (f : BitVec 5) : (k.raise f).status = k.status := rfl
@[simp] theorem Core.raise_pc (k : Core) (f : BitVec 5) : (k.raise f).pc = k.pc := rfl
@[simp] theorem Core.raise_fetched (k : Core) (f : BitVec 5) : (k.raise f).fetched = k.fetched := rfl
@[simp] theorem Core.raise_npc (k : Core) (f : BitVec 5) : (k.raise f).npc = k.npc := rfl
@[simp] theorem Core.raise_words (k : Core) (f : BitVec 5) : (k.raise f).words = k.words := rfl
@[simp] theorem Core.raise_fir (k : Core) (f : BitVec 5) : (k.raise f).fir = k.fir := rfl
@[simp] theorem Core.raise_pend (k : Core) (f : BitVec 5) : (k.raise f).pend = k.pend := rfl
@[simp] theorem Core.raise_faults (k : Core) (f : BitVec 5) : (k.raise f).faults = k.faults := rfl
@[simp] theorem Core.raise_halt (k : Core) (f : BitVec 5) : (k.raise f).halt = k.halt := rfl
@[simp] theorem Core.raise_wait (k : Core) (f : BitVec 5) : (k.raise f).wait = k.wait := rfl
@[simp] theorem Core.raise_held (k : Core) (f : BitVec 5) : (k.raise f).held = k.held := rfl
@[simp] theorem Core.raise_replay (k : Core) (f : BitVec 5) : (k.raise f).replay = k.replay := rfl
@[simp] theorem Core.raise_rep (k : Core) (f : BitVec 5) : (k.raise f).rep = k.rep := rfl
@[simp] theorem Core.raise_out (k : Core) (f : BitVec 5) : (k.raise f).out = k.out := rfl
@[simp] theorem Core.raise_violated (k : Core) (f : BitVec 5) : (k.raise f).violated = k.violated := rfl
@[simp] theorem Core.raise_tried (k : Core) (f : BitVec 5) : (k.raise f).tried = k.tried := rfl
@[simp] theorem Core.raise_fence (k : Core) (f : BitVec 5) : (k.raise f).fence = k.fence := rfl
@[simp] theorem Core.raise_rels (k : Core) (f : BitVec 5) : (k.raise f).rels = k.rels := rfl
@[simp] theorem Core.raise_seen (k : Core) (f : BitVec 5) : (k.raise f).seen = k.seen := rfl
@[simp] theorem Core.raise_region (k : Core) (f : BitVec 5) : (k.raise f).region = k.region := rfl
@[simp] theorem Core.raise_entries (k : Core) (f : BitVec 5) : (k.raise f).entries = k.entries := rfl
@[simp] theorem Core.raise_counts (k : Core) (f : BitVec 5) : (k.raise f).counts = k.counts := rfl
@[simp] theorem Core.raise_head (k : Core) (f : BitVec 5) : (k.raise f).head = k.head := rfl
@[simp] theorem Core.raise_tail (k : Core) (f : BitVec 5) : (k.raise f).tail = k.tail := rfl
@[simp] theorem Core.raise_recs (k : Core) (f : BitVec 5) : (k.raise f).recs = k.recs := rfl
@[simp] theorem Core.raise_arms (k : Core) (f : BitVec 5) : (k.raise f).arms = k.arms := rfl
@[simp] theorem Core.raise_stealing (k : Core) (f : BitVec 5) : (k.raise f).stealing = k.stealing := rfl
@[simp] theorem Core.raise_streams (k : Core) (f : BitVec 5) : (k.raise f).streams = k.streams := rfl
@[simp] theorem Core.raise_copies (k : Core) (f : BitVec 5) : (k.raise f).copies = k.copies := rfl
@[simp] theorem Core.raise_copyDone (k : Core) (f : BitVec 5) : (k.raise f).copyDone = k.copyDone := rfl
@[simp] theorem Core.raise_copyErr (k : Core) (f : BitVec 5) : (k.raise f).copyErr = k.copyErr := rfl
@[simp] theorem Core.raise_copyDue (k : Core) (f : BitVec 5) : (k.raise f).copyDue = k.copyDue := rfl
@[simp] theorem Core.raise_epochA (k : Core) (f : BitVec 5) : (k.raise f).epochA = k.epochA := rfl
@[simp] theorem Core.raise_epochB (k : Core) (f : BitVec 5) : (k.raise f).epochB = k.epochB := rfl
@[simp] theorem Core.raise_mq (k : Core) (f : BitVec 5) : (k.raise f).mq = k.mq := rfl
@[simp] theorem Core.raise_schur (k : Core) (f : BitVec 5) : (k.raise f).schur = k.schur := rfl
@[simp] theorem Core.raise_resq (k : Core) (f : BitVec 5) : (k.raise f).resq = k.resq := rfl
@[simp] theorem Core.raise_builds (k : Core) (f : BitVec 5) : (k.raise f).builds = k.builds := rfl
@[simp] theorem Core.raise_ctxList (k : Core) (f : BitVec 5) : (k.raise f).ctxList = k.ctxList := rfl
@[simp] theorem Core.raise_armList (k : Core) (f : BitVec 5) : (k.raise f).armList = k.armList := rfl
@[simp] theorem Core.raise_switching (k : Core) (f : BitVec 5) : (k.raise f).switching = k.switching := rfl
@[simp] theorem Core.raise_frozen (k : Core) (f : BitVec 5) : (k.raise f).frozen = k.frozen := rfl
@[simp] theorem Core.raise_stop (k : Core) (f : BitVec 5) : (k.raise f).stop = k.stop := rfl
@[simp] theorem Core.raise_safeMask (k : Core) (f : BitVec 5) : (k.raise f).safeMask = k.safeMask := rfl

/-! ### Core.addPend -/

@[simp] theorem Core.addPend_regs (k : Core) (p : Pend) : (k.addPend p).regs = k.regs := rfl
@[simp] theorem Core.addPend_fenv (k : Core) (p : Pend) : (k.addPend p).fenv = k.fenv := rfl
@[simp] theorem Core.addPend_lacnt (k : Core) (p : Pend) : (k.addPend p).lacnt = k.lacnt := rfl
@[simp] theorem Core.addPend_sched (k : Core) (p : Pend) : (k.addPend p).sched = k.sched := rfl
@[simp] theorem Core.addPend_lastch (k : Core) (p : Pend) : (k.addPend p).lastch = k.lastch := rfl
@[simp] theorem Core.addPend_peerInh (k : Core) (p : Pend) : (k.addPend p).peerInh = k.peerInh := rfl
@[simp] theorem Core.addPend_vl (k : Core) (p : Pend) : (k.addPend p).vl = k.vl := rfl
@[simp] theorem Core.addPend_floor (k : Core) (p : Pend) : (k.addPend p).floor = k.floor := rfl
@[simp] theorem Core.addPend_iter (k : Core) (p : Pend) : (k.addPend p).iter = k.iter := rfl
@[simp] theorem Core.addPend_idempc (k : Core) (p : Pend) : (k.addPend p).idempc = k.idempc := rfl
@[simp] theorem Core.addPend_tlevel (k : Core) (p : Pend) : (k.addPend p).tlevel = k.tlevel := rfl
@[simp] theorem Core.addPend_banks (k : Core) (p : Pend) : (k.addPend p).banks = k.banks := rfl
@[simp] theorem Core.addPend_replays (k : Core) (p : Pend) : (k.addPend p).replays = k.replays := rfl
@[simp] theorem Core.addPend_status (k : Core) (p : Pend) : (k.addPend p).status = k.status := rfl
@[simp] theorem Core.addPend_pc (k : Core) (p : Pend) : (k.addPend p).pc = k.pc := rfl
@[simp] theorem Core.addPend_fetched (k : Core) (p : Pend) : (k.addPend p).fetched = k.fetched := rfl
@[simp] theorem Core.addPend_npc (k : Core) (p : Pend) : (k.addPend p).npc = k.npc := rfl
@[simp] theorem Core.addPend_words (k : Core) (p : Pend) : (k.addPend p).words = k.words := rfl
@[simp] theorem Core.addPend_fir (k : Core) (p : Pend) : (k.addPend p).fir = k.fir := rfl
@[simp] theorem Core.addPend_faults (k : Core) (p : Pend) : (k.addPend p).faults = k.faults := rfl
@[simp] theorem Core.addPend_halt (k : Core) (p : Pend) : (k.addPend p).halt = k.halt := rfl
@[simp] theorem Core.addPend_wait (k : Core) (p : Pend) : (k.addPend p).wait = k.wait := rfl
@[simp] theorem Core.addPend_held (k : Core) (p : Pend) : (k.addPend p).held = k.held := rfl
@[simp] theorem Core.addPend_replay (k : Core) (p : Pend) : (k.addPend p).replay = k.replay := rfl
@[simp] theorem Core.addPend_rep (k : Core) (p : Pend) : (k.addPend p).rep = k.rep := rfl
@[simp] theorem Core.addPend_out (k : Core) (p : Pend) : (k.addPend p).out = k.out := rfl
@[simp] theorem Core.addPend_violated (k : Core) (p : Pend) : (k.addPend p).violated = k.violated := rfl
@[simp] theorem Core.addPend_tried (k : Core) (p : Pend) : (k.addPend p).tried = k.tried := rfl
@[simp] theorem Core.addPend_fence (k : Core) (p : Pend) : (k.addPend p).fence = k.fence := rfl
@[simp] theorem Core.addPend_rels (k : Core) (p : Pend) : (k.addPend p).rels = k.rels := rfl
@[simp] theorem Core.addPend_seen (k : Core) (p : Pend) : (k.addPend p).seen = k.seen := rfl
@[simp] theorem Core.addPend_region (k : Core) (p : Pend) : (k.addPend p).region = k.region := rfl
@[simp] theorem Core.addPend_entries (k : Core) (p : Pend) : (k.addPend p).entries = k.entries := rfl
@[simp] theorem Core.addPend_counts (k : Core) (p : Pend) : (k.addPend p).counts = k.counts := rfl
@[simp] theorem Core.addPend_head (k : Core) (p : Pend) : (k.addPend p).head = k.head := rfl
@[simp] theorem Core.addPend_tail (k : Core) (p : Pend) : (k.addPend p).tail = k.tail := rfl
@[simp] theorem Core.addPend_recs (k : Core) (p : Pend) : (k.addPend p).recs = k.recs := rfl
@[simp] theorem Core.addPend_arms (k : Core) (p : Pend) : (k.addPend p).arms = k.arms := rfl
@[simp] theorem Core.addPend_stealing (k : Core) (p : Pend) : (k.addPend p).stealing = k.stealing := rfl
@[simp] theorem Core.addPend_streams (k : Core) (p : Pend) : (k.addPend p).streams = k.streams := rfl
@[simp] theorem Core.addPend_copies (k : Core) (p : Pend) : (k.addPend p).copies = k.copies := rfl
@[simp] theorem Core.addPend_copyDone (k : Core) (p : Pend) : (k.addPend p).copyDone = k.copyDone := rfl
@[simp] theorem Core.addPend_copyErr (k : Core) (p : Pend) : (k.addPend p).copyErr = k.copyErr := rfl
@[simp] theorem Core.addPend_copyDue (k : Core) (p : Pend) : (k.addPend p).copyDue = k.copyDue := rfl
@[simp] theorem Core.addPend_epochA (k : Core) (p : Pend) : (k.addPend p).epochA = k.epochA := rfl
@[simp] theorem Core.addPend_epochB (k : Core) (p : Pend) : (k.addPend p).epochB = k.epochB := rfl
@[simp] theorem Core.addPend_mq (k : Core) (p : Pend) : (k.addPend p).mq = k.mq := rfl
@[simp] theorem Core.addPend_schur (k : Core) (p : Pend) : (k.addPend p).schur = k.schur := rfl
@[simp] theorem Core.addPend_resq (k : Core) (p : Pend) : (k.addPend p).resq = k.resq := rfl
@[simp] theorem Core.addPend_builds (k : Core) (p : Pend) : (k.addPend p).builds = k.builds := rfl
@[simp] theorem Core.addPend_ctxList (k : Core) (p : Pend) : (k.addPend p).ctxList = k.ctxList := rfl
@[simp] theorem Core.addPend_armList (k : Core) (p : Pend) : (k.addPend p).armList = k.armList := rfl
@[simp] theorem Core.addPend_switching (k : Core) (p : Pend) : (k.addPend p).switching = k.switching := rfl
@[simp] theorem Core.addPend_frozen (k : Core) (p : Pend) : (k.addPend p).frozen = k.frozen := rfl
@[simp] theorem Core.addPend_stop (k : Core) (p : Pend) : (k.addPend p).stop = k.stop := rfl
@[simp] theorem Core.addPend_safeMask (k : Core) (p : Pend) : (k.addPend p).safeMask = k.safeMask := rfl

/-! ### Core.setBank -/

@[simp] theorem Core.setBank_regs (k : Core) (n : Nat) (b : TrapBank) : (k.setBank n b).regs = k.regs := rfl
@[simp] theorem Core.setBank_fenv (k : Core) (n : Nat) (b : TrapBank) : (k.setBank n b).fenv = k.fenv := rfl
@[simp] theorem Core.setBank_lacnt (k : Core) (n : Nat) (b : TrapBank) : (k.setBank n b).lacnt = k.lacnt := rfl
@[simp] theorem Core.setBank_sched (k : Core) (n : Nat) (b : TrapBank) : (k.setBank n b).sched = k.sched := rfl
@[simp] theorem Core.setBank_lastch (k : Core) (n : Nat) (b : TrapBank) : (k.setBank n b).lastch = k.lastch := rfl
@[simp] theorem Core.setBank_peerInh (k : Core) (n : Nat) (b : TrapBank) : (k.setBank n b).peerInh = k.peerInh := rfl
@[simp] theorem Core.setBank_vl (k : Core) (n : Nat) (b : TrapBank) : (k.setBank n b).vl = k.vl := rfl
@[simp] theorem Core.setBank_floor (k : Core) (n : Nat) (b : TrapBank) : (k.setBank n b).floor = k.floor := rfl
@[simp] theorem Core.setBank_iter (k : Core) (n : Nat) (b : TrapBank) : (k.setBank n b).iter = k.iter := rfl
@[simp] theorem Core.setBank_idempc (k : Core) (n : Nat) (b : TrapBank) : (k.setBank n b).idempc = k.idempc := rfl
@[simp] theorem Core.setBank_tlevel (k : Core) (n : Nat) (b : TrapBank) : (k.setBank n b).tlevel = k.tlevel := rfl
@[simp] theorem Core.setBank_replays (k : Core) (n : Nat) (b : TrapBank) : (k.setBank n b).replays = k.replays := rfl
@[simp] theorem Core.setBank_status (k : Core) (n : Nat) (b : TrapBank) : (k.setBank n b).status = k.status := rfl
@[simp] theorem Core.setBank_pc (k : Core) (n : Nat) (b : TrapBank) : (k.setBank n b).pc = k.pc := rfl
@[simp] theorem Core.setBank_fetched (k : Core) (n : Nat) (b : TrapBank) : (k.setBank n b).fetched = k.fetched := rfl
@[simp] theorem Core.setBank_npc (k : Core) (n : Nat) (b : TrapBank) : (k.setBank n b).npc = k.npc := rfl
@[simp] theorem Core.setBank_words (k : Core) (n : Nat) (b : TrapBank) : (k.setBank n b).words = k.words := rfl
@[simp] theorem Core.setBank_fir (k : Core) (n : Nat) (b : TrapBank) : (k.setBank n b).fir = k.fir := rfl
@[simp] theorem Core.setBank_pend (k : Core) (n : Nat) (b : TrapBank) : (k.setBank n b).pend = k.pend := rfl
@[simp] theorem Core.setBank_faults (k : Core) (n : Nat) (b : TrapBank) : (k.setBank n b).faults = k.faults := rfl
@[simp] theorem Core.setBank_halt (k : Core) (n : Nat) (b : TrapBank) : (k.setBank n b).halt = k.halt := rfl
@[simp] theorem Core.setBank_wait (k : Core) (n : Nat) (b : TrapBank) : (k.setBank n b).wait = k.wait := rfl
@[simp] theorem Core.setBank_held (k : Core) (n : Nat) (b : TrapBank) : (k.setBank n b).held = k.held := rfl
@[simp] theorem Core.setBank_replay (k : Core) (n : Nat) (b : TrapBank) : (k.setBank n b).replay = k.replay := rfl
@[simp] theorem Core.setBank_rep (k : Core) (n : Nat) (b : TrapBank) : (k.setBank n b).rep = k.rep := rfl
@[simp] theorem Core.setBank_out (k : Core) (n : Nat) (b : TrapBank) : (k.setBank n b).out = k.out := rfl
@[simp] theorem Core.setBank_violated (k : Core) (n : Nat) (b : TrapBank) : (k.setBank n b).violated = k.violated := rfl
@[simp] theorem Core.setBank_tried (k : Core) (n : Nat) (b : TrapBank) : (k.setBank n b).tried = k.tried := rfl
@[simp] theorem Core.setBank_fence (k : Core) (n : Nat) (b : TrapBank) : (k.setBank n b).fence = k.fence := rfl
@[simp] theorem Core.setBank_rels (k : Core) (n : Nat) (b : TrapBank) : (k.setBank n b).rels = k.rels := rfl
@[simp] theorem Core.setBank_seen (k : Core) (n : Nat) (b : TrapBank) : (k.setBank n b).seen = k.seen := rfl
@[simp] theorem Core.setBank_region (k : Core) (n : Nat) (b : TrapBank) : (k.setBank n b).region = k.region := rfl
@[simp] theorem Core.setBank_entries (k : Core) (n : Nat) (b : TrapBank) : (k.setBank n b).entries = k.entries := rfl
@[simp] theorem Core.setBank_counts (k : Core) (n : Nat) (b : TrapBank) : (k.setBank n b).counts = k.counts := rfl
@[simp] theorem Core.setBank_head (k : Core) (n : Nat) (b : TrapBank) : (k.setBank n b).head = k.head := rfl
@[simp] theorem Core.setBank_tail (k : Core) (n : Nat) (b : TrapBank) : (k.setBank n b).tail = k.tail := rfl
@[simp] theorem Core.setBank_recs (k : Core) (n : Nat) (b : TrapBank) : (k.setBank n b).recs = k.recs := rfl
@[simp] theorem Core.setBank_arms (k : Core) (n : Nat) (b : TrapBank) : (k.setBank n b).arms = k.arms := rfl
@[simp] theorem Core.setBank_stealing (k : Core) (n : Nat) (b : TrapBank) : (k.setBank n b).stealing = k.stealing := rfl
@[simp] theorem Core.setBank_streams (k : Core) (n : Nat) (b : TrapBank) : (k.setBank n b).streams = k.streams := rfl
@[simp] theorem Core.setBank_copies (k : Core) (n : Nat) (b : TrapBank) : (k.setBank n b).copies = k.copies := rfl
@[simp] theorem Core.setBank_copyDone (k : Core) (n : Nat) (b : TrapBank) : (k.setBank n b).copyDone = k.copyDone := rfl
@[simp] theorem Core.setBank_copyErr (k : Core) (n : Nat) (b : TrapBank) : (k.setBank n b).copyErr = k.copyErr := rfl
@[simp] theorem Core.setBank_copyDue (k : Core) (n : Nat) (b : TrapBank) : (k.setBank n b).copyDue = k.copyDue := rfl
@[simp] theorem Core.setBank_epochA (k : Core) (n : Nat) (b : TrapBank) : (k.setBank n b).epochA = k.epochA := rfl
@[simp] theorem Core.setBank_epochB (k : Core) (n : Nat) (b : TrapBank) : (k.setBank n b).epochB = k.epochB := rfl
@[simp] theorem Core.setBank_mq (k : Core) (n : Nat) (b : TrapBank) : (k.setBank n b).mq = k.mq := rfl
@[simp] theorem Core.setBank_schur (k : Core) (n : Nat) (b : TrapBank) : (k.setBank n b).schur = k.schur := rfl
@[simp] theorem Core.setBank_resq (k : Core) (n : Nat) (b : TrapBank) : (k.setBank n b).resq = k.resq := rfl
@[simp] theorem Core.setBank_builds (k : Core) (n : Nat) (b : TrapBank) : (k.setBank n b).builds = k.builds := rfl
@[simp] theorem Core.setBank_ctxList (k : Core) (n : Nat) (b : TrapBank) : (k.setBank n b).ctxList = k.ctxList := rfl
@[simp] theorem Core.setBank_armList (k : Core) (n : Nat) (b : TrapBank) : (k.setBank n b).armList = k.armList := rfl
@[simp] theorem Core.setBank_switching (k : Core) (n : Nat) (b : TrapBank) : (k.setBank n b).switching = k.switching :=
  rfl
@[simp] theorem Core.setBank_frozen (k : Core) (n : Nat) (b : TrapBank) : (k.setBank n b).frozen = k.frozen := rfl
@[simp] theorem Core.setBank_stop (k : Core) (n : Nat) (b : TrapBank) : (k.setBank n b).stop = k.stop := rfl
@[simp] theorem Core.setBank_safeMask (k : Core) (n : Nat) (b : TrapBank) : (k.setBank n b).safeMask = k.safeMask := rfl

/-! ### Core.write -/

@[simp] theorem Core.write_fenv (k : Core) (w : RegWrite) : (k.write w).fenv = k.fenv :=
  by cases w <;> simp [Core.write]
@[simp] theorem Core.write_lacnt (k : Core) (w : RegWrite) : (k.write w).lacnt = k.lacnt :=
  by cases w <;> simp [Core.write]
@[simp] theorem Core.write_sched (k : Core) (w : RegWrite) : (k.write w).sched = k.sched :=
  by cases w <;> simp [Core.write]
@[simp] theorem Core.write_lastch (k : Core) (w : RegWrite) : (k.write w).lastch = k.lastch :=
  by cases w <;> simp [Core.write]
@[simp] theorem Core.write_peerInh (k : Core) (w : RegWrite) : (k.write w).peerInh = k.peerInh :=
  by cases w <;> simp [Core.write]
@[simp] theorem Core.write_vl (k : Core) (w : RegWrite) : (k.write w).vl = k.vl := by cases w <;> simp [Core.write]
@[simp] theorem Core.write_floor (k : Core) (w : RegWrite) : (k.write w).floor = k.floor :=
  by cases w <;> simp [Core.write]
@[simp] theorem Core.write_iter (k : Core) (w : RegWrite) : (k.write w).iter = k.iter :=
  by cases w <;> simp [Core.write]
@[simp] theorem Core.write_idempc (k : Core) (w : RegWrite) : (k.write w).idempc = k.idempc :=
  by cases w <;> simp [Core.write]
@[simp] theorem Core.write_tlevel (k : Core) (w : RegWrite) : (k.write w).tlevel = k.tlevel :=
  by cases w <;> simp [Core.write]
@[simp] theorem Core.write_banks (k : Core) (w : RegWrite) : (k.write w).banks = k.banks :=
  by cases w <;> simp [Core.write]
@[simp] theorem Core.write_replays (k : Core) (w : RegWrite) : (k.write w).replays = k.replays :=
  by cases w <;> simp [Core.write]
@[simp] theorem Core.write_status (k : Core) (w : RegWrite) : (k.write w).status = k.status :=
  by cases w <;> simp [Core.write]
@[simp] theorem Core.write_pc (k : Core) (w : RegWrite) : (k.write w).pc = k.pc := by cases w <;> simp [Core.write]
@[simp] theorem Core.write_fetched (k : Core) (w : RegWrite) : (k.write w).fetched = k.fetched :=
  by cases w <;> simp [Core.write]
@[simp] theorem Core.write_npc (k : Core) (w : RegWrite) : (k.write w).npc = k.npc := by cases w <;> simp [Core.write]
@[simp] theorem Core.write_words (k : Core) (w : RegWrite) : (k.write w).words = k.words :=
  by cases w <;> simp [Core.write]
@[simp] theorem Core.write_fir (k : Core) (w : RegWrite) : (k.write w).fir = k.fir := by cases w <;> simp [Core.write]
@[simp] theorem Core.write_pend (k : Core) (w : RegWrite) : (k.write w).pend = k.pend :=
  by cases w <;> simp [Core.write]
@[simp] theorem Core.write_faults (k : Core) (w : RegWrite) : (k.write w).faults = k.faults :=
  by cases w <;> simp [Core.write]
@[simp] theorem Core.write_halt (k : Core) (w : RegWrite) : (k.write w).halt = k.halt :=
  by cases w <;> simp [Core.write]
@[simp] theorem Core.write_wait (k : Core) (w : RegWrite) : (k.write w).wait = k.wait :=
  by cases w <;> simp [Core.write]
@[simp] theorem Core.write_held (k : Core) (w : RegWrite) : (k.write w).held = k.held :=
  by cases w <;> simp [Core.write]
@[simp] theorem Core.write_replay (k : Core) (w : RegWrite) : (k.write w).replay = k.replay :=
  by cases w <;> simp [Core.write]
@[simp] theorem Core.write_rep (k : Core) (w : RegWrite) : (k.write w).rep = k.rep := by cases w <;> simp [Core.write]
@[simp] theorem Core.write_out (k : Core) (w : RegWrite) : (k.write w).out = k.out := by cases w <;> simp [Core.write]
@[simp] theorem Core.write_violated (k : Core) (w : RegWrite) : (k.write w).violated = k.violated :=
  by cases w <;> simp [Core.write]
@[simp] theorem Core.write_tried (k : Core) (w : RegWrite) : (k.write w).tried = k.tried :=
  by cases w <;> simp [Core.write]
@[simp] theorem Core.write_fence (k : Core) (w : RegWrite) : (k.write w).fence = k.fence :=
  by cases w <;> simp [Core.write]
@[simp] theorem Core.write_rels (k : Core) (w : RegWrite) : (k.write w).rels = k.rels :=
  by cases w <;> simp [Core.write]
@[simp] theorem Core.write_seen (k : Core) (w : RegWrite) : (k.write w).seen = k.seen :=
  by cases w <;> simp [Core.write]
@[simp] theorem Core.write_region (k : Core) (w : RegWrite) : (k.write w).region = k.region :=
  by cases w <;> simp [Core.write]
@[simp] theorem Core.write_entries (k : Core) (w : RegWrite) : (k.write w).entries = k.entries :=
  by cases w <;> simp [Core.write]
@[simp] theorem Core.write_counts (k : Core) (w : RegWrite) : (k.write w).counts = k.counts :=
  by cases w <;> simp [Core.write]
@[simp] theorem Core.write_head (k : Core) (w : RegWrite) : (k.write w).head = k.head :=
  by cases w <;> simp [Core.write]
@[simp] theorem Core.write_tail (k : Core) (w : RegWrite) : (k.write w).tail = k.tail :=
  by cases w <;> simp [Core.write]
@[simp] theorem Core.write_recs (k : Core) (w : RegWrite) : (k.write w).recs = k.recs :=
  by cases w <;> simp [Core.write]
@[simp] theorem Core.write_arms (k : Core) (w : RegWrite) : (k.write w).arms = k.arms :=
  by cases w <;> simp [Core.write]
@[simp] theorem Core.write_stealing (k : Core) (w : RegWrite) : (k.write w).stealing = k.stealing :=
  by cases w <;> simp [Core.write]
@[simp] theorem Core.write_streams (k : Core) (w : RegWrite) : (k.write w).streams = k.streams :=
  by cases w <;> simp [Core.write]
@[simp] theorem Core.write_copies (k : Core) (w : RegWrite) : (k.write w).copies = k.copies :=
  by cases w <;> simp [Core.write]
@[simp] theorem Core.write_copyDone (k : Core) (w : RegWrite) : (k.write w).copyDone = k.copyDone :=
  by cases w <;> simp [Core.write]
@[simp] theorem Core.write_copyErr (k : Core) (w : RegWrite) : (k.write w).copyErr = k.copyErr :=
  by cases w <;> simp [Core.write]
@[simp] theorem Core.write_copyDue (k : Core) (w : RegWrite) : (k.write w).copyDue = k.copyDue :=
  by cases w <;> simp [Core.write]
@[simp] theorem Core.write_epochA (k : Core) (w : RegWrite) : (k.write w).epochA = k.epochA :=
  by cases w <;> simp [Core.write]
@[simp] theorem Core.write_epochB (k : Core) (w : RegWrite) : (k.write w).epochB = k.epochB :=
  by cases w <;> simp [Core.write]
@[simp] theorem Core.write_mq (k : Core) (w : RegWrite) : (k.write w).mq = k.mq := by cases w <;> simp [Core.write]
@[simp] theorem Core.write_schur (k : Core) (w : RegWrite) : (k.write w).schur = k.schur :=
  by cases w <;> simp [Core.write]
@[simp] theorem Core.write_resq (k : Core) (w : RegWrite) : (k.write w).resq = k.resq :=
  by cases w <;> simp [Core.write]
@[simp] theorem Core.write_builds (k : Core) (w : RegWrite) : (k.write w).builds = k.builds :=
  by cases w <;> simp [Core.write]
@[simp] theorem Core.write_ctxList (k : Core) (w : RegWrite) : (k.write w).ctxList = k.ctxList :=
  by cases w <;> simp [Core.write]
@[simp] theorem Core.write_armList (k : Core) (w : RegWrite) : (k.write w).armList = k.armList :=
  by cases w <;> simp [Core.write]
@[simp] theorem Core.write_switching (k : Core) (w : RegWrite) : (k.write w).switching = k.switching :=
  by cases w <;> simp [Core.write]
@[simp] theorem Core.write_frozen (k : Core) (w : RegWrite) : (k.write w).frozen = k.frozen :=
  by cases w <;> simp [Core.write]
@[simp] theorem Core.write_stop (k : Core) (w : RegWrite) : (k.write w).stop = k.stop :=
  by cases w <;> simp [Core.write]
@[simp] theorem Core.write_safeMask (k : Core) (w : RegWrite) : (k.write w).safeMask = k.safeMask :=
  by cases w <;> simp [Core.write]

/-! ### Core.writeAll -/

@[simp] theorem Core.writeAll_fenv (k : Core) (l : List RegWrite) : (k.writeAll l).fenv = k.fenv :=
  by
  unfold Core.writeAll; induction l generalizing k <;> simp_all
@[simp] theorem Core.writeAll_lacnt (k : Core) (l : List RegWrite) : (k.writeAll l).lacnt = k.lacnt :=
  by
  unfold Core.writeAll; induction l generalizing k <;> simp_all
@[simp] theorem Core.writeAll_sched (k : Core) (l : List RegWrite) : (k.writeAll l).sched = k.sched :=
  by
  unfold Core.writeAll; induction l generalizing k <;> simp_all
@[simp] theorem Core.writeAll_lastch (k : Core) (l : List RegWrite) : (k.writeAll l).lastch = k.lastch :=
  by
  unfold Core.writeAll; induction l generalizing k <;> simp_all
@[simp] theorem Core.writeAll_peerInh (k : Core) (l : List RegWrite) : (k.writeAll l).peerInh = k.peerInh :=
  by
  unfold Core.writeAll; induction l generalizing k <;> simp_all
@[simp] theorem Core.writeAll_vl (k : Core) (l : List RegWrite) : (k.writeAll l).vl = k.vl :=
  by
  unfold Core.writeAll; induction l generalizing k <;> simp_all
@[simp] theorem Core.writeAll_floor (k : Core) (l : List RegWrite) : (k.writeAll l).floor = k.floor :=
  by
  unfold Core.writeAll; induction l generalizing k <;> simp_all
@[simp] theorem Core.writeAll_iter (k : Core) (l : List RegWrite) : (k.writeAll l).iter = k.iter :=
  by
  unfold Core.writeAll; induction l generalizing k <;> simp_all
@[simp] theorem Core.writeAll_idempc (k : Core) (l : List RegWrite) : (k.writeAll l).idempc = k.idempc :=
  by
  unfold Core.writeAll; induction l generalizing k <;> simp_all
@[simp] theorem Core.writeAll_tlevel (k : Core) (l : List RegWrite) : (k.writeAll l).tlevel = k.tlevel :=
  by
  unfold Core.writeAll; induction l generalizing k <;> simp_all
@[simp] theorem Core.writeAll_banks (k : Core) (l : List RegWrite) : (k.writeAll l).banks = k.banks :=
  by
  unfold Core.writeAll; induction l generalizing k <;> simp_all
@[simp] theorem Core.writeAll_replays (k : Core) (l : List RegWrite) : (k.writeAll l).replays = k.replays :=
  by
  unfold Core.writeAll; induction l generalizing k <;> simp_all
@[simp] theorem Core.writeAll_status (k : Core) (l : List RegWrite) : (k.writeAll l).status = k.status :=
  by
  unfold Core.writeAll; induction l generalizing k <;> simp_all
@[simp] theorem Core.writeAll_pc (k : Core) (l : List RegWrite) : (k.writeAll l).pc = k.pc :=
  by
  unfold Core.writeAll; induction l generalizing k <;> simp_all
@[simp] theorem Core.writeAll_fetched (k : Core) (l : List RegWrite) : (k.writeAll l).fetched = k.fetched :=
  by
  unfold Core.writeAll; induction l generalizing k <;> simp_all
@[simp] theorem Core.writeAll_npc (k : Core) (l : List RegWrite) : (k.writeAll l).npc = k.npc :=
  by
  unfold Core.writeAll; induction l generalizing k <;> simp_all
@[simp] theorem Core.writeAll_words (k : Core) (l : List RegWrite) : (k.writeAll l).words = k.words :=
  by
  unfold Core.writeAll; induction l generalizing k <;> simp_all
@[simp] theorem Core.writeAll_fir (k : Core) (l : List RegWrite) : (k.writeAll l).fir = k.fir :=
  by
  unfold Core.writeAll; induction l generalizing k <;> simp_all
@[simp] theorem Core.writeAll_pend (k : Core) (l : List RegWrite) : (k.writeAll l).pend = k.pend :=
  by
  unfold Core.writeAll; induction l generalizing k <;> simp_all
@[simp] theorem Core.writeAll_faults (k : Core) (l : List RegWrite) : (k.writeAll l).faults = k.faults :=
  by
  unfold Core.writeAll; induction l generalizing k <;> simp_all
@[simp] theorem Core.writeAll_halt (k : Core) (l : List RegWrite) : (k.writeAll l).halt = k.halt :=
  by
  unfold Core.writeAll; induction l generalizing k <;> simp_all
@[simp] theorem Core.writeAll_wait (k : Core) (l : List RegWrite) : (k.writeAll l).wait = k.wait :=
  by
  unfold Core.writeAll; induction l generalizing k <;> simp_all
@[simp] theorem Core.writeAll_held (k : Core) (l : List RegWrite) : (k.writeAll l).held = k.held :=
  by
  unfold Core.writeAll; induction l generalizing k <;> simp_all
@[simp] theorem Core.writeAll_replay (k : Core) (l : List RegWrite) : (k.writeAll l).replay = k.replay :=
  by
  unfold Core.writeAll; induction l generalizing k <;> simp_all
@[simp] theorem Core.writeAll_rep (k : Core) (l : List RegWrite) : (k.writeAll l).rep = k.rep :=
  by
  unfold Core.writeAll; induction l generalizing k <;> simp_all
@[simp] theorem Core.writeAll_out (k : Core) (l : List RegWrite) : (k.writeAll l).out = k.out :=
  by
  unfold Core.writeAll; induction l generalizing k <;> simp_all
@[simp] theorem Core.writeAll_violated (k : Core) (l : List RegWrite) : (k.writeAll l).violated = k.violated :=
  by
  unfold Core.writeAll; induction l generalizing k <;> simp_all
@[simp] theorem Core.writeAll_tried (k : Core) (l : List RegWrite) : (k.writeAll l).tried = k.tried :=
  by
  unfold Core.writeAll; induction l generalizing k <;> simp_all
@[simp] theorem Core.writeAll_fence (k : Core) (l : List RegWrite) : (k.writeAll l).fence = k.fence :=
  by
  unfold Core.writeAll; induction l generalizing k <;> simp_all
@[simp] theorem Core.writeAll_rels (k : Core) (l : List RegWrite) : (k.writeAll l).rels = k.rels :=
  by
  unfold Core.writeAll; induction l generalizing k <;> simp_all
@[simp] theorem Core.writeAll_seen (k : Core) (l : List RegWrite) : (k.writeAll l).seen = k.seen :=
  by
  unfold Core.writeAll; induction l generalizing k <;> simp_all
@[simp] theorem Core.writeAll_region (k : Core) (l : List RegWrite) : (k.writeAll l).region = k.region :=
  by
  unfold Core.writeAll; induction l generalizing k <;> simp_all
@[simp] theorem Core.writeAll_entries (k : Core) (l : List RegWrite) : (k.writeAll l).entries = k.entries :=
  by
  unfold Core.writeAll; induction l generalizing k <;> simp_all
@[simp] theorem Core.writeAll_counts (k : Core) (l : List RegWrite) : (k.writeAll l).counts = k.counts :=
  by
  unfold Core.writeAll; induction l generalizing k <;> simp_all
@[simp] theorem Core.writeAll_head (k : Core) (l : List RegWrite) : (k.writeAll l).head = k.head :=
  by
  unfold Core.writeAll; induction l generalizing k <;> simp_all
@[simp] theorem Core.writeAll_tail (k : Core) (l : List RegWrite) : (k.writeAll l).tail = k.tail :=
  by
  unfold Core.writeAll; induction l generalizing k <;> simp_all
@[simp] theorem Core.writeAll_recs (k : Core) (l : List RegWrite) : (k.writeAll l).recs = k.recs :=
  by
  unfold Core.writeAll; induction l generalizing k <;> simp_all
@[simp] theorem Core.writeAll_arms (k : Core) (l : List RegWrite) : (k.writeAll l).arms = k.arms :=
  by
  unfold Core.writeAll; induction l generalizing k <;> simp_all
@[simp] theorem Core.writeAll_stealing (k : Core) (l : List RegWrite) : (k.writeAll l).stealing = k.stealing :=
  by
  unfold Core.writeAll; induction l generalizing k <;> simp_all
@[simp] theorem Core.writeAll_streams (k : Core) (l : List RegWrite) : (k.writeAll l).streams = k.streams :=
  by
  unfold Core.writeAll; induction l generalizing k <;> simp_all
@[simp] theorem Core.writeAll_copies (k : Core) (l : List RegWrite) : (k.writeAll l).copies = k.copies :=
  by
  unfold Core.writeAll; induction l generalizing k <;> simp_all
@[simp] theorem Core.writeAll_copyDone (k : Core) (l : List RegWrite) : (k.writeAll l).copyDone = k.copyDone :=
  by
  unfold Core.writeAll; induction l generalizing k <;> simp_all
@[simp] theorem Core.writeAll_copyErr (k : Core) (l : List RegWrite) : (k.writeAll l).copyErr = k.copyErr :=
  by
  unfold Core.writeAll; induction l generalizing k <;> simp_all
@[simp] theorem Core.writeAll_copyDue (k : Core) (l : List RegWrite) : (k.writeAll l).copyDue = k.copyDue :=
  by
  unfold Core.writeAll; induction l generalizing k <;> simp_all
@[simp] theorem Core.writeAll_epochA (k : Core) (l : List RegWrite) : (k.writeAll l).epochA = k.epochA :=
  by
  unfold Core.writeAll; induction l generalizing k <;> simp_all
@[simp] theorem Core.writeAll_epochB (k : Core) (l : List RegWrite) : (k.writeAll l).epochB = k.epochB :=
  by
  unfold Core.writeAll; induction l generalizing k <;> simp_all
@[simp] theorem Core.writeAll_mq (k : Core) (l : List RegWrite) : (k.writeAll l).mq = k.mq :=
  by
  unfold Core.writeAll; induction l generalizing k <;> simp_all
@[simp] theorem Core.writeAll_schur (k : Core) (l : List RegWrite) : (k.writeAll l).schur = k.schur :=
  by
  unfold Core.writeAll; induction l generalizing k <;> simp_all
@[simp] theorem Core.writeAll_resq (k : Core) (l : List RegWrite) : (k.writeAll l).resq = k.resq :=
  by
  unfold Core.writeAll; induction l generalizing k <;> simp_all
@[simp] theorem Core.writeAll_builds (k : Core) (l : List RegWrite) : (k.writeAll l).builds = k.builds :=
  by
  unfold Core.writeAll; induction l generalizing k <;> simp_all
@[simp] theorem Core.writeAll_ctxList (k : Core) (l : List RegWrite) : (k.writeAll l).ctxList = k.ctxList :=
  by
  unfold Core.writeAll; induction l generalizing k <;> simp_all
@[simp] theorem Core.writeAll_armList (k : Core) (l : List RegWrite) : (k.writeAll l).armList = k.armList :=
  by
  unfold Core.writeAll; induction l generalizing k <;> simp_all
@[simp] theorem Core.writeAll_switching (k : Core) (l : List RegWrite) : (k.writeAll l).switching = k.switching :=
  by
  unfold Core.writeAll; induction l generalizing k <;> simp_all
@[simp] theorem Core.writeAll_frozen (k : Core) (l : List RegWrite) : (k.writeAll l).frozen = k.frozen :=
  by
  unfold Core.writeAll; induction l generalizing k <;> simp_all
@[simp] theorem Core.writeAll_stop (k : Core) (l : List RegWrite) : (k.writeAll l).stop = k.stop :=
  by
  unfold Core.writeAll; induction l generalizing k <;> simp_all
@[simp] theorem Core.writeAll_safeMask (k : Core) (l : List RegWrite) : (k.writeAll l).safeMask = k.safeMask :=
  by
  unfold Core.writeAll; induction l generalizing k <;> simp_all

end Sys2Proof.Machine
end

