-- ==== Sys2Proof/Laws/Tables.lean ====
section
/-! SUPPORT. Tables and memory: a read after a write, and the canonical form of memory, which every write keeps. -/

namespace Sys2Proof.Machine

/-! ### Tables -/

@[simp] theorem tabGet_nil {α : Type} (d : α) (k : Nat) : tabGet d [] k = d := rfl

/-- A key reads back what was written to it. -/
@[simp] theorem tabGet_tabSet_same {α : Type} (d : α) (t : Tab α) (k : Nat) (v : α) : tabGet d (tabSet t k v) k = v := by
  induction t with
  | nil => simp [tabSet, tabGet]
  | cons x t ih =>
    obtain ⟨j, w⟩ := x
    simp only [tabSet]
    split
    · simp [tabGet]
    · split
      · simp [tabGet]
      · rename_i h1 h2
        simp [tabGet, h1, h2, ih]

/-- Every other key reads as before. -/
@[simp] theorem tabGet_tabSet_other {α : Type} (d : α) (t : Tab α) (k j : Nat) (v : α) (h : j ≠ k) :
    tabGet d (tabSet t k v) j = tabGet d t j := by
  induction t with
  | nil => simp [tabSet, tabGet, Ne.symm h]
  | cons x t ih =>
    obtain ⟨i, w⟩ := x
    simp only [tabSet]
    split
    · rename_i e; subst e; simp only [tabGet]; split
      · omega
      · rfl
    · split
      · rename_i h1 h2
        simp only [tabGet]
        split
        · omega
        · split
          · rename_i h3 h4
            rw [if_neg (by omega), if_pos (by omega)]
          · rfl
      · simp only [tabGet]
        split
        · rfl
        · split
          · rfl
          · exact ih

/-- A second write to a key stands. -/
@[simp] theorem tabSet_tabSet {α : Type} (t : Tab α) (k : Nat) (v w : α) : tabSet (tabSet t k v) k w = tabSet t k w := by
  induction t with
  | nil => simp [tabSet]
  | cons x t ih =>
    obtain ⟨j, u⟩ := x
    simp only [tabSet]
    split
    · simp [tabSet]
    · split
      · simp [tabSet]
      · rename_i h1 h2
        simp [tabSet, h1, h2, ih]

/-! ### Memory -/

/-- The canonical form of memory, as a statement about its whole list. -/
theorem memWf_iff (m : List Host.Cell) :
    memWf m = true ↔ m.Pairwise (fun x y => x.1 < y.1) ∧ ∀ x ∈ m, x.2 ≠ memDefault := by
  induction m with
  | nil => simp [memWf]
  | cons x t ih =>
    obtain ⟨a, v⟩ := x
    cases t with
    | nil => simp [memWf]
    | cons y t =>
      obtain ⟨b, w⟩ := y
      simp only [memWf, Bool.and_eq_true, bne_iff_ne, ne_eq, decide_eq_true_eq, ih, List.pairwise_cons, List.mem_cons,
        forall_eq_or_imp]
      constructor
      · rintro ⟨⟨hv, hab⟩, ⟨hb, hp⟩, hw, hr⟩
        exact ⟨⟨⟨hab, fun z hz => Nat.lt_trans hab (hb z hz)⟩, hb, hp⟩, hv, hw, hr⟩
      · rintro ⟨⟨⟨hab, _⟩, hb, hp⟩, hv, hw, hr⟩
        exact ⟨⟨hv, hab⟩, ⟨hb, hp⟩, hw, hr⟩

theorem mem_tabSet {α : Type} (t : Tab α) (k : Nat) (v : α) (x : Nat × α) (h : x ∈ tabSet t k v) : x = (k, v) ∨ x ∈ t := by
  induction t with
  | nil => simp [tabSet] at h; exact .inl h
  | cons y t ih =>
    obtain ⟨j, w⟩ := y
    simp only [tabSet] at h
    split at h
    · simp only [List.mem_cons] at h ⊢; rcases h with h | h <;> simp [h]
    · split at h
      · simp only [List.mem_cons] at h ⊢; rcases h with h | h | h <;> simp [h]
      · simp only [List.mem_cons] at h ⊢
        rcases h with h | h
        · simp [h]
        · rcases ih h with h | h <;> simp [h]

theorem mem_tabDel {α : Type} (t : Tab α) (k : Nat) (x : Nat × α) (h : x ∈ tabDel t k) : x ∈ t := by
  induction t with
  | nil => simp [tabDel] at h
  | cons y t ih =>
    obtain ⟨j, w⟩ := y
    simp only [tabDel] at h
    split at h
    · simp [h]
    · split at h
      · exact h
      · simp only [List.mem_cons] at h ⊢
        rcases h with h | h
        · simp [h]
        · simp [ih h]

/-- Rising keys stay rising. -/
theorem tabSet_sorted {α : Type} (t : Tab α) (k : Nat) (v : α) (h : t.Pairwise (fun x y => x.1 < y.1)) :
    (tabSet t k v).Pairwise (fun x y => x.1 < y.1) := by
  induction t with
  | nil => simp [tabSet]
  | cons y t ih =>
    obtain ⟨j, w⟩ := y
    have h' := List.pairwise_cons.1 h
    simp only [tabSet]
    split
    · rename_i e; subst e; exact List.pairwise_cons.2 ⟨h'.1, h'.2⟩
    · split
      · rename_i h1 h2
        refine List.pairwise_cons.2 ⟨fun z hz => ?_, h⟩
        rcases List.mem_cons.1 hz with rfl | hz
        · exact h2
        · exact Nat.lt_trans h2 (h'.1 z hz)
      · rename_i h1 h2
        refine List.pairwise_cons.2 ⟨fun z hz => ?_, ih h'.2⟩
        rcases mem_tabSet t k v z hz with rfl | hz
        · show j < k; omega
        · exact h'.1 z hz

theorem tabDel_sorted {α : Type} (t : Tab α) (k : Nat) (h : t.Pairwise (fun x y => x.1 < y.1)) :
    (tabDel t k).Pairwise (fun x y => x.1 < y.1) := by
  induction t with
  | nil => simp [tabDel]
  | cons y t ih =>
    obtain ⟨j, w⟩ := y
    have h' := List.pairwise_cons.1 h
    simp only [tabDel]
    split
    · exact h'.2
    · split
      · exact h
      · exact List.pairwise_cons.2 ⟨fun z hz => h'.1 z (mem_tabDel t k z hz), ih h'.2⟩

theorem tabGet_above {α : Type} (d : α) (t : Tab α) (k : Nat) (h : ∀ x ∈ t, k < x.1) : tabGet d t k = d := by
  cases t with
  | nil => rfl
  | cons y t =>
    have := h y (by simp)
    obtain ⟨j, w⟩ := y
    simp only [tabGet]
    rw [if_neg (by simp at this; omega), if_pos (by simpa using this)]

theorem tabGet_tabDel {α : Type} (d : α) (t : Tab α) (k j : Nat) (h : t.Pairwise (fun x y => x.1 < y.1)) :
    tabGet d (tabDel t k) j = if j = k then d else tabGet d t j := by
  induction t with
  | nil => simp [tabDel, tabGet]
  | cons y t ih =>
    obtain ⟨i, w⟩ := y
    have h' := List.pairwise_cons.1 h
    simp only [tabDel]
    split
    · rename_i e; subst e
      split
      · rename_i e; subst e; exact tabGet_above d t j h'.1
      · simp only [tabGet]
        rw [if_neg (by omega)]
        split
        · exact tabGet_above d t j fun x hx => Nat.lt_trans (by assumption) (h'.1 x hx)
        · rfl
    · split
      · split
        · rename_i e; subst e
          exact tabGet_above d _ j fun x hx => by
            rcases List.mem_cons.1 hx with rfl | hx
            · assumption
            · exact Nat.lt_trans (by assumption) (h'.1 x hx)
        · rfl
      · simp only [tabGet]
        split
        · rw [if_neg (by omega)]
        · split
          · split <;> rfl
          · exact ih h'.2

/-- A write of one byte keeps the canonical form. -/
theorem memSet_wf (m : List Host.Cell) (a : Nat) (v : Byte) (h : memWf m = true) : memWf (memSet m a v) = true := by
  rw [memWf_iff] at h ⊢
  unfold memSet
  split
  · exact ⟨tabDel_sorted m a h.1, fun x hx => h.2 x (mem_tabDel m a x hx)⟩
  · refine ⟨tabSet_sorted m a v h.1, fun x hx => ?_⟩
    rcases mem_tabSet m a v x hx with rfl | hx
    · assumption
    · exact h.2 x hx

/-- A write of bytes keeps the canonical form. -/
theorem memSetBytes_wf (l : List Byte) (m : List Host.Cell) (a : Nat) (h : memWf m = true) :
    memWf (memSetBytes m a l) = true := by
  induction l generalizing m a with
  | nil => exact h
  | cons b t ih => exact ih _ _ (memSet_wf m a b h)

/-- A byte reads back what was written to it; every other byte reads as before. -/
theorem memGet_memSet (m : List Host.Cell) (a b : Nat) (v : Byte) (h : memWf m = true) :
    memGet (memSet m a v) b = if b = a then v else memGet m b := by
  have hs := ((memWf_iff m).1 h).1
  unfold memSet memGet
  split
  · rename_i e; subst e; exact tabGet_tabDel _ m a b hs
  · split
    · rename_i e; subst e; exact tabGet_tabSet_same _ _ _ _
    · exact tabGet_tabSet_other _ m a b v (by assumption)

/-- After a write of bytes, each byte of the range reads as written, and every other byte as before. -/
theorem memGet_memSetBytes (l : List Byte) (m : List Host.Cell) (a b : Nat) (h : memWf m = true) :
    memGet (memSetBytes m a l) b = if a ≤ b ∧ b < a + l.length then l.getD (b - a) 0 else memGet m b := by
  induction l generalizing m a with
  | nil => simp [memSetBytes] <;> omega
  | cons x t ih =>
    simp only [memSetBytes]
    rw [ih _ _ (memSet_wf m a x h), memGet_memSet m a b x h]
    by_cases hb : b = a
    · subst hb; simp <;> omega
    · simp only [if_neg hb, List.length_cons]
      by_cases h1 : a + 1 ≤ b ∧ b < a + 1 + t.length
      · rw [if_pos h1, if_pos (by omega)]
        obtain ⟨n, hn⟩ : ∃ n, b - a = n + 1 := ⟨b - a - 1, by omega⟩
        rw [hn, List.getD_cons_succ, show b - (a + 1) = n by omega]
      · rw [if_neg h1, if_neg (by omega)]

/-- A memory with some of its entries left out keeps the canonical form. -/
theorem memWf_filter (m : List Host.Cell) (f : Host.Cell → Bool) (h : memWf m = true) : memWf (m.filter f) = true := by
  rw [memWf_iff] at h ⊢
  exact ⟨h.1.filter f, fun x hx => h.2 x (List.mem_filter.1 hx).1⟩

end Sys2Proof.Machine
end

