-- ==== Sys2Proof/Laws/Ops.lean ====
section
/-! SUPPORT. What each shared operation can do, said once: the parts of the state read back after they were set, how a word
ends, and, for the operations on memory and messages, the only fields that each can change. -/

namespace Sys2Proof.Machine

/-! ### Parts read back -/

@[simp] theorem State.core_setCore (s : State) (c : Nat) (x : Core) : (s.setCore c x).core c = x := tabGet_tabSet_same _ _ _ _
@[simp] theorem State.core_setCore_other (s : State) (c d : Nat) (x : Core) (h : d ≠ c) : (s.setCore c x).core d = s.core d :=
  tabGet_tabSet_other _ _ _ _ _ h
@[simp] theorem State.setCore_setCore (s : State) (c : Nat) (x y : Core) : (s.setCore c x).setCore c y = s.setCore c y := by
  simp [State.setCore]
@[simp] theorem State.core_modCore (s : State) (c : Nat) (f : Core → Core) : (s.modCore c f).core c = f (s.core c) :=
  s.core_setCore c _
@[simp] theorem State.core_modCore_other (s : State) (c d : Nat) (f : Core → Core) (h : d ≠ c) :
    (s.modCore c f).core d = s.core d := s.core_setCore_other c d _ h
@[simp] theorem State.me_setCore (s : State) (x : Core) : (s.setCore s.cur x).me = x := s.core_setCore s.cur x
@[simp] theorem State.me_modMe (s : State) (f : Core → Core) : (s.modMe f).me = f s.me := s.core_modCore s.cur f
@[simp] theorem State.core_cur_modMe (s : State) (f : Core → Core) : (s.modMe f).core s.cur = f s.me := s.core_modCore s.cur f

@[simp] theorem State.cell_modCell (s : State) (n : Nat) (f : Cell → Cell) : (s.modCell n f).cell n = f (s.cell n) :=
  tabGet_tabSet_same _ _ _ _
@[simp] theorem State.cell_modCell_other (s : State) (n m : Nat) (f : Cell → Cell) (h : m ≠ n) :
    (s.modCell n f).cell m = s.cell m := tabGet_tabSet_other _ _ _ _ _ h
@[simp] theorem State.fn_modFn (s : State) (n : Nat) (f : Fn → Fn) : (s.modFn n f).fn n = f (s.fn n) := tabGet_tabSet_same _ _ _ _
@[simp] theorem State.fn_modFn_other (s : State) (n m : Nat) (f : Fn → Fn) (h : m ≠ n) : (s.modFn n f).fn m = s.fn m :=
  tabGet_tabSet_other _ _ _ _ _ h
@[simp] theorem State.port_modPort (s : State) (n : Nat) (f : Port → Port) : (s.modPort n f).port n = f (s.port n) :=
  tabGet_tabSet_same _ _ _ _

@[simp] theorem State.region_modRegion (s : State) (n : Nat) (f : Region → Region) :
    (s.modRegion n f).region n = (s.region n).map f := by
  unfold State.modRegion
  split <;> rename_i h
  · simp [h]
  · rw [h]; exact tabGet_tabSet_same _ _ _ _
@[simp] theorem State.region_modRegion_other (s : State) (n m : Nat) (f : Region → Region) (h : m ≠ n) :
    (s.modRegion n f).region m = s.region m := by
  unfold State.modRegion
  split
  · rfl
  · exact tabGet_tabSet_other _ _ _ _ _ h
@[simp] theorem State.barrier_modBarrier (s : State) (n : Nat) (f : Barrier → Barrier) :
    (s.modBarrier n f).barrier n = (s.barrier n).map f := by
  unfold State.modBarrier
  split <;> rename_i h
  · simp [h]
  · rw [h]; exact tabGet_tabSet_same _ _ _ _
@[simp] theorem State.barrier_modBarrier_other (s : State) (n m : Nat) (f : Barrier → Barrier) (h : m ≠ n) :
    (s.modBarrier n f).barrier m = s.barrier m := by
  unfold State.modBarrier
  split
  · rfl
  · exact tabGet_tabSet_other _ _ _ _ _ h
@[simp] theorem State.dict_modDict (s : State) (n : Nat) (f : Dict → Dict) : (s.modDict n f).dict n = (s.dict n).map f := by
  unfold State.modDict
  split <;> rename_i h
  · simp [h]
  · rw [h]; exact tabGet_tabSet_same _ _ _ _

@[simp] theorem vget_vset {α : Type} {n : Nat} (d : α) (v : Vector α n) (i : Nat) (x : α) (h : i < n) :
    vget d (vset v i x) i = x := by simp [vget, vset, h]
theorem vget_vset_other {α : Type} {n : Nat} (d : α) (v : Vector α n) (i j : Nat) (x : α) (h : j ≠ i) :
    vget d (vset v i x) j = vget d v j := by
  unfold vget vset
  by_cases hj : j < n
  · by_cases hi : i < n
    · simp [hj, hi, Ne.symm h]
    · simp [hj, hi]
  · simp [hj]

/-! ### Registers -/

/-- A register reads back what was written to it, but for `g0`, which reads as 0 (R1); the others read as before. -/
theorem Core.g_setG (k : Core) (r q : Reg) (v : Dword) : (k.setG r v).g q = if q = r ∧ r ≠ 0 then v else k.g q := by
  have e (k' : Core) (q : Reg) : k'.g q = if q = 0 then 0 else k'.regs.g[q.toNat]'(q.isLt) := rfl
  by_cases hr : r = 0
  · have h : k.setG r v = k := if_pos hr
    rw [h, if_neg (fun h : q = r ∧ r ≠ 0 => h.2 hr)]
  · have hs : (k.setG r v).regs.g = k.regs.g.set r.toNat v r.isLt := by rw [Core.setG, if_neg hr]
    rw [e, e]
    by_cases hq : q = 0
    · rw [if_pos hq, if_neg (fun h : q = r ∧ r ≠ 0 => hr (h.1.symm.trans hq)), if_pos hq]
    · rw [if_neg hq, if_neg hq]
      simp only [hs]
      by_cases h : q = r
      · subst h
        exact (Vector.getElem_set_self _).trans (if_pos ⟨rfl, hr⟩).symm
      · rw [if_neg (fun h' : q = r ∧ r ≠ 0 => h h'.1)]
        exact Vector.getElem_set_ne _ _ (fun e => h (BitVec.eq_of_toNat_eq e.symm))
@[simp] theorem Core.g_zero (k : Core) : k.g 0 = 0 := by simp [Core.g]

/-! ### How a word ends -/

/-- A word that traps answers a next state. -/
theorem State.trapWord_next (s : State) (word la : Nat) (i : Instr) (k : TrapKind) (c : Nat) (v : Dword) :
    ∃ t, s.trapWord word la i k c v = .next t := by
  unfold State.trapWord
  dsimp only
  split
  · exact ⟨_, rfl⟩
  · split <;> exact ⟨_, rfl⟩

/-- A word always answers a next state. -/
theorem deliver_next (word la : Nat) (i : Instr) (s : State) (r : Res) : ∃ t, deliver word la i s r = .next t := by
  unfold deliver
  cases r with
  | ok t => exact ⟨_, rfl⟩
  | hold t => exact ⟨_, rfl⟩
  | illegal c d => dsimp only; split <;> exact ⟨_, rfl⟩
  | trap k c v => exact s.trapWord_next word la i k c v
  | trapIn t k c v => exact t.trapWord_next word la i k c v

@[simp] theorem deliver_ok (word la : Nat) (i : Instr) (s t : State) :
    deliver word la i s (.ok t) = .next (t.modMe fun k => { k with out := .ok, wait := none }) := rfl
@[simp] theorem deliver_hold (word la : Nat) (i : Instr) (s t : State) :
    deliver word la i s (.hold t) = .next (t.modMe fun k => { k with out := .hold }) := rfl
@[simp] theorem deliver_core (word la : Nat) (i : Instr) (s : State) (f : Core → Core) :
    deliver word la i s (.core s f) = .next (s.modMe fun k => { f k with out := .ok, wait := none }) := by
  show Host.Outcome.next ((s.modMe f).modMe _) = _
  have h1 : (s.modMe f).me = f s.me := State.me_modMe s f
  have h2 : (s.modMe f).cur = s.cur := rfl
  simp only [State.modMe, State.modCore] at *
  simp [State.core, State.setCore]

@[simp] theorem deliver_trap (word la : Nat) (i : Instr) (s : State) (k : TrapKind) (c : Nat) (v : Dword) :
    deliver word la i s (.trap k c v) = s.trapWord word la i k c v := rfl
@[simp] theorem deliver_trapIn (word la : Nat) (i : Instr) (s t : State) (k : TrapKind) (c : Nat) (v : Dword) :
    deliver word la i s (.trapIn t k c v) = t.trapWord word la i k c v := rfl

/-- A trap after issue, outside a replay: it is noted, and nothing else happens. -/
theorem State.trapWord_after (s : State) (word la : Nat) (i : Instr) (c : Nat) (v : Dword) :
    s.trapWord word la i .afterIssue c v =
      .next (s.modMe fun k => { k with out := .ok, wait := none, faults := k.faults ++ [⟨.afterIssue, c, v, s.me.issued word la i⟩] }) := by
  simp [State.trapWord]

/-- A trap of another kind, outside a replay: it is noted, and taken where nothing of the firing is pending. -/
theorem State.trapWord_at (s : State) (word la : Nat) (i : Instr) (kind : TrapKind) (c : Nat) (v : Dword)
    (hk : kind ≠ .afterIssue) (hr : s.me.replay = none) :
    s.trapWord word la i kind c v =
      let t := s.modMe fun k => { k with out := .trapped, wait := none, faults := k.faults ++ [⟨kind, c, v, s.me.issued word la i⟩] }
      .next (if s.me.settled then t.takeFirst s.cur else t) := by
  simp only [State.trapWord, hk, hr]
  by_cases h : s.me.settled <;> simp [h]

@[simp] theorem State.drained_pending (s : State) (r : Res) (h : s.me.pend ≠ []) : s.drained r = .hold s := by
  simp [State.drained, List.isEmpty_iff, h]
@[simp] theorem State.drained_none (s : State) (r : Res) (h : s.me.pend = []) : s.drained r = r := by simp [State.drained, h]
@[simp] theorem State.unlessSpec_spec (s : State) (r : Res) (h : s.me.fir.spec = true) :
    s.unlessSpec r = .trap .atIssue 0x0309 0 := by simp [State.unlessSpec, h]
@[simp] theorem State.unlessSpec_plain (s : State) (r : Res) (h : s.me.fir.spec = false) : s.unlessSpec r = r := by
  simp [State.unlessSpec, h]

/-! ### The fields that an operation can change -/

/-- A counter alone. -/
theorem State.bump_eq (s : State) (kind unit idx n : Nat) : ∃ c, s.bump kind unit idx n = { s with counters := c } := by
  unfold State.bump; split
  · exact ⟨_, rfl⟩
  · exact ⟨_, rfl⟩

/-- A read finds errors: marks of corrected doublewords, and counters. -/
theorem State.noteRead_eq (s : State) (d : Nat) : ∃ f c, s.noteRead d = { s with soft := f, counters := c } := by
  unfold State.noteRead
  split
  · exact ⟨_, _, rfl⟩
  · split
    · obtain ⟨c, h⟩ := State.bump_eq s _ _ 1 1; exact ⟨_, c, h⟩
    · split
      · obtain ⟨c, h⟩ := State.bump_eq { s with soft := s.soft.filter (· ≠ d) } _ _ 0 1; exact ⟨_, c, h⟩
      · exact ⟨_, _, rfl⟩

/-- A fold of steps each of which keeps a relation to the first state, itself reflexive and transitive, keeps it. -/
theorem foldl_rel {α β : Type} (R : α → α → Prop) (refl : ∀ a, R a a) (trans : ∀ a b c, R a b → R b c → R a c)
    (f : α → β → α) (step : ∀ a b, R a (f a b)) (l : List β) (a : α) : R a (l.foldl f a) := by
  induction l generalizing a with
  | nil => exact refl a
  | cons b t ih => exact trans a (f a b) _ (step a b) (ih _)

theorem State.noteReads_eq (s : State) (l : List Nat) : ∃ f c, s.noteReads l = { s with soft := f, counters := c } :=
  foldl_rel (fun a b => ∃ f c, b = { a with soft := f, counters := c }) (fun _ => ⟨_, _, rfl⟩)
    (fun _ _ _ ⟨_, _, h⟩ ⟨f, c, h'⟩ => ⟨f, c, by rw [h', h]⟩) _ (fun a d => State.noteRead_eq a d) l s

/-- A write of bytes meets errors: memory, their marks, and counters; a canonical memory stays so. -/
theorem State.eccWrite_eq (s : State) (key n : Nat) : ∃ m b f c, s.eccWrite key n = { s with mem := m, bad := b, soft := f, counters := c } ∧
    (memWf s.mem = true → memWf m = true) ∧ (s.bad = [] → m = s.mem ∧ b = []) := by
  unfold State.eccWrite
  have step (key n : Nat) (a : State) (d : Nat) : ∃ m b f c,
      (let whole : Bool := key ≤ d && d + 8 ≤ key + n
       let t := if whole && a.soft.contains d then { a with soft := a.soft.filter (· ≠ d) } else a
       if t.bad.contains d then
         let t := { t with bad := t.bad.filter (· ≠ d), mem := memSetBytes t.mem d (List.replicate 8 0) }
         if whole then t
         else match eccUnit d with
           | some (kind, unit) => t.bump kind unit 1
           | none => t
       else t) = { a with mem := m, bad := b, soft := f, counters := c } ∧
      (memWf a.mem = true → memWf m = true) ∧ (a.bad = [] → m = a.mem ∧ b = []) := by
    by_cases hw : (decide (key ≤ d) && decide (d + 8 ≤ key + n)) = true <;> by_cases hs : a.soft.contains d = true <;>
      by_cases hb : a.bad.contains d = true <;> simp only [hw, hs, hb, Bool.true_and, Bool.false_and, if_true, if_false, Bool.false_eq_true]
    all_goals first
      | exact ⟨_, _, _, _, rfl, fun h => memSetBytes_wf _ _ _ h, fun h => by simp [h] at hb⟩
      | exact ⟨_, _, _, _, rfl, fun h => h, fun h => ⟨rfl, h⟩⟩
      | (cases eccUnit d with
         | none => exact ⟨_, _, _, _, rfl, fun h => memSetBytes_wf _ _ _ h, fun h => by simp [h] at hb⟩
         | some x =>
           obtain ⟨c, h⟩ := State.bump_eq { a with bad := a.bad.filter (· ≠ d), mem := memSetBytes a.mem d (List.replicate 8 0) } x.1 x.2 1 1
           exact ⟨_, _, _, c, h, fun h => memSetBytes_wf _ _ _ h, fun h => by simp [h] at hb⟩)
  refine foldl_rel (fun (a b : State) => ∃ m p f c, b = { a with mem := m, bad := p, soft := f, counters := c } ∧
    (memWf a.mem = true → memWf m = true) ∧ (a.bad = [] → m = a.mem ∧ p = [])) ?_ ?_ _ (step key n) _ s
  · exact fun a => ⟨_, _, _, _, rfl, id, fun h => ⟨rfl, h⟩⟩
  · rintro a b c ⟨m, p, f, n, rfl, h1, h2⟩ ⟨m', p', f', n', rfl, h3, h4⟩
    exact ⟨m', p', f', n', rfl, fun h => h3 (h1 h), fun h => by
      obtain ⟨e, e'⟩ := h2 h
      obtain ⟨e1, e2⟩ := h4 e'
      exact ⟨e1.trans e, e2⟩⟩

/-- A write may set CONFLICT of a cell. -/
theorem State.conflictWrite_eq (s : State) (key n : Nat) : ∃ c, s.conflictWrite key n = { s with cells := c } := by
  unfold State.conflictWrite
  refine foldl_rel (fun (a b : State) => ∃ c, b = { a with cells := c }) (fun _ => ⟨_, rfl⟩) ?_ _ ?_ _ s
  · rintro a b c ⟨_, rfl⟩ ⟨c', rfl⟩; exact ⟨c', rfl⟩
  · intro a i
    split
    · split <;> exact ⟨_, rfl⟩
    · exact ⟨_, rfl⟩

/-- Bytes that take the place of others: memory, what stood there before, and the writes that gave it. -/
theorem State.overwrite_eq (s : State) (key : Nat) (l : List Byte) :
    ∃ p h, s.overwrite key l = { s with mem := memSetBytes s.mem key l, past := p, hist := h } := by
  unfold State.overwrite; split <;> exact ⟨_, _, rfl⟩

/-- Bytes put at their home: memory, its errors, what stood there and the writes that gave it, counters and CONFLICT, and nothing
else; memory stays canonical. -/
theorem State.putBytes_eq (s : State) (key : Nat) (l : List Byte) : ∃ m b f c d p x,
    s.putBytes key l = { s with mem := m, bad := b, soft := f, counters := c, cells := d, past := p, hist := x } ∧
      (memWf s.mem = true → memWf m = true) := by
  unfold State.putBytes
  split
  · exact ⟨_, _, _, _, _, _, _, rfl, id⟩
  · generalize (if spaceOf key = 1 then l.take (0x1F_C000 - sramOff key) else l) = l'
    obtain ⟨m, b, f, c, h, hw, _⟩ := State.eccWrite_eq s key l'.length
    obtain ⟨d, h'⟩ := State.conflictWrite_eq (s.eccWrite key l'.length) key l'.length
    obtain ⟨p, x, hp⟩ := State.overwrite_eq ((s.eccWrite key l'.length).conflictWrite key l'.length) key l'
    exact ⟨memSetBytes m key l', b, f, c, d, p, x, by rw [hp, h', h], fun hm => memSetBytes_wf _ _ key (hw hm)⟩

theorem State.putQueue_eq (s : State) (key : Nat) (l : List Byte) : ∃ m b f c p x,
    s.putQueue key l = { s with mem := m, bad := b, soft := f, counters := c, past := p, hist := x } ∧ (memWf s.mem = true → memWf m = true) := by
  obtain ⟨m, b, f, c, h, hw, _⟩ := State.eccWrite_eq s key l.length
  obtain ⟨p, x, hp⟩ := State.overwrite_eq (s.eccWrite key l.length) key l
  exact ⟨memSetBytes m key l, b, f, c, p, x, by rw [State.putQueue, hp, h], fun hm => memSetBytes_wf _ _ key (hw hm)⟩

/-- A region's field changed. -/
theorem State.modRegion_eq (s : State) (n : Nat) (f : Region → Region) : ∃ r, s.modRegion n f = { s with regions := r } := by
  unfold State.modRegion; split <;> exact ⟨_, rfl⟩

end Sys2Proof.Machine
end

