-- ==== Sys2Proof/Laws/PerInstr.lean ====
section
/-! SUPPORT. What holds of every instruction, one lemma per constructor. -/

namespace Sys2Proof.Laws.Encoded

/-- Whether an instruction has a word in the encoding tables: each word A and word B has one, the steps of the rest of the
device have none; a word B takes no literal. -/
def Statement (i : Instr) : Prop :=
  (encode i).isSome = decide (i.slot ≠ .noWord) ∧ (i.slot ≠ .wordA → i.literal = none)

theorem nopA : Statement (.nopA) := ⟨rfl, fun _ => rfl⟩
theorem endFiring (lit : Option Word) : Statement (.endFiring lit) := ⟨rfl, fun h => absurd rfl h⟩
theorem endrFiring (lit : Option Word) : Statement (.endrFiring lit) := ⟨rfl, fun h => absurd rfl h⟩
theorem ret (lit : Option Word) : Statement (.ret lit) := ⟨rfl, fun h => absurd rfl h⟩
theorem jmpi (lit : Option Word) (a : BitVec 5) : Statement (.jmpi lit a) := ⟨rfl, fun h => absurd rfl h⟩
theorem spec (lit : Option Word) (d : BitVec 5) : Statement (.spec lit d) := ⟨rfl, fun h => absurd rfl h⟩
theorem scommit (lit : Option Word) (d : BitVec 5) : Statement (.scommit lit d) := ⟨rfl, fun h => absurd rfl h⟩
theorem sabort (lit : Option Word) : Statement (.sabort lit) := ⟨rfl, fun h => absurd rfl h⟩
theorem selb (lit : Option Word) (a : BitVec 5) : Statement (.selb lit a) := ⟨rfl, fun h => absurd rfl h⟩
theorem prio (lit : Option Word) (c : BitVec 2) : Statement (.prio lit c) := ⟨rfl, fun h => absurd rfl h⟩
theorem safe : Statement (.safe) := ⟨rfl, fun _ => rfl⟩
theorem safeL (a : BitVec 5) (b : BitVec 5) (c : BitVec 5) (lit : Word) : Statement (.safeL a b c lit) := ⟨rfl, fun h => absurd rfl h⟩
theorem idem (lit : Option Word) : Statement (.idem lit) := ⟨rfl, fun h => absurd rfl h⟩
theorem beq (lit : Option Word) (a : BitVec 5) (b : BitVec 5) (d : BitVec 12) : Statement (.beq lit a b d) := ⟨rfl, fun h => absurd rfl h⟩
theorem bne (lit : Option Word) (a : BitVec 5) (b : BitVec 5) (d : BitVec 12) : Statement (.bne lit a b d) := ⟨rfl, fun h => absurd rfl h⟩
theorem blt (lit : Option Word) (a : BitVec 5) (b : BitVec 5) (d : BitVec 12) : Statement (.blt lit a b d) := ⟨rfl, fun h => absurd rfl h⟩
theorem bge (lit : Option Word) (a : BitVec 5) (b : BitVec 5) (d : BitVec 12) : Statement (.bge lit a b d) := ⟨rfl, fun h => absurd rfl h⟩
theorem bltu (lit : Option Word) (a : BitVec 5) (b : BitVec 5) (d : BitVec 12) : Statement (.bltu lit a b d) := ⟨rfl, fun h => absurd rfl h⟩
theorem bgeu (lit : Option Word) (a : BitVec 5) (b : BitVec 5) (d : BitVec 12) : Statement (.bgeu lit a b d) := ⟨rfl, fun h => absurd rfl h⟩
theorem bz (lit : Option Word) (a : BitVec 5) (d : BitVec 12) : Statement (.bz lit a d) := ⟨rfl, fun h => absurd rfl h⟩
theorem bnz (lit : Option Word) (a : BitVec 5) (d : BitVec 12) : Statement (.bnz lit a d) := ⟨rfl, fun h => absurd rfl h⟩
theorem jmp (lit : Option Word) (d : BitVec 25) : Statement (.jmp lit d) := ⟨rfl, fun h => absurd rfl h⟩
theorem call (lit : Option Word) (d : BitVec 25) : Statement (.call lit d) := ⟨rfl, fun h => absurd rfl h⟩
theorem fork (lit : Option Word) (d : BitVec 25) : Statement (.fork lit d) := ⟨rfl, fun h => absurd rfl h⟩
theorem join (lit : Option Word) (a : BitVec 5) (d : BitVec 12) : Statement (.join lit a d) := ⟨rfl, fun h => absurd rfl h⟩
theorem rep (a : BitVec 5) (x : BitVec 1) (y : BitVec 1) (z : BitVec 1) (s : BitVec 4) : Statement (.rep a x y z s) := ⟨rfl, fun _ => rfl⟩
theorem mfs (lit : Option Word) (d : BitVec 5) (c : BitVec 4) (n : BitVec 11) : Statement (.mfs lit d c n) := ⟨rfl, fun h => absurd rfl h⟩
theorem mts (lit : Option Word) (a : BitVec 5) (n : BitVec 11) : Statement (.mts lit a n) := ⟨rfl, fun h => absurd rfl h⟩
theorem lclaim (lit : Option Word) (d : BitVec 5) (a : BitVec 5) (c : BitVec 4) (f : BitVec 6) : Statement (.lclaim lit d a c f) := ⟨rfl, fun h => absurd rfl h⟩
theorem lrel (lit : Option Word) (a : BitVec 5) : Statement (.lrel lit a) := ⟨rfl, fun h => absurd rfl h⟩
theorem mqwait (lit : Option Word) (a : BitVec 5) (b : BitVec 5) : Statement (.mqwait lit a b) := ⟨rfl, fun h => absurd rfl h⟩
theorem ld (lit : Option Word) (t : BitVec 5) (b : BitVec 5) (c : BitVec 4) (i : BitVec 1) (z : BitVec 2) (o : BitVec 8) : Statement (.ld lit t b c i z o) := ⟨rfl, fun h => absurd rfl h⟩
theorem lds (lit : Option Word) (t : BitVec 5) (b : BitVec 5) (c : BitVec 4) (i : BitVec 1) (z : BitVec 2) (o : BitVec 8) : Statement (.lds lit t b c i z o) := ⟨rfl, fun h => absurd rfl h⟩
theorem st (lit : Option Word) (t : BitVec 5) (b : BitVec 5) (c : BitVec 4) (z : BitVec 2) (o : BitVec 8) : Statement (.st lit t b c z o) := ⟨rfl, fun h => absurd rfl h⟩
theorem vld (lit : Option Word) (t : BitVec 5) (b : BitVec 5) (c : BitVec 4) (i : BitVec 1) (o : BitVec 8) : Statement (.vld lit t b c i o) := ⟨rfl, fun h => absurd rfl h⟩
theorem vst (lit : Option Word) (t : BitVec 5) (b : BitVec 5) (c : BitVec 4) (p : BitVec 3) (o : BitVec 8) : Statement (.vst lit t b c p o) := ⟨rfl, fun h => absurd rfl h⟩
theorem lda (lit : Option Word) (d : BitVec 5) (b : BitVec 5) (c : BitVec 4) (s : BitVec 4) (z : BitVec 2) : Statement (.lda lit d b c s z) := ⟨rfl, fun h => absurd rfl h⟩
theorem stl (lit : Option Word) (a : BitVec 5) (b : BitVec 5) (s : BitVec 4) (z : BitVec 2) : Statement (.stl lit a b s z) := ⟨rfl, fun h => absurd rfl h⟩
theorem fence (lit : Option Word) (s : BitVec 4) (k : BitVec 2) : Statement (.fence lit s k) := ⟨rfl, fun h => absurd rfl h⟩
theorem aadd (lit : Option Word) (a : BitVec 5) (b : BitVec 5) (c : BitVec 4) (s : BitVec 3) (o : BitVec 2) (z : BitVec 1) : Statement (.aadd lit a b c s o z) := ⟨rfl, fun h => absurd rfl h⟩
theorem aswap (lit : Option Word) (a : BitVec 5) (b : BitVec 5) (c : BitVec 4) (s : BitVec 3) (o : BitVec 2) (z : BitVec 1) : Statement (.aswap lit a b c s o z) := ⟨rfl, fun h => absurd rfl h⟩
theorem acas (lit : Option Word) (a : BitVec 5) (b : BitVec 5) (c : BitVec 4) (s : BitVec 3) (o : BitVec 2) (z : BitVec 1) : Statement (.acas lit a b c s o z) := ⟨rfl, fun h => absurd rfl h⟩
theorem amin (lit : Option Word) (a : BitVec 5) (b : BitVec 5) (c : BitVec 4) (s : BitVec 3) (o : BitVec 2) (z : BitVec 1) : Statement (.amin lit a b c s o z) := ⟨rfl, fun h => absurd rfl h⟩
theorem amax (lit : Option Word) (a : BitVec 5) (b : BitVec 5) (c : BitVec 4) (s : BitVec 3) (o : BitVec 2) (z : BitVec 1) : Statement (.amax lit a b c s o z) := ⟨rfl, fun h => absurd rfl h⟩
theorem aand (lit : Option Word) (a : BitVec 5) (b : BitVec 5) (c : BitVec 4) (s : BitVec 3) (o : BitVec 2) (z : BitVec 1) : Statement (.aand lit a b c s o z) := ⟨rfl, fun h => absurd rfl h⟩
theorem aor (lit : Option Word) (a : BitVec 5) (b : BitVec 5) (c : BitVec 4) (s : BitVec 3) (o : BitVec 2) (z : BitVec 1) : Statement (.aor lit a b c s o z) := ⟨rfl, fun h => absurd rfl h⟩
theorem axor (lit : Option Word) (a : BitVec 5) (b : BitVec 5) (c : BitVec 4) (s : BitVec 3) (o : BitVec 2) (z : BitVec 1) : Statement (.axor lit a b c s o z) := ⟨rfl, fun h => absurd rfl h⟩
theorem gather (d : BitVec 5) (b : BitVec 5) (c : BitVec 4) (z : BitVec 2) (i : BitVec 4) : Statement (.gather d b c z i) := ⟨rfl, fun _ => rfl⟩
theorem scadd (a : BitVec 5) (b : BitVec 5) (c : BitVec 4) (z : BitVec 2) (i : BitVec 4) : Statement (.scadd a b c z i) := ⟨rfl, fun _ => rfl⟩
theorem tinv (a : BitVec 5) (x : BitVec 1) : Statement (.tinv a x) := ⟨rfl, fun _ => rfl⟩
theorem pref (lit : Option Word) (b : BitVec 5) : Statement (.pref lit b) := ⟨rfl, fun h => absurd rfl h⟩
theorem sbind (lit : Option Word) (s : BitVec 5) (b : BitVec 5) (u : BitVec 1) (k : BitVec 2) : Statement (.sbind lit s b u k) := ⟨rfl, fun h => absurd rfl h⟩
theorem sfree (lit : Option Word) (s : BitVec 5) : Statement (.sfree lit s) := ⟨rfl, fun h => absurd rfl h⟩
theorem sstat (lit : Option Word) (d : BitVec 5) (s : BitVec 5) : Statement (.sstat lit d s) := ⟨rfl, fun h => absurd rfl h⟩
theorem xpush (lit : Option Word) (a : BitVec 5) (c : BitVec 5) : Statement (.xpush lit a c) := ⟨rfl, fun h => absurd rfl h⟩
theorem xtry (lit : Option Word) (a : BitVec 5) (d : BitVec 5) (c : BitVec 5) : Statement (.xtry lit a d c) := ⟨rfl, fun h => absurd rfl h⟩
theorem xstat (lit : Option Word) (d : BitVec 5) : Statement (.xstat lit d) := ⟨rfl, fun h => absurd rfl h⟩
theorem send (lit : Option Word) (t : BitVec 5) (a : BitVec 5) (e : BitVec 4) (c : BitVec 5) : Statement (.send lit t a e c) := ⟨rfl, fun h => absurd rfl h⟩
theorem sendv (lit : Option Word) (t : BitVec 5) (s : BitVec 5) (e : BitVec 4) (c : BitVec 5) : Statement (.sendv lit t s e c) := ⟨rfl, fun h => absurd rfl h⟩
theorem recv (lit : Option Word) (d : BitVec 5) (e : BitVec 4) (c : BitVec 5) : Statement (.recv lit d e c) := ⟨rfl, fun h => absurd rfl h⟩
theorem peek (lit : Option Word) (d : BitVec 5) (e : BitVec 4) (c : BitVec 5) : Statement (.peek lit d e c) := ⟨rfl, fun h => absurd rfl h⟩
theorem chen (lit : Option Word) (d : BitVec 5) (a : BitVec 5) : Statement (.chen lit d a) := ⟨rfl, fun h => absurd rfl h⟩
theorem chdis (lit : Option Word) (d : BitVec 5) (a : BitVec 5) : Statement (.chdis lit d a) := ⟨rfl, fun h => absurd rfl h⟩
theorem chpnd (lit : Option Word) (d : BitVec 5) (a : BitVec 5) (m : BitVec 2) : Statement (.chpnd lit d a m) := ⟨rfl, fun h => absurd rfl h⟩
theorem waitw (lit : Option Word) (a : BitVec 5) (b : BitVec 5) (c : BitVec 4) (s : BitVec 4) (k : BitVec 2) : Statement (.waitw lit a b c s k) := ⟨rfl, fun h => absurd rfl h⟩
theorem armw (lit : Option Word) (a : BitVec 5) (b : BitVec 5) : Statement (.armw lit a b) := ⟨rfl, fun h => absurd rfl h⟩
theorem depdec (lit : Option Word) (b : BitVec 5) (s : BitVec 4) : Statement (.depdec lit b s) := ⟨rfl, fun h => absurd rfl h⟩
theorem depset (lit : Option Word) (a : BitVec 5) (b : BitVec 5) (s : BitVec 4) (k : BitVec 2) : Statement (.depset lit a b s k) := ⟨rfl, fun h => absurd rfl h⟩
theorem senda (lit : Option Word) (t : BitVec 5) (s : BitVec 5) (e : BitVec 4) (c : BitVec 5) : Statement (.senda lit t s e c) := ⟨rfl, fun h => absurd rfl h⟩
theorem encx (lit : Option Word) (d : BitVec 5) (s : BitVec 5) (e : BitVec 4) (c : BitVec 5) : Statement (.encx lit d s e c) := ⟨rfl, fun h => absurd rfl h⟩
theorem dinst (lit : Option Word) (d : BitVec 5) (a : BitVec 5) (e : BitVec 4) (c : BitVec 5) : Statement (.dinst lit d a e c) := ⟨rfl, fun h => absurd rfl h⟩
theorem dstat (lit : Option Word) (d : BitVec 5) (e : BitVec 4) (c : BitVec 5) : Statement (.dstat lit d e c) := ⟨rfl, fun h => absurd rfl h⟩
theorem imres (lit : Option Word) (d : BitVec 5) (m : BitVec 5) (e : BitVec 4) (b : BitVec 5) : Statement (.imres lit d m e b) := ⟨rfl, fun h => absurd rfl h⟩
theorem drepl (lit : Option Word) (d : BitVec 5) (a : BitVec 5) (e : BitVec 4) (c : BitVec 5) : Statement (.drepl lit d a e c) := ⟨rfl, fun h => absurd rfl h⟩
theorem dsync (lit : Option Word) (d : BitVec 5) (b : BitVec 5) (e : BitVec 4) (c : BitVec 5) : Statement (.dsync lit d b e c) := ⟨rfl, fun h => absurd rfl h⟩
theorem holdr (lit : Option Word) (d : BitVec 5) (e : BitVec 4) (c : BitVec 5) : Statement (.holdr lit d e c) := ⟨rfl, fun h => absurd rfl h⟩
theorem migrate (lit : Option Word) (a : BitVec 5) (c : BitVec 5) : Statement (.migrate lit a c) := ⟨rfl, fun h => absurd rfl h⟩
theorem spawn (lit : Option Word) (d : BitVec 5) (a : BitVec 5) (e : BitVec 4) (c : BitVec 5) : Statement (.spawn lit d a e c) := ⟨rfl, fun h => absurd rfl h⟩
theorem ctxld (lit : Option Word) (d : BitVec 5) (e : BitVec 4) (c : BitVec 5) : Statement (.ctxld lit d e c) := ⟨rfl, fun h => absurd rfl h⟩
theorem gjoin (lit : Option Word) (d : BitVec 5) (a : BitVec 5) (e : BitVec 4) (c : BitVec 5) : Statement (.gjoin lit d a e c) := ⟨rfl, fun h => absurd rfl h⟩
theorem gelim (lit : Option Word) (d : BitVec 5) (e : BitVec 4) : Statement (.gelim lit d e) := ⟨rfl, fun h => absurd rfl h⟩
theorem gdamp (lit : Option Word) (d : BitVec 5) (e : BitVec 4) : Statement (.gdamp lit d e) := ⟨rfl, fun h => absurd rfl h⟩
theorem gsend (lit : Option Word) (d : BitVec 5) (e : BitVec 4) : Statement (.gsend lit d e) := ⟨rfl, fun h => absurd rfl h⟩
theorem gbel (lit : Option Word) (d : BitVec 5) (a : BitVec 5) (e : BitVec 4) : Statement (.gbel lit d a e) := ⟨rfl, fun h => absurd rfl h⟩
theorem barr (lit : Option Word) (a : BitVec 5) (b : BitVec 5) (c : BitVec 4) : Statement (.barr lit a b c) := ⟨rfl, fun h => absurd rfl h⟩
theorem barrInit (lit : Option Word) (a : BitVec 5) (b : BitVec 5) (c : BitVec 4) : Statement (.barrInit lit a b c) := ⟨rfl, fun h => absurd rfl h⟩
theorem barrFree (lit : Option Word) (a : BitVec 5) (b : BitVec 5) (c : BitVec 4) : Statement (.barrFree lit a b c) := ⟨rfl, fun h => absurd rfl h⟩
theorem barrDump (lit : Option Word) (a : BitVec 5) (b : BitVec 5) (c : BitVec 4) : Statement (.barrDump lit a b c) := ⟨rfl, fun h => absurd rfl h⟩
theorem bwait (lit : Option Word) (a : BitVec 5) (b : BitVec 5) : Statement (.bwait lit a b) := ⟨rfl, fun h => absurd rfl h⟩
theorem bstat (lit : Option Word) (d : BitVec 5) (b : BitVec 5) (c : BitVec 4) (s : BitVec 1) (m : BitVec 5) : Statement (.bstat lit d b c s m) := ⟨rfl, fun h => absurd rfl h⟩
theorem ttake (lit : Option Word) (d : BitVec 5) (b : BitVec 5) (c : BitVec 4) : Statement (.ttake lit d b c) := ⟨rfl, fun h => absurd rfl h⟩
theorem tsteal (lit : Option Word) (d : BitVec 5) (b : BitVec 5) (c : BitVec 4) (m : BitVec 5) : Statement (.tsteal lit d b c m) := ⟨rfl, fun h => absurd rfl h⟩
theorem tdone (lit : Option Word) (d : BitVec 5) (b : BitVec 5) (c : BitVec 4) : Statement (.tdone lit d b c) := ⟨rfl, fun h => absurd rfl h⟩
theorem trap (lit : Option Word) (a : BitVec 5) (n : BitVec 6) : Statement (.trap lit a n) := ⟨rfl, fun h => absurd rfl h⟩
theorem tret (lit : Option Word) : Statement (.tret lit) := ⟨rfl, fun h => absurd rfl h⟩
theorem brk (lit : Option Word) (n : BitVec 6) : Statement (.brk lit n) := ⟨rfl, fun h => absurd rfl h⟩
theorem halt (lit : Option Word) (a : BitVec 5) : Statement (.halt lit a) := ⟨rfl, fun h => absurd rfl h⟩
theorem hwinr (lit : Option Word) (d : BitVec 5) (b : BitVec 5) (c : BitVec 4) : Statement (.hwinr lit d b c) := ⟨rfl, fun h => absurd rfl h⟩
theorem hwinw (lit : Option Word) (a : BitVec 5) (b : BitVec 5) : Statement (.hwinw lit a b) := ⟨rfl, fun h => absurd rfl h⟩
theorem hresume (lit : Option Word) (a : BitVec 5) (b : BitVec 5) : Statement (.hresume lit a b) := ⟨rfl, fun h => absurd rfl h⟩
theorem ckill (lit : Option Word) (b : BitVec 5) (r : BitVec 1) : Statement (.ckill lit b r) := ⟨rfl, fun h => absurd rfl h⟩
theorem nopB : Statement (.nopB) := ⟨rfl, fun _ => rfl⟩
theorem add (d : BitVec 5) (a : BitVec 5) (b : BitVec 5) (c : BitVec 4) (w : BitVec 2) : Statement (.add d a b c w) := ⟨rfl, fun _ => rfl⟩
theorem sub (d : BitVec 5) (a : BitVec 5) (b : BitVec 5) (c : BitVec 4) (w : BitVec 2) : Statement (.sub d a b c w) := ⟨rfl, fun _ => rfl⟩
theorem and (d : BitVec 5) (a : BitVec 5) (b : BitVec 5) (c : BitVec 4) (w : BitVec 2) : Statement (.and d a b c w) := ⟨rfl, fun _ => rfl⟩
theorem or (d : BitVec 5) (a : BitVec 5) (b : BitVec 5) (c : BitVec 4) (w : BitVec 2) : Statement (.or d a b c w) := ⟨rfl, fun _ => rfl⟩
theorem xor (d : BitVec 5) (a : BitVec 5) (b : BitVec 5) (c : BitVec 4) (w : BitVec 2) : Statement (.xor d a b c w) := ⟨rfl, fun _ => rfl⟩
theorem andn (d : BitVec 5) (a : BitVec 5) (b : BitVec 5) (c : BitVec 4) (w : BitVec 2) : Statement (.andn d a b c w) := ⟨rfl, fun _ => rfl⟩
theorem shl (d : BitVec 5) (a : BitVec 5) (b : BitVec 5) (c : BitVec 4) (w : BitVec 2) : Statement (.shl d a b c w) := ⟨rfl, fun _ => rfl⟩
theorem shr (d : BitVec 5) (a : BitVec 5) (b : BitVec 5) (c : BitVec 4) (w : BitVec 2) : Statement (.shr d a b c w) := ⟨rfl, fun _ => rfl⟩
theorem sar (d : BitVec 5) (a : BitVec 5) (b : BitVec 5) (c : BitVec 4) (w : BitVec 2) : Statement (.sar d a b c w) := ⟨rfl, fun _ => rfl⟩
theorem rol (d : BitVec 5) (a : BitVec 5) (b : BitVec 5) (c : BitVec 4) (w : BitVec 2) : Statement (.rol d a b c w) := ⟨rfl, fun _ => rfl⟩
theorem min (d : BitVec 5) (a : BitVec 5) (b : BitVec 5) (c : BitVec 4) (w : BitVec 2) : Statement (.min d a b c w) := ⟨rfl, fun _ => rfl⟩
theorem max (d : BitVec 5) (a : BitVec 5) (b : BitVec 5) (c : BitVec 4) (w : BitVec 2) : Statement (.max d a b c w) := ⟨rfl, fun _ => rfl⟩
theorem minu (d : BitVec 5) (a : BitVec 5) (b : BitVec 5) (c : BitVec 4) (w : BitVec 2) : Statement (.minu d a b c w) := ⟨rfl, fun _ => rfl⟩
theorem maxu (d : BitVec 5) (a : BitVec 5) (b : BitVec 5) (c : BitVec 4) (w : BitVec 2) : Statement (.maxu d a b c w) := ⟨rfl, fun _ => rfl⟩
theorem slt (d : BitVec 5) (a : BitVec 5) (b : BitVec 5) (c : BitVec 4) (w : BitVec 2) : Statement (.slt d a b c w) := ⟨rfl, fun _ => rfl⟩
theorem sltu (d : BitVec 5) (a : BitVec 5) (b : BitVec 5) (c : BitVec 4) (w : BitVec 2) : Statement (.sltu d a b c w) := ⟨rfl, fun _ => rfl⟩
theorem sel (d : BitVec 5) (a : BitVec 5) (b : BitVec 5) (c : BitVec 4) (w : BitVec 2) : Statement (.sel d a b c w) := ⟨rfl, fun _ => rfl⟩
theorem clz (d : BitVec 5) (a : BitVec 5) (c : BitVec 4) (w : BitVec 2) : Statement (.clz d a c w) := ⟨rfl, fun _ => rfl⟩
theorem ctz (d : BitVec 5) (a : BitVec 5) (c : BitVec 4) (w : BitVec 2) : Statement (.ctz d a c w) := ⟨rfl, fun _ => rfl⟩
theorem popc (d : BitVec 5) (a : BitVec 5) (c : BitVec 4) (w : BitVec 2) : Statement (.popc d a c w) := ⟨rfl, fun _ => rfl⟩
theorem bswap (d : BitVec 5) (a : BitVec 5) (c : BitVec 4) (w : BitVec 2) : Statement (.bswap d a c w) := ⟨rfl, fun _ => rfl⟩
theorem extr (d : BitVec 5) (a : BitVec 5) (b : BitVec 5) (c : BitVec 4) (w : BitVec 2) : Statement (.extr d a b c w) := ⟨rfl, fun _ => rfl⟩
theorem insb (d : BitVec 5) (a : BitVec 5) (b : BitVec 5) (c : BitVec 4) (w : BitVec 2) : Statement (.insb d a b c w) := ⟨rfl, fun _ => rfl⟩
theorem lea (d : BitVec 5) (a : BitVec 5) (b : BitVec 5) (c : BitVec 4) (w : BitVec 2) : Statement (.lea d a b c w) := ⟨rfl, fun _ => rfl⟩
theorem mul (d : BitVec 5) (a : BitVec 5) (b : BitVec 5) (c : BitVec 4) (w : BitVec 2) : Statement (.mul d a b c w) := ⟨rfl, fun _ => rfl⟩
theorem mulh (d : BitVec 5) (a : BitVec 5) (b : BitVec 5) (c : BitVec 4) (w : BitVec 2) : Statement (.mulh d a b c w) := ⟨rfl, fun _ => rfl⟩
theorem mulhu (d : BitVec 5) (a : BitVec 5) (b : BitVec 5) (c : BitVec 4) (w : BitVec 2) : Statement (.mulhu d a b c w) := ⟨rfl, fun _ => rfl⟩
theorem div (d : BitVec 5) (a : BitVec 5) (b : BitVec 5) (c : BitVec 4) (w : BitVec 2) : Statement (.div d a b c w) := ⟨rfl, fun _ => rfl⟩
theorem divu (d : BitVec 5) (a : BitVec 5) (b : BitVec 5) (c : BitVec 4) (w : BitVec 2) : Statement (.divu d a b c w) := ⟨rfl, fun _ => rfl⟩
theorem rem (d : BitVec 5) (a : BitVec 5) (b : BitVec 5) (c : BitVec 4) (w : BitVec 2) : Statement (.rem d a b c w) := ⟨rfl, fun _ => rfl⟩
theorem remu (d : BitVec 5) (a : BitVec 5) (b : BitVec 5) (c : BitVec 4) (w : BitVec 2) : Statement (.remu d a b c w) := ⟨rfl, fun _ => rfl⟩
theorem fadd (d : BitVec 5) (a : BitVec 5) (b : BitVec 5) (c : BitVec 4) (w : BitVec 2) : Statement (.fadd d a b c w) := ⟨rfl, fun _ => rfl⟩
theorem fsub (d : BitVec 5) (a : BitVec 5) (b : BitVec 5) (c : BitVec 4) (w : BitVec 2) : Statement (.fsub d a b c w) := ⟨rfl, fun _ => rfl⟩
theorem fmul (d : BitVec 5) (a : BitVec 5) (b : BitVec 5) (c : BitVec 4) (w : BitVec 2) : Statement (.fmul d a b c w) := ⟨rfl, fun _ => rfl⟩
theorem ffma (d : BitVec 5) (a : BitVec 5) (b : BitVec 5) (c : BitVec 4) (w : BitVec 2) : Statement (.ffma d a b c w) := ⟨rfl, fun _ => rfl⟩
theorem fdiv (d : BitVec 5) (a : BitVec 5) (b : BitVec 5) (c : BitVec 4) (w : BitVec 2) : Statement (.fdiv d a b c w) := ⟨rfl, fun _ => rfl⟩
theorem fsqrt (d : BitVec 5) (a : BitVec 5) (c : BitVec 4) (w : BitVec 2) : Statement (.fsqrt d a c w) := ⟨rfl, fun _ => rfl⟩
theorem fmin (d : BitVec 5) (a : BitVec 5) (b : BitVec 5) (c : BitVec 4) (w : BitVec 2) : Statement (.fmin d a b c w) := ⟨rfl, fun _ => rfl⟩
theorem fmax (d : BitVec 5) (a : BitVec 5) (b : BitVec 5) (c : BitVec 4) (w : BitVec 2) : Statement (.fmax d a b c w) := ⟨rfl, fun _ => rfl⟩
theorem fcmpEq (d : BitVec 5) (a : BitVec 5) (b : BitVec 5) (c : BitVec 4) (w : BitVec 2) : Statement (.fcmpEq d a b c w) := ⟨rfl, fun _ => rfl⟩
theorem fcmpLt (d : BitVec 5) (a : BitVec 5) (b : BitVec 5) (c : BitVec 4) (w : BitVec 2) : Statement (.fcmpLt d a b c w) := ⟨rfl, fun _ => rfl⟩
theorem fcmpLe (d : BitVec 5) (a : BitVec 5) (b : BitVec 5) (c : BitVec 4) (w : BitVec 2) : Statement (.fcmpLe d a b c w) := ⟨rfl, fun _ => rfl⟩
theorem fcvt (d : BitVec 5) (a : BitVec 5) (b : BitVec 5) (c : BitVec 4) (w : BitVec 2) : Statement (.fcvt d a b c w) := ⟨rfl, fun _ => rfl⟩
theorem fclass (d : BitVec 5) (a : BitVec 5) (c : BitVec 4) (w : BitVec 2) : Statement (.fclass d a c w) := ⟨rfl, fun _ => rfl⟩
theorem addi (d : BitVec 5) (a : BitVec 5) (i : BitVec 16) : Statement (.addi d a i) := ⟨rfl, fun _ => rfl⟩
theorem andi (d : BitVec 5) (a : BitVec 5) (i : BitVec 16) : Statement (.andi d a i) := ⟨rfl, fun _ => rfl⟩
theorem ori (d : BitVec 5) (a : BitVec 5) (i : BitVec 16) : Statement (.ori d a i) := ⟨rfl, fun _ => rfl⟩
theorem xori (d : BitVec 5) (a : BitVec 5) (i : BitVec 16) : Statement (.xori d a i) := ⟨rfl, fun _ => rfl⟩
theorem shli (d : BitVec 5) (a : BitVec 5) (n : BitVec 6) : Statement (.shli d a n) := ⟨rfl, fun _ => rfl⟩
theorem shri (d : BitVec 5) (a : BitVec 5) (n : BitVec 6) : Statement (.shri d a n) := ⟨rfl, fun _ => rfl⟩
theorem sari (d : BitVec 5) (a : BitVec 5) (n : BitVec 6) : Statement (.sari d a n) := ⟨rfl, fun _ => rfl⟩
theorem lui (d : BitVec 5) (i : BitVec 16) : Statement (.lui d i) := ⟨rfl, fun _ => rfl⟩
theorem vadd (d : BitVec 5) (a : BitVec 5) (b : BitVec 5) (p : BitVec 3) (c : BitVec 4) (t : BitVec 4) : Statement (.vadd d a b p c t) := ⟨rfl, fun _ => rfl⟩
theorem vsub (d : BitVec 5) (a : BitVec 5) (b : BitVec 5) (p : BitVec 3) (c : BitVec 4) (t : BitVec 4) : Statement (.vsub d a b p c t) := ⟨rfl, fun _ => rfl⟩
theorem vmul (d : BitVec 5) (a : BitVec 5) (b : BitVec 5) (p : BitVec 3) (c : BitVec 4) (t : BitVec 4) : Statement (.vmul d a b p c t) := ⟨rfl, fun _ => rfl⟩
theorem vmadd (d : BitVec 5) (a : BitVec 5) (b : BitVec 5) (p : BitVec 3) (c : BitVec 4) (t : BitVec 4) : Statement (.vmadd d a b p c t) := ⟨rfl, fun _ => rfl⟩
theorem vmin (d : BitVec 5) (a : BitVec 5) (b : BitVec 5) (p : BitVec 3) (c : BitVec 4) (t : BitVec 4) : Statement (.vmin d a b p c t) := ⟨rfl, fun _ => rfl⟩
theorem vmax (d : BitVec 5) (a : BitVec 5) (b : BitVec 5) (p : BitVec 3) (c : BitVec 4) (t : BitVec 4) : Statement (.vmax d a b p c t) := ⟨rfl, fun _ => rfl⟩
theorem vand (d : BitVec 5) (a : BitVec 5) (b : BitVec 5) (p : BitVec 3) (c : BitVec 4) : Statement (.vand d a b p c) := ⟨rfl, fun _ => rfl⟩
theorem vor (d : BitVec 5) (a : BitVec 5) (b : BitVec 5) (p : BitVec 3) (c : BitVec 4) : Statement (.vor d a b p c) := ⟨rfl, fun _ => rfl⟩
theorem vxor (d : BitVec 5) (a : BitVec 5) (b : BitVec 5) (p : BitVec 3) (c : BitVec 4) : Statement (.vxor d a b p c) := ⟨rfl, fun _ => rfl⟩
theorem vshl (d : BitVec 5) (a : BitVec 5) (b : BitVec 5) (p : BitVec 3) (c : BitVec 4) (t : BitVec 4) : Statement (.vshl d a b p c t) := ⟨rfl, fun _ => rfl⟩
theorem vshr (d : BitVec 5) (a : BitVec 5) (b : BitVec 5) (p : BitVec 3) (c : BitVec 4) (t : BitVec 4) : Statement (.vshr d a b p c t) := ⟨rfl, fun _ => rfl⟩
theorem vsar (d : BitVec 5) (a : BitVec 5) (b : BitVec 5) (p : BitVec 3) (c : BitVec 4) (t : BitVec 4) : Statement (.vsar d a b p c t) := ⟨rfl, fun _ => rfl⟩
theorem vabs (d : BitVec 5) (a : BitVec 5) (p : BitVec 3) (c : BitVec 4) (t : BitVec 4) : Statement (.vabs d a p c t) := ⟨rfl, fun _ => rfl⟩
theorem vneg (d : BitVec 5) (a : BitVec 5) (p : BitVec 3) (c : BitVec 4) (t : BitVec 4) : Statement (.vneg d a p c t) := ⟨rfl, fun _ => rfl⟩
theorem vsadd (d : BitVec 5) (a : BitVec 5) (b : BitVec 5) (p : BitVec 3) (c : BitVec 4) (t : BitVec 4) : Statement (.vsadd d a b p c t) := ⟨rfl, fun _ => rfl⟩
theorem vfadd (d : BitVec 5) (a : BitVec 5) (b : BitVec 5) (p : BitVec 3) (c : BitVec 4) (t : BitVec 4) : Statement (.vfadd d a b p c t) := ⟨rfl, fun _ => rfl⟩
theorem vfsub (d : BitVec 5) (a : BitVec 5) (b : BitVec 5) (p : BitVec 3) (c : BitVec 4) (t : BitVec 4) : Statement (.vfsub d a b p c t) := ⟨rfl, fun _ => rfl⟩
theorem vfmul (d : BitVec 5) (a : BitVec 5) (b : BitVec 5) (p : BitVec 3) (c : BitVec 4) (t : BitVec 4) : Statement (.vfmul d a b p c t) := ⟨rfl, fun _ => rfl⟩
theorem vfma (d : BitVec 5) (a : BitVec 5) (b : BitVec 5) (p : BitVec 3) (c : BitVec 4) (t : BitVec 4) : Statement (.vfma d a b p c t) := ⟨rfl, fun _ => rfl⟩
theorem vfdiv (d : BitVec 5) (a : BitVec 5) (b : BitVec 5) (p : BitVec 3) (c : BitVec 4) (t : BitVec 4) : Statement (.vfdiv d a b p c t) := ⟨rfl, fun _ => rfl⟩
theorem vfsqrt (d : BitVec 5) (a : BitVec 5) (p : BitVec 3) (c : BitVec 4) (t : BitVec 4) : Statement (.vfsqrt d a p c t) := ⟨rfl, fun _ => rfl⟩
theorem vfmin (d : BitVec 5) (a : BitVec 5) (b : BitVec 5) (p : BitVec 3) (c : BitVec 4) (t : BitVec 4) : Statement (.vfmin d a b p c t) := ⟨rfl, fun _ => rfl⟩
theorem vfmax (d : BitVec 5) (a : BitVec 5) (b : BitVec 5) (p : BitVec 3) (c : BitVec 4) (t : BitVec 4) : Statement (.vfmax d a b p c t) := ⟨rfl, fun _ => rfl⟩
theorem vdot4 (d : BitVec 5) (a : BitVec 5) (b : BitVec 5) (p : BitVec 3) (c : BitVec 4) (t : BitVec 4) : Statement (.vdot4 d a b p c t) := ⟨rfl, fun _ => rfl⟩
theorem vred (d : BitVec 5) (a : BitVec 5) (p : BitVec 3) (c : BitVec 4) (t : BitVec 4) : Statement (.vred d a p c t) := ⟨rfl, fun _ => rfl⟩
theorem vcmp (d : BitVec 5) (a : BitVec 5) (b : BitVec 5) (p : BitVec 3) (c : BitVec 4) (t : BitVec 4) : Statement (.vcmp d a b p c t) := ⟨rfl, fun _ => rfl⟩
theorem vsel (d : BitVec 5) (a : BitVec 5) (b : BitVec 5) (p : BitVec 3) (c : BitVec 4) (t : BitVec 4) : Statement (.vsel d a b p c t) := ⟨rfl, fun _ => rfl⟩
theorem vcvt (d : BitVec 5) (a : BitVec 5) (p : BitVec 3) (c : BitVec 4) (t : BitVec 4) : Statement (.vcvt d a p c t) := ⟨rfl, fun _ => rfl⟩
theorem vqnt (d : BitVec 5) (a : BitVec 5) (c : BitVec 4) (t : BitVec 4) : Statement (.vqnt d a c t) := ⟨rfl, fun _ => rfl⟩
theorem vdqn (d : BitVec 5) (a : BitVec 5) (c : BitVec 4) (t : BitVec 4) : Statement (.vdqn d a c t) := ⟨rfl, fun _ => rfl⟩
theorem vperm (d : BitVec 5) (a : BitVec 5) (b : BitVec 5) (p : BitVec 3) (c : BitVec 4) (t : BitVec 4) : Statement (.vperm d a b p c t) := ⟨rfl, fun _ => rfl⟩
theorem vbcast (d : BitVec 5) (a : BitVec 5) (p : BitVec 3) (c : BitVec 4) (t : BitVec 4) : Statement (.vbcast d a p c t) := ⟨rfl, fun _ => rfl⟩
theorem vmovs (d : BitVec 5) (a : BitVec 5) (c : BitVec 4) (t : BitVec 4) : Statement (.vmovs d a c t) := ⟨rfl, fun _ => rfl⟩
theorem vinss (d : BitVec 5) (a : BitVec 5) (b : BitVec 5) (p : BitVec 3) (c : BitVec 4) (t : BitVec 4) : Statement (.vinss d a b p c t) := ⟨rfl, fun _ => rfl⟩
theorem vtopk (d : BitVec 5) (a : BitVec 5) (b : BitVec 5) (p : BitVec 3) (c : BitVec 4) (t : BitVec 4) : Statement (.vtopk d a b p c t) := ⟨rfl, fun _ => rfl⟩
theorem vcmpr (d : BitVec 5) (a : BitVec 5) (p : BitVec 3) (c : BitVec 4) (t : BitVec 4) : Statement (.vcmpr d a p c t) := ⟨rfl, fun _ => rfl⟩
theorem vhash (d : BitVec 5) (a : BitVec 5) (p : BitVec 3) (c : BitVec 4) (t : BitVec 4) : Statement (.vhash d a p c t) := ⟨rfl, fun _ => rfl⟩
theorem vbcmp (d : BitVec 5) (a : BitVec 5) (b : BitVec 5) (p : BitVec 3) (c : BitVec 4) (t : BitVec 4) : Statement (.vbcmp d a b p c t) := ⟨rfl, fun _ => rfl⟩
theorem imacc (d : BitVec 5) (p : BitVec 3) (c : BitVec 4) : Statement (.imacc d p c) := ⟨rfl, fun _ => rfl⟩
theorem pand (d : BitVec 5) (a : BitVec 5) (b : BitVec 5) (c : BitVec 4) : Statement (.pand d a b c) := ⟨rfl, fun _ => rfl⟩
theorem por (d : BitVec 5) (a : BitVec 5) (b : BitVec 5) (c : BitVec 4) : Statement (.por d a b c) := ⟨rfl, fun _ => rfl⟩
theorem pxor (d : BitVec 5) (a : BitVec 5) (b : BitVec 5) (c : BitVec 4) : Statement (.pxor d a b c) := ⟨rfl, fun _ => rfl⟩
theorem pnot (d : BitVec 5) (a : BitVec 5) (c : BitVec 4) : Statement (.pnot d a c) := ⟨rfl, fun _ => rfl⟩
theorem pcnt (d : BitVec 5) (a : BitVec 5) (c : BitVec 4) : Statement (.pcnt d a c) := ⟨rfl, fun _ => rfl⟩
theorem pset (d : BitVec 5) (c : BitVec 4) : Statement (.pset d c) := ⟨rfl, fun _ => rfl⟩
theorem mzero (core : Nat) : Statement (.mzero core) := ⟨rfl, fun _ => rfl⟩
theorem mlda (core : Nat) : Statement (.mlda core) := ⟨rfl, fun _ => rfl⟩
theorem mma (core : Nat) : Statement (.mma core) := ⟨rfl, fun _ => rfl⟩
theorem msta (core : Nat) : Statement (.msta core) := ⟨rfl, fun _ => rfl⟩
theorem imgb (core : Nat) : Statement (.imgb core) := ⟨rfl, fun _ => rfl⟩
theorem mfence (core : Nat) : Statement (.mfence core) := ⟨rfl, fun _ => rfl⟩
theorem msig (core : Nat) : Statement (.msig core) := ⟨rfl, fun _ => rfl⟩
theorem matrixCommandComplete (core : Nat) : Statement (.matrixCommandComplete core) := ⟨rfl, fun _ => rfl⟩
theorem mqctlWrite (core : Nat) (val : Dword) : Statement (.mqctlWrite core val) := ⟨rfl, fun _ => rfl⟩
theorem matrixLinkTimeout (core : Nat) : Statement (.matrixLinkTimeout core) := ⟨rfl, fun _ => rfl⟩
theorem identify (fn : Nat) : Statement (.identify fn) := ⟨rfl, fun _ => rfl⟩
theorem attest (fn : Nat) : Statement (.attest fn) := ⟨rfl, fun _ => rfl⟩
theorem loadImage (fn : Nat) : Statement (.loadImage fn) := ⟨rfl, fun _ => rfl⟩
theorem createRegion (fn : Nat) : Statement (.createRegion fn) := ⟨rfl, fun _ => rfl⟩
theorem launch (fn : Nat) : Statement (.launch fn) := ⟨rfl, fun _ => rfl⟩
theorem signal (fn : Nat) : Statement (.signal fn) := ⟨rfl, fun _ => rfl⟩
theorem query (fn : Nat) : Statement (.query fn) := ⟨rfl, fun _ => rfl⟩
theorem kill (fn : Nat) : Statement (.kill fn) := ⟨rfl, fun _ => rfl⟩
theorem fenceDie (fn : Nat) : Statement (.fenceDie fn) := ⟨rfl, fun _ => rfl⟩
theorem setDictionary (fn : Nat) : Statement (.setDictionary fn) := ⟨rfl, fun _ => rfl⟩
theorem readCounters (fn : Nat) : Statement (.readCounters fn) := ⟨rfl, fun _ => rfl⟩
theorem readLifetime (fn : Nat) : Statement (.readLifetime fn) := ⟨rfl, fun _ => rfl⟩
theorem switchContextOut (fn : Nat) : Statement (.switchContextOut fn) := ⟨rfl, fun _ => rfl⟩
theorem switchContextIn (fn : Nat) : Statement (.switchContextIn fn) := ⟨rfl, fun _ => rfl⟩
theorem resetFunction (fn : Nat) : Statement (.resetFunction fn) := ⟨rfl, fun _ => rfl⟩
theorem commandPageWrite (fn off : Nat) (val : Dword) : Statement (.commandPageWrite fn off val) := ⟨rfl, fun _ => rfl⟩
theorem programReport : Statement (.programReport) := ⟨rfl, fun _ => rfl⟩
theorem heartbeat (die : Nat) : Statement (.heartbeat die) := ⟨rfl, fun _ => rfl⟩
theorem heartbeatSample (die : Nat) : Statement (.heartbeatSample die) := ⟨rfl, fun _ => rfl⟩
theorem tileDeal (region core : Nat) : Statement (.tileDeal region core) := ⟨rfl, fun _ => rfl⟩
theorem tileRetire : Statement (.tileRetire) := ⟨rfl, fun _ => rfl⟩
theorem regionRetire (region : Nat) : Statement (.regionRetire region) := ⟨rfl, fun _ => rfl⟩
theorem quiescenceEvent (region : Nat) : Statement (.quiescenceEvent region) := ⟨rfl, fun _ => rfl⟩
theorem routeHotClear : Statement (.routeHotClear) := ⟨rfl, fun _ => rfl⟩
theorem replicationRequest : Statement (.replicationRequest) := ⟨rfl, fun _ => rfl⟩
theorem messageArrival (idx : Nat) : Statement (.messageArrival idx) := ⟨rfl, fun _ => rfl⟩
theorem messageRetry (idx : Nat) : Statement (.messageRetry idx) := ⟨rfl, fun _ => rfl⟩
theorem selector (core : Nat) : Statement (.selector core) := ⟨rfl, fun _ => rfl⟩
theorem stealAttempt (core : Nat) : Statement (.stealAttempt core) := ⟨rfl, fun _ => rfl⟩
theorem agingLift (core entry : Nat) : Statement (.agingLift core entry) := ⟨rfl, fun _ => rfl⟩
theorem armUnspill (core : Nat) : Statement (.armUnspill core) := ⟨rfl, fun _ => rfl⟩
theorem contextArrival (idx : Nat) : Statement (.contextArrival idx) := ⟨rfl, fun _ => rfl⟩
theorem codeletCounterUpdate (idx : Nat) : Statement (.codeletCounterUpdate idx) := ⟨rfl, fun _ => rfl⟩
theorem writePerform (idx : Nat) : Statement (.writePerform idx) := ⟨rfl, fun _ => rfl⟩
theorem memoryReply (core seq : Nat) : Statement (.memoryReply core seq) := ⟨rfl, fun _ => rfl⟩
theorem pendingResultWrite (core seq : Nat) : Statement (.pendingResultWrite core seq) := ⟨rfl, fun _ => rfl⟩
theorem bfmtUpdate (cell idx : Nat) : Statement (.bfmtUpdate cell idx) := ⟨rfl, fun _ => rfl⟩
theorem streamPrefetch (core strm : Nat) : Statement (.streamPrefetch core strm) := ⟨rfl, fun _ => rfl⟩
theorem decompBlock (core strm : Nat) : Statement (.decompBlock core strm) := ⟨rfl, fun _ => rfl⟩
theorem copyCompletion (core : Nat) : Statement (.copyCompletion core) := ⟨rfl, fun _ => rfl⟩
theorem encodeSegment (cell : Nat) : Statement (.encodeSegment cell) := ⟨rfl, fun _ => rfl⟩
theorem imageBuild (core : Nat) : Statement (.imageBuild core) := ⟨rfl, fun _ => rfl⟩
theorem atomReplacedNotice (idx : Nat) : Statement (.atomReplacedNotice idx) := ⟨rfl, fun _ => rfl⟩
theorem noticeResend (idx : Nat) : Statement (.noticeResend idx) := ⟨rfl, fun _ => rfl⟩
theorem noticeAck (idx : Nat) : Statement (.noticeAck idx) := ⟨rfl, fun _ => rfl⟩
theorem holdExpiry (cell idx : Nat) : Statement (.holdExpiry cell idx) := ⟨rfl, fun _ => rfl⟩
theorem gaussianPairArrival (idx : Nat) : Statement (.gaussianPairArrival idx) := ⟨rfl, fun _ => rfl⟩
theorem tileSetOpen (region : Nat) : Statement (.tileSetOpen region) := ⟨rfl, fun _ => rfl⟩
theorem tileSetClose (region : Nat) : Statement (.tileSetClose region) := ⟨rfl, fun _ => rfl⟩
theorem deviceFencedFromDomain (device : Nat) : Statement (.deviceFencedFromDomain device) := ⟨rfl, fun _ => rfl⟩
theorem trapTake (core : Nat) : Statement (.trapTake core) := ⟨rfl, fun _ => rfl⟩
theorem firingHalt (core : Nat) : Statement (.firingHalt core) := ⟨rfl, fun _ => rfl⟩
theorem watchdog (core : Nat) : Statement (.watchdog core) := ⟨rfl, fun _ => rfl⟩
theorem streamWait (core : Nat) : Statement (.streamWait core) := ⟨rfl, fun _ => rfl⟩
theorem copyFull (core : Nat) : Statement (.copyFull core) := ⟨rfl, fun _ => rfl⟩
theorem memReplyLimit (core seq : Nat) : Statement (.memReplyLimit core seq) := ⟨rfl, fun _ => rfl⟩
theorem waitwLimit (core : Nat) : Statement (.waitwLimit core) := ⟨rfl, fun _ => rfl⟩
theorem mqwaitLimit (core : Nat) : Statement (.mqwaitLimit core) := ⟨rfl, fun _ => rfl⟩
theorem bwaitLimit (core : Nat) : Statement (.bwaitLimit core) := ⟨rfl, fun _ => rfl⟩
theorem flitRetry (port idx : Nat) : Statement (.flitRetry port idx) := ⟨rfl, fun _ => rfl⟩
theorem keagusPortTrain (port device : Nat) : Statement (.keagusPortTrain port device) := ⟨rfl, fun _ => rfl⟩
theorem keagusPortDown (port : Nat) : Statement (.keagusPortDown port) := ⟨rfl, fun _ => rfl⟩
theorem powerOn (liveDies straps : Nat) : Statement (.powerOn liveDies straps) := ⟨rfl, fun _ => rfl⟩
theorem powerDown : Statement (.powerDown) := ⟨rfl, fun _ => rfl⟩
theorem thermalSample (die temp : Nat) : Statement (.thermalSample die temp) := ⟨rfl, fun _ => rfl⟩
theorem lifetimeUpdate : Statement (.lifetimeUpdate) := ⟨rfl, fun _ => rfl⟩
theorem histogramSample : Statement (.histogramSample) := ⟨rfl, fun _ => rfl⟩
theorem dieStop (die : Nat) : Statement (.dieStop die) := ⟨rfl, fun _ => rfl⟩
theorem lossOfPower : Statement (.lossOfPower) := ⟨rfl, fun _ => rfl⟩
theorem memoryError (addr : Nat) (uncorrectable : Bool) : Statement (.memoryError addr uncorrectable) := ⟨rfl, fun _ => rfl⟩
theorem unknownOpcode (fn : Nat) : Statement (.unknownOpcode fn) := ⟨rfl, fun _ => rfl⟩

end Sys2Proof.Laws.Encoded
end

