-- ==== Sys2Proof/Safety.lean ====
section
/-! DEFINITION. A safe run: every step of it answers a next state. -/

namespace Sys2Proof

/-- `n` steps from a state, while each answers a next state. -/
def run : Nat → Machine.State → Option Machine.State
  | 0, s => some s
  | n + 1, s =>
    match Machine.step s with
    | .next t => run n t
    | _ => none

/-- No step of a run of `n` steps faults or refuses. -/
def Safe (n : Nat) (s : Machine.State) : Prop := (run n s).isSome

end Sys2Proof
end

