-- ==== Sys2Proof/Tests/Slice0.lean ====
section
/-! SUPPORT. The model's own tests: ill-formed terms that the check refuses, words written out from the encoding tables, single
steps whose results are worked out by hand from the rules, and a witness for the hypotheses of each statement. -/



namespace Sys2Proof.Tests

set_option Elab.async false

open Sys2Proof.Machine

/-! ### Terms that are not well formed, one for each check -/

theorem test_wf_literal_unused : (Instr.jmp (some 1) 0).wf = false := by decide
theorem test_wf_offset_beside_literal : (Instr.ld (some 4) 1 2 0 0 3 1).wf = false := by decide
theorem test_wf_gc_beside_literal : (Instr.send (some 4) 1 2 0 3).wf = false := by decide
theorem test_wf_system_register : (Instr.mfs none 1 0 0x008).wf = false ∧ (Instr.mts none 1 0x0A0).wf = false := by decide
theorem test_wf_lds_doubleword : (Instr.lds none 1 2 0 0 3 0).wf = false := by decide
theorem test_wf_scope : (Instr.lda none 1 2 0 9 3).wf = false ∧ (Instr.fence none 0 0).wf = false := by decide
theorem test_wf_atomic_scope_without_order : (Instr.aadd none 1 2 0 1 0 1).wf = false := by decide
theorem test_wf_vector_destination : (Instr.vld none 16 2 0 0 0).wf = false ∧ (Instr.gather 16 2 0 0 0).wf = false := by decide
theorem test_wf_vector_source : (Instr.vadd 1 24 2 0 0 0).wf = false := by decide
theorem test_wf_tinv_all_with_address : (Instr.tinv 1 1).wf = false := by decide
theorem test_wf_stream_code : (Instr.sfree none 15).wf = false ∧ (Instr.sbind none 16 2 1 1).wf = false := by decide
theorem test_wf_modes : (Instr.chpnd none 1 2 3).wf = false ∧ (Instr.waitw none 1 2 0 0 2).wf = false ∧
    (Instr.bstat none 1 2 0 1 1).wf = false := by decide
theorem test_wf_vector_types : (Instr.vadd 1 2 3 0 0 8).wf = false ∧ (Instr.vshl 1 2 3 0 0 4).wf = false ∧
    (Instr.vfadd 1 2 3 0 0 7).wf = false ∧ (Instr.vdot4 1 2 3 0 0 1).wf = false ∧ (Instr.vtopk 1 2 3 0 0 0).wf = false ∧
    (Instr.vcmpr 1 2 0 0 2).wf = false ∧ (Instr.vcvt 1 2 0 0 11).wf = false ∧ (Instr.vred 1 2 0 0 12).wf = false := by decide
theorem test_wf_predicates : (Instr.vcmp 8 2 3 0 0 0).wf = false ∧ (Instr.pand 0 1 2 0).wf = false ∧
    (Instr.pcnt 1 8 0).wf = false := by decide

/-! ### Words that no instruction has, and pairs that clash -/

theorem test_decode_refusals :
    decodeA 0x1A000000#32 0#32 = .error 0x0101 ∧ decodeA 0x00000300#32 0#32 = .error 0x0102 ∧
    decodeB 0x00000001#32 = .error 0x0103 ∧ decodeA 0x20540355#32 0#32 = .ok (.ld none 5 8 0 0 3 0x55) :=
  ⟨rfl, rfl, rfl, rfl⟩

theorem test_decodes_word_a_control_1 :
    decodeA 0x00000000#32 0#32 = .ok (.nopA) ∧
    decodeA 0x00000040#32 0#32 = .ok (.endFiring none) ∧
    decodeA 0x00000080#32 0#32 = .ok (.endrFiring none) ∧
    decodeA 0x000000C0#32 0#32 = .ok (.ret none) ∧
    decodeA 0x00500100#32 0#32 = .ok (.jmpi none 5) ∧
    decodeA 0x00500140#32 0#32 = .ok (.spec none 5) ∧
    decodeA 0x00500180#32 0#32 = .ok (.scommit none 5) ∧
    decodeA 0x000001C0#32 0#32 = .ok (.sabort none) ∧
    decodeA 0x00500200#32 0#32 = .ok (.selb none 5) ∧
    decodeA 0x00000242#32 0#32 = .ok (.prio none 2) ∧
    decodeA 0x00000280#32 0#32 = .ok (.safe) ∧
    decodeA 0x80548286#32 0xABCD12#32 = .ok (.safeL 5 9 6 0xABCD12) ∧
    decodeA 0x000002C0#32 0#32 = .ok (.idem none) ∧
    decodeA 0x02548155#32 0#32 = .ok (.beq none 5 9 341) ∧
    decodeA 0x02549155#32 0#32 = .ok (.bne none 5 9 341) ∧
    decodeA 0x0254A155#32 0#32 = .ok (.blt none 5 9 341) ∧
    decodeA 0x0254B155#32 0#32 = .ok (.bge none 5 9 341) ∧
    decodeA 0x0254C155#32 0#32 = .ok (.bltu none 5 9 341) ∧
    decodeA 0x0254D155#32 0#32 = .ok (.bgeu none 5 9 341) ∧
    decodeA 0x02506155#32 0#32 = .ok (.bz none 5 341) :=
  ⟨rfl, rfl, rfl, rfl, rfl, rfl, rfl, rfl, rfl, rfl, rfl, rfl, rfl, rfl, rfl, rfl, rfl, rfl, rfl, rfl⟩
theorem test_decodes_word_a_control_2 :
    decodeA 0x02507155#32 0#32 = .ok (.bnz none 5 341) ∧
    decodeA 0x0400ABCD#32 0#32 = .ok (.jmp none 43981) ∧
    decodeA 0x0600ABCD#32 0#32 = .ok (.call none 43981) ∧
    decodeA 0x0800ABCD#32 0#32 = .ok (.fork none 43981) ∧
    decodeA 0x0A500155#32 0#32 = .ok (.join none 5 341) ∧
    decodeA 0x0C500760#32 0#32 = .ok (.rep 5 1 1 1 6) ∧
    decodeA 0x0E503024#32 0#32 = .ok (.mfs none 5 6 36) ∧
    decodeA 0x1050009F#32 0#32 = .ok (.mts none 5 159) :=
  ⟨rfl, rfl, rfl, rfl, rfl, rfl, rfl, rfl⟩
theorem test_decodes_word_a_matrix_wait :
    decodeA 0x1254B015#32 0#32 = .ok (.lclaim none 5 9 6 21) ∧
    decodeA 0x12500040#32 0#32 = .ok (.lrel none 5) ∧
    decodeA 0x12548080#32 0#32 = .ok (.mqwait none 5 9) :=
  ⟨rfl, rfl, rfl⟩
theorem test_decodes_word_a_memory :
    decodeA 0x2054B655#32 0#32 = .ok (.ld none 5 9 6 1 2 85) ∧
    decodeA 0x2254B655#32 0#32 = .ok (.lds none 5 9 6 1 2 85) ∧
    decodeA 0x2454B255#32 0#32 = .ok (.st none 5 9 6 2 85) ∧
    decodeA 0x2654B455#32 0#32 = .ok (.vld none 5 9 6 1 85) ∧
    decodeA 0x2854B555#32 0#32 = .ok (.vst none 5 9 6 5 85) ∧
    decodeA 0x2A54B01A#32 0#32 = .ok (.lda none 5 9 6 6 2) ∧
    decodeA 0x2C54801A#32 0#32 = .ok (.stl none 5 9 6 2) ∧
    decodeA 0x2E00001A#32 0#32 = .ok (.fence none 6 2) ∧
    decodeA 0x3054B02D#32 0#32 = .ok (.aadd none 5 9 6 5 2 1) ∧
    decodeA 0x3054B06D#32 0#32 = .ok (.aswap none 5 9 6 5 2 1) ∧
    decodeA 0x3054B0AD#32 0#32 = .ok (.acas none 5 9 6 5 2 1) ∧
    decodeA 0x3054B0ED#32 0#32 = .ok (.amin none 5 9 6 5 2 1) ∧
    decodeA 0x3054B12D#32 0#32 = .ok (.amax none 5 9 6 5 2 1) ∧
    decodeA 0x3054B16D#32 0#32 = .ok (.aand none 5 9 6 5 2 1) ∧
    decodeA 0x3054B1AD#32 0#32 = .ok (.aor none 5 9 6 5 2 1) ∧
    decodeA 0x3054B1ED#32 0#32 = .ok (.axor none 5 9 6 5 2 1) ∧
    decodeA 0x3254B026#32 0#32 = .ok (.gather 5 9 6 2 6) ∧
    decodeA 0x3254B066#32 0#32 = .ok (.scadd 5 9 6 2 6) ∧
    decodeA 0x34500000#32 0#32 = .ok (.tinv 5 0) ∧
    decodeA 0x34028040#32 0#32 = .ok (.pref none 5) :=
  ⟨rfl, rfl, rfl, rfl, rfl, rfl, rfl, rfl, rfl, rfl, rfl, rfl, rfl, rfl, rfl, rfl, rfl, rfl, rfl, rfl⟩
theorem test_decodes_word_a_streams_copies :
    decodeA 0x41328002#32 0#32 = .ok (.sbind none 19 5 0 2) ∧
    decodeA 0x41200040#32 0#32 = .ok (.sfree none 18) ∧
    decodeA 0x40588080#32 0#32 = .ok (.sstat none 5 17) ∧
    decodeA 0x42500240#32 0#32 = .ok (.xpush none 5 9) ∧
    decodeA 0x42548181#32 0#32 = .ok (.xtry none 5 9 6) ∧
    decodeA 0x42028002#32 0#32 = .ok (.xstat none 5) :=
  ⟨rfl, rfl, rfl, rfl, rfl, rfl⟩
theorem test_decodes_word_a_messages_waits :
    decodeA 0x4854B180#32 0#32 = .ok (.send none 5 9 6 6) ∧
    decodeA 0x4854B181#32 0#32 = .ok (.sendv none 5 9 6 6) ∧
    decodeA 0x48503242#32 0#32 = .ok (.recv none 5 6 9) ∧
    decodeA 0x48503243#32 0#32 = .ok (.peek none 5 6 9) ∧
    decodeA 0x4A548000#32 0#32 = .ok (.chen none 5 9) ∧
    decodeA 0x4A548040#32 0#32 = .ok (.chdis none 5 9) ∧
    decodeA 0x4A548082#32 0#32 = .ok (.chpnd none 5 9 2) ∧
    decodeA 0x4A54B0D9#32 0#32 = .ok (.waitw none 5 9 6 6 1) ∧
    decodeA 0x4A548100#32 0#32 = .ok (.armw none 5 9) ∧
    decodeA 0x4A028158#32 0#32 = .ok (.depdec none 5 6) ∧
    decodeA 0x4A548199#32 0#32 = .ok (.depset none 5 9 6 1) :=
  ⟨rfl, rfl, rfl, rfl, rfl, rfl, rfl, rfl, rfl, rfl, rfl⟩
theorem test_decodes_word_a_encoder :
    decodeA 0x5054B180#32 0#32 = .ok (.senda none 5 9 6 6) ∧
    decodeA 0x5054B181#32 0#32 = .ok (.encx none 5 9 6 6) ∧
    decodeA 0x5054B182#32 0#32 = .ok (.dinst none 5 9 6 6) ∧
    decodeA 0x50503243#32 0#32 = .ok (.dstat none 5 6 9) ∧
    decodeA 0x5254B180#32 0#32 = .ok (.imres none 5 9 6 6) ∧
    decodeA 0x5254B181#32 0#32 = .ok (.drepl none 5 9 6 6) ∧
    decodeA 0x5254B182#32 0#32 = .ok (.dsync none 5 9 6 6) ∧
    decodeA 0x52503243#32 0#32 = .ok (.holdr none 5 6 9) :=
  ⟨rfl, rfl, rfl, rfl, rfl, rfl, rfl, rfl⟩
theorem test_decodes_word_a_contexts_schur :
    decodeA 0x54028240#32 0#32 = .ok (.migrate none 5 9) ∧
    decodeA 0x5454B181#32 0#32 = .ok (.spawn none 5 9 6 6) ∧
    decodeA 0x54503242#32 0#32 = .ok (.ctxld none 5 6 9) ∧
    decodeA 0x5854B180#32 0#32 = .ok (.gjoin none 5 9 6 6) ∧
    decodeA 0x58503001#32 0#32 = .ok (.gelim none 5 6) ∧
    decodeA 0x58503002#32 0#32 = .ok (.gdamp none 5 6) ∧
    decodeA 0x58503003#32 0#32 = .ok (.gsend none 5 6) ∧
    decodeA 0x5854B004#32 0#32 = .ok (.gbel none 5 9 6) :=
  ⟨rfl, rfl, rfl, rfl, rfl, rfl, rfl, rfl⟩
theorem test_decodes_word_a_barriers_tiles :
    decodeA 0x5C54B000#32 0#32 = .ok (.barr none 5 9 6) ∧
    decodeA 0x5C54B001#32 0#32 = .ok (.barrInit none 5 9 6) ∧
    decodeA 0x5C54B002#32 0#32 = .ok (.barrFree none 5 9 6) ∧
    decodeA 0x5C54B003#32 0#32 = .ok (.barrDump none 5 9 6) ∧
    decodeA 0x5C548040#32 0#32 = .ok (.bwait none 5 9) ∧
    decodeA 0x5C54B086#32 0#32 = .ok (.bstat none 5 9 6 0 6) ∧
    decodeA 0x5C54B0C0#32 0#32 = .ok (.ttake none 5 9 6) ∧
    decodeA 0x5C54B106#32 0#32 = .ok (.tsteal none 5 9 6 6) ∧
    decodeA 0x5C54B140#32 0#32 = .ok (.tdone none 5 9 6) :=
  ⟨rfl, rfl, rfl, rfl, rfl, rfl, rfl, rfl, rfl⟩
theorem test_decodes_word_a_traps :
    decodeA 0x78500015#32 0#32 = .ok (.trap none 5 21) ∧
    decodeA 0x78000040#32 0#32 = .ok (.tret none) ∧
    decodeA 0x78000095#32 0#32 = .ok (.brk none 21) ∧
    decodeA 0x785000C0#32 0#32 = .ok (.halt none 5) ∧
    decodeA 0x7854B100#32 0#32 = .ok (.hwinr none 5 9 6) ∧
    decodeA 0x78548140#32 0#32 = .ok (.hwinw none 5 9) ∧
    decodeA 0x78548180#32 0#32 = .ok (.hresume none 5 9) ∧
    decodeA 0x780281C1#32 0#32 = .ok (.ckill none 5 1) :=
  ⟨rfl, rfl, rfl, rfl, rfl, rfl, rfl, rfl⟩
theorem test_decodes_word_b_integer_1 :
    decodeB 0x00000000#32 = .ok (.nopB) ∧
    decodeB 0x04A93302#32 = .ok (.add 5 9 6 6 2) ∧
    decodeB 0x04A93306#32 = .ok (.sub 5 9 6 6 2) ∧
    decodeB 0x04A9330A#32 = .ok (.and 5 9 6 6 2) ∧
    decodeB 0x04A9330E#32 = .ok (.or 5 9 6 6 2) ∧
    decodeB 0x04A93312#32 = .ok (.xor 5 9 6 6 2) ∧
    decodeB 0x04A93316#32 = .ok (.andn 5 9 6 6 2) ∧
    decodeB 0x04A9331A#32 = .ok (.shl 5 9 6 6 2) ∧
    decodeB 0x04A9331E#32 = .ok (.shr 5 9 6 6 2) ∧
    decodeB 0x04A93322#32 = .ok (.sar 5 9 6 6 2) ∧
    decodeB 0x04A93326#32 = .ok (.rol 5 9 6 6 2) ∧
    decodeB 0x04A9332A#32 = .ok (.min 5 9 6 6 2) ∧
    decodeB 0x04A9332E#32 = .ok (.max 5 9 6 6 2) ∧
    decodeB 0x04A93332#32 = .ok (.minu 5 9 6 6 2) ∧
    decodeB 0x04A93336#32 = .ok (.maxu 5 9 6 6 2) ∧
    decodeB 0x04A9333A#32 = .ok (.slt 5 9 6 6 2) ∧
    decodeB 0x04A9333E#32 = .ok (.sltu 5 9 6 6 2) ∧
    decodeB 0x04A93342#32 = .ok (.sel 5 9 6 6 2) ∧
    decodeB 0x04A90346#32 = .ok (.clz 5 9 6 2) ∧
    decodeB 0x04A9034A#32 = .ok (.ctz 5 9 6 2) :=
  ⟨rfl, rfl, rfl, rfl, rfl, rfl, rfl, rfl, rfl, rfl, rfl, rfl, rfl, rfl, rfl, rfl, rfl, rfl, rfl, rfl⟩
theorem test_decodes_word_b_integer_2 :
    decodeB 0x04A9034E#32 = .ok (.popc 5 9 6 2) ∧
    decodeB 0x04A90352#32 = .ok (.bswap 5 9 6 2) ∧
    decodeB 0x04A93356#32 = .ok (.extr 5 9 6 6 2) ∧
    decodeB 0x04A9335A#32 = .ok (.insb 5 9 6 6 2) ∧
    decodeB 0x04A9335E#32 = .ok (.lea 5 9 6 6 2) :=
  ⟨rfl, rfl, rfl, rfl, rfl⟩
theorem test_decodes_word_b_multiply :
    decodeB 0x08A93302#32 = .ok (.mul 5 9 6 6 2) ∧
    decodeB 0x08A93306#32 = .ok (.mulh 5 9 6 6 2) ∧
    decodeB 0x08A9330A#32 = .ok (.mulhu 5 9 6 6 2) ∧
    decodeB 0x08A9330E#32 = .ok (.div 5 9 6 6 2) ∧
    decodeB 0x08A93312#32 = .ok (.divu 5 9 6 6 2) ∧
    decodeB 0x08A93316#32 = .ok (.rem 5 9 6 6 2) ∧
    decodeB 0x08A9331A#32 = .ok (.remu 5 9 6 6 2) :=
  ⟨rfl, rfl, rfl, rfl, rfl, rfl, rfl⟩
theorem test_decodes_word_b_scalar_float :
    decodeB 0x0CA93302#32 = .ok (.fadd 5 9 6 6 2) ∧
    decodeB 0x0CA93306#32 = .ok (.fsub 5 9 6 6 2) ∧
    decodeB 0x0CA9330A#32 = .ok (.fmul 5 9 6 6 2) ∧
    decodeB 0x0CA9330E#32 = .ok (.ffma 5 9 6 6 2) ∧
    decodeB 0x0CA93312#32 = .ok (.fdiv 5 9 6 6 2) ∧
    decodeB 0x0CA90316#32 = .ok (.fsqrt 5 9 6 2) ∧
    decodeB 0x0CA9331A#32 = .ok (.fmin 5 9 6 6 2) ∧
    decodeB 0x0CA9331E#32 = .ok (.fmax 5 9 6 6 2) ∧
    decodeB 0x0CA93322#32 = .ok (.fcmpEq 5 9 6 6 2) ∧
    decodeB 0x0CA93326#32 = .ok (.fcmpLt 5 9 6 6 2) ∧
    decodeB 0x0CA9332A#32 = .ok (.fcmpLe 5 9 6 6 2) ∧
    decodeB 0x0CA9332E#32 = .ok (.fcvt 5 9 6 6 2) ∧
    decodeB 0x0CA90332#32 = .ok (.fclass 5 9 6 2) :=
  ⟨rfl, rfl, rfl, rfl, rfl, rfl, rfl, rfl, rfl, rfl, rfl, rfl, rfl⟩
theorem test_decodes_word_b_immediates :
    decodeB 0x20A9ABCD#32 = .ok (.addi 5 9 43981) ∧
    decodeB 0x24A9ABCD#32 = .ok (.andi 5 9 43981) ∧
    decodeB 0x28A9ABCD#32 = .ok (.ori 5 9 43981) ∧
    decodeB 0x2CA9ABCD#32 = .ok (.xori 5 9 43981) ∧
    decodeB 0x30A90015#32 = .ok (.shli 5 9 21) ∧
    decodeB 0x34A90015#32 = .ok (.shri 5 9 21) ∧
    decodeB 0x38A90015#32 = .ok (.sari 5 9 21) ∧
    decodeB 0x3CA0ABCD#32 = .ok (.lui 5 43981) :=
  ⟨rfl, rfl, rfl, rfl, rfl, rfl, rfl, rfl⟩
theorem test_decodes_word_b_vector_integer :
    decodeB 0x40A93566#32 = .ok (.vadd 5 9 6 5 6 6) ∧
    decodeB 0x44A93566#32 = .ok (.vsub 5 9 6 5 6 6) ∧
    decodeB 0x48A93566#32 = .ok (.vmul 5 9 6 5 6 6) ∧
    decodeB 0x4CA93566#32 = .ok (.vmadd 5 9 6 5 6 6) ∧
    decodeB 0x50A93566#32 = .ok (.vmin 5 9 6 5 6 6) ∧
    decodeB 0x54A93566#32 = .ok (.vmax 5 9 6 5 6 6) ∧
    decodeB 0x58A93560#32 = .ok (.vand 5 9 6 5 6) ∧
    decodeB 0x5CA93560#32 = .ok (.vor 5 9 6 5 6) ∧
    decodeB 0x60A93560#32 = .ok (.vxor 5 9 6 5 6) ∧
    decodeB 0x64A93562#32 = .ok (.vshl 5 9 6 5 6 2) ∧
    decodeB 0x68A93562#32 = .ok (.vshr 5 9 6 5 6 2) ∧
    decodeB 0x6CA93562#32 = .ok (.vsar 5 9 6 5 6 2) ∧
    decodeB 0x70A90562#32 = .ok (.vabs 5 9 5 6 2) ∧
    decodeB 0x74A90562#32 = .ok (.vneg 5 9 5 6 2) ∧
    decodeB 0x78A93566#32 = .ok (.vsadd 5 9 6 5 6 6) :=
  ⟨rfl, rfl, rfl, rfl, rfl, rfl, rfl, rfl, rfl, rfl, rfl, rfl, rfl, rfl, rfl⟩
theorem test_decodes_word_b_vector_float :
    decodeB 0x80A9356A#32 = .ok (.vfadd 5 9 6 5 6 10) ∧
    decodeB 0x84A9356A#32 = .ok (.vfsub 5 9 6 5 6 10) ∧
    decodeB 0x88A9356A#32 = .ok (.vfmul 5 9 6 5 6 10) ∧
    decodeB 0x8CA9356A#32 = .ok (.vfma 5 9 6 5 6 10) ∧
    decodeB 0x90A9356A#32 = .ok (.vfdiv 5 9 6 5 6 10) ∧
    decodeB 0x94A9056A#32 = .ok (.vfsqrt 5 9 5 6 10) ∧
    decodeB 0x98A9356A#32 = .ok (.vfmin 5 9 6 5 6 10) ∧
    decodeB 0x9CA9356A#32 = .ok (.vfmax 5 9 6 5 6 10) :=
  ⟨rfl, rfl, rfl, rfl, rfl, rfl, rfl, rfl⟩
theorem test_decodes_word_b_vector_lanes :
    decodeB 0xA0A93569#32 = .ok (.vdot4 5 9 6 5 6 9) ∧
    decodeB 0xA4A90566#32 = .ok (.vred 5 9 5 6 6) ∧
    decodeB 0xA8A93566#32 = .ok (.vcmp 5 9 6 5 6 6) ∧
    decodeB 0xACA93562#32 = .ok (.vsel 5 9 6 5 6 2) ∧
    decodeB 0xB0A90566#32 = .ok (.vcvt 5 9 5 6 6) ∧
    decodeB 0xB4A90066#32 = .ok (.vqnt 5 9 6 6) ∧
    decodeB 0xB8A90066#32 = .ok (.vdqn 5 9 6 6) ∧
    decodeB 0xBCA93562#32 = .ok (.vperm 5 9 6 5 6 2) :=
  ⟨rfl, rfl, rfl, rfl, rfl, rfl, rfl, rfl⟩
theorem test_decodes_word_b_vector_pack :
    decodeB 0xC0A90562#32 = .ok (.vbcast 5 9 5 6 2) ∧
    decodeB 0xC4A90066#32 = .ok (.vmovs 5 9 6 6) ∧
    decodeB 0xC8A93562#32 = .ok (.vinss 5 9 6 5 6 2) ∧
    decodeB 0xCCA93566#32 = .ok (.vtopk 5 9 6 5 6 6) ∧
    decodeB 0xD0A90568#32 = .ok (.vcmpr 5 9 5 6 8) ∧
    decodeB 0xD4A90562#32 = .ok (.vhash 5 9 5 6 2) ∧
    decodeB 0xD8A93562#32 = .ok (.vbcmp 5 9 6 5 6 2) ∧
    decodeB 0xDCA00560#32 = .ok (.imacc 5 5 6) :=
  ⟨rfl, rfl, rfl, rfl, rfl, rfl, rfl, rfl⟩
theorem test_decodes_word_b_predicates :
    decodeB 0xF8A73060#32 = .ok (.pand 5 7 6 6) ∧
    decodeB 0xF8A73061#32 = .ok (.por 5 7 6 6) ∧
    decodeB 0xF8A73062#32 = .ok (.pxor 5 7 6 6) ∧
    decodeB 0xF8A70063#32 = .ok (.pnot 5 7 6) ∧
    decodeB 0xF8A70064#32 = .ok (.pcnt 5 7 6) ∧
    decodeB 0xF8A00065#32 = .ok (.pset 5 6) :=
  ⟨rfl, rfl, rfl, rfl, rfl, rfl⟩

/-- Words that the spec's own examples write out. -/
theorem test_spec_words_a :
    decodeA 0x24B00320#32 0#32 = .ok (.st none 11 0 0 3 32) ∧ decodeA 0x28068000#32 0#32 = .ok (.vst none 0 13 0 0 0) ∧
    decodeA 0x26360002#32 0#32 = .ok (.vld none 3 12 0 0 2) ∧ decodeA 0x2A968017#32 0#32 = .ok (.lda none 9 13 0 5 3) ∧
    decodeA 0x2C068017#32 0#32 = .ok (.stl none 0 13 5 3) ∧ decodeA 0x2E000017#32 0#32 = .ok (.fence none 5 3) ∧
    decodeA 0x30A680A3#32 0#32 = .ok (.acas none 10 13 0 4 1 1) ∧ decodeA 0x32262021#32 0#32 = .ok (.gather 2 12 4 2 1) ∧
    decodeA 0x41058000#32 0#32 = .ok (.sbind none 16 11 0 0) ∧ decodeA 0x43000500#32 0#32 = .ok (.xpush none 16 20) ∧
    decodeA 0xC3000000#32 1#32 = .ok (.xpush (some 1) 16 0) ∧ decodeA 0x12950004#32 0#32 = .ok (.lclaim none 9 10 0 4) ∧
    decodeA 0x12950080#32 0#32 = .ok (.mqwait none 9 10) ∧ decodeA 0x10A00002#32 0#32 = .ok (.mts none 10 2) ∧
    decodeA 0x514A9580#32 0#32 = .ok (.senda none 20 21 2 22) ∧ decodeA 0x538B05C1#32 0#32 = .ok (.drepl none 24 22 0 23) ∧
    decodeA 0x4A9680D4#32 0#32 = .ok (.waitw none 9 13 0 5 0) ∧ decodeA 0x58E50340#32 0#32 = .ok (.gjoin none 14 10 0 13) ∧
    decodeA 0x5D460102#32 0#32 = .ok (.tsteal none 20 12 0 2) ∧ decodeA 0x78A60180#32 0#32 = .ok (.hresume none 10 12) :=
  ⟨rfl, rfl, rfl, rfl, rfl, rfl, rfl, rfl, rfl, rfl, rfl, rfl, rfl, rfl, rfl, rfl, rfl, rfl, rfl, rfl⟩
theorem test_spec_words_b :
    decodeB 0x096B7000#32 = .ok (.mul 11 11 14 0 0) ∧ decodeB 0x218CFFFF#32 = .ok (.addi 12 12 0xFFFF) ∧
    decodeB 0x3DA00001#32 = .ok (.lui 13 1) ∧ decodeB 0x29AD8000#32 = .ok (.ori 13 13 0x8000) ∧
    decodeB 0x052A585D#32 = .ok (.lea 9 10 11 0 1) ∧ decodeB 0x0D2A5981#32 = .ok (.fadd 9 10 11 3 1) ∧
    decodeB 0x60000000#32 = .ok (.vxor 0 0 0 0 0) ∧ decodeB 0x8000800A#32 = .ok (.vfadd 0 0 16 0 0 10) ∧
    decodeB 0xAA41200A#32 = .ok (.vcmp 18 1 4 0 0 10) :=
  ⟨rfl, rfl, rfl, rfl, rfl, rfl, rfl, rfl, rfl⟩

/-! ### Small states -/

/-- A running core with these registers. -/
def firing : Core := { Core.reset with status := .running, region := some 1, pc := 0x1000, fir := { Firing.none with region := 1 } }
def withRegs : List (Reg × Dword) → Core → Core
  | [], k => k
  | (r, v) :: t, k => withRegs t (k.setG r v)
/-- The device with this core 0, of region 1, and no other. -/
def device (k : Core) : State := { State.reset with power := .ready, cores := [(0, k)] }
def run (l : List (Reg × Dword)) : State := device (withRegs l firing)
def after (i : Instr) (s : State) : State :=
  match exec i s with
  | .next t => t
  | _ => s
/-- The register after the word, and after the writes that it leaves pending. -/
def result (i : Instr) (l : List (Reg × Dword)) (r : Reg) : Dword :=
  let k := (after i (run l)).me
  (k.pend.foldl (fun k p => k.writeAll p.writes) k).g r
def flagsOf (i : Instr) (l : List (Reg × Dword)) : Nat := ((after i (run l)).me.pend.map (·.flags.toNat)).sum
/-- The causes of the traps that stand noted on core 0. -/
def causes (s : State) : List Nat := s.me.faults.map (·.cause)
/-- Bytes put at an address of cell 0's own SRAM. -/
def poke (off n v : Nat) (s : State) : State := { s with mem := memSetBytes s.mem (sramKey 0 off) (leBytes n v) }
/-- What the word's pending vector write gives in element `e` of `w` bits. -/
def lane (i : Instr) (s : State) (w e : Nat) : Nat :=
  match (after i s).me.pend.flatMap (·.writes) with
  | RegWrite.v _ v m :: _ => (v &&& m).toNat / 2 ^ (w * e) % 2 ^ w
  | _ => 0
/-- The premise `Claims.calm`, as a check. -/
def calmIs (s : State) : Bool :=
  memWf s.mem && s.writes.isEmpty && s.depOps.isEmpty && s.bad.isEmpty && s.soft.isEmpty &&
    s.cores.all fun x => x.2.pend.all fun p => p.waits.isNone
theorem calm_of {s : State} (h : calmIs s = true) : Claims.calm s := by
  simp only [calmIs, Bool.and_eq_true, List.isEmpty_iff, List.all_eq_true, Option.isNone_iff_eq_none] at h
  exact ⟨h.1.1.1.1.1, h.1.1.1.1.2, h.1.1.1.2, h.1.1.2, h.1.2, h.2⟩
theorem noWaits_of {s : State} (h : calmIs s = true) : Claims.noWaits s := (calm_of h).2.2.2.2.2
/-- Sixteen lanes, with v1 and v2 as given. -/
def lanes (a b : VReg) : State := device (((({ firing with vl := 16 } : Core).setV 1 a).setV 2 b).setV 3 0)

/-! ### Results that the spec works out (the table of scalar results) and results by hand -/

theorem test_add_b : result (.add 11 9 10 0 3) [(9, 0x70), (10, 0x10)] 11 = 0xFFFF_FFFF_FFFF_FF80 := by decide +kernel
theorem test_maxu_max_b : result (.maxu 11 9 10 0 3) [(9, 0xFF), (10, 1)] 11 = 0xFFFF_FFFF_FFFF_FFFF ∧
    result (.max 11 9 10 0 3) [(9, 0xFF), (10, 1)] 11 = 1 := by decide +kernel
theorem test_mulh_w : result (.mulh 11 9 10 0 1) [(9, 0x8000_0000), (10, 2)] 11 = 0xFFFF_FFFF_FFFF_FFFF ∧
    result (.mulhu 11 9 10 0 1) [(9, 0x8000_0000), (10, 2)] 11 = 1 := by decide +kernel
theorem test_div_overflow : result (.div 11 9 10 0 1) [(9, 0x8000_0000), (10, 0xFFFF_FFFF)] 11 = 0xFFFF_FFFF_8000_0000 := by decide +kernel
theorem test_div_rem_negative : result (.div 11 9 10 0 0) [(9, -7), (10, 2)] 11 = -3 ∧
    result (.rem 11 9 10 0 0) [(9, -7), (10, 2)] 11 = -1 := by decide +kernel
theorem test_divu_remu : result (.divu 11 9 10 0 1) [(9, 0xFFFF_FFFF), (10, 0x10)] 11 = 0x0FFF_FFFF ∧
    result (.remu 11 9 10 0 1) [(9, 0xFFFF_FFFF), (10, 0x10)] 11 = 0xF := by decide +kernel
theorem test_extr : result (.extr 11 9 10 0 0) [(9, 0xABCD_1234), (10, 0x0810)] 11 = 0xCD := by decide +kernel
theorem test_insb : result (.insb 11 9 10 0 0) [(9, 0xAB), (10, 0x0810), (11, -1)] 11 = 0xFFFF_FFFF_FFAB_FFFF := by decide +kernel
theorem test_sub_w_sign : result (.sub 11 9 10 0 1) [(9, 0), (10, 1)] 11 = 0xFFFF_FFFF_FFFF_FFFF := by decide +kernel
theorem test_sar_shr : result (.sar 11 9 10 0 1) [(9, 0x8000_0000), (10, 36)] 11 = 0xFFFF_FFFF_F800_0000 ∧
    result (.shr 11 9 10 0 1) [(9, 0x8000_0000), (10, 36)] 11 = 0x0800_0000 := by decide +kernel
theorem test_rol_h : result (.rol 11 9 10 0 2) [(9, 0x8001), (10, 1)] 11 = 3 := by decide +kernel
theorem test_clz_ctz_zero : result (.clz 11 9 0 1) [(9, 0xFFFF_FFFF_0000_0000)] 11 = 32 ∧
    result (.ctz 11 9 0 1) [(9, 0xFFFF_FFFF_0000_0000)] 11 = 32 := by decide +kernel
theorem test_bswap_h : result (.bswap 11 9 0 2) [(9, 0x12FF)] 11 = 0xFFFF_FFFF_FFFF_FF12 := by decide +kernel
theorem test_sel_old_destination : result (.sel 11 9 10 0 0) [(9, 1), (10, 2), (11, 0)] 11 = 2 ∧
    result (.sel 11 9 10 0 0) [(9, 1), (10, 2), (11, 5)] 11 = 1 := by decide +kernel
theorem test_lea_scaled : result (.lea 9 10 11 0 1) [(10, 0x100), (11, 3)] 9 = 0x10C := by decide +kernel
theorem test_g0_discards : result (.addi 0 9 1) [(9, 5)] 0 = 0 := by decide +kernel
theorem test_addi_negative : result (.addi 12 12 0xFFFF) [(12, 0)] 12 = 0xFFFF_FFFF_FFFF_FFFF := by decide +kernel
theorem test_lui_ori : result (.lui 13 0xFFFF) [] 13 = 0xFFFF_0000 ∧ result (.ori 13 13 0x8000) [] 13 = 0x8000 := by decide +kernel
theorem test_fadd_inexact : result (.fadd 11 9 10 0 1) [(9, 0x3F80_0000), (10, 0x3380_0000)] 11 = 0x3F80_0000 ∧
    flagsOf (.fadd 11 9 10 0 1) [(9, 0x3F80_0000), (10, 0x3380_0000)] = flagNX.toNat := by decide +kernel
theorem test_fcvt_toi32 : result (.fcvt 11 9 10 0 1) [(9, 0xC2F7_0000)] 11 = 0xFFFF_FFFF_FFFF_FF84 := by decide +kernel
theorem test_fcvt_tou32 : result (.fcvt 11 9 11 0 1) [(9, 0x4F80_0000)] 11 = 0xFFFF_FFFF := by decide +kernel
theorem test_fmin_zero_and_nan : result (.fmin 11 9 10 0 1) [(9, 0), (10, 0x8000_0000)] 11 = 0x8000_0000 ∧
    result (.fmin 11 9 10 0 1) [(9, 0x7FC0_0000), (10, 0x4000_0000)] 11 = 0x4000_0000 := by decide +kernel
theorem test_fdiv_by_zero : result (.fdiv 11 9 10 0 1) [(9, 0xBF80_0000), (10, 0)] 11 = 0xFF80_0000 ∧
    flagsOf (.fdiv 11 9 10 0 1) [(9, 0xBF80_0000), (10, 0)] = flagDZ.toNat := by decide +kernel
theorem test_fsqrt_two : result (.fsqrt 11 9 0 1) [(9, 0x4000_0000)] 11 = 0x3FB5_04F3 := by decide +kernel
theorem test_ffma_once : result (.ffma 11 9 10 0 1) [(9, 0x3F80_0001), (10, 0x3F80_0001), (11, 0xBF80_0002)] 11 = 0x2880_0000 := by
  decide +kernel
theorem test_fcmp_nan : result (.fcmpLt 11 9 10 0 1) [(9, 0x7FC0_0000), (10, 0)] 11 = 0 ∧
    flagsOf (.fcmpLt 11 9 10 0 1) [(9, 0x7FC0_0000), (10, 0)] = flagNV.toNat ∧
    flagsOf (.fcmpEq 11 9 10 0 1) [(9, 0x7FC0_0000), (10, 0)] = 0 := by decide +kernel
theorem test_fclass_negative_zero : result (.fclass 11 9 0 3) [(9, 0x8000)] 11 = 8 := by decide +kernel
theorem test_vadd_b_wraps : lane (.vadd 3 1 2 0 0 0) (lanes 0x01FF 0x0101) 8 0 = 0 ∧
    lane (.vadd 3 1 2 0 0 0) (lanes 0x01FF 0x0101) 8 1 = 2 := by decide +kernel
theorem test_vsadd_clamps : lane (.vsadd 3 1 2 0 0 0) (lanes 0x7F80 0x017F) 8 0 = 0xFF ∧
    lane (.vsadd 3 1 2 0 0 0) (lanes 0x7F80 0x017F) 8 1 = 0x7F := by decide +kernel
theorem test_vmax_signed_unsigned : lane (.vmax 3 1 2 0 0 1) (lanes 0x8000 1) 16 0 = 1 ∧
    lane (.vmax 3 1 2 0 0 5) (lanes 0x8000 1) 16 0 = 0x8000 := by decide +kernel
theorem test_vsar_count_modulo : lane (.vsar 3 1 2 0 0 2) (lanes 0x8000_0000 33) 32 0 = 0xC000_0000 := by decide +kernel
theorem test_vdot4_signed : lane (.vdot4 3 1 2 0 0 0) (lanes 0x04FF0201 0x01020304) 32 0 = 4 + 6 - 2 + 4 := by decide +kernel
theorem test_vred_sum : result (.nopB) [] 1 = 0 ∧
    ((after (.vred 5 1 0 0 0) (lanes 0xFF01_0203 0)).me.pend.flatMap (·.writes)) = [.g 5 5] := by decide +kernel
theorem test_vcmp_lt : ((after (.vcmp 18 1 2 0 0 10) (lanes 0x3F80_0000 0x4000_0000)).me.pend.flatMap (·.writes)) = [.p 2 0xF] := by
  decide +kernel
theorem test_vperm_out_of_range : lane (.vperm 3 1 2 0 0 2) (lanes (7 * 2 ^ 32 + 9) (16 * 2 ^ 32 + 1)) 32 0 = 7 ∧
    lane (.vperm 3 1 2 0 0 2) (lanes (7 * 2 ^ 32 + 9) (16 * 2 ^ 32 + 1)) 32 1 = 0 := by decide +kernel
theorem test_vbcast : lane (.vbcast 3 1 0 0 2) (lanes 0x1234 0) 32 15 = 0x1234 := by decide +kernel
theorem test_vcvt_narrow : lane (.vcvt 3 1 0 0 14) (lanes 0xFFFF_FF00 0) 8 0 = 0x80 := by decide +kernel
theorem test_vhash_byte : lane (.vhash 3 1 0 0 0) (lanes 1 0) 32 0 = 0xF26B_8303 := by decide +kernel
theorem test_pcnt : result (.pcnt 5 0 0) [] 5 = 0 ∧
    ((after (.pcnt 5 0 0) (lanes 0 0)).me.pend.flatMap (·.writes)) = [.g 5 64] := by decide +kernel
theorem test_vector_without_lanes : (after (.vadd 3 1 2 0 0 0) (run [])).me.status = .halted 0x0107 := by decide +kernel

theorem test_beq_back : (after (.beq none 1 2 0xFFF) (run [])).me.npc = 0xFF8 := by decide +kernel
theorem test_blt_signed : (after (.blt none 9 10 2) (run [(9, -1), (10, 0)])).me.npc = 0x1010 ∧
    (after (.bltu none 9 10 2) (run [(9, -1), (10, 0)])).me.npc = 0x1008 := by decide +kernel
theorem test_call_links : (after (.call none 3) (run [])).me.npc = 0x1018 ∧ (after (.call none 3) (run [])).me.g 31 = 0x1008 := by
  decide +kernel
theorem test_jmpi_misaligned : (after (.jmpi none 9) (run [(9, 0x1004)])).me.status = .halted 0x0307 := by decide +kernel
theorem test_prio : (after (.prio none 2) (run [])).me.fir.cls = 2 := by decide +kernel
theorem test_end_idles : (after (.endFiring none) (run [(9, 7)])).me.status = .idle ∧ (after (.endFiring none) (run [(9, 7)])).me.g 9 = 7 := by
  decide +kernel
theorem test_rep_zero : (after (.rep 9 1 1 1 3) (run [])).me.rep = none ∧ (after (.rep 9 0 0 0 3) (run [(9, 2)])).me.rep.isSome = true := by
  decide +kernel
theorem test_lclaim_grants : (after (.lclaim none 9 10 0 2) (run [(10, 64)])).me.vl = 64 ∧ result (.lclaim none 9 10 0 2) [(10, 64)] 9 = 64 := by
  decide +kernel
theorem test_lclaim_odd : (after (.lclaim none 9 10 0 2) (run [(10, 20)])).me.status = .halted 0x0108 := by decide +kernel
theorem test_mfs_sched : result (.mfs none 9 0 2) [] 9 = 0x0000_6A00_0001_0000 := by decide +kernel
theorem test_mts_fenv : (after (.mts none 9 0) (device { withRegs [(9, 0x0000_0301)] firing with fenv := 0x1F })).me.fenv = 0x31E := by
  decide +kernel

theorem test_ld_lds_bytes :
    ((after (.lds none 5 9 0 0 0 1) (poke 0x2000 8 0x80FF (run [(9, 0x2000)]))).me.pend.flatMap (·.writes)) =
      [.g 5 0xFFFF_FFFF_FFFF_FF80] ∧
    ((after (.ld none 5 9 0 0 1 0) (poke 0x2000 8 0x80FF (run [(9, 0x2000)]))).me.pend.flatMap (·.writes)) = [.g 5 0x80FF] := by decide +kernel
theorem test_ld_misaligned : causes (after (.ld none 5 9 0 0 3 0) (run [(9, 0x2004)])) = [0x030B] := by decide +kernel
theorem test_ld_beyond : ((after (.ld none 5 9 0 0 3 0) (run [(9, 0x0100_0000_0000_0000)])).me.pend.map (·.fault)) =
    [some (0x030C, 0x0100_0000_0000_0000)] := by decide +kernel
theorem test_st_bytes : ((after (.st none 5 9 0 1 0) (run [(9, 0x2000), (5, 0x1234_5678)])).writes.map fun w => (w.pa, w.bytes)) =
    [(sramKey 0 0x2000, [some 0x78, some 0x56])] := by decide +kernel
theorem test_aadd_w : (let t := after (.aadd none 5 9 0 0 0 0) (poke 0x2000 8 0x1_FFFF_FFFF (run [(9, 0x2000), (5, 2)]))
    (t.homeNat (sramKey 0 0x2000) 8, t.me.pend.flatMap (·.writes))) = (0x1_0000_0001, [.g 5 0xFFFF_FFFF_FFFF_FFFF]) := by decide +kernel
theorem test_acas_fails : (after (.acas none 5 9 0 0 0 1) (poke 0x2000 8 7 (run [(9, 0x2000), (5, 8), (6, 9)]))).homeNat (sramKey 0 0x2000) 8 = 7 := by
  decide +kernel
theorem test_fence_notes : (let k := (after (.fence none 5 3) { run [] with nextWrite := 7 }).me
    (k.rels, k.fence)) = ([(5, 7)], some 0) := by decide +kernel
theorem test_join_last : (let t := after (.join none 9 2) (poke 0x2000 8 1 (run [(9, 0x2000)]))
    (t.homeNat (sramKey 0 0x2000) 8, t.me.npc, t.me.status)) = (0, 0x1010, .running) := by decide +kernel
theorem test_join_first : (let t := after (.join none 9 2) (poke 0x2000 8 2 (run [(9, 0x2000)]))
    (t.homeNat (sramKey 0 0x2000) 8, t.me.status)) = (1, .idle) := by decide +kernel

theorem test_trap_banked : (let s := device { withRegs [(9, 77)] firing with banks := Vector.replicate 2 ⟨0, 0, 0, 0x4001, 5⟩ }
    let k := (after (.trap none 9 3) s).me
    (k.tlevel, k.pc, (k.bank 1).cause, (k.bank 1).val, (k.bank 1).epc, (k.bank 1).save)) = (1, 0x4000, 0x0403, 77, 0x1000, 5) := by decide +kernel
theorem test_tret_next_pair : (let s := device { firing with tlevel := 1, banks := Vector.replicate 2 ⟨0, 0x1000, 0, 0x0200_0000_0000_4001, 0⟩ }
    let k := (after (.tret none) s).me
    (k.tlevel, k.npc)) = (0, 0x1008) := by decide +kernel
theorem test_tret_level_0 : (after (.tret none) (run [])).me.status = .halted 0x0107 := by decide +kernel
theorem test_divide_by_zero_disabled : (after (.div 2 4 6 0 1) (run [(4, 1), (6, 0x1_0000_0000)])).me.status = .halted 0x030A := by decide +kernel

/-! ### States and operands that meet the hypotheses of the statements -/

def okIs {ε α : Type} [DecidableEq α] (e : Except ε α) (a : α) : Bool :=
  match e with
  | .ok x => decide (x = a)
  | .error _ => false
def errIs {ε α : Type} [DecidableEq ε] (e : Except ε α) (a : ε) : Bool :=
  match e with
  | .ok _ => false
  | .error x => decide (x = a)
theorem ok_of {ε α : Type} [DecidableEq α] {e : Except ε α} {a : α} (h : okIs e a = true) : e = .ok a := by
  cases e <;> simp_all [okIs]
theorem err_of {ε α : Type} [DecidableEq ε] {e : Except ε α} {a : ε} (h : errIs e a = true) : e = .error a := by
  cases e <;> simp_all [errIs]

/-- The device with core 0 changed by `f`. -/
def core (l : List (Reg × Dword)) (f : Core → Core) : State := device (f (withRegs l firing))
def withCell (f : Cell → Cell) (s : State) : State := s.modCell 0 f
def inSpec (l : List (Reg × Dword)) : State := core l fun k => { k with fir := { k.fir with spec := true } }
/-- Some pending result. -/
def somePend : Pend := Claims.pending 2 0 3 .nopB [.g 7 9] 0 true (run []) 0
def waiting (l : List (Reg × Dword)) : State := core l fun k => { k with pend := [somePend] }
/-- Both trap levels enabled, with handlers at 0x4000. -/
def trapping (l : List (Reg × Dword)) : State := core l fun k => { k with banks := Vector.replicate 2 ⟨0, 0, 0, 0x4001, 5⟩ }

theorem witness_IntegerOperations : (3 : BitVec 2) ≠ 1 ∧ ((run [(9, 0xFF00)]).me.g 9).setWidth 8 = (0 : BitVec 8) ∧
    ((run [(9, 0x80)]).me.g 9).setWidth 8 ≠ (0 : BitVec 8) ∧ (after (.bswap 2 3 0 3) (run [])).me.status = .halted 0x0108 ∧
    (after (.sel 2 3 4 0 1) (run [])).me.status = .halted 0x0108 ∧
    Nat.min (((run [(10, 0x7F3F)]).me.g 10).toNat / 256 % 128) 64 = 64 := by decide +kernel
theorem witness_MultiplyDivide : ((run [(10, 0x1_0000_0001)]).me.g 10).setWidth 32 ≠ (0 : BitVec 32) ∧
    (((run [(9, 0x80)]).me.g 9).setWidth 8 : BitVec 8).toInt = -2 ^ 7 ∧ (((run [(10, 0xFF)]).me.g 10).setWidth 8 : BitVec 8).toInt = -1 := by
  decide +kernel
theorem witness_DivideByZero : (let s := trapping [(4, 5), (6, 0xAB00_0000_0000)]
    (s.me.g 6).toNat % 2 ^ Claims.width 1 = 0 ∧ s.me.replay = none ∧ s.me.settled = true ∧ s.me.tlevel + 1 ≤ 2 ∧
      (s.me.bank (s.me.tlevel + 1)).en = true ∧ skipsB .nopA = false ∧ ((after .nopA s).core s.cur).out = .ok) := by decide +kernel
theorem witness_DivideByZero_partner : exec .nopA (trapping [(4, 5)]) = .next (after .nopA (trapping [(4, 5)])) := rfl
theorem witness_ScalarFloatingPoint : (15 : Reg).toNat < 16 ∧ 16 ≤ (16 : Reg).toNat ∧
    (fp32.decode 0x3F80_0000).isFin = true ∧ (fp32.decode 0x3F80_0000).isZero = false ∧ (fp32.decode 0x8000_0000).isZero = true ∧
    (fp32.decode 0xBF80_0000).neg = true ∧ (fp32.decode 0xBF80_0000).isNan = false ∧ (fp32.decode 0x7F80_0001).isNan = true ∧
    fp32.decode 0xFF80_0000 = .inf true := by decide +kernel
theorem witness_CanonicalNaN : (fp32.decode (fp32.add .rne 0x7F80_0000 0xFF80_0000).1).isNan = true ∧
    (fp64.decode (fp16.convert fp64 .rtz 0x7C01).1).isNan = true ∧ (bf16.decode (bf16.sqrt .rup 0xBF80).1).isNan = true := by
  decide +kernel
def streamOf (bank : Nat) : Stream :=
  { desc := ⟨0x3000, [256], [1], false, 0, 0, 0⟩, feed := ⟨0, [], 0, 0x3000, [], false, none, []⟩, bank := bank, shared := none, pos := 0,
    pops := 0, badblk := 0, stalls := 0, fail := false, trapped := [] }
def bound (x : Stream) (f : Core → Core := id) : State := core [] fun k => f { k with vl := 16, streams := k.streams.set 0 (some x) }
theorem witness_VectorElements :
    (∃ t x y o, (lanes 5 6).vread [1, 2, 3] = .ok (t, [x, y, o])) ∧ (∃ t x o, (lanes 5 6).vread [1, 1, 3] = .ok (t, [x, x, o])) ∧
    (lanes 5 6).me.vl ≠ 0 ∧ ((lanes 5 6).me.streams.toList.getD 0 none).map (·.bank) = none ∧
    ((bound (streamOf 2)).me.streams.toList.getD 0 none).map (·.bank) = some 2 ∧ (7 : BitVec 4).toNat < 8 ∧ (3 : BitVec 4).toNat + 1 ≤ 4 :=
  ⟨⟨_, _, _, _, rfl⟩, ⟨_, _, _, rfl⟩, by decide +kernel, by decide +kernel, by decide +kernel, by decide, by decide⟩
theorem witness_VectorLanes :
    (∃ t x y, (lanes 5 6).vread [1, 2] = .ok (t, [x, y])) ∧ (∃ t x, (lanes 5 6).vread [1] = .ok (t, [x])) ∧
    (∃ t x y o, (lanes 5 6).vread [1, 2, 3] = .ok (t, [x, y, o])) ∧ (11 : BitVec 4).toNat < 12 ∧ (4 : BitVec 4) ∈ [0, 4] ∧
    ((9 : BitVec 4), bf16) ∈ [((8 : BitVec 4), fp16), (9, bf16)] ∧ (Claims.el 32 (6 : VReg) 0).toNat < 16 ∧
    Claims.on ((lanes 5 6).me.p 0) 32 15 = true ∧ Claims.on ((lanes 5 6).me.p 1) 32 0 = false :=
  ⟨⟨_, _, _, rfl⟩, ⟨_, _, rfl⟩, ⟨_, _, _, _, rfl⟩, by decide, by decide, by decide, by decide +kernel, by decide +kernel, by decide +kernel⟩
theorem witness_VectorFormats :
    (lanes 5 6).me.vl % (32 * 2 ^ ((0 : BitVec 4).toNat % 4)) ≠ 0 ∧
    (core [] fun k => { k with vl := 256 }).me.vl % (32 * 2 ^ ((3 : BitVec 4).toNat % 4)) = 0 ∧
    (∃ t x, (core [] fun k => { k with vl := 256 }).vread [1] = .ok (t, [x])) ∧
    (∃ t x y, (core [] fun k => { k with vl := 256 }).vread [1, 2] = .ok (t, [x, y])) ∧ (7 : BitVec 3) ≠ 0 ∧
    (core [] fun k => { k with vl := 256 }).me.vl ≤ 256 ∧ (core [] fun k => { k with vl := 256 }).me.vl % 16 = 0 ∧
    (7 : BitVec 4).toNat < 8 ∧ ((11 : BitVec 4), fp64) ∈ [((8 : BitVec 4), fp16), (9, bf16), (10, fp32), (11, fp64)] ∧
    (9 : BitVec 4) ∈ [(0 : BitVec 4), 1, 8, 9] :=
  ⟨by decide +kernel, by decide +kernel, ⟨_, _, rfl⟩, ⟨_, _, _, rfl⟩, by decide, by decide +kernel, by decide +kernel, by decide,
    by decide, by decide⟩
theorem witness_PredicateWords : (lanes 5 6).me.vl ≠ 0 ∧ (run []).me.vl = 0 := by decide +kernel
theorem witness_ControlFlow : ((run [(31, 0x2000)]).me.g 31).extractLsb' 0 3 = 0 ∧ ((run [(9, 0x2004)]).me.g 9).extractLsb' 0 3 ≠ 0 ∧
    65535 < ((run [(9, 0x1_0000)]).me.g 9).toNat ∧ ((run [(9, 0)]).me.g 9).toNat = 0 ∧
    (let n := ((run [(9, 65535)]).me.g 9).toNat
     0 < n ∧ n ≤ 65535 ∧ (run [(9, 65535)]).me.iter.toNat < n) := by decide +kernel
theorem witness_FiringsStop : (waiting []).me.pend ≠ [] ∧ (run []).me.pend = [] ∧ (0x00FF_FFFF : Word).toNat < 2 ^ 24 ∧
    2 ^ 24 ≤ (0x0100_0000 : Word).toNat ∧ (core [] fun k => { k with tlevel := 2 }).me.tlevel ≠ 0 ∧
    (inSpec []).me.fir.spec = true ∧ (inSpec []).me.tlevel = 0 ∧ (inSpec []).me.pend = [] ∧
    (core [] fun k => { k with copies := [⟨0, 0, 8, 0, 0, 0, 1, 0, none, none, true, false⟩] }).me.copies.any (·.mine) = true ∧
    ((run []).me.copies.any (·.mine) = false ∧ ((run []).cell ((run []).cur / 8)).demands = [] ∧ (run []).me.switching = false) := by
  decide +kernel
/-- Core 0 at a SAFE point with 64 lanes, 16 of them its floor, and two higher demands of the cell; a switch is pending or not. -/
def demanded (switching : Bool) (busy : Bool) : State :=
  withCell (fun c => { c with demands := [⟨1, 1, 40⟩, ⟨2, 0, 8⟩] })
    (core [] fun k => { k with vl := 64, floor := 16, switching := switching, fir := { k.fir with cls := 3 },
                               resq := if busy then [⟨true, 1, [], [], 16, [], 0, []⟩] else [] })
theorem witness_FiringsStop_taken : ∀ switching ∈ [false, true], ∀ busy ∈ [false, true],
    let s := demanded switching busy
    let w := s.cell 0
    s.me.pend = [] ∧ s.me.tlevel = 0 ∧ s.me.fir.spec = false ∧ s.me.copies.any (·.mine) = false ∧ (w.demands.map fun x => x.core % 8).Nodup ∧
      (w.demands.filter fun x => decide (x.cls < s.classOf s.cur)).length = 2 ∧ s.me.switching = switching ∧
      (s.me.schur.bound.isSome = false ∧ s.me.bankUsed 1 = false ∧ s.me.bankUsed 2 = false) ∧ decide (s.me.resq ≠ []) = busy := by decide +kernel
def withEntry (n : Nat) (e : Entry) (k : Core) : Core := { k with entries := k.entries.set n e }
theorem witness_ForkJoin : (inSpec []).me.fir.spec = true ∧
    (let s := core [] (withEntry 62 { Entry.zero with depth := 6, en := true })
     s.me.fir.spec = false ∧ s.me.arms.length < (s.me.entry 62).depthOf) ∧
    (waiting []).me.pend ≠ [] ∧ ((run [(9, 0x2004)]).me.g 9).toNat % 8 ≠ 0 ∧
    (let s := poke 0x2000 8 1 (run [(9, 0x2000)])
     s.me.pend = [] ∧ (s.me.g 9).toNat % 8 = 0 ∧ queueOf (sramKey 0 0x2000) = none ∧ isWindow (sramKey 0 0x2000) = false ∧
       calmIs s = true ∧ s.me.copies = [] ∧ s.me.arms.length ≤ (s.me.entry 62).depthOf ∧ sramKey 0 0x2000 % 8 = 0 ∧
       s.homeNat (sramKey 0 0x2000) 8 = 1) ∧
    (poke 0x2000 8 2 (run [(9, 0x2000)])).homeNat (sramKey 0 0x2000) 8 ≠ 1 := by decide +kernel
theorem witness_JoinCounts_key : (poke 0x2000 8 1 (run [(9, 0x2000)])).atomicKey 0 0x2000 = .ok (sramKey 0 0x2000) :=
  ok_of (by decide +kernel)
def aCopy (ctl : Dword) : CopyReq := ⟨0x4000_0000, 0x4000_0100, ctl, 0, 0, 0, 1, 0, none, none, true, false⟩
theorem witness_SpeculationAndBanks : (inSpec []).me.fir.spec = true ∧ ((run []).cell 0).specEn = false ∧
    (let w := (withCell (fun c => { c with specEn := true, specActive := true }) (run [])).cell 0
     w.specActive = true) ∧
    (let s := withCell (fun c => { c with specEn := true }) (run [])
     s.me.fir.spec = false ∧ (s.cell 0).specEn = true ∧ (s.cell 0).specActive = false ∧ s.writes = [] ∧ s.depOps = []) ∧
    ((withCell (fun c => { c with specConflict := true }) (inSpec [])).cell 0).specConflict = true ∧
    (let s := withCell (fun c => { c with shadow := [(0, 7), (0xFDFF, 5)] }) (inSpec [])
     s.cur < 8192 ∧ s.me.rels = [] ∧ memWf s.mem = true ∧ s.bad = [] ∧ ((s.cell 0).shadow.map (·.1)).Pairwise (· < ·) ∧
       ∀ x ∈ (s.cell 0).shadow, 32 * x.1 + 32 ≤ 0x1F_C000) ∧
    (core [] fun k => { k with copies := [aCopy (2 ^ 33 + 64)] }).me.bankUsed 2 = true ∧
    (core [] fun k => { k with copies := [{ aCopy (2 ^ 33 + 64) with unbanked := true }] }).me.bankUsed 2 = false ∧
    ((core [] fun k => { k with copies := [aCopy 64, aCopy (2 ^ 33 + 64)] }).me.copies.head?.map
      fun q => q.ctl.toNat / 2 ^ 32 % 4) = some 0 ∧
    ((inSpec []).cell 0).specConflict = false ∧ (run []).me.bankUsed 1 = false ∧ (run []).me.bankUsed 2 = false ∧
    (bound (streamOf 1)).me.bankUsed 1 = true := by decide +kernel
def speculating (l : List (Reg × Dword)) : State :=
  withCell (fun c => { c with specEn := true, specActive := true }) (inSpec l)
theorem witness_RegistersAndLanes : (waiting []).me.pend.any (fun p => p.fp && p.who.ord < (waiting []).me.words) = false ∧
    (core [] fun k => { k with words := 2, pend := [somePend] }).me.pend.any (fun p => p.fp && p.who.ord < 2) = true ∧
    (run []).me.fpPending = false ∧ (0x80 ≤ (0x9F : BitVec 11).toNat ∧ (0x9F : BitVec 11).toNat < 0xA0) ∧
    16 < (17 : BitVec 6).toNat ∧ (let q := ((run [(9, 256)]).me.g 9).toNat; q % 16 = 0 ∧ q ≤ 256) ∧
    256 < ((run [(9, 272)]).me.g 9).toNat ∧ (lanes 0 0).me.vl < ((run [(9, 32)]).me.g 9).toNat ∧
    ((run [(9, 16)]).me.g 9).toNat ≤ (lanes 0 0).me.vl ∧
    (let s := { after (.mfs none 9 0 0x9F) (run []) with cycle := 1 }
     s.me.pend.map (fun p => (p.who.instr, p.writes, p.waits.isNone, p.issued + 2)) = [(.mfs none 9 0 0x9F, [.g 9 0], true, s.cycle + 1)]) ∧
    ((run []).cell 0).specOwner < 8 ∧ ((run []).cell 0).specBank < 32 ∧ ((run []).cell 0).specActive = false ∧
    ((speculating []).cell 0).specActive = true := by decide +kernel
theorem witness_Traps : (trapping []).me.tlevel ≤ 1 ∧ ((trapping []).me.bank 1).status.getLsbD 0 = true ∧
    ((trapping []).me.issued 3 0 .nopA).word < 4 ∧ (waiting []).me.pend ≠ [] ∧ (run []).me.tlevel = 0 ∧
    (let s := core [] fun k => { k with tlevel := 1, pend := [somePend] }
     s.me.tlevel ≠ 0 ∧ s.me.pend ≠ []) ∧
    (let s := core [] fun k => { k with tlevel := 2, banks := Vector.replicate 2 ⟨0, 0, 0, 0x0200_0000_0000_0001, 0⟩ }
     s.me.pend = [] ∧ s.me.tlevel ≠ 0 ∧ (s.me.bank s.me.tlevel).resume = 2) ∧
    ((core [] fun k => { k with tlevel := 1 }).me.bank 1).resume = 0 ∧
    (let s := core [] fun k => { k with tlevel := 2, banks := Vector.replicate 2 ⟨0, 0, 0, 0x0100_0000_0000_0001, 0⟩,
                                        replays := Vector.replicate 2 (some ⟨[], 0x1010, none⟩) }
     (s.me.bank s.me.tlevel).resume = 1 ∧ s.me.replays.toList.getD (s.me.tlevel - 1) none = some ⟨[], 0x1010, none⟩ ∧ s.me.tlevel ≤ 2) := by
  decide +kernel
/-- A running region with one cell, its translation root in device memory. -/
def aRegion : Region :=
  { peerOpen := false, fn := 0, parent := none, kids := [], level := 0, rcb := 0, cls := 0, restartable := false, stealable := false, cells := 1, lanes := 0,
    matrix := 0, sramKib := 0, msgs := 16, domain := 0, supervisor := 0, spawn := 4, image := [], dicts := 0xFF, root := dramKey 0x10_0000,
    ext := [4, 1, 1], extX := 0, tile := [1, 1, 1], spillBase := 0, spillSize := 0, spillRoot := 0, spillPhys := false, state := 1, done := [],
    tilesDone := 0, placed := [0], dealing := [0], dealt := [], fresh := 0, ahead := [], redo := [], descBase := 0, descs := [],
    offered := false, launchNs := 0, usedCells := 1, usedSram := 0, usedMatrix := 0, usedMsgs := 0, usedCtx := 0, qevents := 0,
    qRose := true, qZero := none, doneSince := none, switched := false, pastFrom := 0 }
def holding (r : Region) (s : State) : State := { s with regions := [(1, some r)] }
def two (l : List (Reg × Dword)) (k : Core) : State := { run l with cores := [(0, withRegs l firing), (9, k)] }
theorem witness_HaltAndWindow_halt :
    (let s := holding { aRegion with supervisor := 9 } (run [])
     s.me.region.getD s.me.fir.region = 1 ∧ s.region 1 = some { aRegion with supervisor := 9 } ∧ 9 ≠ s.cur ∧ s.isLive (9 / 2048) = true ∧
       s.device < 2 ^ 13 ∧ s.cur < 2 ^ 13 ∧ 0xFFFF < 2 ^ 16 ∧ 3 < 4) ∧
    (holding aRegion (run [])).region 1 = some aRegion ∧ aRegion.supervisor = (run []).cur ∧ aRegion.state < 2 ∧
    ({ holding { aRegion with supervisor := 2048 } (run []) with live := 13 } : State).isLive (2048 / 2048) = false := by decide +kernel
/-- A core whose deque is full, of a region whose spill area lies at device memory 0x1000 and whose free records begin at `free`. -/
def brimming (free : Nat) : State :=
  let r := { aRegion with spillBase := dramKey 0x1000, spillSize := 256, spillPhys := true }
  { core [] (fun k => { k with arms := List.replicate 64 ⟨0, List.replicate 9 0x4000, 1⟩ }) with
    regions := [(1, some r)], mem := memSetBytes [] (dramKey 0x1000) (leBytes 8 free) }
theorem witness_ForkJoin_full : ∀ free ∈ [0, 128],
    let s := brimming free
    s.me.fir.spec = false ∧ (s.me.entry 62).depthOf ≤ s.me.arms.length ∧ s.me.arms ≠ [] ∧ s.me.region = some 1 ∧
      ((s.region 1).bind s.takeRecord).map (·.2) = (if free = 0 then none else some 128) := by decide +kernel
/-- Core 0 supervises core 9, which stands so. -/
def watching (l : List (Reg × Dword)) (k : Core) : State := holding aRegion (two l { k with region := some 1 })
def halted : Core := { Core.reset with status := .halted 0x0202, vl := 16 }
theorem witness_HaltAndWindow_checks : 2 ^ 32 ≤ ((run [(9, 0x1_0000_0000)]).me.g 9).toNat ∧
    ((run [(9, 0xE000)]).me.g 9).toNat / 2 ^ 13 % 8 ≠ 0 ∧ ((run [(9, 0x1_0009)]).me.g 9).toNat / 2 ^ 16 ≠ 0 ∧
    (let s := holding { aRegion with supervisor := 1 } (two [(9, 9)] { halted with region := some 1 })
     (s.core 9).region = some 1 ∧ (s.region 1).map (·.supervisor) = some 1 ∧ 1 ≠ s.cur) ∧
    (let s := watching [(9, 9), (10, 0x2004)] Core.reset
     (s.me.g 9).toNat < 2 ^ 32 ∧ (s.me.g 9).toNat / 2 ^ 13 % 8 = 0 ∧ (s.core 9).region = some 1 ∧ s.region 1 = some aRegion ∧
       aRegion.supervisor = s.cur ∧ s.isLive (9 / 2048) = true ∧ (s.me.g 9).toNat / 2 ^ 16 = 0 ∧ (s.me.g 10).toNat % 8 ≠ 0 ∧
       (s.core 9).isHalted = false) ∧
    ({ watching [(9, 9)] Core.reset with live := 14 } : State).isLive (9 / 2048) = false := by decide +kernel
theorem witness_HaltAndWindow_acts :
    (let s := watching [(9, 0x1F_0009), (10, 0x2000)] halted
     9 ≠ s.cur ∧ (s.core 9).isHalted = true ∧ (s.me.g 9).toNat / 2 ^ 16 = 31 ∧ (s.me.g 10).toNat % 8 = 0 ∧
       (s.core 9).status = .halted 0x0202 ∧ 0x0202 < 2 ^ 16 ∧ (s.core 9).tlevel < 4) ∧
    ((watching [(9, 0x17FF_0009)] halted).me.g 9).toNat / 2 ^ 16 = 0x1000 + 128 * 15 + 127 ∧
    ((watching [(9, 0x2410_0009)] halted).me.g 9).toNat / 2 ^ 16 = 0x2410 ∧
    (let s := watching [(9, 0x24_0009)] { firing with pc := 0x2000 }
     (s.me.g 9).toNat / 2 ^ 16 = 0x24 ∧ (s.core 9).status = .running ∧ (s.core 9).replay = none ∧ s.isLive (s.cur / 2048) = true) ∧
    ((watching [(9, 0x24_0009)] halted).core 9).status ≠ .running ∧
    ((core [] fun k => { k with copies := List.replicate 16 (aCopy 64) }).core 0).copies[15]? = some (aCopy 64) := by decide +kernel
/-- Tables that map 0x4000_0000 and the GiB that it begins to device memory from 0 on; the page can be written. -/
def mapped (s : State) : State :=
  { s with regions := [(1, some aRegion)],
           mem := memSetBytes (memSetBytes s.mem (dramKey 0x10_0000) (leBytes 8 (dramKey 0x20_0000 + 1))) (dramKey 0x20_0008)
             (leBytes 8 (dramKey 0 + 0xF)) }

theorem witness_Translation : 2 ^ 56 ≤ 0x0100_0000_0000_0000 ∧ (run []).isLive (0 / 256) = true ∧
    ({ run [] with live := 14 } : State).isLive (255 / 256) = false ∧
    (mapped (run [])).xlate (dramKey 0x10_0000) 0 0x4000_0008 .write = .ok (dramKey 8) :=
  ⟨by decide, by decide +kernel, by decide +kernel, ok_of (by decide +kernel)⟩
/-- A cached translation of the GiB at 0x4000_0000, which no table in memory gives. -/
def cached : State := withCell (fun c => { c with tlb := [⟨dramKey 0x10_0000, 30, 1, dramKey 0 + 0xC⟩] }) (run [])
theorem witness_Translation_cache :
    ((cached.cell 0).tlb.find? (·.covers (dramKey 0x10_0000) 0x4000_0008)).map (·.entry) = some (dramKey 0 + 0xC) ∧
    ((run []).cell 0).tlb.find? (·.covers (dramKey 0x10_0000) 0x4000_0008) = none ∧
    cached.xlate (dramKey 0x10_0000) 0 0x4000_0008 .exec = .ok (dramKey 8) ∧ 0x20_0000 ≤ 0x4000_0008 :=
  ⟨by decide +kernel, by decide +kernel, ok_of (by decide +kernel), by decide⟩
theorem witness_Translation_walk :
    (mapped (run [])).walk 0x4000_0008 4 1 (dramKey 0x10_0000) = .ok (dramKey 0 + 0xF, dramKey 8) ∧
    (mapped (run [])).walk 0x8000_0000 4 1 (dramKey 0x10_0000) = .error 0x030C ∧
    (run []).tableKey (dramKey 0x10_0000) = some (dramKey 0x10_0000) ∧ (run []).tableKey (dramKey (768 * 2 ^ 30)) = none ∧
    (run []).tableKey (sramKey 0 0x1000) = some (sramKey 0 0x1000) ∧ (run []).tableKey 0 = none :=
  ⟨ok_of (by decide +kernel), err_of (by decide +kernel), by decide +kernel, by decide +kernel, by decide +kernel, by decide +kernel⟩
theorem witness_AllLoads : ((run [(9, 0x2004)]).me.g 9).toNat % 8 ≠ 0 ∧ ((run [(9, 0x2004)]).me.g 9).toNat % 4 = 0 ∧
    (run [(9, 0x2004)]).me.vl = 0 ∧ ((lanes 0 0).me.vl ≠ 0 ∧ (lanes 0 0).me.vl ≤ 256) ∧ (run [(9, 0x2040)]).me.g 9 % 64 = 0 ∧
    (lanes 0 0).xlateRange ((lanes 0 0).rootOf 0) 0 0x2040 (4 * (lanes 0 0).me.vl) .read = .ok [(sramKey 0 0x2040, 64)] ∧
    (run []).xlate ((run []).rootOf 0) 0 0x20_0000 .read = .error 0x030C :=
  ⟨by decide +kernel, by decide +kernel, by decide +kernel, by decide +kernel, by decide +kernel, ok_of (by decide +kernel),
    err_of (by decide +kernel)⟩
theorem witness_AllLoads_overwritten :
    (let s := { mapped (run [(9, 0x2000)]) with past := [(sramKey 0 0x2000, [5])] }
     s.pastLength s.cur = 1 ∧ s.pastByte s.cur 1 (sramKey 0 0x2000) = 5 ∧ s.pastByte s.cur 0 (sramKey 0 0x2000) = 0 ∧
       (s.me.g 9).toNat % 8 = 0) ∧
    (run []).xlate ((run []).rootOf 0) 0 0x2000 .read = .ok (sramKey 0 0x2000) ∧
    (run []).pastLength 0 = 0 := ⟨by decide +kernel, ok_of (by decide +kernel), by decide +kernel⟩
/-- Another core's write of 0x2000 is on its way, which core 0 has observed or not. -/
def seeing (seen : List Nat) : State :=
  let w : Write := ⟨8, sramKey 0 0x2000, [some 5, none, some 6], [(5, 3)], 3, []⟩
  { core [(9, 0x2000)] (fun k => { k with seen := seen }) with
    writes := [⟨8, sramKey 0 0x3000, [some 1], [], 2, []⟩, w], nextWrite := 4 }
theorem witness_AllLoads_open :
    (∀ seen ∈ [[], [3]],
      let s := seeing seen
      let w : Write := ⟨8, sramKey 0 0x2000, [some 5, none, some 6], [(5, 3)], 3, []⟩
      s.openByte s.cur (sramKey 0 0x2000) = true ∧
        s.returnable s.cur (sramKey 0 0x2000) = (if seen = [] then [none, some w] else [some w]) ∧
        s.returnable s.cur (sramKey 0 0x2001) = [none]) ∧
    (let s := seeing [3]
     ∃ w ∈ s.writes, w.core ≠ s.cur ∧ w.id ∈ s.me.seen ∧ w.bytes ≠ [] ∧ w.has (sramKey 0 0x2000) = true ∧ inScope 5 w.core s.cur = true ∧
       (5, 3) ∈ w.rel ∧ ∃ m ∈ s.writes, m.core = w.core ∧ m.id < 3) ∧
    (let s := core [] fun k => { k with pend := [somePend] }
     s.openByte s.cur (sramKey 0 0x1F_C000) = false) := by decide +kernel
/-- A relaxed load of it may return it; an acquire at the system's scope that returns it has it performed, with what it carries. -/
theorem test_lda_acquires : (let t := after (.lda none 5 9 0 5 0) (seeing [3])
    (t.me.pend.flatMap (·.writes), t.writes.map (·.id), t.homeByte (sramKey 0 0x2002), t.homeByte (sramKey 0 0x3000))) =
      ([.g 5 5], [], 6, 1) := by decide +kernel
theorem witness_AllStores : (run []).me.fir.spec = false ∧ (run []).xlate ((run []).rootOf 0) 0 0x20_0000 .write = .error 0x030C ∧
    (run []).xlate ((run []).rootOf 0) 0 0x2002 .write = .ok (sramKey 0 0x2002) ∧ queueOf (sramKey 0 0x2002) = none ∧
    isWindow (sramKey 0 0x2002) = false ∧ (speculating []).me.fir.spec = true ∧
    (speculating []).xlate ((speculating []).rootOf 0) 0 0x1_2002 .write = .ok (sramKey 0 0x1_2002) ∧
    (speculating []).specLine (sramKey 0 0x1_2002) = none ∧
    (speculating []).specLine (sramKey 0 0x2002) = some ((speculating []).cur / 8, 0x100) ∧
    (∃ ps, (lanes 0 0).storeKeys 0 0x2040 (List.replicate 64 (some 5)) = .ok ps ∧
      ∀ q ∈ ps, queueOf q.1 = none ∧ isWindow q.1 = false) :=
  ⟨by decide +kernel, err_of (by decide +kernel), ok_of (by decide +kernel), by decide +kernel, by decide +kernel, by decide +kernel,
    ok_of (by decide +kernel), by decide +kernel, by decide +kernel,
    ⟨[(sramKey 0 0x2040, List.replicate 64 (some 5))], ok_of (by decide +kernel), by decide +kernel⟩⟩
theorem witness_AllStores_vector_fault : ∃ e u, (lanes 0 0).storeKeys 0 0x20_0000 (List.replicate 64 (some 5)) = .error (e, u) ∧ 0x20_0000 % 64 = 0 :=
  ⟨0x030C, 0x20_0000, err_of (by decide +kernel), by decide⟩
theorem witness_Fences : (run []).writes = [] ∧ (run []).depOps = [] ∧ (3 : BitVec 2).getLsbD 0 = true ∧ (1 : BitVec 2).getLsbD 1 = false := by decide +kernel
def tileHeld : State := core [(9, 0x2004)] fun k => { k with fir := { k.fir with tiles := [(0, true)] } }
theorem witness_AllAtomics :
    (let s := run [(9, 0x2004)]
     s.me.fir.spec = false ∧ s.me.fir.tiles = [] ∧ (s.me.g 9).toNat % 4 = 0 ∧ queueOf (sramKey 0 0x2004) = none ∧
       isWindow (sramKey 0 0x2004) = false ∧ sramKey 0 0x2004 % 4 = 0 ∧ s.writes = [] ∧ s.bad = [] ∧ (s.me.g 9).toNat % 8 ≠ 0) ∧
    tileHeld.me.fir.tiles.any (·.2) = true ∧ (inSpec []).me.fir.tiles.any (·.2) = false ∧ (inSpec []).me.fir.spec = true ∧
    (30 : Reg) ≠ 0 ∧ (30 : Reg) ≠ 31 := by decide +kernel
theorem witness_Atomics_key : (run [(9, 0x2004)]).atomicKey 0 ((run [(9, 0x2004)]).me.g 9) = .ok (sramKey 0 0x2004) :=
  ok_of (by decide +kernel)
/-- Sixteen lanes whose elements 0 and 1 are the indices 3 and null, and the rest 0. -/
def indexed : State := device (({ withRegs [(9, 0x2000)] firing with vl := 16 } : Core).setV 1 (0xFFFF_FFFF * 2 ^ 32 + 3))
theorem witness_AllAtomics_calm : Claims.calm (run [(9, 0x2004)]) ∧ Claims.calm indexed ∧ Claims.noWaits (run []) :=
  ⟨calm_of (by decide +kernel), calm_of (by decide +kernel), noWaits_of (s := run []) (by decide +kernel)⟩
theorem witness_AllAtomics_tiles : (let s := { tileHeld with cores := [(0, { tileHeld.me with vl := 16, fir := { tileHeld.me.fir with spec := true } })] }
    s.me.vl ≠ 0 ∧ s.me.fir.tiles.any (·.2) = true ∧ s.me.fir.spec = true) ∧ (run []).me.fir.tiles.any (·.2) = false := by decide +kernel
theorem witness_GatherScatter : indexed.me.vl ≠ 0 ∧ indexed.me.vl ≤ 256 ∧ indexed.me.fir.spec = false ∧
    (indexed.me.g 9).toNat % 4 = 0 ∧ (run [(9, 0x2001)]).me.vl = 0 ∧ ((run [(9, 0x2001)]).me.g 9).toNat % 2 ≠ 0 ∧ indexed.me.fir.tiles = [] ∧
    indexed.writes = [] ∧ indexed.bad = [] ∧
    (let ks := some (sramKey 0 0x200C) :: none :: List.replicate 14 (some (sramKey 0 0x2000))
     indexed.elemKeys (elemAddrs (indexed.me.g 9) (indexed.me.v 1) 4 16) .write = .ok ks ∧
       ∀ key ∈ ks.filterMap id, queueOf key = none ∧ isWindow key = false ∧ key % 4 = 0) :=
  ⟨by decide +kernel, by decide +kernel, by decide +kernel, by decide +kernel, by decide +kernel, by decide +kernel, by decide +kernel,
    by decide +kernel, by decide +kernel, ok_of (by decide +kernel), by decide +kernel⟩
theorem witness_GatherScatter_traps : indexed.me.vl ≠ 0 ∧ (indexed.me.g 9).toNat % 8 = 0 ∧
    (let s := device ({ withRegs [(9, 0x2002)] firing with vl := 16 } : Core)
     s.me.fir.spec = false ∧ (s.me.g 9).toNat % 4 ≠ 0) ∧ (3 : BitVec 2).toNat ≥ 2 ∧
    spaceOf (sramKey 0 0x200C) ≠ 3 ∧ spaceOf (sramKey 0 0x2000) ≠ 3 := by decide +kernel
/-- A descriptor at 0x2000 of a one-dimensional stream of 256 bytes from 0x3000, with these flags. -/
def described (flags : Nat) : State :=
  poke 0x2000 8 0x3000 (poke 0x2008 8 0x1_0000_0100 (poke 0x2010 8 0x1_0000_0001 (poke 0x2018 8 1 (poke 0x2028 8 flags (run [(9, 0x2000)])))))
theorem witness_Streams_bind :
    (let s := described 0
     let read := StreamDesc.ofBytes (s.firingBytes s.cur (sramKey 0 0x2000) 48)
     s.writes = [] ∧ s.bad = [] ∧ s.me.streams.toList.getD 0 none = none ∧ (s.me.g 9).toNat % 8 = 0 ∧ read.2 = false ∧
       read.1.bad false = false) ∧
    (let s := described 0x10_1000
     let read := StreamDesc.ofBytes (s.firingBytes s.cur (sramKey 0 0x2000) 48)
     read.2 = false ∧ read.1.bad true = false ∧ s.shared = []) ∧
    (StreamDesc.ofBytes ((described 8).firingBytes 0 (sramKey 0 0x2000) 48)).1.bad false = true ∧
    (bound (streamOf 0)).me.streams.toList.getD 0 none ≠ none ∧ ((run [(9, 0x2004)]).me.g 9).toNat % 8 ≠ 0 ∧
    (described 0).xlateRange ((described 0).rootOf 0) 0 0x2000 48 .read = .ok [(sramKey 0 0x2000, 48)] :=
  ⟨by decide +kernel, by decide +kernel, by decide +kernel, by decide +kernel, by decide +kernel, ok_of (by decide +kernel)⟩
/-- The shared stream that stands at the descriptor of `described 0x10_1000`, with these subscribers. -/
def sharing (subs : List Subscriber) (f : Shared → Shared := id) : State :=
  let s := described 0x10_1000
  let d := (StreamDesc.ofBytes (s.firingBytes s.cur (sramKey 0 0x2000) 48)).1
  { s with shared := [f ⟨7, 1, 0, sramKey 0 0x2000, d, Feed.fresh d, 0, subs⟩] }
theorem witness_Streams_subscribe :
    (described 0x10_1000).sharedAt 0 (sramKey 0 0x2000) = none ∧
    ((sharing []).sharedAt 0 (sramKey 0 0x2000)).map (fun y => (y.desc.bad true, y.desc.subs, y.subs.length)) = some (false, 1, 0) ∧
    (∀ z ∈ (sharing []).shared, z.id = 7) ∧ (sharing []).shared.length = 1 ∧
    ((sharing [⟨9, some 0, some 0⟩]).sharedAt 0 (sramKey 0 0x2000)).map (fun y => decide (y.desc.subs ≤ y.subs.length)) = some true := by
  decide +kernel
/-- Core 0's first stream reads a plain shared stream of 4 KiB at this place, beside a subscriber at the start. -/
def reading (p : Nat) : State :=
  let d : StreamDesc := ⟨0x3000, [4096], [1], false, 0, 16, 2⟩
  { bound { streamOf 0 with desc := d, shared := some 7, pos := p } with
    shared := [⟨7, 1, 0, 0x2000, d, { Feed.fresh d with buf := List.replicate 64 7 }, 0, [⟨9, some 0, some 0⟩, ⟨0, some 0, some p⟩]⟩] }
theorem witness_Streams_sharing : ∀ p ∈ [0, 1024],
    ((reading p).me.streams.toList.getD 0 none).map (fun x => (x.bank, x.shared, x.pos)) = some (0, some 7, p) ∧ (reading p).me.vl = 16 ∧
    ((reading p).sharedOf 7).map (fun y => (y.place 0 (some 0), y.desc.decomp, y.feed.hdrErr)) = some (some p, false, false) := by
  decide +kernel
theorem witness_Streams_sharing_room : ∀ p ∈ [0, 1024],
    ((reading p).sharedOf 7).map (fun y => [y.feed.start, y.desc.total, y.slowest, y.desc.win, y.feed.buf.length]) =
      some [0, 4096, 0, 16, 64] := by decide +kernel
theorem witness_Streams_sharing_feed : ∀ p ∈ [0, 1024],
    ((reading p).sharedOf 7).map (·.feed.fault) = some none ∧ ((reading p).sharedOf 7).map (·.feed.bad) = some [] := by decide +kernel
theorem witness_Streams_sharing_bounds :
    0 / 64 + 16 < (Nat.min (1024 + 64) 4096 + 63) / 64 ∧ (Nat.min (0 + 64) 4096 + 63) / 64 ≤ 0 / 64 + 16 ∧ Nat.min (0 + 64) 4096 ≤ 0 + 64 := by
  decide
theorem witness_Streams_fetch :
    (let s := bound (streamOf 0)
     let x := streamOf 0
     (s.core 0).streams.toList.getD 0 none = some x ∧ x.shared = none ∧ x.desc.decomp = false ∧ x.feed.fault = none ∧
       x.feed.hdrErr = false ∧ 0 < typeBytes x.desc.typ ∧ s.bad = [] ∧ x.feed.next < x.desc.total ∧ x.feed.next < x.pos + 2048 ∧
       x.feed.next % typeBytes x.desc.typ = 0) ∧
    (bound (streamOf 0)).xlate ((bound (streamOf 0)).rootOf 0) 0 ((streamOf 0).desc.addr 0 0).toNat .read = .ok (sramKey 0 0x3000) :=
  ⟨by decide +kernel, ok_of (by decide +kernel)⟩
/-- A stream of two bytes, the second at an address that does not translate. -/
def breaking : Stream := { streamOf 0 with desc := ⟨0x3000, [2], [0x40_0000], false, 0, 0, 0⟩ }
theorem witness_Streams_fetch_fault :
    ((bound breaking).cell 0).tlb.length ≤ 192 ∧ (streamOf 0).desc.bad false = false ∧ breaking.desc.bad false = false ∧
    Nat.min (64 - 0 % 64) (breaking.desc.total - 0) / 1 = 2 ∧
    (bound breaking).xlate ((bound breaking).rootOf 0) 0 (breaking.desc.addr 0 0).toNat .read = .ok (sramKey 0 0x3000) ∧
    (bound breaking).xlate ((bound breaking).rootOf 0) 0 (breaking.desc.addr 1 0).toNat .read = .error 0x030C :=
  ⟨by decide +kernel, by decide +kernel, by decide +kernel, by decide +kernel, ok_of (by decide +kernel), err_of (by decide +kernel)⟩
def fetched : Stream := { streamOf 0 with feed := { (streamOf 0).feed with buf := List.replicate 64 7 } }
theorem witness_Streams_read :
    (let s := bound fetched
     s.me.streams.toList.getD ((16 : Reg).toNat - 16) none = some fetched ∧ fetched.bank = 0 ∧ fetched.shared = none ∧
       fetched.desc.decomp = false ∧ fetched.feed.bad = [] ∧ fetched.feed.start ≤ fetched.pos ∧ s.me.vl ≠ 0 ∧ s.me.vl ≤ 256 ∧
       fetched.pos + 64 ≤ fetched.feed.start + fetched.feed.buf.length ∧ fetched.pos + 64 ≤ fetched.desc.total) ∧
    (let x := { streamOf 0 with pos := 256 }
     x.desc.total ≤ x.pos) ∧
    (let x := streamOf 0
     x.feed.start + x.feed.buf.length < Nat.min (x.pos + 64) x.desc.total ∧ x.pos < x.desc.total ∧ x.feed.hdrErr = false ∧
       x.feed.fault = none) := by decide +kernel
def coded : Stream := { streamOf 0 with desc := ⟨0x3000, [1], [0], true, 0, 0, 0⟩ }
theorem witness_Streams_block :
    (let s := bound coded
     (s.core 0).streams.toList.getD 0 none = some coded ∧ coded.shared = none ∧ coded.desc.decomp = true ∧ coded.feed.fault = none ∧
       coded.feed.hdrErr = false ∧ coded.feed.block < coded.desc.items ∧ coded.feed.next < coded.pos + 2048 ∧ s.bad = []) := by
  decide +kernel
theorem witness_Streams_failed :
    (let x := { coded with feed := { coded.feed with bad := [(0, 1, 0, 128), (3, 2, 128, 256)] }, pos := 64, trapped := [0] }
     x.desc.decomp = true ∧ x.feed.block < x.desc.items ∧
       x.feed.bad.find? (fun q => decide (q.2.2.1 < x.pos + 128) && decide (x.pos < q.2.2.2) && !x.trapped.contains q.1) = some (3, 2, 128, 256)) := by
  decide +kernel
/-- A coded stream of one FP32 block at `va`, in the mapped GiB: 32 symbols of one bit, their table 128 bytes on. -/
def blockAt (va : Nat) : Stream := { coded with desc := ⟨BitVec.ofNat 64 va, [1], [0], true, 4, 0, 0⟩,
                                                feed := { coded.feed with blockAddr := BitVec.ofNat 64 va } }
def blockHeld (va : Nat) : State :=
  let s := mapped (bound (blockAt va))
  let at' := dramKey (va - 0x4000_0000)
  { s with mem := memSetBytes (memSetBytes s.mem at' (leBytes 8 (16 * 2 ^ 32 + 1) ++ leBytes 8 1)) (at' + 16)
             (leBytes 8 (128 * 2 ^ 32 + 4) ++ leBytes 8 (192 * 2 ^ 32 + 0x4270_9AEA)) }
def unitOk (s : State) (va n : Nat) : Bool :=
  match s.unitRead 0 (s.rootOf 0) va n with
  | .ok _ => true
  | .error _ => false
def hdrOf (s : State) (va : Nat) : BlockHdr :=
  BlockHdr.ofBytes (match s.unitRead 0 (s.rootOf 0) va 64 with
    | .ok (_, b, _) => b
    | .error _ => [])
theorem witness_Streams_block_reads :
    (∀ va ∈ [0x4000_1000, 0x7FFF_FF80, 0x7FFF_FFC0], unitOk (blockHeld va) va 64 = true ∧ (hdrOf (blockHeld va) va).ok = true ∧
      (hdrOf (blockHeld va) va).codedLen = 4 ∧ (hdrOf (blockHeld va) va).scaleOff = 128 ∧
      unitOk (blockHeld va) (va + 64) 4 = decide (va ≠ 0x7FFF_FFC0) ∧ unitOk (blockHeld va) (va + 128) 4 = decide (va < 0x7FFF_0000)) ∧
    unitOk (bound (blockAt 0x4000_1000)) 0x4000_1000 64 = false ∧ unitOk (bound coded) 0x3000 64 = true ∧
    (hdrOf (bound coded) 0x3000).ok = false := by decide +kernel
theorem witness_Streams_output :
    (let h := hdrOf (blockHeld 0x4000_1000) 0x4000_1000
     takeSyms (blockCodes h.lens) (2 * h.uncLen) (bitStream (List.replicate 4 0)) = some (List.replicate 32 0) ∧
       takeSyms (blockCodes h.lens) (2 * h.uncLen) (bitStream (List.replicate 4 0xFF)) = none ∧
       crc32c (packNibbles (List.replicate 32 0)) = h.crc ∧ 0 < h.group ∧ 31 / h.group < h.uncLen / (h.group / 2) ∧
       crc32c (packNibbles (List.replicate 32 0)) ≠ ({ h with crc := 0 } : BlockHdr).crc) := by decide +kernel
theorem witness_Copies_push : ((0 : Reg) = 0 ∨ 28 < (0 : Reg).toNat) ∧ 28 < (29 : Reg).toNat ∧ (28 : Reg) ≠ 0 ∧
    ((run [(12, 0x0100_0000_0000)]).me.g 12).toNat / 2 ^ 40 % 2 ^ 8 ≠ 0 ∧ copyBad 64 0 = false ∧
    (let s := run [(10, 0x2000), (11, 0x3000), (12, 64)]
     s.me.fir.spec = false ∧ s.me.copies.length < 16 ∧ s.writes = [] ∧ s.me.replay = none) ∧
    16 ≤ (core [] fun k => { k with copies := List.replicate 16 (aCopy 64) }).me.copies.length := by decide +kernel
theorem witness_Copies_move :
    (let s := mapped (core [] fun k => { k with copies := [aCopy 64] })
     (s.core 0).copies = aCopy 64 :: [] ∧ (aCopy 64).done = none ∧ (aCopy 64).again = none ∧ (aCopy 64).moved = 0 ∧ calmIs s = true ∧ (s.core 0).copyDue ≤ s.cycle + 1 ∧
       (aCopy 64).ctl.toNat / 2 ^ 32 % 16 = 0 ∧ s.region (aCopy 64).region = some aRegion ∧
       spaceOf (dramKey 0) = 2 ∧ isWindow (dramKey 0) = false ∧ isWindow (dramKey 0x100 + 64) = false) ∧
    (mapped (run [])).xlate aRegion.root 0 0x4000_0000 .read = .ok (dramKey 0) ∧
    (mapped (run [])).xlate aRegion.root 0 0x4000_0100 .write = .ok (dramKey 0x100) :=
  ⟨by decide +kernel, ok_of (by decide +kernel), ok_of (by decide +kernel)⟩
/-- A request without payload: its completion action is KIND, its bank and target as given. -/
def acting (bank kind target : Nat) : State :=
  mapped (core [] fun k => { k with copies := [⟨0, 0, BitVec.ofNat 64 (kind * 2 ^ 34 + bank * 2 ^ 32), BitVec.ofNat 64 target, 5, 0, 1, 0, none, none, true, false⟩] })
theorem witness_Copies_act :
    (∀ kind < 4, ∀ bank < 3,
      let s := acting bank kind 0x2000
      let q := (s.core 0).copies.headD (aCopy 0)
      (s.core 0).copies = q :: [] ∧ q.done = none ∧ q.again = none ∧ (s.core 0).copyDue ≤ s.cycle + 1 ∧ q.ctl.toNat % 2 ^ 32 = 0 ∧
        q.moved = 0 ∧ s.region q.region = some aRegion ∧ q.ctl.toNat / 2 ^ 32 % 4 = bank ∧ q.ctl.toNat / 2 ^ 34 % 4 = kind ∧
        memWf s.mem = true ∧ s.bad = []) ∧
    ((acting 0 1 0x2000).unreachableTag (0x2000 % 2 ^ 32) = false ∧ (acting 0 1 0).writes = [] ∧ (acting 0 1 0).depOps = [] ∧
      spaceOf (sramKey 0 0x2004) ≠ 3 ∧ 0x2002 % 4 ≠ 0) ∧
    (acting 0 2 0x2040).depKey aRegion.root 0 0x2040 = .ok (sramKey 0 0x2040) ∧
    (acting 0 2 0x2000).depKey aRegion.root 0 0x8000_0000 = .error 0x030C ∧
    (acting 0 3 0x2004).xlate aRegion.root 0 0x2004 .write = .ok (sramKey 0 0x2004) ∧
    (acting 0 3 0x2004).xlate aRegion.root 0 0x8000_0000 .write = .error 0x030C ∧
    sramKey 0 0x2004 % 4 = 0 ∧ queueOf (sramKey 0 0x2004) = none ∧ isWindow (sramKey 0 0x2004) = false :=
  ⟨by decide +kernel, by decide +kernel, ok_of (by decide +kernel), err_of (by decide +kernel), ok_of (by decide +kernel),
    err_of (by decide +kernel), by decide, by decide, by decide⟩
def slots (n : Nat) (l : List (Reg × Dword)) : State := core l fun k => { k with fir := { k.fir with prodLeft := n } }
theorem witness_Channels_send : ((run [(9, 2 ^ 42)]).me.g 9).toNat / 2 ^ 42 ≠ 0 ∧ sendBad (0x7_0000_0000 : Dword) false = false ∧
    32 < (25 : Reg).toNat + (0x7_0000_0000 : Dword).toNat / 2 ^ 32 % 8 + 1 ∧ (24 : Reg).toNat + 8 ≤ 32 ∧
    (let s := slots 1 [(20, 0x2804)]
     (s.me.g 20).toNat < 2 ^ 32 ∧ s.me.fir.spec = false ∧ 0 < s.me.fir.prodLeft ∧ s.writes = [] ∧ s.depOps = [] ∧ s.bad = [] ∧
       s.unreachableTag 0x2804 = false) ∧ (0x2000_0000 : Dword).toNat.testBit 29 = true ∧ sendBad 0x2000_0000 false = false ∧
    (let s := { run [] with regions := [(1, some { aRegion with msgs := 0 })] }
     s.me.fir.prodLeft = 0 ∧ s.fits 1 .msgs 1 = false) ∧
    (let s := { run [] with regions := [(1, some aRegion)] }
     s.me.fir.prodLeft = 0 ∧ s.outUsed s.cur < 32 ∧ s.fits 1 .msgs 1 = true ∧ s.path 32 1 = [1]) ∧ sendBad (0x3FF_0000_0000 : Dword) true = false ∧
    ((run [(21, 4)]).me.g 21).toNat % 8 ≠ 0 := by decide +kernel
theorem witness_Channels_sendv : (slots 1 [(21, 0x2000)]).xlateRange ((slots 1 [(21, 0x2000)]).rootOf 0) 0 0x2000 (8 * 1023) .read =
    .ok [(sramKey 0 0x2000, 8 * 1023)] := ok_of (by decide +kernel)
def queued (ch : Nat) : State :=
  core [] fun k => { k with counts := [(ch, 1)], recs := [⟨0, 16, ch, .queued, 0, none, 1, none, none, false⟩], tail := 16 }
theorem witness_Channels_receive : 63 < (64 : Nat) ∧ (3 : Dword) ∈ [(1 : Dword), 2, 3] ∧ (63 : Dword).toNat < 64 ∧
    ((queued 4).me.recs.filter fun r => r.st = .queued && r.ch = 4).head? = some ⟨0, 16, 4, .queued, 0, none, 1, none, none, false⟩ ∧
    ((queued 4).me.recs.filter fun r => r.st = .queued && r.ch = 5) = [] ∧ (queued 4).me.fir.held.length < 64 := by decide +kernel
theorem witness_EntryControl : 63 < ((run [(9, 64)]).me.g 9).toNat ∧
    (let s := run [(9, 63)]
     (s.me.g 9).toNat < 64 ∧ s.me.entries.length = 64 ∧ s.me.replay = none) := by decide +kernel
theorem witness_WaitsAndCounters_waitw :
    2 ^ 32 ≤ ((run [(9, 2 ^ 32)]).me.g 9).toNat ∧
    (let s := poke 0x2000 8 0x5_0000_0005 (run [(9, 0), (10, 0x2000)])
     let w := leNat (s.firingBytes s.cur (sramKey 0 0x2000) 8)
     (s.me.g 9).toNat < 2 ^ 32 ∧ (s.me.g 10).toNat % 8 = 0 ∧ spaceOf (sramKey 0 0x2000) ≠ 4 ∧ w % 2 ^ 32 = w / 2 ^ 32 ∧
       ¬(w % 2 ^ 32 ≠ w / 2 ^ 32)) ∧
    (run [(10, 0x2000)]).xlate ((run [(10, 0x2000)]).rootOf 0) 0 0x2000 .read = .ok (sramKey 0 0x2000) ∧
    (let s := poke 0x2000 4 6 (run [(9, 5 * 2 ^ 32 + 7), (10, 0x2000)])
     let v := (s.me.g 9).toNat
     5 ≤ v / 2 ^ 32 % 2 ^ 6 ∧ v / 2 ^ 38 % 2 ^ 10 = 0 ∧ s.me.pend = [] ∧ (s.me.g 10).toNat % 4 = 0 ∧ spaceOf (sramKey 0 0x2000) = 1 ∧
       (s.cell (sramCell (sramKey 0 0x2000))).watches.length < 16 ∧ s.writes = [] ∧ s.depOps = [] ∧ s.bad = [] ∧ s.me.copies = [] ∧
       s.me.arms.length ≤ (s.me.entry 62).depthOf ∧
       s.homeNat (sramKey 0 0x2000) 4 ≠ v % 2 ^ 32) ∧
    ((run [(9, 4 * 2 ^ 32)]).me.g 9).toNat / 2 ^ 32 % 2 ^ 6 < 5 ∧
    ((withCell (fun c => { c with watches := List.replicate 16 ⟨sramKey 0 0x2000, 0, 0, 5, 0, 0, 0⟩ }) (run [])).cell 0).watches.length = 16 :=
  ⟨by decide +kernel, by decide +kernel, ok_of (by decide +kernel), by decide +kernel, by decide +kernel, by decide +kernel⟩
def depWaits : State := { run [] with depOps := [⟨sramKey 0 0x2000, 2, 5, 0, 0, 1, 5, some 1, 0⟩, ⟨sramKey 0 0x2040, 0, 0, 0, 0, 1, 5, some 0, 0⟩] }
theorem witness_WaitsAndCounters_counter :
    (inSpec []).me.fir.spec = true ∧ ((run [(10, 0x2008)]).me.g 10).toNat % 64 ≠ 0 ∧
    (run [(10, 0x2040)]).depKey ((run []).rootOf 0) 0 ((run [(10, 0x2040)]).me.g 10) = .ok (sramKey 0 0x2040) ∧
    (let o : DepOp := ⟨sramKey 0 0x2040, 0, 0, 0, 0, 1, 5, some 0, 0⟩
     depWaits.depOps[1]? = some o ∧ (∀ p ∈ depWaits.depOps.take 1, p.src = o.src → p.pa ≠ o.pa ∧ (p.core = none ∨ p.core ≠ o.core)) ∧
       spaceOf o.pa = 1 ∧ depWaits.isLive (dieOfCell (sramCell o.pa)) = true ∧ queueOf o.pa = none ∧ o.pa % 8 = 0 ∧ depWaits.bad = [] ∧
       memWf depWaits.mem = true ∧ (depWaits.cell 0).watches = [] ∧ depWaits.device < 2 ^ 13 ∧ depWaits.homeNat o.pa 8 = 0) ∧
    (let o : DepOp := ⟨sramKey 0 0x2000, 2, 5, 0, 0, 1, 5, some 1, 0⟩
     depWaits.depOps[0]? = some o ∧ (depWaits.homeNat o.pa 8 + o.val.toNat) ≠ 0 ∧ (poke 0x2040 8 1 depWaits).homeNat (sramKey 0 0x2040) 8 - 1 = 0) ∧
    (run []).writes = [] ∧ (run []).depOps = [] ∧ (run [(10, 0x20_0000)]).depKey ((run []).rootOf 0) 0 0x20_0000 = .error 0x030C :=
  ⟨by decide +kernel, by decide +kernel, ok_of (by decide +kernel), by decide +kernel, by decide +kernel, by decide +kernel, by decide +kernel,
    err_of (by decide +kernel)⟩

/-- Dictionary 1: two atoms of length 16, the second a unit vector. -/
def aDict : Dict :=
  { len := 16, k := 2, smax := 2, tauStop := 0x3C23_D70A, tauEsc := 0x3F00_0000, atomPa := dramKey 0, q8 := none, norms := [], route := 0,
    subs := [], subCap := 0, subFull := false, shade := 1,
    atoms := [⟨List.replicate 16 0, 0, 1, [], 0, 0⟩, ⟨0x3F80_0000 :: List.replicate 15 0, 0x3F80_0000, 1, [], 0, 0⟩], owed := [] }
def withDict (s : State) : State := { s with dicts := [(1, some aDict)], regions := [(1, some aRegion)] }
theorem witness_Encoder : 2 ^ 28 ≤ ((run [(22, 2 ^ 28)]).me.g 22).toNat ∧ (withDict (run [])).inSet 0 8 = false ∧
    (withDict (run [])).dict 2 = none ∧
    (let s := withDict (slots 1 [(22, 0xFFF_F001), (21, 0x2000)])
     (s.me.g 22).toNat < 2 ^ 28 ∧ s.inSet s.cur ((s.me.g 22).toNat % 2 ^ 12) = true ∧ s.dict 1 = some aDict ∧ s.me.fir.spec = false ∧
       s.bad = [] ∧ 0 < s.me.fir.prodLeft ∧ (s.me.g 21).toNat % 8 = 0) ∧
    (withDict (slots 1 [])).xlateRange ((withDict (slots 1 [])).rootOf 0) 0 0x2000 (4 * aDict.len) .read =
      .ok [(sramKey 0 0x2000, 64)] ∧
    ([0x7F80_0000].any fun v => !(fp32.decode v).isFin) = true :=
  ⟨by decide +kernel, by decide +kernel, by decide +kernel, by decide +kernel, ok_of (by decide +kernel), by decide +kernel⟩
def aJob : EncJob :=
  { core := 0, encx := none, gs := 0x2000, x := List.replicate 16 0x3F80_0000, dict := 1, seg := 3, shade := 1, atoms := [], len := 16,
    smax := 2, tauStop := 0, tauEsc := 0, cls := 0, dst := 0x2805, route := 0, region := 1, charged := true, spec := false, dropped := false, rewritten := [], due := 1 }
theorem witness_Encoder_sends :
    (let s := withCell (fun c => { c with enc := [aJob] }) (run [])
     (s.cell 0).enc = aJob :: [] ∧ aJob.due ≤ s.cycle + 1 ∧ aJob.encx = none ∧ aJob.route = 0 ∧ s.unreachableTag aJob.dst.toNat = false ∧
       s.counter 1 0 0 < 2 ^ 64 - 1) := by decide +kernel
/-- An ENCX of this segment address stands at the head of cell 0's encoder, its word pending. -/
def encoding (gs : Dword) : State :=
  withCell (fun c => { c with enc := [{ aJob with encx := some 1, gs := gs }] })
    (mapped (core [] fun k => { k with pend := [{ somePend with kind := .reply, ready := false, writes := [.g 7 0] }] }))
theorem witness_Encoder_stores :
    (let s := encoding 0x4000_0000
     let j := ((s.cell 0).enc).headD aJob
     let p := s.me.pend.headD somePend
     (s.cell 0).enc = j :: [] ∧ j.due ≤ s.cycle + 1 ∧ j.encx = some p.who.ord ∧ j.spec = false ∧ j.dropped = false ∧ j.rewritten = [] ∧ s.writes = [] ∧
       s.me.pend = [p] ∧ p.kind = .reply ∧ p.ready = false ∧ p.writes = [.g 7 0] ∧ j.output.length = 96) ∧
    (encoding 0x4000_0000).xlateRange ((encoding 0).rootOf 0) 0 0x4000_0000 96 .write = .ok [(dramKey 0, 96)] ∧
    spaceOf (dramKey 0) = 2 ∧ isWindow (dramKey 0) = false ∧ isWindow (dramKey 0 + 96) = false ∧
    (encoding 0x8000_0000).xlateRange ((encoding 0).rootOf 0) 0 0x8000_0000 96 .write = .error (0x030C, 0x8000_0000) :=
  ⟨by decide +kernel, ok_of (by decide +kernel), by decide, by decide, by decide, err_of (by decide +kernel)⟩
theorem witness_Encoder_traps :
    ({ withDict (run [(22, 1)]) with regions := [(1, some { aRegion with msgs := 0 })] } : State).takeSlot 0 = none ∧
    (withDict (inSpec [(22, 1)])).me.fir.spec = true ∧ ((run [(21, 0x2002)]).me.g 21).toNat % 4 ≠ 0 ∧
    ((run [(21, 0x2004)]).me.g 21).toNat % 8 ≠ 0 := by decide +kernel
theorem witness_Dictionaries_install : 2 < ((run [(22, 3)]).me.g 22).toNat ∧
    (let s := withDict (poke 0x2000 8 1 (run [(22, 1), (21, 0x2000)]))
     (s.me.g 22).toNat ≤ 2 ∧ s.me.fir.spec = false ∧ (s.me.g 21).toNat % 8 = 0 ∧ s.writes = [] ∧ s.bad = [] ∧
       s.inSet s.cur (leNat (s.firingBytes s.cur (sramKey 0 0x2000) 2) % 4096) = true ∧ (s.dicts.map (·.1)).Pairwise (· < ·) ∧
       s.dict 1 ≠ none) ∧
    (let s := withDict (run [(22, 2)])
     s.dict 2 = none ∧ (s.me.g 22).toNat / 2 ^ 12 = 0 ∧ s.inSet s.cur 2 = true) ∧
    ((run [(22, 2 ^ 15 + 9)]).me.g 22).toNat = 2 ^ 15 + 9 ∧ 2 ^ 16 ≤ ((run [(22, 2 ^ 16)]).me.g 22).toNat := by decide +kernel
theorem witness_Dictionaries_install_reads (o m : Nat) (h : o + m ≤ 64) (h0 : 0 < m) (acc : Acc) :
    (run []).xlateRange ((run []).rootOf 0) 0 (0x2000 + o) m acc = .ok [(sramKey 0 0x2000 + o, m)] := by
  have c : ∀ o ≤ 64, (run []).canon 0 (0x2000 + o) = some (sramKey 0 0x2000 + o) := by decide +kernel
  have p : pieces (m / 0x1_0000 + 2) (0x2000 + o) m = [(0x2000 + o, m)] := by
    have e : Nat.min m (0x1_0000 - (0x2000 + o) % 0x1_0000) = m := Nat.min_eq_left (by omega)
    rw [show m / 0x1_0000 = 0 by omega]
    simp [pieces, e, show m ≠ 0 by omega]
  have x : (run []).xlate ((run []).rootOf 0) 0 (0x2000 + o) acc = .ok (sramKey 0 0x2000 + o) := by
    rw [State.xlate, if_neg (by omega), if_pos (by omega), c o (by omega)]
  simp [State.xlateRange, p, x]
  omega
/-- DINST's operation `op` on a descriptor at 0x2000 of two FP16 atoms of 16 values in bank 1, for `dict`, with these thresholds. -/
def installing (op dict taus : Nat) : State :=
  withCell (fun c => { c with bfmt := [(1, 3)] })
    (withDict (poke 0x2000 8 (dict + 2 * 2 ^ 12 + 16 * 2 ^ 16 + 2 * 2 ^ 28) (poke 0x2008 8 taus (poke 0x2010 8 0x1_0000 (poke 0x2018 8 0x3000
      (poke 0x2020 8 0x3100 (poke 0x2028 8 (4 * 2 ^ 16) (run [(22, BitVec.ofNat 64 op), (21, 0x2000)]))))))))
def descAt (s : State) : List Byte := s.homeBytes (sramKey 0 0x2000) 64
def descField (s : State) (o m : Nat) : Nat := leNat (((descAt s).drop o).take m)
theorem witness_Dictionaries_install_cases :
    (∀ op ≤ 2, ∀ dict ∈ [1, 2], calmIs (installing op dict 0) = true ∧ ((installing op dict 0).cell 0).tlb = [] ∧
      (installing op dict 0).inSet 0 dict = true ∧ descField (installing op dict 0) 0 2 % 4096 = dict ∧
      ((installing op dict 0).dict dict).isSome = decide (dict = 1) ∧ descOk (descAt (installing op dict 0)) = true ∧
      tausOk (descField (installing op dict 0) 8 4) (descField (installing op dict 0) 12 4) = true) ∧
    descOk (descAt (installing 0 2 0x7F80_0000)) = false ∧
    tausOk (descField (installing 2 1 0x7F80_0000) 8 4) (descField (installing 2 1 0x7F80_0000) 12 4) = false := by decide +kernel
theorem witness_Dictionaries_install_whole :
    (let s := installing 0 2 0
     s.xlateRange (s.rootOf 0) 0 (descField s 0x10 8) 1 .read = .ok [(sramKey 0 0x1_0000, 1)] ∧
       s.physSpace (s.rootOf 0) 0 (descField s 0x10 8) ≤ 1 ∧ s.storageOk (sramKey 0 0x1_0000) 2 16 = some none ∧ descField s 0x30 8 = 0 ∧
       s.xlateRange (s.rootOf 0) 0 (descField s 0x20 8) 0 .read = .ok [] ∧ descField s 0x28 2 = 0 ∧
       s.xlateRange (s.rootOf 0) 0 (descField s 0x18 8) 8 .write = .ok [(sramKey 0 0x3000, 8)]) :=
  ⟨ok_of (by decide +kernel), by decide +kernel, by decide +kernel, by decide +kernel, ok_of (by decide +kernel), by decide +kernel,
    ok_of (by decide +kernel)⟩
theorem witness_Dictionaries_replace : 2 ^ 23 ≤ ((run [(22, 2 ^ 23)]).me.g 22).toNat ∧
    (let s := withDict (run [(22, 2)])
     s.inSet s.cur 2 = true ∧ s.dict 2 = none ∧ s.me.fir.spec = false) ∧
    (let s := withDict (run [(22, 0x1001), (21, 0x2000)])
     (s.me.g 22).toNat < 2 ^ 23 ∧ s.dict 1 = some aDict ∧ 1 < aDict.k ∧ aDict.q8 = none ∧ (s.me.g 21).toNat % 2 = 0 ∧
       1 < aDict.atoms.length ∧ aDict.shade < 2 ^ 32 - 1 ∧ aDict.owed.any (fun o => o.1 = 1) = false) ∧
    aDict.k ≤ ((run [(22, 0x2001)]).me.g 22).toNat / 2 ^ 12 ∧
    ({ aDict with owed := [(1, 1, 0x2801)] } : Dict).owed.any (fun o => o.1 = 1) = true := by decide +kernel
theorem witness_Dictionaries_replace_reads : ∃ t b, (withDict (run [])).readVa 0 0x2000 (2 * aDict.len) = .ok (t, b) := ⟨_, _, rfl⟩
theorem witness_Dictionaries_replace_fails : Claims.calm (withDict (run [(22, 0x1001), (21, 0x2000)])) ∧
    (withDict (run [])).readVa 0 0x20_0000 (2 * aDict.len) = .error (0x030C, 0x20_0000) ∧ aDict.k ≤ 0x2001 / 2 ^ 12 ∧
    (withDict (inSpec [])).me.fir.spec = true ∧
    (let x := { aDict with atomPa := sramKey 0 0x1_0000 }
     let p := x.atomPa + 2 * 1 * x.len
     x.q8 = none ∧ spaceOf p = 1 ∧ sramOff p + 2 * x.len ≤ 0x1F_C000 ∧ normKey x.norms 1 = none) :=
  ⟨calm_of (by decide +kernel), by rfl, by decide, by decide +kernel, by decide +kernel⟩
theorem witness_DictionaryUpkeep_notices :
    (let s := { withDict (run []) with acks := [⟨1, 1, 2, 0x2801⟩] }
     s.acks[0]? = some ⟨1, 1, 2, 0x2801⟩ ∧ s.dict 1 = some aDict) ∧
    (let q : Notice := ⟨1, 1, 1, 3, 64, 1, true⟩
     let s := { run [] with noticeNet := [q] }
     s.noticeNet[0]? = some q ∧ q.refused = true ∧ q.due ≤ s.cycle + 1) ∧
    (let q : Notice := ⟨1, 1, 1, 3, 0, 1, false⟩
     let x := { aDict with subs := [3] }
     let s := { run [] with noticeNet := [q], dicts := [(1, some x)] }
     s.noticeNet[0]? = some q ∧ q.refused = false ∧ q.due ≤ s.cycle + 1 ∧ tagDev q.tag = s.device ∧ tagCore q.tag / 8 = 0 ∧
       s.isLive 0 = true ∧ s.switchedOut 0 = false ∧ s.dict q.dict = some x ∧ x.hasSub q.tag = true ∧ (s.cell 0).bindings = [] ∧
       (s.cell 0).holds = [] ∧ (s.cell 0).notices = [] ∧ q.shade = tabGet 0 (s.cell 0).views q.dict + 1) ∧
    (let h : Held := ⟨0, [], 0, 1, 5, 0, 0, 1, 0⟩
     let s := { withCell (fun c => { c with holds := [h] }) (run []) with cycle := 1023 }
     (s.cell 0).holds[0]? = some h ∧ h.mark = 0 ∧ h.since + 2 ^ (h.limit + 10) ≤ s.cycle + 1) := by decide +kernel
/-- A notice of atom 1 for cell 0, which subscribes with one binding, the atom's tags at 0x2840, its first range open. -/
def noticed : State :=
  withCell (fun c => { c with bindings := [⟨sramKey 0 0x2100, 1, 1, [(sramKey 0 0x2800, 64)]⟩], views := [(1, 1)] })
    { poke 0x2820 8 0xFFFF_FFFF (run []) with noticeNet := [⟨1, 1, 2, 3, 0, 1, false⟩], dicts := [(1, some { aDict with subs := [3] })] }
theorem witness_DictionaryUpkeep_tags :
    (let q := noticed.noticeNet.headD ⟨0, 0, 0, 0, 0, 0, false⟩
     noticed.noticeNet[0]? = some q ∧ q.refused = false ∧ q.due ≤ noticed.cycle + 1 ∧ tagDev q.tag = noticed.device ∧ tagCore q.tag / 8 = 0 ∧
       noticed.isLive 0 = true ∧ noticed.switchedOut 0 = false ∧ (noticed.dict q.dict).map (·.hasSub q.tag) = some true ∧
       (noticed.cell 0).bindings.map (fun b => (b.dict, tagKey b.tags (2 * q.atom), tagKey b.tags (2 * q.atom + 1))) =
         [(1, some (sramKey 0 0x2820), some (sramKey 0 0x2820 + 16))]) ∧
    (let q := noticed.noticeNet.headD ⟨0, 0, 0, 0, 0, 0, false⟩
     q.dict = 1 ∧ (noticed.cell 0).holds = [] ∧ (noticed.cell 0).notices = [] ∧ q.shade = tabGet 0 (noticed.cell 0).views q.dict + 1 ∧
       q.shade < 2 ^ 32 ∧ calmIs noticed = true ∧ spaceOf (sramKey 0 0x2820) = 1 ∧ sramOff (sramKey 0 0x2820) + 32 ≤ 0x1F_C000 ∧
       (noticed.getTag (sramKey 0 0x2820)).upto = tagOpen) := by decide +kernel
def aHeld : Held := ⟨0, [], 0, 1, 5, 0, 0, 1, 0⟩
theorem witness_DictionaryUpkeep_expiry :
    (let s := { withCell (fun c => { c with holds := [aHeld] }) (run []) with cycle := 1023 }
     (s.cell 0).holds[0]? = some aHeld ∧ (s.cell 0).holds.take 0 = [] ∧ (s.core aHeld.core).recs = [] ∧ (s.core aHeld.core).tail = 0 ∧ aHeld.pay.length < 1024) ∧
    (core [] fun k => { k with recs := List.replicate 256 ⟨0, 16, 4, .queued, 0, none, 1, none, none, false⟩ }).me.recCount = 256 := by
  decide +kernel
def aBinding : Binding := ⟨sramKey 0 0x2000, 1, 1, []⟩
theorem witness_DictionaryUpkeep_sync :
    2 ^ 17 ≤ ((run [(22, 2 ^ 17)]).me.g 22).toNat ∧
    (let s := withDict (run [(22, 1), (21, 0x2000)])
     (s.me.g 22).toNat < 2 ^ 12 ∧ s.inSet s.cur 1 = true ∧ (21 : Reg) ≠ 0 ∧ s.me.fir.spec = false) ∧
    (withDict (run [])).dict 2 = none ∧
    (let s := withCell (fun c => { c with bindings := [aBinding] }) (withDict (run [(22, 2 ^ 16 + 1), (21, 0x2000)]))
     (s.me.g 22).toNat = 2 ^ 16 + 1 ∧ s.inSet s.cur 1 = true ∧ s.dict 1 = some aDict ∧ s.me.replay = none ∧
       (s.cell 0).bindings.any (fun y => y.key = sramKey 0 0x2000 && y.dict = 1) = true) ∧
    (withDict (run [])).xlate ((withDict (run [])).rootOf 0) 0 0x2000 .read = .ok (sramKey 0 0x2000) ∧
    ((run [(22, 16 * 10 + 3)]).me.g 22).toNat = 16 * 10 + 3 ∧ ((run []).cell 0).holds = [] ∧ ((run []).me.g 22).toNat = 0 ∧
    (let n := ((run [(22, 0x1_0002)]).me.g 22).toNat
     n % 2 ^ 16 ∈ [1, 2] ∧ n < 2 ^ 28) :=
  ⟨by decide +kernel, by decide +kernel, by decide +kernel, by decide +kernel, ok_of (by decide +kernel), by decide +kernel,
    by decide +kernel, by decide +kernel, by decide +kernel⟩
/-- Dictionary 1 with these subscribers and this capacity, and core 0's DSYNC 0 for it. -/
def syncing (subs : List Nat) (cap : Nat) : State :=
  withCell (fun c => { c with views := [(1, 1)] })
    { withDict (run [(22, 1)]) with dicts := [(1, some { aDict with subs := subs, subCap := cap })] }
theorem witness_DictionaryUpkeep_subscribes :
    (∀ q ∈ [([0], 0), ([], 1), ([], 0)],
      let s := syncing q.1 q.2
      (s.me.g 22).toNat < 2 ^ 12 ∧ s.inSet s.cur 1 = true ∧ s.me.fir.spec = false ∧ s.me.replay = none ∧ aDict.shade < 2 ^ 32 ∧
        (s.cell 0).notices = [] ∧ (s.dict 1).map (fun x => (x.hasSub (s.cellTag 0), decide (x.subs.length < x.subCap))) =
          some (decide (q.1 = [0]), decide (q.2 = 1)) ∧ tabGet 0 (s.cell 0).views 1 = aDict.shade ∧
        tabGet aDict.shade (s.cell 0).views 1 = aDict.shade) ∧
    (let s := withDict (run [(22, 2 ^ 16 + 2)])
     (s.me.g 22).toNat = 2 ^ 16 + 2 ∧ s.inSet s.cur 2 = true ∧ s.dict 2 = none) ∧
    (let s := withCell (fun c => { c with bindings := [{ aBinding with key := 0 }] }) (withDict (run [(22, 2 ^ 16 + 1), (21, 0x2000)]))
     (s.cell 0).bindings.any (fun y => y.key = sramKey 0 0x2000 && y.dict = 1) = false) ∧
    (let s := withCell (fun c => { c with holds := [aHeld] }) (run [])
     (s.me.g 22).toNat = 0 ∧ (s.cell 0).holds.length ≤ 32 ∧ (s.cell 0).holds = aHeld :: []) ∧
    (∀ x ∈ (run []).cores, ∀ p ∈ x.2.pend, p.waits = none) ∧ (withDict (inSpec [(22, 1)])).me.fir.spec = true := by decide +kernel
theorem witness_DictionaryUpkeep_replication :
    (let x := { aDict with route := dramKey 0x40_0000 }
     let s := { run [] with cycle := 2 ^ 20, dicts := [(1, some x)] }
     s.hotAt + 2 ^ 20 ≤ s.cycle + 1 ∧ memWf s.mem = true ∧ s.dict 1 = some x ∧ x.route ≠ 0 ∧
       s.canon 0 x.route = some (dramKey 0x40_0000) ∧ 65535 < 65536) ∧
    (let q : ReplReq := ⟨3, 9, 0, 1, none, 0⟩
     let s := { run [] with repl := [q] }
     s.repl = q :: [] ∧ s.dict q.dict = none ∧ q.die < 4) := by decide +kernel
/-- A request to copy segment 1's binding from cell 0; its routing entry, with one alternate, has `d0` as its first doubleword. -/
def copying (d0 : Nat) : State :=
  let q : ReplReq := ⟨3, 1, 1, 1, some 0, sramKey 0 0x2100⟩
  { run [] with repl := [q], dicts := [(1, some { aDict with route := dramKey 0x40_0000 })], regions := [(1, some { aRegion with placed := [0, 3] })],
                mem := memSetBytes (memSetBytes [] (dramKey 0x40_0020) (leBytes 8 d0)) (dramKey 0x40_0028) (leBytes 4 0x0001_0004) }
theorem witness_DictionaryUpkeep_copies :
    (∀ d0 ∈ [0, 2 ^ 63, 2 ^ 63 + 2 ^ 8, 2 ^ 63 + 4 * 2 ^ 8],
      let s := copying d0
      s.repl.map (fun q => (q.die, q.dict, q.cell, q.region)) = [(3, 1, some 0, 1)] ∧ (s.dict 1).isSome = true ∧ (s.region 1).isSome = true ∧
        s.canon 0 (dramKey 0x40_0000 + 32 * 1) = some (dramKey 0x40_0020) ∧ s.homeNat (dramKey 0x40_0020) 8 = d0 ∧ calmIs s = true ∧
        (s.cell 0).bindings = [] ∧ s.device < 2 ^ 13) ∧
    spaceOf (dramKey 0x40_0020) = 2 ∧ isWindow (dramKey 0x40_0020) = false ∧ dramKey 0x40_0020 % 32 = 0 ∧ 3 < 1024 := by decide +kernel
/-- Cell 3, the other cell of the region, is free where the free value says that it holds the segment's rows (log 34). -/
theorem witness_DictionaryUpkeep_free (h : Config.holdsRows (copying (2 ^ 63 + 2 ^ 8)).free 1 1 3 = true) :
    let s := copying (2 ^ 63 + 2 ^ 8)
    (3 ∈ [0, 3] ∧ ¬(3 = 0 ∨ ∃ n < 1, tagDev (s.homeNat (dramKey 0x40_0020 + 8 + 4 * n) 4) = s.device ∧
        tagCore (s.homeNat (dramKey 0x40_0020 + 8 + 4 * n) 4) / 8 = 3) ∧ Config.holdsRows s.free 1 1 3 = true) ∧
      ∀ c ∈ [0, 3], ¬c = 0 → 3 ≤ c := by
  refine ⟨⟨by decide, ?_, h⟩, by decide⟩
  decide +kernel
/-- A binding for `dict`'s segment 1 at 0x2100: weights in bank 1, images in bank 2, tags at 0x2800. -/
def bindingAt (dict : Nat) (s : State) : State :=
  poke 0x2100 8 (dict + 5 * 2 ^ 16 + 1 * 2 ^ 32) (poke 0x2108 8 0x1_0000 (poke 0x2110 8 64 (poke 0x2118 8 0x2_0000 (poke 0x2120 8 0x2800 s))))
/-- `copying` with segment 1's binding registered in cell 0, its tags at `tags`. -/
def copyable (tags : Nat) : State :=
  let s := copying (2 ^ 63 + 2 ^ 8)
  let at' (s : State) : State := { s with mem := memSetBytes s.mem (sramKey 0 0x2120) (leBytes 8 tags) }
  { withCell (fun c => { c with bindings := [⟨sramKey 0 0x2100, 1, 1, [(sramKey 0 0x2800, 64)]⟩] }) (at' (bindingAt 1 s)) with
    cells := tabSet (tabSet [] 0 { Cell.reset with bindings := [⟨sramKey 0 0x2100, 1, 1, [(sramKey 0 0x2800, 64)]⟩], bfmt := [(1, 4), (2, 4)] })
      3 { Cell.reset with bfmt := [(1, 4), (2, 4)] },
    dicts := [(1, some { aDict with route := dramKey 0x40_0000, subCap := 4 })] }
theorem witness_DictionaryUpkeep_replicates :
    (let s := copyable 0x2800
     let q := s.repl.headD ⟨0, 0, 0, 0, none, 0⟩
     let s' := { s with repl := [], free := s.free + 1 }
     (s.cell 0).bindings.filter (fun y => y.key = q.key) = [⟨sramKey 0 0x2100, 1, 1, [(sramKey 0 0x2800, 64)]⟩] ∧
       (s'.copyBinding 1 3 ⟨sramKey 0 0x2100, 1, 1, [(sramKey 0 0x2800, 64)]⟩).map (fun u =>
         (memWf u.mem, u.bad, u.homeNat (dramKey 0x40_0020) 8, (u.cell 3).bindings.map (·.key))) =
         some (true, [], 2 ^ 63 + 2 ^ 8, [sramKey 3 0x2100])) ∧
    (let s := copyable 0x20_0000
     ({ s with repl := [], free := s.free + 1 } : State).copyBinding 1 3 ⟨sramKey 0 0x2100, 1, 1, []⟩ = none) := by decide +kernel
/-- A message of this header and payload doubleword at 0x2000 and a binding for `dict` at 0x2100. -/
def resolving (dict hdr pay : Nat) : State :=
  withCell (fun c => { c with bfmt := [(1, 4), (2, 4)], bindings := [⟨sramKey 0 0x2100, 1, 1, []⟩] })
    (withDict (poke 0x2000 8 hdr (poke 0x2008 8 pay (bindingAt dict (run [(1, 0x2000), (11, 0x2100)])))))
/-- A coded header of dictionary 2, which is not installed. -/
def openShade : State := resolving 2 (2 * 2 ^ 60 + 2 * 2 ^ 40 + 1 * 2 ^ 8) 0
theorem witness_Images_resolve :
    (inSpec []).me.fir.spec = true ∧ ((run [(1, 0x2004)]).me.g 1).toNat % 8 ≠ 0 ∧ ((run [(11, 0x2108)]).me.g 11).toNat % 64 ≠ 0 ∧
    (let s := openShade
     let hdr : Dword := BitVec.ofNat 64 (leNat (s.firingBytes s.cur (sramKey 0 0x2000) 8))
     let br := bindRec (sramKey 0 0x2100) 0x2100 (s.firingBytes s.cur (sramKey 0 0x2100) 64)
     s.me.fir.spec = false ∧ (s.me.g 1).toNat % 8 = 0 ∧ (s.me.g 11).toNat % 64 = 0 ∧ s.bad = [] ∧ s.me.replay = none ∧
       (∀ r ∈ s.me.resq, r.ord ≠ s.me.words) ∧ hdr.toNat / 2 ^ 60 = 2 ∧ hdr.toNat % 256 = 0 ∧ s.bindBad s.cur br = false ∧
       hdr.toNat / 2 ^ 40 % 2 ^ 12 = br.dict ∧ hdr.toNat / 2 ^ 8 % 2 ^ 16 = br.seg ∧ s.dict br.dict = none) ∧
    openShade.xlateRange (openShade.rootOf 0) 0 0x2000 8 .read = .ok [(sramKey 0 0x2000, 8)] ∧
    openShade.xlateRange (openShade.rootOf 0) 0 0x2100 64 .read = .ok [(sramKey 0 0x2100, 64)] ∧
    (run []).bindBad 0 (bindRec (sramKey 0 0x2100) 0x2100 ((run []).firingBytes 0 (sramKey 0 0x2100) 64)) = true :=
  ⟨by decide +kernel, by decide +kernel, by decide +kernel, by decide +kernel, ok_of (by decide +kernel), ok_of (by decide +kernel),
    by decide +kernel⟩
def aBuild : Build := ⟨sramKey 0 0x3000, sramKey 0 0x2800, 1, List.replicate 16 0, [], 1, 16⟩
theorem witness_Images_build :
    (let s := core [] fun k => { k with builds := [aBuild] }
     (s.core 0).mq.ran = false ∧ (s.core 0).mq.step = none ∧ (s.core 0).frozen = false ∧ (s.core 0).switching = false ∧
       s.nextBuild 0 = some aBuild ∧ s.counter 2 0 2 < 2 ^ 64 - 1) := by decide +kernel
theorem witness_Images_build_bytes :
    (let b := { aBuild with rows := [sramKey 0 0x4000, sramKey 0 0x4040] }
     let s := core [] fun k => { k with builds := [b] }
     s.nextBuild 0 = some b ∧ memWf s.mem = true ∧ s.bad = [] ∧ spaceOf b.slotPa = 1 ∧ typeBits (s.bankFmt 0 b.slotPa).typ / 8 = 1 ∧
       sramOff b.slotPa + 1 * b.rows.length ≤ 0x1F_C000 ∧ b.rows ≠ [] ∧ b.tagPa + 16 ≤ b.slotPa ∧ spaceOf b.tagPa = 1 ∧
       sramOff b.tagPa + 16 ≤ 0x1F_C000) := by decide +kernel
def resolved (f : Resolution → Resolution := id) : State :=
  core [] fun k => { k with vl := 16, resq := [f ⟨true, 1, [], [], 16, [], 0, []⟩] }
theorem witness_Images_accumulate :
    (lanes 0 0).me.resq.find? (·.await.isEmpty) = none ∧
    (resolved fun r => { r with await := [(1, 1)] }).me.resq.find? (·.await.isEmpty) = none ∧
    (let r : Resolution := ⟨true, 1, [], [], 16, [], 0, []⟩
     (resolved).me.resq.find? (·.await.isEmpty) = some r ∧ (resolved).me.vl ≠ 0 ∧ 16 * r.nb ≤ (resolved).me.vl ∧
       (resolved).me.vl ≤ 256 ∧ r.coded = true ∧ r.pairs = [] ∧ (resolved).bad = []) ∧
    (let r : Resolution := ⟨true, 2, [], [], 16, [], 0, []⟩
     (resolved fun r => { r with nb := 2 }).me.resq.find? (·.await.isEmpty) = some r ∧
       (resolved fun r => { r with nb := 2 }).me.vl < 16 * r.nb) := by decide +kernel

theorem witness_ContextsMove_travel :
    (waiting []).me.pend ≠ [] ∧ ((run [(12, 0x4004)]).me.g 12).toNat % 8 ≠ 0 ∧ 2 ^ 56 ≤ ((run [(12, 2 ^ 56)]).me.g 12).toNat ∧
    (let s := { slots 1 [(11, 0x2000), (12, 0x4000)] with regions := [(1, some aRegion)] }
     (s.me.g 12).toNat % 8 = 0 ∧ (s.me.g 12).toNat < 2 ^ 56 ∧ spaceOf (sramKey 0 0x2000) = 1 ∧ s.me.fir.spec = false ∧
       s.fits 1 .ctx 1 = true ∧ 0 < s.me.fir.prodLeft ∧ s.writes = [] ∧ s.depOps = [] ∧ s.unreachableTag (s.tag 0 3 % 2 ^ 32) = false ∧
       s.me.pend = [] ∧ s.me.copies = [] ∧ s.me.arms.length ≤ (s.me.entry 62).depthOf ∧ s.me.fir.ctx = none ∧ s.me.replay = none) ∧
    (run []).xlate ((run []).rootOf 0) 0 0x2000 .read = .ok (sramKey 0 0x2000) ∧
    (mapped (run [])).xlate ((mapped (run [])).rootOf 0) 0 0x4000_0000 .read = .ok (dramKey 0) ∧ spaceOf (dramKey 0) ≠ 1 ∧
    ({ run [] with regions := [(1, some { aRegion with usedCtx := aRegion.limit .ctx })] } : State).fits 1 .ctx 1 = false :=
  ⟨by decide +kernel, by decide +kernel, by decide +kernel, by decide +kernel, ok_of (by decide +kernel), ok_of (by decide +kernel),
    by decide +kernel, by decide +kernel⟩
def aContext (tag : Nat) : Msg :=
  { hdr := header 6 0 9 tag 0, pay := List.replicate 9 7, dst := 3, src := some 8, region := tag, slot := true, charged := true, rel := none,
    ctx := some tag, answer := some (0, 1), back := 0, due := 1, refused := false, seq := 0, quiet := false }
theorem witness_ContextsMove_arrive :
    2 ^ 20 ≤ ((run [(9, 2 ^ 20)]).me.g 9).toNat ∧ ((run [(9, 6 * 2 ^ 16 + 1)]).me.g 9).toNat = 6 * 2 ^ 16 + 1 ∧
    (let s := run [(9, 0xFF00)]
     (s.me.g 9).toNat < 2 ^ 16 ∧ (s.me.g 9).toNat % 2 ^ 8 = 0 ∧ s.me.ctxList = []) ∧
    (∀ tag ∈ [1, 2],
      let m := aContext tag
      let s := { core [] (withEntry 63 { Entry.zero with depth := 6, en := true }) with regions := [(1, some aRegion)], net := [m] }
      s.net[0]? = some m ∧ hdrType m.hdr = 6 ∧ m.refused = false ∧ m.due ≤ s.cycle + 1 ∧ s.behind 0 m = false ∧
        s.unreachableTag m.dst.toNat = false ∧ (s.core (tagCore m.dst.toNat)).region = some 1 ∧ s.region 1 = some aRegion ∧
        m.hdr.toNat / 2 ^ 32 % 2 ^ 16 = tag ∧ (s.core 0).ctxList = [] ∧ (s.core 0).recs = [] ∧ (s.core 0).head = 0 ∧ (s.core 0).tail = 0 ∧
        (s.core 0).contextsFull = false ∧ m.pay.length = 9 ∧ calmIs s = true) := by decide +kernel
/-- Core 0's list of spilled contexts holds the record at 128; its area lies at device memory 0x1000, its free records begin at `free`. -/
def spilled (free : Nat) : State :=
  let r := { aRegion with spillBase := dramKey 0x1000, spillSize := 256, spillPhys := true }
  { core [(9, 0x100)] (fun k => withEntry 63 { Entry.zero with depth := 6, en := true }
      { k with ctxList := [128], pend := [{ somePend with ready := false, writes := [.g 7 0] }] }) with
    regions := [(1, some r)], net := [aContext 1], mem := memSetBytes [] (dramKey 0x1000) (leBytes 8 free) }
theorem witness_ContextsMove_spilled : ∀ free ∈ [0, 128],
    let s := spilled free
    (s.me.g 9).toNat = 2 ^ 8 ∧ s.me.ctxList = 128 :: [] ∧ s.me.contextsFull = false ∧ s.me.recs = [] ∧ s.me.tail = 0 ∧ s.me.replay = none ∧
      calmIs s = true ∧ (s.region 1).map (fun r => s.spillGet r 0 % 2 ^ 32) = some free ∧ s.net[0]? = some (aContext 1) ∧
      s.behind 0 (aContext 1) = false ∧ (aContext 1).answer = some (0, somePend.who.ord) ∧ s.me.pend.map (fun p => (p.ready, p.writes)) = [(false, [.g 7 0])] := by
  decide +kernel
theorem witness_ContextsMove_traps :
    (let s := { core [] (fun k => { k with fir := { k.fir with ctx := some 1 } }) with regions := [(1, some { aRegion with msgs := 0 })] }
     s.me.fir.ctx = some 1 ∧ s.takeSlot s.cur = none ∧ s.me.pend = []) ∧ (inSpec []).me.fir.spec = true ∧ (inSpec []).me.pend = [] ∧
    (run []).xlate ((run []).rootOf 0) 0 0x20_0000 .read = .error 0x030C := ⟨by decide +kernel, by decide +kernel, by decide +kernel, err_of (by decide +kernel)⟩
/-- An escape of dictionary 1's segment 1, whose binding is registered. -/
def escaped : State := resolving 1 (3 * 2 ^ 60 + 2 ^ 57 + 1 * 2 ^ 40 + 1 * 2 ^ 8 + 3) 0
theorem witness_Images_escape :
    (let s := escaped
     let hdr : Dword := BitVec.ofNat 64 (leNat (s.firingBytes s.cur (sramKey 0 0x2000) 8))
     let br := bindRec (sramKey 0 0x2100) 0x2100 (s.firingBytes s.cur (sramKey 0 0x2100) 64)
     s.bindBad s.cur br = false ∧ hdr.toNat / 2 ^ 60 = 3 ∧ hdr.toNat / 2 ^ 40 % 2 ^ 12 = br.dict ∧ hdr.toNat / 2 ^ 8 % 2 ^ 16 = br.seg ∧
       s.dict br.dict = some aDict ∧ (s.cell 0).bindings.find? (·.key = sramKey 0 0x2100) = some ⟨sramKey 0 0x2100, 1, 1, []⟩ ∧
       codedMalformed hdr (dwordList 3 (s.firingBytes s.cur (sramKey 0 0x2000 + 8) 24)) (some aDict.len) = false ∧
       s.me.resq.length < 4) := by decide +kernel
theorem test_imres_escape_queues : (after (.imres none 20 1 0 11) escaped).me.g 20 % 256 = 1 ∧
    (after (.imres none 20 1 0 11) escaped).me.resq.length = 1 := by decide +kernel
/-- A coded message of dictionary 1's segment 1 with this shade and one entry, atom 1. -/
def codedAt (shade : Nat) : State := resolving 1 (2 * 2 ^ 60 + 2 ^ 52 + 1 * 2 ^ 40 + shade * 2 ^ 24 + 1 * 2 ^ 8 + 1) (0x3C00 * 2 ^ 16 + 1)
/-- Atom 1's first tag covers every shade from 1 on, and its image is made. -/
def tagged (s : State) : State := poke 0x2820 8 (2 ^ 32 + 0xFFFF_FFFF) (poke 0x2828 8 1 s)
theorem witness_Images_coded :
    (∀ shade ∈ [1, 2],
      let s := codedAt shade
      let hdr : Dword := BitVec.ofNat 64 (leNat (s.firingBytes s.cur (sramKey 0 0x2000) 8))
      let br := bindRec (sramKey 0 0x2100) 0x2100 (s.firingBytes s.cur (sramKey 0 0x2100) 64)
      let pay := dwordList 1 (s.firingBytes s.cur (sramKey 0 0x2000 + 8) 8)
      s.bindBad s.cur br = false ∧ hdr.toNat / 2 ^ 60 = 2 ∧ hdr.toNat % 256 = 1 ∧ s.me.replay = none ∧ (∀ r ∈ s.me.resq, r.ord ≠ s.me.words) ∧
        (s.cell 0).bindings.any (fun y => y.key = sramKey 0 0x2100) = true ∧ (s.cell 0).tlb = [] ∧ codedMalformed hdr pay (some aDict.len) = false ∧
        codedEntries hdr pay = [(1, 0x3C00)] ∧ 1 < aDict.k ∧ s.me.resq.length < 4 ∧ s.view 0 1 aDict = 1 ∧
        nearShade 1 (hdr.toNat / 2 ^ 24 % 2 ^ 16) = shade ∧ (s.cell 0).holds.length < 32 ∧ s.markAt s.cur (sramKey 0 0x2000) = 0 ∧ br.tagBase = 0x2800) ∧
    codedMalformed (BitVec.ofNat 64 (2 * 2 ^ 60 + 1 * 2 ^ 40 + 1 * 2 ^ 8 + 1)) [0] (some 16) = true ∧
    (codedAt 1).coveringSlot [(sramKey 0 0x2800, 64)] 1 1 = none ∧
    ((tagged (codedAt 1)).coveringSlot [(sramKey 0 0x2800, 64)] 1 1).map (fun q => (q.1, q.2.1, q.2.2.valid)) = some (0, sramKey 0 0x2820, true) ∧
    (core [] fun k => { k with recs := [⟨0, 16, 4, .queued, 2, none, 1, none, none, false⟩] }).markAt 0 (sramKey 0 0x1C_0000) = 2 := by
  decide +kernel
theorem witness_Images_coded_reads :
    (codedAt 1).xlateRange ((codedAt 1).rootOf 0) 0 0x2000 16 .read = .ok [(sramKey 0 0x2000, 16)] ∧
    (codedAt 1).xlateRange ((codedAt 1).rootOf 0) 0 0x2800 (32 * aDict.k) .write = .ok [(sramKey 0 0x2800, 64)] ∧
    (let s := openShade
     let br := bindRec (sramKey 0 0x2100) 0x2100 (s.firingBytes s.cur (sramKey 0 0x2100) 64)
     s.bindBad s.cur br = false ∧ s.dict br.dict = none ∧ 3 ≠ br.seg) :=
  ⟨ok_of (by decide +kernel), ok_of (by decide +kernel), by decide +kernel⟩
/-- A one-dimensional variable at 0x3000 of one edge, and a factor of one edge at 0x3400. -/
def nodes (skip : Nat) (l : List (Reg × Dword)) : State :=
  poke 0x3000 8 (1 * 2 ^ 62 + skip * 2 ^ 60 + 5 * 2 ^ 51 + 1 * 2 ^ 41) (poke 0x3400 8 (2 * 2 ^ 62 + 5 * 2 ^ 51 + 1 * 2 ^ 41) (run l))
def hdrAt (s : State) (off : Nat) : NodeHdr := nodeHdr (s.coreByte s.cur) 0 off
theorem witness_SchurUnit_join :
    (run []).me.schur.bound = none ∧ ((run [(10, 0x3008)]).me.g 10).toNat % 64 ≠ 0 ∧
    (let s := nodes 0 [(10, 0x3000), (13, 0)]
     (s.me.g 10).toNat % 64 = 0 ∧ spaceOf (sramKey 0 0x3000) = 1 ∧ sramCell (sramKey 0 0x3000) = s.cur / 8 ∧ (hdrAt s 0x3000).ok = true ∧
       (s.me.g 13).toNat < (hdrAt s 0x3000).ne ∧ s.me.fir.spec = false ∧ calmIs s = true ∧
       sramOff (sramKey 0 0x3000) + 0x1000 ≤ 0x1F_C000) ∧ (inSpec []).me.fir.spec = true ∧
    (run []).xlate ((run []).rootOf 0) 0 0x20_0000 .read = .error 0x030C ∧
    (hdrAt (nodes 0 []) 0x3000).ne ≤ ((nodes 0 [(13, 1)]).me.g 13).toNat ∧ (hdrAt (run []) 0x3000).ok = false ∧
    (nodes 0 []).xlate ((nodes 0 []).rootOf 0) 0 0x3000 .read = .ok (sramKey 0 0x3000) :=
  ⟨by decide +kernel, by decide +kernel, by decide +kernel, by decide +kernel, err_of (by decide +kernel), by decide +kernel, by decide +kernel,
    ok_of (by decide +kernel)⟩
theorem witness_SchurUnit_operand : 16 ≤ ((run [(13, 16)]).me.g 13).toNat ∧ ((run [(13, 15)]).me.g 13).toNat < 16 := by decide +kernel
/-- A factor of two edges at 0x3800, and the context bound to it for target 0, with this pivot. -/
def joined (skip : Nat) (pivot : Word) (valid : Bool) : State :=
  let k := { firing with schur := ⟨some (0x3800, 0), 2, [1, 1], [0, 0, 0x3F80_0000, 0, pivot], [0x3F80_0000, 0x3F80_0000], valid, valid⟩,
                         fir := { firing.fir with prodLeft := 1 } }
  poke 0x3800 8 (2 * 2 ^ 62 + skip * 2 ^ 60 + 5 * 2 ^ 51 + 2 * 2 ^ 41) (device k)
def eliminated (s : State) : Except Nat ElimRows :=
  let x := s.me.schur
  eliminateJoint (x.j.map (·.toNat)) x.joint (x.order 0) (x.joint - x.dimOf 0) (hdrAt s 0x3800).eps
theorem witness_SchurUnit_messages :
    (joined 0 0x4000_0000 false).me.schur.bound = some (0x3800, 0) ∧ calmIs (joined 0 0x4000_0000 false) = true ∧ 0x3800 + 0x1000 ≤ 0x1F_C000 ∧
    (joined 0 0x4000_0000 false).me.schur.kind = 2 ∧ (∃ a, eliminated (joined 0 0x4000_0000 false) = .ok a) ∧
    (∃ j, eliminated (joined 0 0 false) = .error j) ∧ (hdrAt (joined 0 0 false) 0x3800).skip = false ∧
    (∃ j, eliminated (joined 1 0 false) = .error j) ∧ (hdrAt (joined 1 0 false) 0x3800).skip = true ∧
    (joined 0 0 false).me.schur.valid = false ∧ (joined 0 0 true).me.schur.valid = true ∧ 0 < (joined 0 0 true).me.fir.prodLeft :=
  ⟨by decide +kernel, by decide +kernel, by decide, by decide +kernel, ⟨_, rfl⟩, ⟨_, rfl⟩, by decide +kernel, ⟨_, rfl⟩, by decide +kernel,
    by decide +kernel, by decide +kernel, by decide +kernel⟩
/-- `joined` with a valid M, settled or not, whose first two words and flags stand in the out record so, and half damping. -/
def sent (settled : Bool) (w0 flags : Nat) : State :=
  let s := joined 0 0 true
  poke 0x3808 8 (128 * 2 ^ 8) (poke 0x3C00 8 (w0 + 0x3F80_0000 * 2 ^ 32) (poke 0x3C3C 4 flags
    (s.modCore 0 fun k => { k with schur := { k.schur with settled := settled } })))
def dampedIs (s : State) : List (Nat × Nat) :=
  (s.me.schur.m.map (·.toNat)).zip (((s.me.schur.m.map (·.toNat)).zip (s.schurWords 0x3800 (outOff 2 0) 16)).map fun (w, o) => damped 128 w o)
theorem witness_SchurUnit_damps :
    (hdrAt (sent true 0 0) 0x3800).alpha = 128 ∧ (hdrAt (sent true 0 0) 0x3800).delta = 0 ∧
    ((sent true 0x4000_0000 0x8000_0000).schurWords 0x3800 (outOff 2 0) 16).getD 15 0 = 0x8000_0000 ∧
    ((sent true 0 0).schurWords 0x3800 (outOff 2 0) 16).getD 15 0 < 2 ^ 31 ∧
    ((dampedIs (sent true 0x4000_0000 0x8000_0000)).all fun q => within q.2 q.1 0) = false ∧
    ((dampedIs (sent true 0x3F80_0000 0x8000_0000)).all fun q => within q.2 q.1 0) = true := by decide +kernel
theorem witness_SchurUnit_sends :
    (∀ q ∈ [(true, 0), (false, 0), (false, 0xC000_0000)],
      let s := sent q.1 0x3F80_0000 q.2
      s.me.schur.bound = some (0x3800, 0) ∧ s.me.schur.valid = true ∧ s.me.schur.settled = q.1 ∧ calmIs s = true ∧ s.cur < 8192 ∧ s.me.fir.spec = false ∧
        s.me.schur.m.length ≤ 14 ∧ (s.schurWords 0x3800 (outOff 2 0) 16).getD 15 0 = q.2 ∧ 0 < s.me.fir.prodLeft ∧ s.unreachableTag 0 = false ∧
        (s.schurWords 0x3800 (edgeOff 2) 2) = [0, 0] ∧ ((hdrAt s 0x3800).dw 0).testBit 61 = false ∧ (s.cell 0).watches = [] ∧
        (hdrAt s 0x3800).owner = 0 ∧ (s.core 0).recs = [] ∧ (s.core 0).tail = 0) ∧
    0x3800 % 64 = 0 ∧ 0x3800 + 0x1000 ≤ 0x1C_0000 ∧
    (let s := sent false 0x3F80_0000 0xC000_0000
     (∀ q ∈ (s.me.schur.m.map (·.toNat)).zip (s.schurWords 0x3800 (outOff 2 0) 16), movedBeyond q.1 q.2 0 = false) ∧
       (∀ w ∈ s.me.schur.m.map (·.toNat), (fp32.decode w).isNan = false) ∧ ¬(0xC000_0000 < 2 ^ 31)) ∧
    ({ sent true 0 0 with cores := [(0, { (sent true 0 0).me with fir := { (sent true 0 0).me.fir with prodLeft := 0 } })],
                          regions := [(1, some { aRegion with msgs := 0 })] } : State).takeSlot 0 = none := by decide +kernel
theorem witness_SchurUnit_beliefs :
    (hdrAt (nodes 0 []) 0x3000).kind = 1 ∧ (hdrAt (nodes 0 []) 0x3400).kind ≠ 1 ∧ (hdrAt (nodes 0 []) 0x3400).ok = true ∧
    (let s := nodes 0 []
     let h := hdrAt s 0x3000
     ∃ j, eliminateJoint (s.joinNode 0x3000 h none).1 h.joint (List.range h.joint) h.joint h.eps = .error j) ∧
    (hdrAt (nodes 1 []) 0x3000).skip = true ∧
    (let s := poke 0x3044 4 0x4000_0000 (nodes 0 [])
     let h := hdrAt s 0x3000
     ∃ rows, eliminateJoint (s.joinNode 0x3000 h none).1 h.joint (List.range h.joint) h.joint h.eps = .ok rows) ∧
    calmIs (poke 0x3044 4 0x4000_0000 (nodes 0 [])) = true :=
  ⟨by decide +kernel, by decide +kernel, by decide +kernel, ⟨_, rfl⟩, by decide +kernel, ⟨_, rfl⟩, by decide +kernel⟩
def aPair (slot : Nat) : Msg :=
  { hdr := BitVec.ofNat 64 (4 * 2 ^ 60 + slot * 2 ^ 48 + (0x3000 / 64) * 2 ^ 33 + 1), pay := [7], dst := 4, src := some 8, region := 1, slot := true,
    charged := true, rel := none, ctx := none, answer := none, back := 0, due := 1, refused := false, seq := 0, quiet := false }
theorem witness_SchurUnit_arrive : ∀ slot ∈ [0, 1], ∀ dirty ∈ [0, 1],
    (let m := aPair slot
     let s := { poke 0x3000 8 (1 * 2 ^ 62 + dirty * 2 ^ 61 + 5 * 2 ^ 51 + 1 * 2 ^ 41) (run []) with net := [m] }
     let h := nodeHdr s.homeByte 0 (m.hdr.toNat / 2 ^ 33 % 2 ^ 15 * 64)
     s.net[0]? = some m ∧ hdrType m.hdr = 4 ∧ m.isDirty = false ∧ m.refused = false ∧ m.due ≤ s.cycle + 1 ∧ s.behind 0 m = false ∧
       s.unreachableTag m.dst.toNat = false ∧ tagDev m.dst.toNat = s.device ∧ (s.core 0).region ≠ none ∧ calmIs s = true ∧
       (s.cell 0).watches = [] ∧ pairBad h m.hdr m.pay = decide (slot = 1) ∧ (h.dw 0).testBit 61 = decide (dirty = 1) ∧
       m.hdr.toNat / 2 ^ 33 % 2 ^ 15 * 64 + 0x1000 ≤ 0x1C_0000 ∧ h.owner = 0 ∧ (s.core 0).recs = [] ∧ (s.core 0).tail = 0 ∧
       s.counter 5 0 6 < 2 ^ 64 - 1) := by decide +kernel

/-- A barrier of core 0 and core 1 at its first episode, and its descriptor at 0x2000. -/
def aMember (id need : Nat) : Member := ⟨1, false, false, false, 0, need, 0, 0, id, 0, 0, List.replicate 8 0, List.replicate 16 0, 0, 0⟩
def aBarrier : Barrier := ⟨1, 1, 0, 5, 64, 1, 1, 0, 0, 0, [aMember 0 2, aMember 1 1]⟩
def atBarrier (b : Barrier) (l : List (Reg × Dword)) : State := { run l with barriers := [(3, some b)] }
def barrierDescribed : State :=
  poke 0x2000 8 (2 * 2 ^ 8 + 5 * 2 ^ 4) (poke 0x2008 8 (64 * 2 ^ 48 + 1 * 2 ^ 40 + 1 * 2 ^ 32)
    (poke 0x2040 8 (1 * 2 ^ 62 + 2 * 2 ^ 40) (poke 0x2080 8 (1 * 2 ^ 62 + 1 * 2 ^ 40 + 1) (run [(9, 0x2000), (12, 3)]))))
def descriptorOf (s : State) : List Nat := (List.range 264).map fun j => s.homeNat (sramKey 0 0x2000 + 8 * j) 8
theorem witness_Barriers_handles :
    2 ^ 29 ≤ ((run [(12, 2 ^ 29)]).me.g 12).toNat ∧ ((run [(12, 0x400)]).me.g 12).toNat / 2 ^ 10 % 2 ^ 6 ≠ 0 ∧
    ((run [(12, 0x1_0003)]).me.g 12).toNat / 2 ^ 16 % 2 ^ 13 ≠ (run []).device ∧
    (let h := (run [(12, 3)]).me.g 12
     h.toNat < 2 ^ 29 ∧ h.toNat / 2 ^ 10 % 2 ^ 6 = 0 ∧ h.toNat / 2 ^ 16 = (run []).device ∧ (run []).homeReachable h = true) ∧
    (run []).homeReachable 0x1_0003 = false := by decide +kernel
theorem witness_Barriers_objects :
    barrierDescribed.barrierOk (descriptorOf barrierDescribed) = true ∧ barrierDescribed.barrier 3 = none ∧
    (run []).barrierOk (List.replicate 264 0) = false ∧ (atBarrier aBarrier []).barrier 3 ≠ none ∧
    ((atBarrier aBarrier []).barriers.map (·.1)).Pairwise (· < ·) := by decide +kernel
theorem witness_Barriers_reads : ∃ t b, barrierDescribed.readVa 0 0x2000 2112 = .ok (t, b) := ⟨_, _, rfl⟩
theorem witness_Barriers_dump : (atBarrier aBarrier []).xlateRange ((atBarrier aBarrier []).rootOf 0) 0 0x2000 2112 .write =
    .ok [(sramKey 0 0x2000, 2112)] ∧ queueOf (sramKey 0 0x2000) = none ∧ isWindow (sramKey 0 0x2000) = false :=
  ⟨ok_of (by decide +kernel), by decide, by decide⟩
theorem witness_Barriers_arrive :
    (let s := atBarrier aBarrier [(12, 3)]
     s.barrier 3 = some aBarrier ∧ s.memberOf 3 0 = some 0 ∧ aBarrier.members[0]? = some (aMember 0 2) ∧ (aMember 0 2).gone = false ∧
       (aMember 0 2).arr = false ∧ (aMember 0 2).got + 1 < (aMember 0 2).need ∧ s.writes = [] ∧ s.depOps = []) ∧
    ({ atBarrier aBarrier [] with cur := 2 } : State).memberOf 3 2 = none ∧
    (let x := { aBarrier with members := [{ aMember 0 1 with gone := true }, aMember 1 1] }
     (atBarrier x []).barrier 3 = some x ∧ (atBarrier x []).memberOf 3 0 = some 0 ∧ x.members[0]?.map (·.gone) = some true) ∧
    (let m := { aMember 0 1 with arr := true, next := 1, got := 1 }
     let x := { aBarrier with members := [m, aMember 1 1], arrived := 1 }
     (atBarrier x []).memberOf 3 0 = some 0 ∧ m.arr = true ∧ m.next = m.need ∧ m.gone = false) := by decide +kernel
theorem witness_Barriers_complete :
    (∀ last ∈ [false, true],
      let x := { aBarrier with members := [aMember 0 1, { aMember 1 1 with arr := last }] }
      let s := atBarrier x [(12, 3)]
      s.barrier 3 = some x ∧ s.memberOf 3 0 = some 0 ∧ (aMember 0 1).gone = false ∧ (aMember 0 1).arr = false ∧
        (aMember 0 1).got + 1 = (aMember 0 1).need ∧ ((aMember 1 1).gone, ({ aMember 1 1 with arr := last } : Member).arr) = (false, last)) ∧
    (let m := { aMember 0 2 with arr := true, next := 1, got := 2 }
     let x := { aBarrier with members := [m, aMember 1 1], arrived := 1 }
     (atBarrier x []).memberOf 3 0 = some 0 ∧ m.arr = true ∧ m.next < m.need ∧ m.gone = false) ∧
    (let x := { aBarrier with members := [{ aMember 0 1 with arr := true }, { aMember 1 1 with gone := true }] }
     (atBarrier x []).barrier 3 = some x ∧ (∃ m ∈ x.members, m.gone = false) ∧ ∀ m ∈ x.members, m.gone = true ∨ m.arr = true) := by
  decide +kernel
theorem witness_Barriers_wait :
    (run []).me.wait = none ∧ (run []).barrier 3 = none ∧
    (let gone (e : Nat) := (aBarrier.episode + 2 ^ 32 - e) % 2 ^ 32
     1 ≤ gone 0 ∧ gone 0 ≤ 2 ^ 31 ∧ gone 1 = 0 ∧ 2 ^ 31 < gone 2) ∧
    ((run [(9, 1)]).me.g 9).toNat / 2 ^ 32 = 0 ∧ ((run [(9, 2 ^ 32 + 1)]).me.g 9).toNat / 2 ^ 32 ≠ 0 := by decide +kernel
/-- A stealable region of two tiles, whose descriptors are the first. -/
def tiled (f : Region → Region := id) (l : List (Reg × Dword) := []) : State :=
  { run l with regions := [(1, some (f { aRegion with stealable := true, ext := [2, 1, 1], tile := [1, 1, 1] }))] }
def tileAddr : Dword := BitVec.ofNat 64 (2 * 2 ^ 60 + dramSize + 32)
theorem witness_StolenTiles_own :
    (tiled).descRef 0 = .bad ∧ (tiled).descRef tileAddr = .own 1 1 ∧
    ({ tiled with peers := [5] } : State).descRef (BitVec.ofNat 64 (descPeer 5 dramSize)) = .peer 5 dramSize ∧
    (∀ st ∈ [0, 2], ((tiled fun r => { r with descs := [⟨1, st, 0⟩] }).region 1).map
      (fun r => (r.state, (r.desc 0 1).st, (r.desc 0 1).taker)) = some (1, st, 0)) ∧ (tiled).me.fir.spec = false ∧ (tiled).writes = [] ∧ (tiled).depOps = [] ∧
    (tiled fun r => { r with state := 2 }).descRef tileAddr = .own 1 1 ∧ (inSpec []).me.fir.spec = true ∧
    (let s := { run [] with fenced := [5], left := [5] }
     s.descRef (BitVec.ofNat 64 (descPeer 5 dramSize)) = .peer 5 dramSize ∧ s.inDomain 5 = false) := by decide +kernel
def aSet (nb : List (BitVec 16)) (opn : Bool) (id : Nat) : Member := ⟨2, false, opn, false, 0, 1, 0, 0, id, 1, 0, nb, List.replicate 16 0, 0, 0⟩
theorem witness_StolenTiles_steal :
    2 ^ 29 ≤ ((run [(12, 0x2000_0000)]).me.g 12).toNat ∧ ((run [(12, 0x400)]).me.g 12).toNat / 2 ^ 10 % 2 ^ 6 ≠ 0 ∧
    28 < (29 : Reg).toNat ∧ (28 : Reg) ≠ 0 ∧ (28 : Reg).toNat ≤ 28 ∧ (inSpec [(12, 3)]).me.fir.spec = true ∧
    (run []).homeReachable 0x5_0000 = false ∧ (run [(12, 0x5_0000)]).me.g 12 = 0x5_0000 ∧
    (let s := { run [(12, 0x5_0000)] with peers := [5] }
     (s.me.g 12).toNat / 2 ^ 16 ≠ s.device ∧ s.homeReachable (s.me.g 12) = true ∧ s.inDomain 5 = true) := by decide +kernel
/-- A barrier's members that a steal names: its fates are 1, 1, 1, 2, 2, 2 and a theft or 5. -/
def thefts : List Member :=
  [aMember 0 1, aSet [0x8000] false 5, { aSet [0x8000] true 5 with gone := true }, aSet [0x8000] true 0, aSet [0] true 5,
   aSet [0x8001] true 5, aSet [0x8001, 0x8000] true 5]
theorem witness_StolenTiles_steal_fates :
    (let s := atBarrier { aBarrier with members := thefts } [(12, 3)]
     s.homeReachable (s.me.g 12) = true ∧ (s.me.g 12).toNat / 2 ^ 16 = s.device ∧ s.me.fir.spec = false ∧
       (s.barrier ((s.me.g 12).toNat % 2 ^ 10)).map (·.members) = some thefts) ∧
    thefts[7]? = none ∧
    thefts.map (fun y => (y.kind, y.opn, y.gone)) =
      [(1, false, false), (2, false, false), (2, true, true), (2, true, false), (2, true, false), (2, true, false), (2, true, false)] ∧
    thefts.map (fun y => y.id != 0 && y.nb.any fun n => n.getLsbD 15 && n.toNat % 2 ^ 13 == 0) =
      [false, true, true, false, false, false, true] := by decide +kernel
theorem witness_StolenTiles_sets :
    (∀ o ∈ [true, false],
      let s := { tiled with tileNotices := [(1, o)] }
      s.tileNotices.head? = some (1, o) ∧ (s.region 1).map (·.stealable) = some true ∧ (s.region 1).map (·.state) = some 1) ∧
    (5 : Nat) < 2 ^ 13 ∧ 5 ∉ (run []).fenced ∧ 5 ≠ (run []).device ∧
    (let x := { aBarrier with members := [{ aMember 0 1 with arr := true }, aSet [] true 5, { aMember 1 1 with gone := true }] }
     (atBarrier x []).barrier 3 = some x ∧ (∃ m ∈ x.members, m.kind = 2 ∧ m.id = 5 ∧ m.gone = false ∧ m.arr = false) ∧
       ∀ m ∈ x.members, m.gone = true ∨ m.arr = true ∨ (m.kind = 2 ∧ m.id = 5)) ∧
    ((tiled fun r => { r with descs := [⟨1, 2, 5⟩] }).region 1).map
      (fun q => (q.stealable, q.state, (q.desc 0 1).st, (q.desc 0 1).taker)) = some (true, 1, 2, 5) := by decide +kernel

/-- The unit with a command in slot 0, by its doublewords 0, 1, 2, 3, 6 and 7. -/
def commanded (d0 d1 d2 d3 d6 d7 : Nat) (f : Matrix → Matrix := id) : State :=
  let s := core [] fun k => { k with mq := f { k.mq with valid := [(0, ⟨1, 0, 0⟩)] } }
  let at' (i v : Nat) (s : State) : State := if v = 0 then s else poke (0x1F_C000 + 8 * i) 8 v s
  at' 0 d0 (at' 1 d1 (at' 2 d2 (at' 3 d3 (at' 6 d6 (at' 7 d7 s)))))
def commandOf (s : State) : Cmd := (s.command 0).getD ⟨[], ⟨0, 0, 0⟩⟩
theorem witness_MatrixUnits_commands :
    (let s := commanded 0 0 0 0 0 0x301
     let c := commandOf s
     s.command 0 = some c ∧ (s.core 0).mq.stream = none ∧ (s.core 0).mq.step = none ∧ c.opc = 1 ∧ c.acc = 3 ∧ c.bad1 = false) ∧
    (commandOf (commanded 0 0 0 0 0 0x1001)).bad1 = true ∧ (commandOf (commanded 0 0 0 0 0 6)).opc = 6 ∧
    (commandOf (commanded 0 0 0 0 0 6)).bad1 = false ∧ (commandOf (commanded 0 0 0 0 0 7)).opc = 7 ∧
    (commandOf (commanded 0 0 0 0 0 7)).bad1 = false := by decide +kernel
/-- An MSIG of this KIND, slot class 1, with this target and flag. -/
def signalling (kind target flag : Nat) : State := commanded target flag 0 0 (kind * 2 ^ 34 + 0xAB * 2 ^ 48) 7
theorem witness_MatrixUnits_signals :
    (∀ kind < 4,
      let s := signalling kind 0x2040 5
      let c := commandOf s
      s.command 0 = some c ∧ c.opc = 7 ∧ c.bad1 = false ∧ c.aux / 2 ^ 34 % 4 = kind ∧ (c.op 0).1 = 0x2040 ∧ (s.core 0).mq.stream = none ∧
        (s.core 0).mq.step = none ∧ s.unreachableTag (0x2040 % 2 ^ 32) = false ∧ ((s.region c.owner.region).map (·.root)).getD 0 = 0 ∧
        calmIs s = true ∧ (s.core 0).region ≠ none) ∧
    (signalling 2 0x2040 5).depKey 0 0 0x2040 = .ok (sramKey 0 0x2040) ∧ (signalling 2 0x2040 5).depKey 0 0 0x20_0000 = .error 0x030C ∧
    (signalling 3 0x2040 5).xlate 0 0 0x2040 .write = .ok (sramKey 0 0x2040) ∧ (signalling 3 0 5).xlate 0 0 0x20_0000 .write = .error 0x030C ∧
    0x2042 % 4 ≠ 0 ∧ sramKey 0 0x2040 % 4 = 0 ∧ queueOf (sramKey 0 0x2040) = none ∧ isWindow (sramKey 0 0x2040) = false :=
  ⟨by decide +kernel, ok_of (by decide +kernel), err_of (by decide +kernel), ok_of (by decide +kernel), err_of (by decide +kernel), by decide,
    by decide, by decide, by decide⟩
def formatted (typ : Dword) (s : State) : State := withCell (fun c => { c with bfmt := [(0, typ)] }) s
theorem witness_MatrixUnits_load :
    (let s := formatted 4 (commanded 0x3000 64 0 0 0 2)
     let c := commandOf s
     s.command 0 = some c ∧ c.opc = 2 ∧ c.bad1 = false ∧ c.strmErrs = [] ∧
       (List.range 16).flatMap (fun i => s.rowErrs c 0 (c.op 0) 0 i 16 [4, 7] false .read) = [] ∧
       ∀ i < 16, (s.row c 0 (c.op 0) 0 i .read).map (·.2.typ) = some 4) ∧
    (let s := commanded 0x3000 64 0 0 0 2
     minErr ((List.range 16).flatMap fun i => s.rowErrs (commandOf s) 0 ((commandOf s).op 0) 0 i 16 [4, 7] false .read) = some 2) := by
  decide +kernel
theorem witness_MatrixUnits_multiply :
    (let s := commanded 0x3000 (256 * 2 ^ 16 + 16) 0x4000 (256 * 2 ^ 16 + 16) 0 (3 + 1 * 2 ^ 12)
     let c := commandOf s
     s.command 0 = some c ∧ c.opc = 3 ∧ c.bad1 = false ∧ (s.core 0).mq.step = none ∧ opStrm (c.op 0) = false ∧ opStrm (c.op 1) = false ∧
       opStrm (c.op 2) = false ∧ c.ain = false ∧ c.bin = false ∧ c.aout = false ∧ c.bout = false ∧ c.cnt = 1 ∧
       vget false (s.core 0).mq.isFp c.acc = decide (2 ≤ c.mode) ∧
       ∀ t ≤ c.cnt, ∀ i < 16, ∀ o ∈ [c.op 0, c.op 1], s.rowErrs c 0 o t i 16 (mmaTypes c.mode) false .read = []) := by decide +kernel
def stepping : State := commanded 0x3000 (256 * 2 ^ 16 + 16) 0x4000 (256 * 2 ^ 16 + 16) 0 (3 + 1 * 2 ^ 12) fun m => { m with step := some 1 }
def readyIn : Rows → Option State
  | .ready u _ => some u
  | _ => none
theorem witness_MatrixUnits_step : ((readyIn (stepping.memRows (commandOf stepping) 0 ((commandOf stepping).op 0) 1)).map fun u =>
    (readyIn (u.memRows (commandOf stepping) 0 ((commandOf stepping).op 1) 1)).isSome) = some true := by decide +kernel
/-- `stepping` with A forwarded to the east, or taken from the west, where sixteen rows stand. -/
def linked (link : Nat) (n : Nat) : State :=
  commanded 0x3000 (256 * 2 ^ 16 + 16) 0x4000 (256 * 2 ^ 16 + 16) 0 (3 + 1 * 2 ^ 12 + link * 2 ^ 20) fun m =>
    { m with step := some 1, west := List.replicate n ⟨0, 1, List.replicate 16 1⟩ }
theorem witness_MatrixUnits_links :
    (let c := commandOf (linked 2 0)
     c.opc = 3 ∧ c.ain = false ∧ c.aout = true ∧ c.bin = false ∧ c.bout = false ∧ (linked 2 0).linkRoom 0 true = true ∧
       neighbour 0 true = some 1 ∧ (linked 2 0).command 0 = some c ∧
       (let s := { linked 2 0 with cores := (linked 2 0).cores ++ [(8, { firing with status := .idle })] }
        (s.core (8 * 1 + 0 % 8)).region ≠ none ∧ s.command 0 = some c ∧ s.linkRoom 0 true = true)) ∧
    (let c := commandOf (linked 1 16)
     let m := ((linked 1 16).core 0).mq
     c.opc = 3 ∧ c.ain = true ∧ c.aout = false ∧ c.bin = false ∧ c.bout = false ∧ 16 ≤ m.west.length ∧
       (m.west.take 16).all (fun r => r.mode = c.mode && r.region = c.owner.region) = true ∧
       (readyIn (((linked 1 16).modMq 0 fun m => { m with west := m.west.drop 16 }).memRows c 0 (c.op 1) 1)).isSome = true) := by
  decide +kernel
theorem witness_MatrixUnits_store : ∀ aux ∈ [0, 0x5000],
    (let s := formatted 4 (commanded 0x3000 64 0 0 aux 4)
     let c := commandOf s
     s.command 0 = some c ∧ c.opc = 4 ∧ c.bad1 = false ∧ c.strmErrs = [] ∧ c.aux = aux ∧ (s.core 0).mq.past = [] ∧ calmIs s = true ∧
       s.scaleErrs c 0 (c.op 1).1 64 .read = [] ∧ s.scaleErrs c 0 (c.op 2).1 64 .read = [] ∧ s.scaleErrs c 0 c.aux 4 .write = [] ∧
       ∀ i < 16, s.rowErrs c 0 (c.op 0) 0 i 16 [0, 3, 4, 5, 7] false .write = [] ∧
         (s.row c 0 (c.op 0) 0 i .write).map (fun q => (q.1, q.2.bits)) = some (sramKey 0 (0x3000 + 64 * i), 32)) := by decide +kernel
theorem witness_MatrixUnits_store_marks :
    (let s := formatted 4 (commanded 0x3000 64 0 0 0x5000 4)
     s.xlateRange (commandOf s).owner.root 0 0x5000 4 .write = .ok [(sramKey 0 0x5000, 4)]) ∧ sramOff (sramKey 0 0x5000) + 4 ≤ 0x1F_C000 ∧
    ∀ i < 16, spaceOf (sramKey 0 (0x3000 + 64 * i)) = 1 ∧ sramOff (sramKey 0 (0x3000 + 64 * i)) + 64 ≤ 0x1F_C000 ∧
      sramKey 0 (0x3000 + 64 * i) + 64 ≤ sramKey 0 0x5000 := ⟨ok_of (by decide +kernel), by decide, by decide +kernel⟩
/-- An IMGB of one atom of four values in bank 1, with W rows in bank 0 and the row stored in bank 2. -/
def imaging : State :=
  withCell (fun c => { c with bfmt := [(0, 4), (1, 3), (2, 4)] })
    (poke (0x1F_C000 + 32) 8 0x2_0000 (commanded 0x3000 16 0x1_0000 8 0 5))
theorem witness_MatrixUnits_image :
    (let s := imaging
     let c := commandOf s
     s.command 0 = some c ∧ c.opc = 5 ∧ c.bad1 = false ∧ c.strmErrs = [] ∧ (s.core 0).mq.past = [] ∧ (s.core 0).mq.step = none ∧ calmIs s = true ∧
       4 * (c.cnt + 1) = 4 ∧ c.aux / 2 ^ 16 % 16 + 1 = 1 ∧ (∀ i < 16, s.rowErrs c 0 (c.op 0) 0 i 4 [1, 2, 3, 4, 5] true .read = []) ∧
       s.rowErrs c 0 (c.op 1) 0 0 4 [3, 2] true .read = [] ∧ s.rowErrs c 0 (c.op 2) 0 0 16 [3, 4, 5] true .write = [] ∧
       (s.row c 0 (c.op 2) 0 0 .write).map (fun q => (q.1, q.2.bits)) = some (sramKey 0 0x2_0000, 32)) := by decide +kernel
theorem witness_MatrixUnits_queue :
    (let s := core [] fun k => { k with mq := { k.mq with ran := true, due := 1 } }
     (s.core 0).mq.ran = true ∧ (s.core 0).mq.due ≤ s.cycle + 1 ∧ (s.core 0).region ≠ none) ∧ (3 : Dword).getLsbD 0 = true ∧ (2 : Dword).getLsbD 0 = false ∧
    16 < ((run [(9, 17)]).me.g 9).toNat ∧ ((run [(9, 16)]).me.g 9).toNat ≤ 16 ∧
    (core [] fun k => { k with mq := { k.mq with stopped := true } }).me.mq.stopped = true ∧ (run []).me.mq.stopped = false ∧
    (run []).me.mq.valid.length ≤ ((run [(9, 0)]).me.g 9).toNat ∧
    ((run [(9, 0)]).me.g 9).toNat < (commanded 0 0 0 0 0 6).me.mq.valid.length ∧
    (let s := { commanded 0x3000 (256 * 2 ^ 16 + 16) 0x4000 0 0 (3 + 1 * 2 ^ 20) fun m => { m with step := some 0, linkSince := some 0 } with cycle := 65536 }
     s.command 0 = some (commandOf s) ∧ (s.core 0).mq.step = some 0 ∧ (s.core 0).mq.linkSince = some 0 ∧ 0 + 65536 < s.cycle + 1 ∧
       (s.mmaRun (commandOf s) 0 0).isNone = true ∧ (s.core 0).mq.stream = none) := by decide +kernel

/-- Function `fn` has one command waiting, with this doubleword 0 and these arguments. -/
def asked (fn op : Nat) (args : List Nat) : State :=
  let slot := (op :: args).zipIdx.foldl (fun t (v, i) => tabSet t i (BitVec.ofNat 64 v)) []
  { State.reset with power := .ready, fns := [(fn, { Fn.reset with tail := 1, slots := slot })] }
def servedIs (s : State) (fn op : Nat) (named : List Nat) : Bool :=
  decide (s.power = .ready) && decide (s.nextFn = some fn) && decide ((s.fns.map (·.1)).Pairwise (· < ·)) &&
    decide ((s.fn fn).taken = []) && decide (opcodeOf (s.slot fn) = op) && argsOk (s.slot fn) named
theorem served_of {s : State} {fn op : Nat} {named : List Nat} (h : servedIs s fn op named = true) : Claims.served s fn op named := by
  simpa [servedIs, Claims.served, and_assoc] using h
theorem witness_CommandChecks :
    (let s := asked 1 15 []
     s.power = .ready ∧ s.nextFn = some 1 ∧ (s.fns.map (·.1)).Pairwise (· < ·) ∧ (s.fn 1).taken = [] ∧ 14 < opcodeOf (s.slot 1)) ∧
    opcodeOf ((asked 1 0 []).slot 1) = 0 ∧
    (∀ op ∈ [1, 2, 3, 4, 5, 6, 7, 8, 9, 10, 11, 12, 13, 14], opcodeOf ((asked 1 op []).slot 1) = op) ∧
    argsOk ((asked 1 1 [0, 1]).slot 1) [1] = false ∧ argsOk ((asked 1 0x109 [0]).slot 1) [1] = false ∧ argsOk ((asked 1 9 [2]).slot 1) [1] = true := by
  decide +kernel
theorem witness_FirmwareReads :
    Claims.served (asked 1 1 [2 ^ 56 - 4095]) 1 1 [1] ∧ 2 ^ 56 < (2 ^ 56 - 4095) + 4096 ∧ Claims.served (asked 1 1 [2 ^ 56 - 4096]) 1 1 [1] ∧
    memWf (asked 1 1 []).mem = true ∧ Claims.served (asked 1 2 [1, 2, 3, 4, 5, 6, 0x1000]) 1 2 [1, 2, 3, 4, 5, 6, 7] ∧
    Claims.served (asked 0 7 [1]) 0 7 [1] ∧ (asked 0 7 [1]).ownRegion 0 1 = none ∧
    ({ asked 0 7 [1] with regions := [(1, some aRegion)] } : State).ownRegion 0 1 = some aRegion ∧
    Claims.served (asked 0 12 [2 ^ 56 + 1, 15]) 0 12 [1, 2] ∧ Claims.served (asked 0 12 [2 ^ 56, 15]) 0 12 [1, 2] ∧
    Claims.served (asked 0 11 [0x1000, 64]) 0 11 [1, 2] ∧ Claims.served (asked 0 12 [0x1000, 16]) 0 12 [1, 2] ∧ 16 ≤ ((asked 0 12 [0x1000, 16]).slot 0).getD 2 0 :=
  ⟨served_of (by decide +kernel), by decide, served_of (by decide +kernel), by decide +kernel, served_of (by decide +kernel),
    served_of (by decide +kernel), by decide +kernel, by decide +kernel, served_of (by decide +kernel), served_of (by decide +kernel),
    served_of (by decide +kernel), served_of (by decide +kernel), by decide +kernel⟩
/-- A READ_COUNTERS of this length, from whose records these have been read. -/
def counting (len : Nat) (got : List (Nat × Nat)) : State :=
  let s := asked 0 11 [0x1000, len]
  { s with fns := [(0, { s.fn 0 with taken := s.slot 0, counted := got })] }
theorem witness_FirmwareReads_counters :
    (∀ len ∈ [0, 64], (asked 0 11 [0x1000, len]).serves 0 = some ((asked 0 11 [0x1000, len]).slot 0)) ∧
    (let s := counting 16 [(5, 7)]
     s.serves 0 = some (s.fn 0).taken ∧ (s.fns.map (·.1)).Pairwise (· < ·) ∧ opcodeOf (s.fn 0).taken = 11 ∧ argsOk (s.fn 0).taken [1, 2] = true ∧
       16 / 16 - (s.fn 0).counted.length = 0 ∧ memWf s.mem = true) ∧
    recordsOf (counting 64 []).counter ((counting 64 []).mayRead 0) 0 counterKinds (Nat.min (64 / 16) 1) ≠ [] ∧
    recordsOf (counting 0 []).counter ((counting 0 []).mayRead 0) 0 counterKinds (Nat.min (0 / 16) 1) = [] := by decide +kernel
theorem witness_FirmwareChanges :
    Claims.served (asked 0 3 [0x1000, 0x2000_0000_0000_0000, 0, 16]) 0 3 [1, 2, 3, 4] ∧ 9 % 8 ≠ 0 ∧
    (∃ l, (asked 0 3 []).fwPieces none 0x2000_0000_0000_0000 16 .write = some l) ∧ (asked 0 3 []).fwPieces (some 0) 0x2000_0000_0000_0000 16 .write = none ∧
    Claims.served (asked 0 6 [1, 0x0005, 1, 2]) 0 6 [1, 2, 3, 4] ∧ (holding aRegion (asked 0 6 [])).ownRegion 0 1 = some aRegion ∧ aRegion.state = 1 ∧
    tagDev 5 = (asked 0 6 []).device ∧ tagCore 5 / 8 ∈ aRegion.placed ∧ (asked 0 6 []).isLive (dieOfCore (tagCore 5)) = true ∧
    Claims.served (asked 0 8 [1]) 0 8 [1] ∧ aRegion.state < 2 ∧ 2 ≤ ({ aRegion with state := 3 } : Region).state ∧
    Claims.served (asked 0 9 [3]) 0 9 [1] ∧ (asked 0 9 [3]).live.toNat ≠ 2 ^ 3 ∧ ({ asked 0 9 [3] with live := 8 } : State).live.toNat = 2 ^ 3 ∧
    Claims.served (asked 0 10 [0x2000_0000_0000_0000]) 0 10 [1] :=
  ⟨served_of (by decide +kernel), by decide, ⟨[(0x2000_0000_0000_0000, 16)], by decide +kernel⟩, by decide +kernel, served_of (by decide +kernel), by decide +kernel,
    by decide, by decide +kernel, by decide, by decide +kernel, served_of (by decide +kernel), by decide, by decide,
    served_of (by decide +kernel), by decide +kernel, by decide +kernel, served_of (by decide +kernel)⟩
theorem witness_RegionsStart :
    Claims.served (asked 1 4 [0x2000_0000_0000_0000]) 1 4 [1, 2] ∧ (asked 1 4 [0x2000_0000_0000_0000]).rootOfFn 1 = none ∧
    Claims.served (asked 0 4 [0x2000_0000_0000_0000, 385]) 0 4 [1, 2] ∧ 0x2000_0000_0000_0040 % 128 ≠ 0 ∧
    Claims.served (asked 0 5 [1]) 0 5 [1] ∧ (asked 0 5 [1]).ownRegion 0 1 = none ∧
    (holding { aRegion with state := 0, placed := [] } (asked 0 5 [1])).ownRegion 0 1 = some { aRegion with state := 0, placed := [] } :=
  ⟨served_of (by decide +kernel), by decide +kernel, served_of (by decide +kernel), by decide, served_of (by decide +kernel), by decide +kernel,
    by decide +kernel⟩
def created : State :=
  holding { aRegion with state := 0, placed := [], dealing := [], usedCells := 0, image := [0x4000, 0x0100_0001, 0x0144, 0] } (asked 0 5 [1])
def isOk {ε α : Type} : Except ε α → Bool
  | .ok _ => true
  | .error _ => false
theorem witness_RegionsStart_launch : isOk (created.launch 1) = true := by decide +kernel
theorem witness_FunctionsMove :
    Claims.served (asked 0 13 [1, 0x2000_0000_0000_0000]) 0 13 [1, 2] ∧ bitOf 1 17 = false ∧
    (holding aRegion (asked 0 13 [])).switchTargets 1 true = .ok [1] ∧ (asked 0 13 []).switchTargets 1 true = .error 4 ∧
    ((holding aRegion (asked 0 13 [])).areaKey 0x2000_0000_0000_0000 (switchAreaSize [1])).isSome = true ∧
    (let s := holding aRegion { asked 0 13 [] with fns := [(0, { Fn.reset with tail := 1, switching := [1], taken := [13, 1, dramKey 0] })] }
     (s.fn 0).switching ≠ [] ∧ (s.fn 0).switching.Nodup ∧ (s.fns.map (·.1)).Pairwise (· < ·) ∧
       (∀ i ∈ (s.fn 0).switching, (s.region i).map (fun r => (r.state, s.regionStill i r, r.placed.length)) = some (1, true, 1)) ∧
       s.areaKey ((s.fn 0).taken.getD 2 0) (switchAreaSize [1]) = some (dramKey 0) ∧ calmIs s = true ∧ s.cores = [] ∧ aRegion.placed = [0] ∧
       isWindow (dramKey 0) = false ∧ isWindow (dramKey 0 + switchAreaSize [1] - 1) = false) ∧
    (let s := holding aRegion { core [] id with fns := [(0, { Fn.reset with tail := 1, switching := [1] })] }
     s.regionStill 1 aRegion = false ∧ s.areaKey ((s.fn 0).taken.getD 2 0) (switchAreaSize [1]) = none) ∧
    Claims.served (asked 0 13 [0x2_0001, 0x2000_0000_0000_0000]) 0 13 [1, 2] ∧ bitOf 0x2_0001 17 = true ∧
    (holding { aRegion with switched := true } (asked 0 13 [])).switchTargets 0x2_0001 false = .ok [1] ∧
    Claims.served (asked 1 14 [1]) 1 14 [1] ∧ Claims.served (asked 1 14 [385]) 1 14 [1] ∧ Claims.served (asked 0 14 [1]) 0 14 [1] :=
  ⟨served_of (by decide +kernel), by decide, ok_of (by decide +kernel), err_of (by decide +kernel), by decide +kernel, by decide +kernel,
    by decide +kernel, served_of (by decide +kernel), by decide, ok_of (by decide +kernel), served_of (by decide +kernel), served_of (by decide +kernel),
    served_of (by decide +kernel)⟩
theorem witness_CommandPage : State.reset.power ≠ .ready ∧ (asked 0 1 []).power = .ready ∧ (0xFF8 : Nat) < 0x1000 ∧ 0xFF8 % 8 = 0 ∧
    ((16 : Dword).toNat % 32 + 32 - ((asked 0 1 []).fn 0).head) % 32 ≤ 16 ∧
    16 < ((17 : Dword).toNat % 32 + 32 - ((asked 0 1 []).fn 0).head) % 32 ∧
    (let f := { Fn.reset with hmqSize := 2, hmqTail := 1, hmqHead := 3 }
     f.hmqSize ≠ 0 ∧ (f.hmqTail + 1) % f.hmqSize ≠ f.hmqHead % f.hmqSize) ∧
    Claims.noWaits (asked 0 1 []) ∧
    (let q : Report := ⟨0, dramKey 0x100, 1, 0⟩
     let s := { asked 0 1 [] with reports := [q] }
     s.reports = q :: [] ∧ spaceOf q.pa = 2 ∧ s.canon 0 q.pa = some (dramKey 0x100) ∧ isWindow (dramKey 0x100) = false ∧ memWf s.mem = true) :=
  ⟨by decide, by decide, by decide, by decide, by decide, by decide, by decide, noWaits_of (by decide +kernel), by decide +kernel⟩

def aMsg (ch : Nat) : Msg :=
  { hdr := header 0 0 1 7 0, pay := [9], dst := BitVec.ofNat 32 ch, src := some 8, region := 1, slot := true, charged := true, rel := none, ctx := none,
    answer := none, back := 0, due := 1, refused := false, seq := 0, quiet := false }
def carrying (m : Msg) (f : Core → Core := id) : State := { core [] f with net := [m] }
theorem witness_MessageDelivery :
    (let s := carrying (aMsg 4)
     s.net[0]? = some (aMsg 4) ∧ s.canArrive 0 (aMsg 4) = true ∧ s.unreachableTag (aMsg 4).dst.toNat = false ∧
       tagDev (aMsg 4).dst.toNat = s.device ∧ hdrType (aMsg 4).hdr < 13 ∧ hdrType (aMsg 4).hdr ≠ 2 ∧ hdrType (aMsg 4).hdr ≠ 3 ∧
       (s.core 0).region.isSome = true ∧ (aMsg 4).quiet = false ∧ (s.core 0).placeOff (8 + 8 * (aMsg 4).pay.length) = some (0, false) ∧
       (s.core 0).head ≤ 0x4000 ∧ (s.core 0).tail ≤ 0x4000 ∧ memWf s.mem = true ∧ (s.cell 0).watches = []) ∧
    (let k := (carrying (aMsg 4) fun k => { k with head := 16, tail := 0x3FF8, recs := [⟨16, 0x3FE8, 4, .held, 0, none, 1, none, none, false⟩] }).core 0
     k.placeOff 16 = some (0, true) ∧ k.head ≤ 0x4000 ∧ k.tail ≤ 0x4000) ∧
    (let m := { aMsg 4 with hdr := header 10 0 5 1 0, dst := 0x0008_0004 }
     let s := { carrying m with regions := [(1, some aRegion)] }
     s.net[0]? = some m ∧ s.canArrive 0 m = true ∧ s.unreachableTag m.dst.toNat = true ∧ hdrType m.hdr = 10 ∧ s.region m.region = some aRegion ∧
       aRegion.state < 2) ∧
    (let k := (carrying (aMsg 4) fun k => { k with head := 8, tail := 0, recs := [⟨8, 0x3FF8, 4, .held, 0, none, 1, none, none, false⟩] }).core 0
     k.placeOff 16 = none) ∧
    (let m := { aMsg 4 with dst := 0x0008_0004 }
     (carrying m).canArrive 0 m = true ∧ (carrying m).unreachableTag m.dst.toNat = true) ∧
    (let m := { aMsg 4 with refused := true, back := 64 }
     (carrying m).net[0]? = some m ∧ m.refused = true ∧ m.due ≤ (carrying m).cycle + 1) := by decide +kernel
def listening (f : Core → Core) : State :=
  core [] fun k => f { withEntry 4 { Entry.zero with code := 0x4000, en := true, pend := true, slots := [(1, true, 4)] } k with
    status := .idle, counts := [(4, 1)], recs := [⟨0, 16, 4, .queued, 0, none, 1, none, none, false⟩] }
def anArm : Arm := ⟨0, List.replicate 9 0x4000, 1⟩
theorem witness_FiringsStart :
    ((listening id).selects 0 = true ∧ (listening id).candidates 0 = [4] ∧ ((listening id).core 0).entries.length = 64) ∧
    (let s := core [] fun k => { k with status := .idle }
     s.selects 0 = true ∧ s.candidates 0 = []) ∧
    (let s := core [] fun k => { k with status := .idle, stealing := true, switching := true }
     (s.core 0).stealing = true ∧ (s.core 0).status = .idle ∧ (s.core 0).switching = true) ∧
    (let s := { run [] with cores := [(0, { withRegs [] firing with status := .idle, stealing := true }), (1, { withRegs [] firing with arms := [anArm] })] }
     (victims 0).find? (fun v => ((s.core v).stealableArm (s.core 0).region).isSome) = some 1 ∧ (s.core 1).arms.getLast? = some anArm ∧
       s.prodFits 0 ((s.core 0).entry 62) = true ∧ (s.core 0).switching = false ∧ (s.core 0).frozen = false) ∧
    (let s := { listening id with cycle := 0x1_0000 }
     4 < (s.core 0).entries.length ∧ ((s.core 0).entry 4).en = true ∧ ((s.core 0).entry 4).pend = true ∧ ((s.core 0).entry 4).lift = false ∧
       (s.core 0).age ≠ 0 ∧ ((s.core 0).entry 4).since + (s.core 0).age ≤ s.cycle + 1) ∧
    (let s := holding aRegion (core [] fun k => { k with armList := [128] })
     (s.core 0).armList = 128 :: [] ∧ (s.core 0).region.bind s.region = some aRegion ∧ (s.core 0).arms.length < ((s.core 0).entry 62).depthOf) := by
  decide +kernel
def aReply (fault : Option (Nat × Dword)) (ready : Bool) : Pend :=
  { somePend with kind := .reply, ready := ready, fault := fault, due := 1, issued := 0, fp := false }
theorem witness_CoreResults :
    (let p := { somePend with due := 1 }
     (core [] fun k => { k with pend := [p] }).me.pend.find? (fun p => p.who.ord = 1 && p.kind = .unit && p.ready && p.due ≤ 0 + 1) = some p) ∧
    (∀ f ∈ [none, some (0x030C, 5)],
      (core [] fun k => { k with pend := [aReply f true] }).me.pendOf .reply 1 = some (aReply f true) ∧ (aReply f true).due ≤ 0 + 1) ∧
    (let w : Write := ⟨0, sramKey 0 0x2000, [some 5], [], 0, []⟩
     let s := { run [] with writes := [w] }
     s.writes[0]? = some w ∧ s.mayPerform 0 w = true ∧ w.bytes = ([5] : List Byte).map some ∧ queueOf w.pa = none ∧ isWindow w.pa = false ∧
       sramOff w.pa + 1 ≤ 0x1F_C000 ∧ memWf s.mem = true ∧ s.bad = []) ∧
    (let w : SysWrite := ⟨0x9F, 7, 0, 0⟩
     let s := withCell (fun c => { c with sysWrites := [w] }) (run [])
     (s.cell 0).sysWrites[0]? = some w ∧ 0x80 ≤ w.num ∧ w.num < 0xA0 ∧ w.due ≤ s.cycle ∧ w.val.toNat % 16 < 8 ∧
       ((s.cell 0).sysWrites.take 0).all (fun p => decide (p.num ≠ w.num)) = true ∧
       (s.cores.all fun (c, _) => !s.convertsIn c (sramKey 0 0x1F_0000)) = true ∧
       (((s.cutCopies (sramKey 0 0x1F_0000)).cell 0).bfmt.map (·.1)).Pairwise (· < ·)) ∧
    8 ≤ (8 : Dword).toNat % 16 := by decide +kernel
/-- A copy of bank 0 (FP16) to bank 1 (FP32) is under way: it converts in both, and in no other bank (R52, R55). -/
theorem test_convertsIn :
    (let s := withCell (fun c => { c with bfmt := [(0, 3), (1, 4)] }) (core [] fun k =>
       { k with copies := [⟨0, 0x1_0000, 64, 0, 0, 0, 1, 0, none, none, true, false⟩] })
     (List.range 3).map fun b => s.convertsIn 0 (sramKey 0 (0x1_0000 * b))) = [true, true, false] := by decide +kernel
/-- A WAITW of 0x2000 that pends. -/
def wordWait : State := after (.waitw none 9 10 0 5 0) (poke 0x2000 8 0x5_0000_0005 (run [(9, 3), (10, 0x2000)]))
theorem witness_CoreResults_waitw :
    (wordWait.me.pend.map fun p => (p.ready, p.waits)) = [(false, some (9, 0, sramKey 0 0x2000))] ∧
    waitwMet 0 (wordWait.waitwRead 0 (sramKey 0 0x2000)) = false ∧
    waitwMet 0 ((poke 0x2000 8 0x5_0000_0006 wordWait).waitwRead 0 (sramKey 0 0x2000)) = true ∧
    (wordWait.me.pend.all fun p => p.due ≤ 1000) = true ∧ wordWait.writes = [] := by decide +kernel
theorem witness_CoreResults_order :
    (let p : Write := ⟨0, sramKey 0 0x2000, [some 5, some 6], [], 3, []⟩
     let w : Write := ⟨0, sramKey 0 0x2001, [some 7], [(5, 4)], 4, []⟩
     let s := { run [] with writes := [p, w] }
     s.writes[1]? = some w ∧ s.writes[0]? = some p ∧ p.core = w.core ∧ p.id < carriedTo w.rel ∧ p.overlaps w = true) ∧
    (∀ x, (wordWait.me.pend.map (·.writes)).getLast? = some [.g 9 x] → x = 0x5_0000_0005) := by
  refine ⟨by decide +kernel, ?_⟩
  have h : (wordWait.me.pend.map (·.writes)).getLast? = some [.g 9 0x5_0000_0005] := by decide +kernel
  intro x hx
  simpa [h] using hx.symm
def held (kind : WaitKind) (handle : Dword) (s : State) : State :=
  { s with cores := [(0, { withRegs [] firing with wait := some ⟨kind, 0, 10, 5, handle, 1⟩, banks := Vector.replicate 2 ⟨0, 0, 0, 0x4001, 5⟩ })], cycle := 9 }
theorem witness_LimitsPass :
    (let s := { core [] (fun k => { k with wait := some ⟨.copyFifo, 5, 100, 5, 0, 1⟩, held := [(17, 5, 9), (16, 0, 9)] }) with cycle := 2 ^ 20 + 8 }
     let s := { s with cores := [(0, { s.me with held := [(17, 5, 9), (16, 0, 2 ^ 20 + 8)] })] }
     s.me.wait ≠ none ∧ s.me.held = [(17, 5, 9)] ++ (16, 0, 2 ^ 20 + 8) :: [] ∧ ¬(s.cycle ≤ 9 + 1) ∧ s.cycle ≤ (2 ^ 20 + 8) + 1 ∧
       0 + s.me.sto ≤ s.cycle + 1 ∧ s.me.settled = true) ∧
    (∀ kind ∈ [WaitKind.copyFifo, .mqwait, .bwait],
      let s := held kind 0x1_0003 (atBarrier aBarrier [])
      s.me.wait = some ⟨kind, 0, 10, 5, 0x1_0003, 1⟩ ∧ 0 + 10 ≤ s.cycle + 1 ∧ s.me.settled = true ∧ s.me.tlevel < 2 ∧
        (s.me.bank (s.me.tlevel + 1)).en = true) ∧
    handleHome 0x1_0003 ≠ (run []).device ∧ handleHome 3 = (run []).device ∧ (atBarrier aBarrier []).barrier (handleNum 3) = some aBarrier ∧
    episodeOver aBarrier.episode 1 = false ∧ (waiting []).me.settled = false ∧
    (let s := { after (.ld none 5 9 0 0 3 0) (run [(9, 0x2000)]) with cycle := 2 ^ 20 }
     (s.me.pendOf .reply 0).map (fun p => p.bounded && p.issued + s.me.wlim ≤ s.cycle + 1) = some true) ∧
    (let q : TrapReq := ⟨.afterIssue, 0x030C, 5, somePend.who⟩
     let k := { (trapping []).me with faults := [q] }
     k.status = .running ∧ k.pend = [] ∧ k.faults = [q] ∧ k.tlevel < 2 ∧ (k.bank (k.tlevel + 1)).en = true) ∧
    (let h : HaltReq := ⟨0x1000, 0x0102, 1, 0, 5⟩
     let s := holding { aRegion with supervisor := 9 } (core [] fun k => { k with halt := some h })
     s.me.halt = some h ∧ s.region (s.me.region.getD s.me.fir.region) = some { aRegion with supervisor := 9 } ∧ s.me.status = .running ∧ s.me.settled = true ∧
       (s.region (s.me.region.getD 0)).map (fun r => decide (r.supervisor ≠ 0) && s.isLive (dieOfCore r.supervisor)) = some true) ∧
    (let s := { run [] with cycle := 2 ^ 40 }
     (s.me.fir.wdDone + 1) * s.me.wdPeriod ≤ s.me.elapsed (s.cycle + 1)) := by decide +kernel

def beating (s : State) : State := { s with dies := Vector.replicate 4 { Die.reset with beating := true } }
theorem witness_Distributors :
    (let s := { beating (run []) with cycle := 2 ^ 14 }
     s.dieRuns 3 = true ∧ (s.die 3).beatAt + 2 ^ 13 ≤ s.cycle + 1 ∧ (s.die 0).sampleAt + 2 ^ 14 ≤ s.cycle + 1 ∧ s.master = 0 ∧
       s.isLive 1 = true ∧ (s.die 1).beats = (s.die 0).sampled.getD 1 0) ∧
    (let s := { beating (run []) with dies := Vector.replicate 4 { Die.reset with beating := true, beats := 1 } }
     ∀ d < 4, d ≠ 0 → s.isLive d = true → (s.die d).beats ≠ (s.die 0).sampled.getD d 0) ∧
    (let s := beating (holding aRegion (run []))
     s.region 1 = some aRegion ∧ aRegion.dealing.findIdx? (fun c => decide (c = 0)) = some 0 ∧ aRegion.state = 1 ∧ aRegion.switched = false ∧
       (s.core 0).switching = false ∧ s.dieRuns (dieOfCore 0) = true ∧ (aRegion.dealt.filter fun x => decide (x.2 = 0)).length < 2 ∧
       aRegion.tileFor 0 = some 0) ∧
    (let s := { holding aRegion (run []) with retires := [(1, 0, 0)] }
     s.retires = (1, 0, 0) :: [] ∧ s.isLive 0 = true ∧ 0 ∉ aRegion.done ∧ 0 ∈ ({ aRegion with done := [0] } : Region).done) ∧
    (let r := { aRegion with done := [0, 1, 2, 3], qRose := true }
     let s := holding r State.reset
     s.qCount 1 r = 0 ∧ r.qRose = true ∧ r.state = 1 ∧ r.switched = false ∧ s.writes = [] ∧ s.depOps = [] ∧ s.device < 2 ^ 13 ∧ r.supervisor < 8192 ∧ s.isLive (dieOfCore r.supervisor) = true) ∧
    (let r := { aRegion with done := [0, 1, 2, 3], qRose := false, doneSince := some 0 }
     let s := { holding r State.reset with cycle := 1 }
     s.finished 1 r = true ∧ r.doneSince = some 0 ∧ 0 < s.cycle) := by decide +kernel
def cabled (tries : Nat) : State :=
  { run [] with ports := [(31, ⟨true, [5, 6], some (.msg 0), tries⟩)], peers := [5, 6], net := [{ aMsg 4 with dst := 0x0028_0004 }] }
theorem witness_Package :
    State.reset.power = .off ∧ (16 : Nat) % 16 = 0 ∧ 15 % 16 ≠ 0 ∧ ({ run [] with power := .starting } : State).power = .starting ∧
    ({ run [] with power := .starting } : State).cycle ≤ 1_900_000_000 ∧ 1_900_000_000 < ({ run [] with cycle := 1_900_000_001 } : State).cycle ∧ (cabled 0).peers.any (cabled 0).inDomain = true ∧
    (run []).peers.any (run []).inDomain = false ∧ (run []).power = .ready ∧ 6 ∈ (cabled 0).peers ∧ 6 ∉ (cabled 0).partners ∧ ((run []).counters.map (·.1)).Pairwise (· < ·) ∧
    (let s := { run [] with cycle := 60 * 1_900_000_000 }
     s.life.updated + 60 * 1_900_000_000 ≤ s.cycle + 1 ∧ s.life.second + 1_900_000_000 ≤ s.cycle + 1) ∧
    (run []).isLive 3 = true ∧ ({ run [] with live := 8 } : State).live.toNat = 2 ^ 3 ∧ (run []).live.toNat ≠ 2 ^ 3 ∧
    (beating (run [])).dieRuns 3 = true ∧ (run []).conflict = false ∧ ((run []).port 31).trained = false ∧ 0 = (run []).device ∧
    ((cabled 0).port 31).trained = true ∧ 7 ∉ ((cabled 0).port 31).reach ∧ (cabled 0).packets = [.msg 0] ∧
    (∀ n ∈ [7, 8], ((cabled n).packets.map fun q => if ((cabled n).port 31).packet = some q then ((cabled n).port 31).tries else 0) = [n]) ∧
    ({ cabled 0 with writes := [⟨0, 3 * 2 ^ 60, [some 1], [], 0, []⟩] } : State).packets.length = 2 ∧
    (let s := { run [] with bad := [sramKey 0 0x2000] }
     s.canon 0 (sramKey 0 0x2004) = some (sramKey 0 0x2004) ∧ spaceOf (sramKey 0 0x2004) = 1 ∧ isWindow (sramKey 0 0x2004) = false ∧
       sramKey 0 0x2004 / 8 * 8 ∈ s.bad ∧ sramKey 0 0x2008 / 8 * 8 ∉ s.bad) := by decide +kernel

/-- A literal's pair and a pair of two words at the program counter. -/
def fetching (wa wb : Nat) : State := poke 0x1000 8 (wa + wb * 2 ^ 32) (run [])
def ready (s : State) : Bool :=
  decide (s.nextCore = some 0) && s.issues 0 && !(s.core 0).stop && (s.core 0).replay.isNone && (s.core 0).rep.isNone &&
    (s.core 0).pend.isEmpty && decide ((s.core 0).pc.toNat % 8 = 0) && s.bad.isEmpty && s.soft.isEmpty && !s.encxUnder 0
theorem witness_StepRunsDecoded_pair :
    ready (fetching 0 0x20200005) = true ∧
    ((fetching 0 0x20200005).turn 0).xlate (((fetching 0 0x20200005).turn 0).rootOf 0) 0 0x1000 .exec = .ok (sramKey 0 0x1000) ∧
    decodeBytes (((fetching 0 0x20200005).turn 0).firingBytes 0 (sramKey 0 0x1000) 8) = .ok (⟨.nopA, some (.addi 1 0 5)⟩, []) ∧
    callClash ⟨.nopA, some (.addi 1 0 5)⟩ = false ∧ skipsB .nopA = false :=
  ⟨by decide +kernel, ok_of (by decide +kernel), rfl, by decide, by decide⟩
theorem witness_StepRunsDecoded_alone :
    ready (fetching 0x800000C0 0) = true ∧
    decodeBytes (((fetching 0x800000C0 0).turn 0).firingBytes 0 (sramKey 0 0x1000) 8) = .ok (⟨.ret (some 0), none⟩, []) ∧
    callClash ⟨.ret (some 0), none⟩ = false := ⟨by decide +kernel, rfl, by decide⟩
theorem test_step_runs_pair : (match step (fetching 0 0x20200005) with
    | .next t => (t.me.g 1, t.me.pc)
    | _ => (0, 0)) = (5, 0x1008) := by decide +kernel
theorem witness_MemoryReadsBack : memWf (fetching 0 5).mem = true ∧ (fetching 0 5).bad = [] ∧ queueOf (sramKey 0 0x1F_BFFF) = none ∧
    isWindow (sramKey 0 0x1F_BFFF) = false ∧ sramOff (sramKey 0 0x1F_BFFF) + 1 ≤ 0x1F_C000 := by decide +kernel
theorem witness_DecodeEncode : (Instr.ld none 31 31 15 1 3 0xFF).wf = true ∧ (Instr.ld none 31 31 15 1 3 0xFF).slot = .wordA ∧
    (Instr.ld (some 0xFFFF_FFFF) 1 2 3 0 2 0).literal = some 0xFFFF_FFFF ∧ (Instr.vadd 15 23 22 7 15 7).wf = true ∧
    (Instr.vadd 15 23 22 7 15 7).slot = .wordB ∧ (Instr.vadd 15 23 22 7 15 7).slot ≠ .noWord := by decide
theorem witness_StepKeepsMemoryForm : memWf (fetching 0 0x20200005).mem = true ∧
    (match step (fetching 0 0x20200005) with
      | .next t => memWf t.mem
      | _ => false) = true := by decide +kernel
theorem witness_PairDestinations : decodeA 0x20B38300#32 0#32 = .ok (.ld none 11 7 0 0 3 0) ∧ decodeB 0x21600001#32 = .ok (.addi 11 0 1) ∧
    (Dest.g 11) ∈ (Instr.ld none 11 7 0 0 3 0).dests ∧ (Dest.g 11) ∈ (Instr.addi 11 0 1).dests ∧ Dest.g 11 ≠ .g 0 ∧
    decodePair 0x20B38300#32 0x21600001#32 = .error (.illegal 0x0106 3) ∧ (0x20B38300#32).getLsbD 31 = false :=
  ⟨rfl, rfl, by decide, by decide, by decide, rfl, by decide⟩
theorem witness_ResultsAwaited : (waiting []).me.pend ≠ [] ∧ (waiting []).me.fir.spec = false ∧
    (let v := ((waiting [(9, 5 * 2 ^ 32)]).me.g 9).toNat
     v / 2 ^ 38 % 2 ^ 10 = 0 ∧ 5 ≤ v / 2 ^ 32 % 2 ^ 6) ∧ (0xFF_FFFF : Word).toNat < 2 ^ 24 := by decide +kernel
theorem witness_PartialOverwrite :
    (let s := { run [] with bad := [sramKey 0 0x2000] }
     memWf s.mem = true ∧ sramKey 0 0x2003 % 8 + 5 ≤ 8 ∧ sramKey 0 0x2003 / 8 * 8 ∈ s.bad ∧ eccUnit (sramKey 0 0x2003 / 8 * 8) = some (8, 0) ∧
       queueOf (sramKey 0 0x2003) = none ∧ isWindow (sramKey 0 0x2003) = false) := by decide +kernel
theorem witness_CoreIdentity : ({ run [] with device := 8191 } : State).device < 2 ^ 13 ∧ 8191 < 2 ^ 13 ∧
    ({ run [] with device := 8191 } : State).sysRead 8191 7 = 0x1FFF_1FFF := by decide +kernel

/-- A block that a function's CREATE_REGION would read, at device memory 0x1000, and the node that it gives. -/
def block : List Nat := [0, 0, 0, 0x7FFF * 2 ^ 32, 1, 0, 1, 0, 0, 0, 0x1_0000_0001, 0x1_0001_0000_0001, 1, 0, 0, 0]
def blocked : State :=
  { asked 0 4 [dramKey 0x1000] with mem := memSetBytes [] (dramKey 0x1000) (block.flatMap (leBytes 8)) }
def aNode : RcbNode :=
  ⟨dramKey 0x1000, block, none, none, rcbRegion block none 0 (dramKey 0x1000) 0 0 (List.replicate 256 0) 0⟩
def nodesIs (e : Except Nat (List RcbNode × List (Nat × Nat))) (l : List RcbNode) : Bool :=
  match e with
  | .ok (nodes, _) => decide (nodes = l)
  | .error _ => false
theorem witness_RegionsStart_reads : nodesIs (blocked.readTree 0 65536 [⟨dramKey 0x1000, none, none, none, 0⟩] [] []) [aNode] = true := by
  decide +kernel
theorem witness_RegionsStart_tree : blocked.treeStatus [aNode] = 0 ∧ blocked.treeStatus [{ aNode with d := [] }] ≠ 0 ∧
    blocked.nextRegion + 1 ≤ 65536 ∧ 65536 < ({ blocked with nextRegion := 65536 } : State).nextRegion + 1 := by decide +kernel
theorem witness_RegionsStart_places :
    (let r := (created.region 1).getD aRegion
     created.ownRegion 0 1 = some r ∧ r.state = 0 ∧ r.kids = [] ∧ r.cells = 1 ∧ (created.freeList r.supervisor).take r.cells = [0] ∧
       created.fits 1 .cells r.cells = true ∧ Region.dealers { r with placed := [0] } ≠ [] ∧ r.spills = false ∧
       Region.dealers { r with placed := [0], image := [] } = [] ∧ created.fits 1 .cells 2 = false) ∧
    (∀ base ∈ [64, dramKey 0x1000],
      let r := { aRegion with spillBase := base, spillSize := 256, spillPhys := true }
      r.spills = true ∧ created.spillReachable r = decide (base ≠ 64)) ∧
    Claims.noWaits blocked ∧ spaceOf (dramKey 0x1000) = 2 ∧ isWindow (dramKey 0x1000) = false ∧ dramKey 0x1000 % 128 = 0 ∧ memWf blocked.mem = true :=
  ⟨by decide +kernel, by decide +kernel, by unfold Claims.noWaits; decide +kernel, by decide, by decide, by decide,
    by decide +kernel⟩

/-- A switched-out region without cells, and its area of 8 KiB at device memory 0: version, size and CRC stand in its header. -/
def shelved : State :=
  { asked 0 13 [0x2_0000, dramKey 0] with
    regions := [(0, some { aRegion with switched := true, placed := [] })], saves := [(0, [⟨0x98F9_4189, 0, [], [], [], []⟩])],
    mem := [(dramKey 0, BitVec.ofNat 8 (Config.firmwareVersion.toNat % 256)), (dramKey 1, BitVec.ofNat 8 (Config.firmwareVersion.toNat / 256)),
            (dramKey 16, 1), (dramKey 25, 0x20), (dramKey 32, 0x89), (dramKey 33, 0x41), (dramKey 34, 0xF9), (dramKey 35, 0x98)] }
theorem witness_FunctionsMove_in :
    Claims.served shelved 0 13 [1, 2] ∧ shelved.switchTargets 0x2_0000 false = .ok [0] ∧ (shelved.region 0).isSome = true ∧
    shelved.saveOf 0x98F9_4189 0 [] = some ⟨0x98F9_4189, 0, [], [], [], []⟩ ∧ shelved.saveOf 0 0 [] = none ∧ shelved.areaKey (dramKey 0) 4096 = some (dramKey 0) ∧
    (shelved.areaKey (dramKey 0) (switchAreaSize [0])).isSome = true ∧ bytesAt (shelved.homeBytes (dramKey 0) 4096) 24 8 = switchAreaSize [0] ∧
    bytesAt (shelved.homeBytes (dramKey 0) 4096) 16 8 = 1 ∧ shelved.fits 0 .cells 0 = true ∧
    ({ shelved with regions := [(0, some { aRegion with usedCells := 2 })] } : State).fits 0 .cells 0 = false :=
  ⟨served_of (by decide +kernel), ok_of (by decide +kernel), by decide +kernel, by decide +kernel, by decide +kernel, by decide +kernel, by decide +kernel,
    by decide +kernel, by decide +kernel, by decide +kernel, by decide +kernel⟩
/-- A save of `shelved` whose one core was pre-empted with `g1` to `g15` live, and an area that no switch wrote. -/
theorem witness_FunctionsMove_saves :
    (let k := { Core.reset with frozen := true, safeMask := some (-1, 0, 0) }
     let x : RegionSave := ⟨0x98F9_4189, 0, [], [(3, k)], [], []⟩
     let s := { shelved with saves := [(0, [x])] }
     (s.saveOf 0x98F9_4189 0 []).getD (s.foreignSave 0x98F9_4189 0 []) = x ∧ (x.cores.map (·.1)).Nodup ∧ k.safeMask = some (-1, 0, 0) ∧ k.frozen = true) ∧
    (let s := { shelved with saves := [] }
     s.saveOf 0x98F9_4189 0 [] = none ∧ ((s.foreignSave 0x98F9_4189 0 []).cores.map (·.1)).Nodup ∧ (s.foreignSave 0x98F9_4189 0 [5]).placed = [5]) := by
  decide +kernel
theorem witness_FunctionsMove_version : bytesAt (shelved.homeBytes (dramKey 0) 4096) 0 8 = Config.firmwareVersion.toNat := by
  have h : bytesAt (shelved.homeBytes (dramKey 0) 4096) 0 8 = leNat ((List.range 8).map fun i => shelved.homeByte (dramKey 0 + i)) := by
    simp [bytesAt, State.homeBytes, ← List.map_take, List.take_range]
  have l : (List.range 8).map (fun i => shelved.homeByte (dramKey 0 + i)) =
      [BitVec.ofNat 8 (Config.firmwareVersion.toNat % 256), BitVec.ofNat 8 (Config.firmwareVersion.toNat / 256), 0, 0, 0, 0, 0, 0] := rfl
  have v := Config.firmwareVersion.isLt
  rw [h, l]
  simp [leNat]
  omega
/-- The CRC-32C state after 64 zero bytes, and whether a list holds its values after each 64 bytes. -/
def crcZeros (c : Nat) : Nat := (List.replicate 64 (0 : Byte)).foldl (fun c b => crcByte c b.toNat) c
def crcChain : Nat → List Nat → Bool
  | _, [] => true
  | c, d :: t => decide (crcZeros c = d) && crcChain d t
theorem crc_chain (l : List Nat) (c : Nat) (h : crcChain c l = true) :
    (List.replicate (64 * l.length) (0 : Byte)).foldl (fun c b => crcByte c b.toNat) c = l.getLastD c := by
  induction l generalizing c with
  | nil => rfl
  | cons d t ih =>
    simp only [crcChain, Bool.and_eq_true, decide_eq_true_eq] at h
    rw [List.length_cons, Nat.mul_add, Nat.mul_one, Nat.add_comm, ← List.replicate_append_replicate, List.foldl_append]
    show List.foldl _ (crcZeros c) _ = _
    rw [h.1, ih d h.2]
    cases t <;> rfl
def crcMarks : List Nat :=
  [0xFC371498, 0xF7D89B24, 0x8BCA87CF, 0x478D4E6F, 0x03D5A233, 0x4509D0C9, 0xCC289DC7, 0xCF03123F]
    ++ [0x39B9AC6B, 0x1FD80331, 0x7793E80C, 0xC5C4C2F9, 0xFC7DEB93, 0x0D77C4C0, 0xC011635A, 0x11512183]
    ++ [0x96321F3C, 0xA8448891, 0x5717CF61, 0x72802FED, 0x8B77850D, 0x6B47581E, 0xB9F00015, 0x0A6FD2D2]
    ++ [0xDD58B5AA, 0xFBD7265A, 0xAC5B13C6, 0x5BCB999C, 0x782F93A7, 0x50E61FFC, 0x7DDD2266, 0x5B767CB0]
    ++ [0x0058238B, 0x22B79A12, 0x07DD69EA, 0x13CA39CB, 0x441DEFD3, 0xE41FC7CF, 0xFACDA96E, 0x4DF00A81]
    ++ [0xEB5782D0, 0x278B2FA4, 0xCDCF02CA, 0x24571252, 0x25D8D536, 0xD84843AE, 0x3441F00B, 0xDF52BE5C]
    ++ [0xDF1ACD0E, 0xF18F24B4, 0x75AD7B36, 0x0A82160E, 0x559746EE, 0x17AB347E, 0xEAA5B713, 0xF76F41EA]
    ++ [0x74CB944E, 0x81BD34D5, 0xFBEE9C85, 0x142AC051, 0xB705E478, 0x54AF813B, 0xA35D99A2, 0x6706BE76]
theorem witness_FunctionsMove_crc :
    bytesAt (shelved.homeBytes (dramKey 0) 4096) 32 8 % 2 ^ 32 = crc32c ((shelved.homeBytes (dramKey 0) (switchAreaSize [0])).drop 4096) := by
  have z : (shelved.homeBytes (dramKey 0) (switchAreaSize [0])).drop 4096 = List.replicate (64 * crcMarks.length) 0 := by
    have b : ∀ j < 64, ∀ i < 64, shelved.homeByte (dramKey 0 + (4096 + (64 * j + i))) = 0 := by decide +kernel
    have n : switchAreaSize [0] = 8192 := by decide +kernel
    have m : 64 * crcMarks.length = 4096 := by decide +kernel
    rw [n, m, List.eq_replicate_iff]
    refine ⟨by simp [State.homeBytes], fun x h => ?_⟩
    obtain ⟨i, hi, rfl⟩ := List.mem_iff_getElem.1 h
    simp only [State.homeBytes, List.length_drop, List.length_map, List.length_range] at hi
    simp only [State.homeBytes, List.getElem_drop, List.getElem_map, List.getElem_range]
    have e : i = 64 * (i / 64) + i % 64 := by omega
    rw [e]
    exact b (i / 64) (by omega) (i % 64) (by omega)
  have c := crc_chain crcMarks 0xFFFF_FFFF (by decide +kernel)
  rw [z, crc32c, c]
  decide +kernel
theorem witness_FunctionsMove_records :
    areaRecords (shelved.homeBytes (dramKey 0) (switchAreaSize [0])) 1 4096 = [(4096, 0, [])] := by decide +kernel

end Sys2Proof.Tests
end

section
/-! SUPPORT. Which bit patterns are NaNs (R48), and that every operation's result is the canonical NaN or none at all (R60). -/

namespace Sys2Proof.Machine

/-! ### The value of a bit pattern -/

theorem FV.isNan_iff {v : FV} : v.isNan = true ↔ ∃ s, v = .nan s := by cases v <;> simp [FV.isNan]

theorem Fmt.emax_lt (f : Fmt) : f.emax < 2 ^ f.eb := Nat.sub_lt (Nat.two_pow_pos _) Nat.one_pos

/-- R48: a NaN is a pattern whose exponent field is all ones and whose fraction is not 0. -/
theorem Fmt.decode_isNan_iff (f : Fmt) (bits : Nat) :
    (f.decode bits).isNan = true ↔ bits / 2 ^ f.mb % 2 ^ f.eb = f.emax ∧ bits % 2 ^ f.mb ≠ 0 := by
  unfold Fmt.decode
  dsimp only
  split
  · next hex => by_cases hfrac : bits % 2 ^ f.mb = 0 <;> simp [hex, hfrac, FV.isNan]
  · next hex => split <;> simp [hex, FV.isNan]

/-- The sign bit stands above the exponent and the fraction, so it is no part of either field. -/
theorem Fmt.signBit_eq (f : Fmt) (neg : Bool) : f.signBit neg = 2 ^ f.mb * (2 ^ f.eb * b2n neg) := by
  cases neg <;> simp [Fmt.signBit, b2n, Nat.pow_add, Nat.mul_comm]

@[simp] theorem Fmt.decode_signBit_add_isNan (f : Fmt) (neg : Bool) (b : Nat) :
    (f.decode (f.signBit neg + b)).isNan = (f.decode b).isNan := by
  rw [Bool.eq_iff_iff, f.decode_isNan_iff, f.decode_isNan_iff, f.signBit_eq, Nat.mul_add_mod,
    Nat.mul_add_div (Nat.two_pow_pos _), Nat.mul_add_mod]

/-- Up to infinity, whose fraction is 0, no pattern is a NaN: the exponent field is all ones in infinity alone. -/
theorem Fmt.decode_isNan_of_le_infBits (f : Fmt) {b : Nat} (h : b ≤ f.infBits) : (f.decode b).isNan = false := by
  rw [Bool.eq_false_iff, Ne, f.decode_isNan_iff]
  rintro ⟨hex, hfrac⟩
  have hle : b / 2 ^ f.mb ≤ f.emax := Nat.div_le_of_le_mul (by rwa [Nat.mul_comm])
  rw [Nat.mod_eq_of_lt (Nat.lt_of_le_of_lt hle f.emax_lt)] at hex
  have hb : f.infBits + b % 2 ^ f.mb = b := by
    rw [Fmt.infBits, ← hex, Nat.div_add_mod']
  omega

/-- R151: the value of a pattern does not depend on bits above the format's width. -/
@[simp] theorem Fmt.decode_mod_width (f : Fmt) (bits : Nat) : f.decode (bits % 2 ^ f.width) = f.decode bits := by
  have hw : f.width = f.mb + (f.eb + 1) := by unfold Fmt.width; omega
  have hfrac : bits % 2 ^ f.width % 2 ^ f.mb = bits % 2 ^ f.mb :=
    Nat.mod_mod_of_dvd _ (Nat.pow_dvd_pow 2 (by omega))
  have hex : bits % 2 ^ f.width / 2 ^ f.mb % 2 ^ f.eb = bits / 2 ^ f.mb % 2 ^ f.eb := by
    rw [hw, Nat.pow_add, Nat.mod_mul_right_div_self, Nat.mod_mod_of_dvd _ (Nat.pow_dvd_pow 2 (by omega))]
  have hneg : bitOf (bits % 2 ^ f.width) (f.eb + f.mb) = bitOf bits (f.eb + f.mb) := by
    have hs : f.width = f.eb + f.mb + 1 := by unfold Fmt.width; omega
    rw [bitOf, bitOf, hs, Nat.pow_succ, Nat.mod_mul_right_div_self, Nat.mod_mod]
  simp only [Fmt.decode, hfrac, hex, hneg]

/-! ### Rounding -/

/-- R58: an overflow gives infinity or the largest finite value, with its sign. -/
theorem Fmt.overflow_eq_signBit_add (f : Fmt) (mode : Mode) (neg : Bool) :
    ∃ b ≤ f.infBits, f.overflow mode neg = f.signBit neg + b := by
  refine ⟨_, ?_, rfl⟩
  have hmax : f.maxBits ≤ f.infBits := Nat.sub_le _ _
  cases mode <;> cases neg <;> simp [hmax]

/-- What is no NaN rounds to a sign and a magnitude up to infinity. -/
theorem Fmt.round_eq_signBit_add (f : Fmt) (mode : Mode) {v : FV} (hv : v.isNan = false) :
    ∃ b ≤ f.infBits, (f.round mode v).1 = f.signBit v.neg + b := by
  cases v with
  | nan s => simp [FV.isNan] at hv
  | inf neg => exact ⟨_, Nat.le_refl _, rfl⟩
  | fin neg m e =>
    unfold Fmt.round
    dsimp only
    split
    · exact ⟨0, Nat.zero_le _, rfl⟩
    · generalize (if e + (Nat.log2 m : Int) < _ then (_ : Int) else _) - (f.mb : Int) = q
      split
      · exact f.overflow_eq_signBit_add mode neg
      · next hbits => exact ⟨_, Nat.le_of_not_le hbits, rfl⟩

/-! ### Results that are NaNs -/

/-- R60: a bit pattern of the format that is the canonical NaN, if it is a NaN at all. -/
def Fmt.NanCanonical (f : Fmt) (r : Nat) : Prop := (f.decode r).isNan = true → r = f.nanBits

theorem Fmt.nanCanonical_nanBits (f : Fmt) : f.NanCanonical f.nanBits := fun _ => rfl

theorem Fmt.nanCanonical_of_not_isNan (f : Fmt) {r : Nat} (hr : (f.decode r).isNan = false) : f.NanCanonical r :=
  fun hnan => absurd (hr.symm.trans hnan) Bool.false_ne_true

theorem Fmt.nanCanonical_round (f : Fmt) (mode : Mode) (v : FV) : f.NanCanonical (f.round mode v).1 := by
  cases hv : v.isNan with
  | true =>
    obtain ⟨s, rfl⟩ := FV.isNan_iff.1 hv
    exact f.nanCanonical_nanBits
  | false =>
    obtain ⟨b, hb, hr⟩ := f.round_eq_signBit_add mode hv
    rw [hr]
    exact f.nanCanonical_of_not_isNan ((f.decode_signBit_add_isNan _ b).trans (f.decode_isNan_of_le_infBits hb))

/-- R153: FMIN and FMAX give the canonical NaN, or an operand that is no NaN. -/
theorem Fmt.minmax_cases (f : Fmt) (mx : Bool) (a b : Nat) :
    (f.minmax mx a b).1 = f.nanBits ∨
      ∃ x ∈ [a, b], (f.decode x).isNan = false ∧ (f.minmax mx a b).1 = x % 2 ^ f.width := by
  unfold Fmt.minmax
  dsimp only
  split
  · exact .inl rfl
  · next hb => exact .inr ⟨b, by simp, hb, rfl⟩
  · next ha _ => exact .inr ⟨a, by simp, ha, rfl⟩
  · next ha hb =>
    split
    · exact .inr ⟨b, by simp, hb, rfl⟩
    · exact .inr ⟨a, by simp, ha, rfl⟩

theorem Fmt.nanCanonical_minmax (f : Fmt) (mx : Bool) (a b : Nat) : f.NanCanonical (f.minmax mx a b).1 := by
  obtain hr | ⟨x, _, hx, hr⟩ := f.minmax_cases mx a b <;> rw [hr]
  · exact f.nanCanonical_nanBits
  · exact f.nanCanonical_of_not_isNan (by rw [f.decode_mod_width, hx])

end Sys2Proof.Machine

namespace Sys2Proof.Proofs

open Machine

/-- Settles O5: all but FMIN and FMAX end in a rounding, which makes only the canonical NaN. -/
theorem canonicalNaN : Obligations.CanonicalNaN := by
  unfold Obligations.CanonicalNaN
  refine ⟨by decide, by decide, by decide, by decide, ?_⟩
  intro f _ mode a b d
  have rounded := f.nanCanonical_round mode
  refine ⟨rounded, fun g _ => rounded (g.decode a), ?_⟩
  simp only [List.forall_mem_cons]
  exact ⟨rounded _, rounded _, rounded _, rounded _, rounded _, rounded _,
    f.nanCanonical_minmax false a b, f.nanCanonical_minmax true a b, List.forall_mem_nil _⟩

end Sys2Proof.Proofs
end

section
/-! SUPPORT. The registers that the destination fields of a legal pair name (R94). Only a word B names predicate registers, so `p0`,
which the check 0x0106 passes over as it does `g0`, never stands in both words. -/

namespace Sys2Proof

/-! ### Where the decoded word stands -/

/-- What a decoder answers, where it is an instruction, is one of this place in a pair. -/
def InSlot (k : Slot) (e : Except Nat Instr) : Prop := ∀ i, e = .ok i → i.slot = k

theorem inSlot_error (k : Slot) (c : Nat) : InSlot k (.error c) := nofun

/-- A row of the encoding tables: whatever its checks say, it gives no instruction but its own. -/
theorem inSlot_chk {k : Slot} {c102 c103 c104 c105 : Bool} {i : Instr} (h : i.slot = k) :
    InSlot k (chk c102 c103 c104 c105 i) := by
  intro j hj
  unfold chk at hj
  repeat' split at hj
  all_goals cases hj
  exact h

/-- R92, R109: word A decodes to an instruction of word A, in every row of its tables. -/
theorem decodeA_slot {wa wb : Word} {a : Instr} (h : decodeA wa wb = .ok a) : a.slot = .wordA := by
  suffices InSlot .wordA (decodeA wa wb) from this a h
  unfold decodeA decControl decBranch decJoin decLanes decOp15 decOp16 decOp17 decAtomic decGather decTinv decStream decCopy
    decSend decChan decEnc decImage decCtx decGauss decBarr decTrap
  extract_lets lit
  repeat' split
  any_goals exact inSlot_chk rfl
  all_goals exact inSlot_error _ _

/-! ### Destinations -/

/-- A predicate register. -/
def Dest.isPred : Dest → Bool
  | .p _ => true
  | _ => false

theorem Dest.counts_iff {d : Dest} (hd : d.isPred = false) : d.counts = true ↔ d ≠ .g 0 := by
  cases d with
  | g r => simp [Dest.counts]
  | v r => simp [Dest.counts]
  | p r => cases hd

/-- R109: no destination field of a word A names a predicate register. -/
theorem dests_isPred_of_wordA {i : Instr} (h : i.slot = .wordA) : i.dests.any Dest.isPred = false := by
  cases i
  any_goals rfl
  all_goals nomatch h

/-- R94: the check 0x0106, for a word A, asks for a common destination other than `g0`. -/
theorem dests_clash_iff {a : Instr} (b : Instr) (ha : a.slot = .wordA) :
    (a.dests.any fun d => d.counts && b.dests.contains d) = true ↔ ∃ d ∈ a.dests, d ∈ b.dests ∧ d ≠ .g 0 := by
  have hpred := dests_isPred_of_wordA ha
  simp only [List.any_eq_false, Bool.not_eq_true] at hpred
  simp only [List.any_eq_true, Bool.and_eq_true, List.contains_iff_mem]
  exact exists_congr fun d => and_congr_right fun hd => by rw [Dest.counts_iff (hpred d hd), and_comm]

/-- Two legal words without a literal: the check 0x0106 alone is left (R111). -/
theorem decodePair_of_legal {wa wb : Word} {a b : Instr} (hL : wa.getLsbD 31 = false) (ha : decodeA wa wb = .ok a)
    (hb : decodeB wb = .ok b) :
    decodePair wa wb =
      if a.dests.any (fun d => d.counts && b.dests.contains d) then .error (.illegal 0x0106 3) else .ok ⟨a, some b⟩ := by
  have hlit : ¬ (wa.extractLsb' 31 1 == 1) = true := by
    intro h
    have hbit : (wa.extractLsb' 31 1).getLsbD 0 = true := by rw [beq_iff_eq.1 h]; rfl
    rw [BitVec.getLsbD_extractLsb', hL] at hbit
    cases hbit
  rw [decodePair, if_neg hlit, ha, hb]

end Sys2Proof

namespace Sys2Proof.Proofs

/-- Settles O54: past the checks of each word, the pair is illegal exactly where a destination other than `g0` is common. -/
theorem pairDestinations : Obligations.PairDestinations := by
  unfold Obligations.PairDestinations
  intro wa wb a b hL ha hb
  have hclash := dests_clash_iff b (decodeA_slot ha)
  rw [decodePair_of_legal hL ha hb]
  constructor
  · intro hcommon
    exact if_pos (hclash.2 hcommon)
  · intro hnone
    refine if_neg fun h => ?_
    obtain ⟨d, hda, hdb, hd⟩ := hclash.1 h
    exact hd (hnone d hda hdb)

end Sys2Proof.Proofs
end

section
/-! SUPPORT. Words that wait for every pending result of their firing (R105). -/

namespace Sys2Proof.Claims

open Machine

/-- R105: a word whose outcome, in this state, is one that waits for every pending result is held while there is one. -/
theorem holds_of_drained {i : Instr} {s : State} {word la : Nat} {r : Res} (hp : s.me.pend ≠ [])
    (hi : exec i s = deliver word la i s (s.drained r)) : holds i s := by
  rw [holds, hi, s.drained_pending r hp]
  rfl

end Sys2Proof.Claims

namespace Sys2Proof.Proofs

open Machine Claims

/-- Settles O18: each word ends as one that waits; JOIN, ARMW and SAFE do so once what turns them away before is shut out. -/
theorem resultsAwaited : Obligations.ResultsAwaited := by
  unfold Obligations.ResultsAwaited
  intro s l a b c d n w hp
  refine ⟨holds_of_drained hp rfl, holds_of_drained hp rfl, ?join, ?armw, holds_of_drained hp rfl, holds_of_drained hp rfl, ?safe,
    holds_of_drained hp rfl, holds_of_drained hp rfl, holds_of_drained hp rfl⟩
  case join =>
    intro hspec
    exact holds_of_drained hp (congrArg (deliver 1 0 _ s) (s.unlessSpec_plain _ hspec))
  case armw =>
    intro hzero hkind
    have hlegal : ¬ (bitsOf (s.me.g a).toNat 37 32 < 5 ∨ bitsOf (s.me.g a).toNat 47 38 ≠ 0) := by
      rw [not_or]
      exact ⟨Nat.not_lt.2 hkind, not_not_intro hzero⟩
    exact holds_of_drained hp (congrArg (deliver 1 0 _ s) (if_neg (by simpa only [Bool.or_eq_true, decide_eq_true_eq] using hlegal)))
  case safe =>
    intro hmask
    have hhigh : w.toNat / 2 ^ 24 = 0 := Nat.div_eq_of_lt hmask
    exact holds_of_drained hp (congrArg (deliver 1 0 _ s) (if_neg (not_not_intro hhigh)))

end Sys2Proof.Proofs
end

section
/-! SUPPORT. The system registers that hold a core's own place (R160). -/

namespace Sys2Proof.Proofs

open Machine

/-- Settles O15: the two fields of COREID are remainders below 2¹³, 16 bits apart. -/
theorem coreIdentity : Obligations.CoreIdentity := by
  unfold Obligations.CoreIdentity
  intro s c hd hc
  have hread : s.sysRead c 0x007 = s.coreId c := rfl
  have hfields : (s.coreId c).toNat = s.device * 2 ^ 16 + c := by
    rw [State.coreId, dw, BitVec.toNat_ofNat]
    omega
  dsimp only
  rw [hread, hfields]
  omega

end Sys2Proof.Proofs
end

section
/-! SUPPORT. Multiply and divide (R148, R149): the functions as operations on the low bits of the sources, and how the words
end. -/

namespace Sys2Proof.Machine

/-! ### The functions of R148 as bit-vector operations at the width -/

/-- R101: the width that W names. -/
theorem wBits_eq_width (w : BitVec 2) : wBits w = Claims.width w := by
  revert w
  decide

theorem wBits_pos (w : BitVec 2) : 0 < wBits w := by
  revert w
  decide

theorem uval_eq_toNat (n : Nat) (x : Dword) : uval n x = (x.setWidth n).toNat := (BitVec.toNat_setWidth n x).symm

theorem sval_eq_toInt (n : Nat) (x : Dword) : sval n x = (x.setWidth n).toInt := by rw [sval, BitVec.ofNat_toNat]

/-- R143: a result is the low bits of a number, sign-extended. -/
theorem sres_eq_signExtend (n : Nat) (x : Int) : sres n x = (BitVec.ofInt n x).signExtend 64 := rfl

theorem mulW_eq (n : Nat) (a b : Dword) : mulW n a b = (a.setWidth n * b.setWidth n).signExtend 64 := by
  rw [mulW, sres_eq_signExtend, sval_eq_toInt, sval_eq_toInt, BitVec.ofInt_mul, BitVec.ofInt_toInt, BitVec.ofInt_toInt]

theorem mulhW_eq (n : Nat) (a b : Dword) :
    mulhW n a b = (BitVec.ofInt n ((a.setWidth n).toInt * (b.setWidth n).toInt / 2 ^ n)).signExtend 64 := by
  rw [mulhW, sres_eq_signExtend, sval_eq_toInt, sval_eq_toInt]

theorem mulhuW_eq (n : Nat) (a b : Dword) :
    mulhuW n a b = (BitVec.ofNat n ((a.setWidth n).toNat * (b.setWidth n).toNat / 2 ^ n)).signExtend 64 := by
  rw [mulhuW, sres_eq_signExtend, uval_eq_toNat, uval_eq_toNat, BitVec.ofInt_natCast]

theorem divW_eq (n : Nat) (a b : Dword) : divW n a b = ((a.setWidth n).sdiv (b.setWidth n)).signExtend 64 := by
  have hquot : BitVec.ofInt n ((a.setWidth n).toInt.tdiv (b.setWidth n).toInt) = (a.setWidth n).sdiv (b.setWidth n) :=
    BitVec.eq_of_toInt_eq (by rw [BitVec.toInt_ofInt, BitVec.toInt_sdiv])
  rw [divW, sres_eq_signExtend, sval_eq_toInt, sval_eq_toInt, hquot]

theorem divuW_eq (n : Nat) (a b : Dword) : divuW n a b = (a.setWidth n / b.setWidth n).signExtend 64 := by
  rw [divuW, sres_eq_signExtend, uval_eq_toNat, uval_eq_toNat, BitVec.ofInt_natCast, BitVec.udiv_def]

theorem remW_eq (n : Nat) (a b : Dword) : remW n a b = ((a.setWidth n).srem (b.setWidth n)).signExtend 64 := by
  rw [remW, sres_eq_signExtend, sval_eq_toInt, sval_eq_toInt, ← BitVec.toInt_srem, BitVec.ofInt_toInt]

theorem remuW_eq (n : Nat) (a b : Dword) : remuW n a b = (a.setWidth n % b.setWidth n).signExtend 64 := by
  rw [remuW, sres_eq_signExtend, uval_eq_toNat, uval_eq_toNat, BitVec.ofInt_natCast, BitVec.umod_def]

/-! ### The one quotient that does not fit (R61) -/

theorem eq_intMin_of_toInt {n : Nat} (hn : 0 < n) {x : BitVec n} (hx : x.toInt = -2 ^ (n - 1)) : x = BitVec.intMin n :=
  BitVec.eq_of_toInt_eq (by rw [hx, BitVec.toInt_intMin_of_pos hn])

theorem eq_neg_one_of_toInt {n : Nat} {y : BitVec n} (hy : y.toInt = -1) : y = -1#n := by
  rw [← BitVec.ofInt_toInt (x := y), hy, BitVec.ofInt_neg]
  exact congrArg Neg.neg (BitVec.ofInt_natCast n 1)

theorem sdiv_neg_one_of_toInt {n : Nat} (hn : 0 < n) {x y : BitVec n} (hx : x.toInt = -2 ^ (n - 1)) (hy : y.toInt = -1) :
    x.sdiv y = x := by
  rw [eq_intMin_of_toInt hn hx, eq_neg_one_of_toInt hy, BitVec.intMin_sdiv_neg_one]

theorem srem_neg_one_of_toInt {n : Nat} (x : BitVec n) {y : BitVec n} (hy : y.toInt = -1) : x.srem y = 0 :=
  BitVec.eq_of_toInt_eq (by rw [BitVec.toInt_srem, hy, Int.tmod_neg, Int.tmod_one]; exact BitVec.toInt_zero.symm)

/-! ### How the words end -/

/-- A result of more than one cycle pends, in a replay as outside one (R103, R157). -/
theorem longAlu_eq_later (i : Instr) (c : BitVec 4) {lat : Nat} (hlat : 1 < lat) (d : Reg) (s : State) (v : Dword) :
    longAlu i c lat d s v = .next (Claims.later 2 c.toNat lat i [.g d v] 0 false s) := by
  have hpends : ¬ ((decide (lat ≤ 1) && s.me.replay.isNone) = true) := by simp [Nat.not_le.2 hlat]
  rw [longAlu, State.result, if_neg hpends, deliver_core]
  rfl

/-- R157: a division takes at least six cycles. -/
theorem six_le_divLat (w : BitVec 2) : 6 ≤ divLat w := by
  revert w
  decide

theorem divide_of_ne_zero (i : Instr) (c : BitVec 4) {w : BitVec 2} (d : Reg) (s : State) (a : Dword) {b : Dword} (v : Dword)
    (hb : uval (wBits w) b ≠ 0) :
    divide i c w d s a b v = .next (Claims.later 2 c.toNat (divLat w) i [.g d v] 0 false s) := by
  rw [divide, if_neg hb, longAlu_eq_later i c (Nat.lt_of_lt_of_le (by decide) (six_le_divLat w))]

theorem divide_of_zero (i : Instr) (c : BitVec 4) {w : BitVec 2} (d : Reg) (s : State) (a : Dword) {b : Dword} (v : Dword)
    (hb : uval (wBits w) b = 0) :
    divide i c w d s a b v = s.trapWord 2 c.toNat i .atIssue 0x030A (dw (uval (wBits w) a)) := by
  rw [divide, if_pos hb, deliver_trap]

end Sys2Proof.Machine

namespace Sys2Proof.Proofs

open Machine

/-- R148: each product is pending for three cycles, and the seven words stand in the layout of R145. -/
theorem products : Claims.Products := by
  intro s d a b c w
  dsimp only
  have pends (i : Instr) (v : Dword) : longAlu i c 3 d s v = .next (Claims.later 2 c.toNat 3 i [.g d v] 0 false s) :=
    longAlu_eq_later i c (by decide) d s v
  rw [← wBits_eq_width, ← mulW_eq, ← mulhW_eq, ← mulhuW_eq]
  refine ⟨pends _ _, pends _ _, pends _ _, ?layout⟩
  case layout =>
    simp only [List.forall_mem_cons]
    exact ⟨rfl, rfl, rfl, rfl, rfl, rfl, rfl, List.forall_mem_nil _⟩

/-- R148: each quotient and remainder is pending for the latency of R157; at the overflow, its value is that of R61. -/
theorem quotients : Claims.Quotients := by
  intro s d a b c w
  dsimp only
  rw [← wBits_eq_width]
  intro hy
  have hb : uval (wBits w) (s.me.g b) ≠ 0 := by
    rw [uval_eq_toNat]
    exact fun h => hy (BitVec.eq_of_toNat_eq h)
  have pends (i : Instr) (v : Dword) (hi : exec i s = divide i c w d s (s.me.g a) (s.me.g b) v) :
      ∃ lat ≥ 6, exec i s = .next (Claims.later 2 c.toNat lat i [.g d v] 0 false s) :=
    ⟨divLat w, six_le_divLat w, hi.trans (divide_of_ne_zero i c d s _ v hb)⟩
  have hdiv := pends (.div d a b c w) _ rfl
  have hrem := pends (.rem d a b c w) _ rfl
  rw [divW_eq] at hdiv
  rw [remW_eq] at hrem
  rw [← divuW_eq, ← remuW_eq]
  refine ⟨hdiv, pends _ _ rfl, hrem, pends _ _ rfl, fun hmin hneg => ⟨?_, ?_⟩⟩
  · rw [sdiv_neg_one_of_toInt (wBits_pos w) hmin hneg] at hdiv
    exact hdiv
  · rw [srem_neg_one_of_toInt _ hneg] at hrem
    exact hrem

/-- Settles O2: the functions of the model are the bit-vector operations at the width that W names. -/
theorem multiplyDivide : Obligations.MultiplyDivide := ⟨products, quotients⟩

end Sys2Proof.Proofs
end

section
/-! SUPPORT. How the last word of each core ended (`Core.out`), which the end of a firing, of a region or of a fault domain leaves
as it is: only a word given to `exec` sets it. -/

namespace Sys2Proof.Machine

/-- A part of each value that a map over a table keeps reads as before. -/
theorem tabGet_map {α β : Type} (p : α → β) {g : Nat × α → Nat × α} (hkey : ∀ x, (g x).1 = x.1) (hp : ∀ x, p (g x).2 = p x.2)
    (d : α) (t : Tab α) (k : Nat) : p (tabGet d (t.map g) k) = p (tabGet d t k) := by
  have hcons (x : Nat × α) (l : Tab α) : tabGet d (x :: l) k = if x.1 = k then x.2 else if k < x.1 then d else tabGet d l k := rfl
  induction t with
  | nil => rfl
  | cons x t ih =>
    rw [List.map_cons, hcons, hcons, hkey]
    split
    · exact hp x
    · split
      · rfl
      · exact ih

/-- How the last word of each core ended. -/
def State.outs (s : State) (c : Nat) : Out := (s.core c).out

theorem State.outs_of_cores {s t : State} (h : t.cores = s.cores) : t.outs = s.outs := by
  funext c
  rw [State.outs, State.core, h]
  rfl

@[simp] theorem State.foldl_outs {α : Type} {f : State → α → State} (h : ∀ s x, (f s x).outs = s.outs) (l : List α) (s : State) :
    (l.foldl f s).outs = s.outs :=
  foldl_rel (α := State) (fun a b => b.outs = a.outs) (fun _ => rfl) (fun _ _ _ hab hbc => hbc.trans hab) f h l s

/-! ### The parts of the state -/

theorem State.setCore_outs (s : State) (c : Nat) {x : Core} (h : x.out = (s.core c).out) : (s.setCore c x).outs = s.outs := by
  funext d
  by_cases hd : d = c
  · subst hd
    rw [State.outs, s.core_setCore, h]
    rfl
  · rw [State.outs, s.core_setCore_other c d x hd]
    rfl

@[simp] theorem State.modCore_outs (s : State) (c : Nat) {f : Core → Core} (h : ∀ k, (f k).out = k.out) :
    (s.modCore c f).outs = s.outs := s.setCore_outs c (h _)

@[simp] theorem State.modCell_outs (s : State) (n : Nat) (f : Cell → Cell) : (s.modCell n f).outs = s.outs := rfl
@[simp] theorem State.modFn_outs (s : State) (n : Nat) (f : Fn → Fn) : (s.modFn n f).outs = s.outs := rfl
@[simp] theorem State.modRegion_outs (s : State) (n : Nat) (f : Region → Region) : (s.modRegion n f).outs = s.outs :=
  State.outs_of_cores (s.modRegion_cores n f)
@[simp] theorem State.bump_outs (s : State) (k u i n : Nat) : (s.bump k u i n).outs = s.outs :=
  State.outs_of_cores (s.bump_cores k u i n)
@[simp] theorem State.putBytes_outs (s : State) (key : Nat) (l : List Byte) : (s.putBytes key l).outs = s.outs := by
  obtain ⟨m, b, f, c, d, p, x, h, -⟩ := s.putBytes_eq key l
  rw [h]
  rfl
@[simp] theorem State.noteReads_outs (s : State) (l : List Nat) : (s.noteReads l).outs = s.outs := by
  obtain ⟨f, c, h⟩ := s.noteReads_eq l
  rw [h]
  rfl

/-! ### Messages and reports -/

@[simp] theorem State.uncharge_outs (s : State) (r : Nat) (b : Budget) (n : Nat) : (s.uncharge r b n).outs = s.outs := by
  simp [State.uncharge]

@[simp] theorem State.answer_outs (s : State) (m : Msg) (code : Nat) : (s.answer m code).outs = s.outs := by
  unfold State.answer
  split <;> simp

@[simp] theorem State.settle_outs (s : State) (m : Msg) : (s.settle m).outs = s.outs := by
  unfold State.settle
  split <;> simp

@[simp] theorem State.dropMsg_outs (s : State) (m : Msg) : (s.dropMsg m).outs = s.outs := by
  unfold State.dropMsg
  cases m.src <;> cases m.ctx <;> simp

@[simp] theorem State.post_outs (s : State) (m : Msg) : (s.post m).outs = s.outs := by
  unfold State.post
  extract_lets t u
  have ht : t.outs = s.outs := by
    simp only [t]
    split <;> simp
  have hu : u.outs = s.outs := by
    simp only [u]
    split <;> simp [ht]
  split
  · rw [dropMsg_outs, hu]
  · exact hu

@[simp] theorem State.reportMsg_outs (s : State) (core cls region cause word : Nat) (pc pair detail : Dword) :
    (s.reportMsg core cls region cause word pc pair detail).outs = s.outs := by
  unfold State.reportMsg State.toSupervisor
  dsimp only
  split <;> simp

@[simp] theorem State.sendReport_outs (s : State) (core region cause word : Nat) (pc pair detail : Dword) :
    (s.sendReport core region cause word pc pair detail).outs = s.outs := s.reportMsg_outs ..

@[simp] theorem State.reportUe_outs (s : State) (core : Nat) (bad : Option Nat) : (s.reportUe core bad).outs = s.outs := by
  unfold State.reportUe
  split
  · rfl
  · split <;> simp

@[simp] theorem State.readDone_outs (s : State) (core : Nat) (ds : List Nat) : (s.readDone core ds).outs = s.outs := by
  simp [State.readDone]

@[simp] theorem State.hmq_outs (s : State) (fn tag region fd kind : Nat) (detail : List Nat) :
    (s.hmq fn tag region fd kind detail).outs = s.outs := by
  unfold State.hmq
  dsimp only
  split <;> simp

/-! ### Writes -/

@[simp] theorem State.notice_outs (s : State) (w : Watch) : (s.notice w).outs = s.outs := by simp [State.notice]

@[simp] theorem State.fireWatches_outs (s : State) (key n : Nat) : (s.fireWatches key n).outs = s.outs := by
  unfold State.fireWatches
  dsimp only
  split
  · rfl
  · split <;> simp

@[simp] theorem State.rereadAt_outs (s : State) (key n : Nat) : (s.rereadAt key n).outs = s.outs := by
  unfold State.rereadAt
  dsimp only
  split
  · funext c
    refine tabGet_map Core.out ?_ ?_ Core.reset s.cores c <;> exact fun _ => rfl
  · rfl

@[simp] theorem State.writeHome_outs (s : State) (key : Nat) (l : List Byte) : (s.writeHome key l).outs = s.outs := by
  simp [State.writeHome]

@[simp] theorem State.crossing_outs (s : State) (key : Nat) : (s.crossing key).2.outs = s.outs := by
  unfold State.crossing
  dsimp only
  split
  · rfl
  · split
    · rw [State.bump_outs, State.bump_outs]
      rfl
    · rw [State.bump_outs]
      rfl

@[simp] theorem State.writeFar_outs (s : State) (fuel key : Nat) (l : List Byte) : (s.writeFar fuel key l).outs = s.outs := by
  induction fuel generalizing s key l with
  | zero => rfl
  | succ fuel ih =>
    unfold State.writeFar
    split
    · rfl
    · have hcross := s.crossing_outs key
      simp only [ih]
      split <;> simp [hcross]

@[simp] theorem State.engineWrite_outs (s : State) (key : Nat) (l : List Byte) : (s.engineWrite key l).outs = s.outs := by
  unfold State.engineWrite
  split <;> simp

@[simp] theorem State.writePieces_outs (s : State) (l : List (Nat × Nat)) (bytes : List Byte) :
    (s.writePieces l bytes).outs = s.outs := by
  induction l generalizing s bytes with
  | nil => rfl
  | cons x l ih => simp [State.writePieces, ih]

@[simp] theorem State.writeParts_outs (s : State) (l : List (Nat × List Byte)) : (s.writeParts l).outs = s.outs := by
  simp [State.writeParts]

@[simp] theorem State.perform_outs (s : State) (w : Write) : (s.perform w).outs = s.outs := s.writeParts_outs _

/-! ### Operations on codelet counters, and what an access finds done -/

@[simp] theorem State.depRead_outs (s : State) (o : DepOp) (d : Nat) : (s.depRead o d).outs = s.outs := by
  unfold State.depRead
  split <;> simp

@[simp] theorem State.push_outs (s : State) (o : DepOp) : (s.push o).outs = s.outs := by simp [State.push]

@[simp] theorem State.depPerform_outs (s : State) (o : DepOp) : (s.depPerform o).outs = s.outs := by
  unfold State.depPerform
  dsimp only
  split <;> split <;> simp

@[simp] theorem State.depArrive_outs (s : State) (o : DepOp) : (s.depArrive o).outs = s.outs := by
  unfold State.depArrive
  split <;> simp

@[simp] theorem State.performAll_outs (s : State) (core : Nat) (ws : List Write) : (s.performAll core ws).outs = s.outs :=
  (State.foldl_outs State.perform_outs ws _).trans (State.foldl_outs State.depArrive_outs _ _)

@[simp] theorem State.flushOwn_outs (s : State) (core key n : Nat) : (s.flushOwn core key n).outs = s.outs := by
  unfold State.flushOwn
  dsimp only
  split
  · rfl
  · exact State.performAll_outs ..

@[simp] theorem State.engineFlush_outs (s : State) (core key n : Nat) : (s.engineFlush core key n).outs = s.outs :=
  State.foldl_outs State.depArrive_outs _ _

@[simp] theorem State.flushAt_outs (s : State) (core key n : Nat) : (s.flushAt core key n).outs = s.outs := by
  simp [State.flushAt, State.flushSeen]

@[simp] theorem State.flushPieces_outs (s : State) (core : Nat) (l : List (Nat × Nat)) : (s.flushPieces core l).outs = s.outs := by
  simp [State.flushPieces]

/-! ### Spill areas -/

@[simp] theorem State.spillPut_outs (s : State) (r : Region) (off v : Nat) : (s.spillPut r off v).outs = s.outs := by
  unfold State.spillPut
  split <;> simp

theorem State.takeRecord_outs {s t : State} {r : Region} {off : Nat} (h : s.takeRecord r = some (t, off)) : t.outs = s.outs := by
  unfold State.takeRecord at h
  dsimp only at h
  split at h
  · cases h
  · cases h
    simp

@[simp] theorem State.releaseRecord_outs (s : State) (r : Region) (off : Nat) : (s.releaseRecord r off).outs = s.outs := by
  simp [State.releaseRecord]

@[simp] theorem State.writeRecord_outs (s : State) (r : Region) (off kind core next : Nat) (hdr : Dword) (pay : List Dword) :
    (s.writeRecord r off kind core next hdr pay).outs = s.outs := by
  simp [State.writeRecord]

@[simp] theorem State.spillReport_outs (s : State) (core : Nat) (r : Region) (before : State) (offs : List Nat) :
    (s.spillReport core r before offs).outs = s.outs := by
  simp [State.spillReport]

theorem State.spillArm_outs {s t : State} {core : Nat} (h : s.spillArm core = some t) : t.outs = s.outs := by
  unfold State.spillArm at h
  dsimp only at h
  split at h
  · split at h
    · cases h
    · next hrec =>
      cases h
      simp [State.takeRecord_outs hrec]
  · cases h

@[simp] theorem State.fitDeque_outs (s : State) (core : Nat) : (s.fitDeque core).outs = s.outs := by
  unfold State.fitDeque
  dsimp only
  split
  · rfl
  · cases harm : s.spillArm core with
    | none => rfl
    | some t => exact State.spillArm_outs harm

/-! ### The end of a firing -/

@[simp] theorem State.unbind_outs (s : State) (core i : Nat) : (s.unbind core i).outs = s.outs := by
  unfold State.unbind
  split
  · rfl
  · rw [State.modCore_outs]
    · split <;> rfl
    · exact fun _ => rfl

@[simp] theorem State.abandonCopy_outs (s : State) (core : Nat) (q : CopyReq) : (s.abandonCopy core q).outs = s.outs := by
  unfold State.abandonCopy
  dsimp only
  split
  · rfl
  · rw [State.writePieces_outs, State.flushPieces_outs, State.readDone_outs]
    rfl

@[simp] theorem State.dropCopies_outs (s : State) (core : Nat) (banks : List Nat) : (s.dropCopies core banks).outs = s.outs := by
  unfold State.dropCopies
  split
  · rfl
  · dsimp only
    split <;> simp

@[simp] theorem State.cancelBanks_outs (s : State) (core : Nat) (banks : List Nat) : (s.cancelBanks core banks).outs = s.outs := by
  unfold State.cancelBanks
  dsimp only
  rw [State.modCore_outs, State.dropCopies_outs, State.foldl_outs]
  · intro t i
    split
    · split <;> simp
    · rfl
  · exact fun _ => rfl

@[simp] theorem State.closeSpec_outs (s : State) (core : Nat) (commit : Bool) : (s.closeSpec core commit).outs = s.outs := by
  unfold State.closeSpec
  dsimp only
  split <;> simp

@[simp] theorem State.endSpec_outs (s : State) (core : Nat) : (s.endSpec core).outs = s.outs := s.closeSpec_outs core false

@[simp] theorem State.withdraw_outs (s : State) (core : Nat) : (s.withdraw core).outs = s.outs := rfl

@[simp] theorem State.retireTiles_outs (s : State) (core : Nat) (held : List (Nat × Nat)) :
    (s.retireTiles core held).outs = s.outs := rfl

@[simp] theorem Core.arrive_out (k : Core) (ch now : Nat) : (k.arrive ch now).out = k.out := by
  unfold Core.arrive
  dsimp only
  split
  · rfl
  · split <;> rfl

@[simp] theorem Core.putBack_out (k : Core) (now : Nat) : (k.putBack now).out = k.out := by
  have hfold {α : Type} {f : Core → α → Core} (h : ∀ k x, (f k x).out = k.out) (l : List α) (k : Core) :
      (l.foldl f k).out = k.out :=
    foldl_rel (α := Core) (fun a b => b.out = a.out) (fun _ => rfl) (fun _ _ _ hab hbc => hbc.trans hab) f h l k
  unfold Core.putBack
  dsimp only
  split <;> simp [hfold]

@[simp] theorem Core.releaseRecs_out (k : Core) (offs : List Nat) : (k.releaseRecs offs).out = k.out := by
  unfold Core.releaseRecs Core.advanceHead
  dsimp only
  split <;> rfl

@[simp] theorem State.endFiring_outs (s : State) (core : Nat) (how : Ending) : (s.endFiring core how).outs = s.outs := by
  unfold State.endFiring
  extract_lets f a b c d e g h
  have he : e.outs = s.outs := by simp [e, d, c, b, a]
  have hg : g.outs = e.outs := by
    simp only [g]
    split <;> simp
  have hh : h.outs = g.outs := by
    simp only [h]
    split <;> simp
  rw [State.fitDeque_outs, State.modCore_outs, hh, hg, he]
  intro k
  extract_lets k'
  show k'.out = k.out
  simp only [k']
  split <;> simp

/-! ### The end of a region -/

@[simp] theorem State.writeStatus_outs (s : State) (id : Nat) : (s.writeStatus id).outs = s.outs := by
  unfold State.writeStatus
  split <;> simp

@[simp] theorem State.setState_outs (s : State) (id st : Nat) : (s.setState id st).outs = s.outs := by simp [State.setState]

@[simp] theorem State.dropSpills_outs (s : State) (core : Nat) : (s.dropSpills core).outs = s.outs := by
  unfold State.dropSpills
  split <;> simp

@[simp] theorem State.clearCore_outs (s : State) (core : Nat) : (s.clearCore core).outs = s.outs := by simp [State.clearCore]

@[simp] theorem State.invalidateCells_outs (s : State) (cells : List Nat) : (s.invalidateCells cells).outs = s.outs := by
  unfold State.invalidateCells
  rw [State.foldl_outs]
  exact fun t n => t.modCell_outs n _

@[simp] theorem State.freeCells_outs (s : State) (cells : List Nat) : (s.freeCells cells).outs = s.outs := by
  simp [State.freeCells]

@[simp] theorem State.dropSave_outs (s : State) (id : Nat) (r : Region) : (s.dropSave id r).outs = s.outs := by
  unfold State.dropSave
  dsimp only
  split
  · exact State.foldl_outs (fun t off => t.releaseRecord_outs r off) _ _
  · rfl

@[simp] theorem State.releaseCharge_outs (s : State) (id : Nat) (b : Budget) : (s.releaseCharge id b).outs = s.outs := by
  unfold State.releaseCharge
  split <;> simp

@[simp] theorem State.releaseRegion_outs (s : State) (id : Nat) : (s.releaseRegion id).outs = s.outs := by
  unfold State.releaseRegion
  split
  · rfl
  · extract_lets a b c d e
    have hb : b.outs = s.outs := (State.dropSave_outs ..).trans rfl
    have he : e.outs = s.outs := by simp [e, d, c, hb]
    split
    · exact he
    · exact he

@[simp] theorem State.killRegion_outs (s : State) (id : Nat) : (s.killRegion id).outs = s.outs := by
  unfold State.killRegion
  split
  · rfl
  · split
    · rfl
    · extract_lets stopped
      rw [State.setState_outs, State.releaseRegion_outs]
      refine State.foldl_outs (fun t c => ?_) _ _
      extract_lets u v
      have hu : u.outs = t.outs := by
        simp only [u]
        split <;> simp
      have hv : v.outs = u.outs := by
        simp only [v]
        split
        · split <;> simp
        · rfl
      rw [State.modCore_outs, hv, hu]
      exact fun _ => rfl

@[simp] theorem State.killDomain_outs (s : State) (fd : Nat) : (s.killDomain fd).1.outs = s.outs := by simp [State.killDomain]

@[simp] theorem State.endDomain_outs (s : State) (id : Nat) (r : Region) (core cause : Nat) (val pc : Dword) :
    (s.endDomain id r core cause val pc).outs = s.outs := by
  simp [State.endDomain]

@[simp] theorem State.contextKill_outs (s : State) (core cause word : Nat) (pc pair val : Dword) :
    (s.contextKill core cause word pc pair val).outs = s.outs := by
  unfold State.contextKill
  dsimp only
  split
  · simp
  · split <;> simp

@[simp] theorem State.reportHalt_outs (s : State) (core cause word : Nat) (pc pair detail : Dword) :
    (s.reportHalt core cause word pc pair detail).outs = s.outs := by
  unfold State.reportHalt
  dsimp only
  split
  · rfl
  · split <;> simp

/-! ### Halts and traps -/

@[simp] theorem State.haltNow_outs (s : State) (c cause word : Nat) (detail pair : Dword) :
    (s.haltNow c cause word detail pair).outs = s.outs := by
  rw [State.haltNow, State.reportHalt_outs]
  exact s.setCore_outs c rfl

@[simp] theorem Core.answerBlock_out (k : Core) (q : TrapReq) : (k.answerBlock q).out = k.out := by
  unfold Core.answerBlock
  split <;> rfl

@[simp] theorem State.takeTrap_outs (s : State) (c : Nat) (q : TrapReq) (record : Option Replay) :
    (s.takeTrap c q record).outs = s.outs := by
  unfold State.takeTrap
  extract_lets u k n
  have hu : u.outs = s.outs := by
    simp only [u, State.modCore_outs, Core.answerBlock_out, implies_true]
    split <;> simp
  split
  · rw [State.contextKill_outs, hu]
  · split
    · rw [State.haltNow_outs, State.setCore_outs, hu]
      rfl
    · rw [State.setCore_outs, hu]
      rfl

@[simp] theorem State.takeFirst_outs (s : State) (c : Nat) : (s.takeFirst c).outs = s.outs := by
  unfold State.takeFirst
  dsimp only
  split <;> simp

end Sys2Proof.Machine
end

section
/-! SUPPORT. A trap at issue (R396, R397): what it leaves where the next level is enabled, and what it makes of the pair. -/

namespace Sys2Proof.Machine

/-! ### The bank of the level entered -/

/-- A field replaced leaves the bits below it. -/
theorem setBits_mod (v hi x : Nat) {lo m : Nat} (h : m ≤ lo) : setBits v hi lo x % 2 ^ m = v % 2 ^ m := by
  have hle : bitsOf v hi lo ≤ v / 2 ^ lo := Nat.mod_le _ _
  have hsplit : setBits v hi lo x = v % 2 ^ lo + 2 ^ lo * (v / 2 ^ lo - bitsOf v hi lo + x % 2 ^ (hi - lo + 1)) := by
    have hv := Nat.mod_add_div v (2 ^ lo)
    have hmul := Nat.mul_le_mul_left (2 ^ lo) hle
    rw [setBits, Nat.mul_add, Nat.mul_sub, Nat.mul_comm (bitsOf v hi lo), Nat.mul_comm (x % _)]
    omega
  have hdvd : 2 ^ m ∣ 2 ^ lo := Nat.pow_dvd_pow 2 h
  rw [hsplit, Nat.add_mod, Nat.mod_mod_of_dvd _ hdvd, Nat.mod_eq_zero_of_dvd (Nat.dvd_trans hdvd (Nat.dvd_mul_right _ _)), Nat.add_zero,
    Nat.mod_mod]

/-- R396: ENTRY stays when the bank is written. -/
@[simp] theorem TrapBank.take_entry (b : TrapBank) (q : TrapReq) (nwin resume : Nat) : (b.take q nwin resume).entry = b.entry := by
  have hlow : (b.take q nwin resume).status.toNat % 2 ^ 56 = b.status.toNat % 2 ^ 56 := by
    simp only [TrapBank.take, dw]
    rw [BitVec.toNat_ofNat, Nat.mod_mod_of_dvd _ (Nat.pow_dvd_pow 2 (by decide)), setBits_mod _ _ _ (by decide),
      setBits_mod _ _ _ (by decide), setBits_mod _ _ _ (by decide)]
  have hfield : bitsOf (b.take q nwin resume).status.toNat 55 3 = bitsOf b.status.toNat 55 3 := by
    unfold bitsOf
    omega
  rw [TrapBank.entry, hfield, TrapBank.entry]

/-- R396: TEPC is the address of the pair. -/
theorem TrapBank.take_epc (b : TrapBank) (q : TrapReq) (nwin resume : Nat) :
    (b.take q nwin resume).epc = BitVec.ofNat 64 (q.who.pc.toNat % 2 ^ 56 / 8 * 8) := by
  have hfield : bitsOf q.who.pc.toNat 55 3 = q.who.pc.toNat % 2 ^ 56 / 8 := by
    unfold bitsOf
    omega
  exact congrArg (fun n => dw (n * 8)) hfield

@[simp] theorem Core.bank_setBank (k : Core) {n : Nat} (hn : n < 2) (b : TrapBank) : (k.setBank (n + 1) b).bank (n + 1) = b :=
  vget_vset _ _ _ _ hn

/-! ### A trap taken -/

theorem Core.answerBlock_of_ne (k : Core) {q : TrapReq} (h : q.cause ≠ 0x0310) : k.answerBlock q = k := by
  simp [Core.answerBlock, h]

/-- The core after a trap that its next level takes (R396). -/
def Core.entered (k : Core) (q : TrapReq) (record : Option Replay) : Core :=
  let n := k.tlevel + 1
  let f := trapFields k q
  { k.setBank n ((k.bank n).take q f.1 f.2) with
    tlevel := n, pc := (k.bank n).entry, npc := (k.bank n).entry, replays := vset k.replays (n - 1) record,
    faults := [], halt := none, wait := none, replay := none, rep := none }

theorem Core.bank_entered (k : Core) {q : TrapReq} (record : Option Replay) (hlevel : k.tlevel < 2) :
    (k.entered q record).bank (k.tlevel + 1) = (k.bank (k.tlevel + 1)).take q (trapFields k q).1 (trapFields k q).2 :=
  k.bank_setBank hlevel _

/-- Where the next level is enabled, a trap changes the core alone; DECOMP_CHECK and SINGULAR, which leave more, aside. -/
theorem State.takeTrap_of_enabled (s : State) (c : Nat) {q : TrapReq} (record : Option Replay) (hsing : q.cause ≠ 0x0318)
    (hcheck : q.cause ≠ 0x0310) (hlevel : (s.core c).tlevel < 2) (hen : ((s.core c).bank ((s.core c).tlevel + 1)).en = true) :
    s.takeTrap c q record = s.setCore c ((s.core c).entered q record) := by
  have hthree : ¬ (s.core c).tlevel + 1 ≥ 3 := by omega
  simp [State.takeTrap, Core.entered, hsing, State.modCore, Core.answerBlock_of_ne _ hcheck, hthree, hen, hlevel]

/-- A trap at issue that is the only one met is the one taken. -/
theorem State.takeFirst_of_faults {s : State} {c : Nat} {q : TrapReq} (hfaults : (s.core c).faults = [q])
    (hkind : q.kind ≠ .afterIssue) : s.takeFirst c = s.takeTrap c q none := by
  simp [State.takeFirst, hfaults, firstTrap, hkind]

/-- The core once its word has met a trap at issue (R107). -/
def Core.noteTrap (k : Core) (q : TrapReq) : Core := { k with out := .trapped, wait := none, faults := k.faults ++ [q] }

/-- A trap at issue of a firing of which nothing is pending, where the next level is enabled. -/
theorem State.trapWord_of_enabled (s : State) (word la : Nat) (i : Instr) {cause : Nat} (val : Dword) (hsing : cause ≠ 0x0318)
    (hcheck : cause ≠ 0x0310) (hreplay : s.me.replay = none) (hsettled : s.me.settled = true) (hlevel : s.me.tlevel < 2)
    (hen : (s.me.bank (s.me.tlevel + 1)).en = true) :
    let q : TrapReq := ⟨.atIssue, cause, val, s.me.issued word la i⟩
    s.trapWord word la i .atIssue cause val = .next (s.setCore s.cur ((s.me.noteTrap q).entered q none)) := by
  intro q
  have hnone : s.me.faults = [] := by
    rw [Core.settled, Bool.and_eq_true, List.isEmpty_iff, List.isEmpty_iff] at hsettled
    exact hsettled.2
  have hfaults : (s.me.noteTrap q).faults = [q] := by rw [Core.noteTrap, hnone, List.nil_append]
  have hcore : (s.modMe (·.noteTrap q)).core s.cur = s.me.noteTrap q := s.core_cur_modMe _
  have htaken : (s.modMe (·.noteTrap q)).takeFirst s.cur = s.setCore s.cur ((s.me.noteTrap q).entered q none) := by
    rw [State.takeFirst_of_faults (q := q) (by rw [hcore, hfaults]) nofun,
      State.takeTrap_of_enabled _ _ none hsing hcheck (by rw [hcore]; exact hlevel) (by rw [hcore]; exact hen), hcore]
    exact s.setCore_setCore _ _ _
  rw [s.trapWord_at word la i .atIssue cause val nofun hreplay]
  dsimp only
  rw [if_pos hsettled]
  exact congrArg _ htaken

/-! ### The pair of a word that traps at issue -/

/-- A trap at issue, taken or noted, is how the word ends (R107). -/
theorem State.trapWord_at_out (s : State) (word la : Nat) (i : Instr) {kind : TrapKind} (cause : Nat) (val : Dword)
    (hkind : kind ≠ .afterIssue) (hreplay : s.me.replay = none) :
    ∃ t, s.trapWord word la i kind cause val = .next t ∧ (t.core s.cur).out = .trapped := by
  rw [s.trapWord_at word la i kind cause val hkind hreplay]
  refine ⟨_, rfl, ?_⟩
  split
  · show State.outs _ s.cur = _
    rw [State.takeFirst_outs]
    simp [State.outs]
  · simp

/-- R93: beside a word A that would complete, a word B that traps at issue alone decides what the pair leaves. -/
theorem State.runPair_of_trapped {s t u : State} {a b : Instr} (hskips : skipsB a = false) (ha : exec a s = .next u)
    (hok : (u.core s.cur).out = .ok) (hb : exec b s = .next t) (htrap : (t.core s.cur).out = .trapped) :
    s.runPair ⟨a, some b⟩ = t := by
  simp [State.runPair, State.after, ha, hb, hskips, hok, htrap, firstStop]

end Sys2Proof.Machine

namespace Sys2Proof.Claims

open Machine

/-- A word that ends as one that traps, but not after issue, raises a trap. -/
theorem traps_of_trapWord {s : State} {word la : Nat} {i : Instr} {kind : TrapKind} {cause : Nat} {val : Dword}
    (hkind : kind ≠ .afterIssue) (hi : exec i s = s.trapWord word la i kind cause val) : traps word la i s kind cause val := by
  intro hreplay
  rw [hi, s.trapWord_at word la i kind cause val hkind hreplay, if_neg hkind]
  rfl

end Sys2Proof.Claims

namespace Sys2Proof.Proofs

open Machine

/-- R149: each of the four words is a division of its sources. -/
theorem exec_eq_divide {s : State} {d a b : Reg} {c : BitVec 4} {w : BitVec 2} {i : Instr}
    (hi : i ∈ [Instr.div d a b c w, .divu d a b c w, .rem d a b c w, .remu d a b c w]) :
    ∃ v, exec i s = divide i c w d s (s.me.g a) (s.me.g b) v := by
  simp only [List.mem_cons, List.not_mem_nil, or_false] at hi
  obtain rfl | rfl | rfl | rfl := hi <;> exact ⟨_, rfl⟩

/-- Settles O3: the division ends as a word that traps at issue, and so decides for its pair. -/
theorem divideByZero : Obligations.DivideByZero := by
  unfold Obligations.DivideByZero
  intro s d a b c w
  dsimp only
  rw [← wBits_eq_width]
  intro hb hreplay i hi
  have hexec : exec i s = s.trapWord 2 c.toNat i .atIssue 0x030A (dw (uval (wBits w) (s.me.g a))) := by
    obtain ⟨v, hv⟩ := exec_eq_divide hi
    rw [hv, divide_of_zero i c d s _ v hb]
  obtain ⟨t, ht, hout⟩ :=
    s.trapWord_at_out 2 c.toNat i (kind := .atIssue) 0x030A (dw (uval (wBits w) (s.me.g a))) (by decide) hreplay
  refine ⟨Claims.traps_of_trapWord (by decide) hexec, t, hexec.trans ht, ?taken, ?pair⟩
  case taken =>
    intro hsettled hlevel hen
    have hlevel : s.me.tlevel < 2 := by omega
    rw [s.trapWord_of_enabled 2 c.toNat i _ (by decide) (by decide) hreplay hsettled hlevel hen] at ht
    cases ht
    refine ⟨rfl, ?_⟩
    rw [State.me_setCore]
    let q : TrapReq := ⟨.atIssue, 0x030A, dw (uval (wBits w) (s.me.g a)), s.me.issued 2 c.toNat i⟩
    have hbank := (s.me.noteTrap q).bank_entered (q := q) none hlevel
    exact ⟨rfl, rfl, congrArg TrapBank.cause hbank, congrArg TrapBank.val hbank,
      (congrArg TrapBank.epc hbank).trans (TrapBank.take_epc ..), rfl⟩
  case pair =>
    intro e u hskips he hok
    exact State.runPair_of_trapped hskips he hok (hexec.trans ht) hout

end Sys2Proof.Proofs
end

section
/-! SUPPORT. A write into one uncorrectable doubleword (R423): what the code at its home does, what the write then leaves, and the
counter UE. -/

namespace Sys2Proof.Machine

/-- A counter that rises stops at 2^64 − 1 (R428). -/
theorem State.counter_bump_same (s : State) (kind unit idx : Nat) {n : Nat} (hn : n ≠ 0) :
    (s.bump kind unit idx n).counter kind unit idx = Nat.min (s.counter kind unit idx + n) (2 ^ 64 - 1) := by
  rw [State.bump, if_neg hn]
  exact tabGet_tabSet_same ..

theorem dwordsOf_of_fits {key n : Nat} (hn : n ≠ 0) (hfits : key % 8 + n ≤ 8) : dwordsOf key n = [dwOf key] := by
  have hone : (key + n - 1) / 8 - key / 8 + 1 = 1 := by omega
  simp [dwordsOf, dwOf, hn, hone]

/-- A doubleword made correctable again, with zeros in place of what cannot be corrected. -/
def State.zeroed (s : State) (d : Nat) : State :=
  { s with bad := s.bad.filter (· ≠ d), mem := memSetBytes s.mem d (List.replicate 8 0) }

/-- R423: a write within an uncorrectable doubleword replaces it, and counts in UE where it covers only part of it. -/
theorem State.eccWrite_of_bad (s : State) {key n kind unit : Nat} (hn : n ≠ 0) (hfits : key % 8 + n ≤ 8)
    (hbad : dwOf key ∈ s.bad) (hunit : eccUnit (dwOf key) = some (kind, unit)) :
    ∃ f, s.eccWrite key n =
      if n = 8 then ({ s with soft := f }).zeroed (dwOf key) else (({ s with soft := f }).zeroed (dwOf key)).bump kind unit 1 := by
  have hwhole : (decide (key ≤ dwOf key) && decide (dwOf key + 8 ≤ key + n)) = decide (n = 8) := by
    rw [← Bool.decide_and, decide_eq_decide, dwOf]
    omega
  rw [State.eccWrite, dwordsOf_of_fits hn hfits, List.foldl_cons, List.foldl_nil]
  dsimp only
  rw [hwhole]
  by_cases hcovers : n = 8
  case pos =>
    by_cases hsoft : dwOf key ∈ s.soft
    · exact ⟨s.soft.filter (· ≠ dwOf key), by simp [hcovers, hsoft, hbad, State.zeroed]⟩
    · exact ⟨s.soft, by simp [hcovers, hsoft, hbad, State.zeroed]⟩
  case neg => exact ⟨s.soft, by simp [hcovers, hbad, hunit, State.zeroed]⟩

/-- Within one doubleword no byte is cut off: a slice's plain bytes end where a doubleword does (R242). -/
theorem State.putBytes_of_fits (s : State) {key : Nat} {l : List Byte} (hl : l ≠ []) (hfits : key % 8 + l.length ≤ 8)
    (hqueue : queueOf key = none) (hwindow : isWindow key = false) :
    ∃ c p x, s.putBytes key l =
      { s.eccWrite key l.length with
        mem := memSetBytes (s.eccWrite key l.length).mem key l, cells := c, past := p, hist := x } := by
  have hbytes : (if spaceOf key = 1 then l.take (0x1F_C000 - sramOff key) else l) = l := by
    split
    next hspace =>
      have hoff : sramOff key < 0x1F_C000 := by simpa [queueOf, hspace] using hqueue
      have hplace : sramOff key % 8 = key % 8 := by unfold sramOff bitsOf; omega
      exact List.take_of_length_le (by omega)
    next => rfl
  obtain ⟨c, hc⟩ := (s.eccWrite key l.length).conflictWrite_eq key l.length
  obtain ⟨p, x, hp⟩ := ((s.eccWrite key l.length).conflictWrite key l.length).overwrite_eq key l
  refine ⟨c, p, x, ?_⟩
  have hput : s.putBytes key l = ((s.eccWrite key l.length).conflictWrite key l.length).overwrite key l := by
    simp [State.putBytes, hl, hwindow, hqueue, hbytes]
  rw [hput, hp, hc]

/-- Bytes written over a zeroed doubleword stand among zeros. -/
theorem memGet_memSetBytes_zeroed {m : List Host.Cell} (hm : memWf m = true) (key : Nat) (l : List Byte) {j : Nat} (hj : j < 8) :
    memGet (memSetBytes (memSetBytes m (dwOf key) (List.replicate 8 0)) key l) (dwOf key + j) =
      if key % 8 ≤ j ∧ j < key % 8 + l.length then l.getD (j - key % 8) 0 else 0 := by
  have hkey : key = dwOf key + key % 8 := by unfold dwOf; omega
  have hzero : memGet (memSetBytes m (dwOf key) (List.replicate 8 0)) (dwOf key + j) = 0 := by
    have hlt : dwOf key + j - dwOf key < (List.replicate 8 (0 : Byte)).length := by rw [List.length_replicate]; omega
    rw [memGet_memSetBytes _ _ _ _ hm, List.length_replicate, if_pos (by omega), List.getD_eq_getElem?_getD,
      List.getElem?_eq_getElem hlt, Option.getD_some, List.getElem_replicate]
  have hindex : dwOf key + j - key = j - key % 8 := by omega
  have hrange : (key ≤ dwOf key + j ∧ dwOf key + j < key + l.length) ↔ (key % 8 ≤ j ∧ j < key % 8 + l.length) := by omega
  rw [memGet_memSetBytes _ _ _ _ (memSetBytes_wf _ _ _ hm), hzero, hindex]
  simp only [hrange]

end Sys2Proof.Machine

namespace Sys2Proof.Proofs

open Machine

/-- Settles O51: the code's part of the write zeroes the doubleword and counts a write of only part of it; the bytes then
stand among the zeros. -/
theorem partialOverwrite : Obligations.PartialOverwrite := by
  unfold Obligations.PartialOverwrite
  intro s key kind unit l hm hl hfits hbad hunit hqueue hwindow
  obtain ⟨f, hecc⟩ := s.eccWrite_of_bad (by simpa using hl) hfits hbad hunit
  obtain ⟨c, p, x, hput⟩ := s.putBytes_of_fits hl hfits hqueue hwindow
  dsimp only
  rw [hput, hecc]
  refine ⟨?bad, fun j hj => ?mem, ?ue⟩
  case bad => split <;> simp [State.zeroed, dwOf]
  case mem =>
    rw [← memGet_memSetBytes_zeroed hm key l hj]
    split <;> simp [State.zeroed, dwOf]
  case ue =>
    split
    · rfl
    · exact State.counter_bump_same _ kind unit 1 (by decide)

end Sys2Proof.Proofs
end
